-- ==== Sys2Proof/Word.lean ====
section
/-! DEFINITION. The words of the block (00_scope.md R8, R9): bits, bytes, 16-bit values and 32-bit descriptor words. -/

namespace Sys2Proof

/-- One bit or one line level: `true` is 1 (a released line, a NACK), `false` is 0 (a line pulled low, an ACK). -/
abbrev Bit := Bool

/-- A byte is 8 bits (R8). -/
abbrev Byte := BitVec 8

/-- A register address, a device memory address, or a 16-bit register value (R61, R63). -/
abbrev Word16 := BitVec 16

/-- One 32-bit word of a descriptor (R90), and the width of `RVAL`, `LEN` and `TRIALS` (R37, R93). -/
abbrev Word32 := BitVec 32

end Sys2Proof
end

