-- ==== Sys2Proof/Machine/Event.lean ====
section
/-! DEFINITION. Status codes (60_exceptions.md R300), the two lines, the events of `TRACE` (00_scope.md R11) and what a
port may answer (10_state.md R40 to R43). -/

namespace Sys2Proof.Machine

/-- The closed set of results of a command (R300). -/
inductive Status where
  | ok
  | invalidParam
  | timeout
  | nack
  | busError
  | genericError
deriving DecidableEq, Repr, Inhabited

/-- The 3-bit code of a status (R300). -/
def Status.code : Status → BitVec 3
  | .ok => 0
  | .invalidParam => 1
  | .timeout => 2
  | .nack => 3
  | .busError => 4
  | .genericError => 5

/-- The status of a 3-bit code; 6 and 7 are reserved (R300). -/
def Status.ofCode (c : BitVec 3) : Option Status :=
  if c = 0 then some .ok
  else if c = 1 then some .invalidParam
  else if c = 2 then some .timeout
  else if c = 3 then some .nack
  else if c = 4 then some .busError
  else if c = 5 then some .genericError
  else none

/-- The two open-drain lines: data and clock (R64). -/
inductive Line where
  | sda
  | scl
deriving DecidableEq, Repr

/-- The two delays: `H`, the half-bit delay, and `T`, the inter-trial delay (R131). -/
inductive Delay where
  | half
  | trial
deriving DecidableEq, Repr

/-- One event of `TRACE` (R11). A GPIO call is written as the drive or the read it performs. -/
inductive Event where
  /-- `D(l,v)`. -/
  | drive (l : Line) (v : Bit)
  /-- `H` or `T`. -/
  | delay (k : Delay)
  /-- `Rd=v` or `Rc=v`. -/
  | read (l : Line) (v : Bit)
  /-- `CSA`. -/
  | csAssert (dev : Nat)
  /-- `CSD`. -/
  | csDeassert (dev : Nat)
  /-- `BW[xs]->st`. -/
  | btWrite (dev : Nat) (xs : List Byte) (st : Status)
  /-- `BR(n)->st,xs`: the bytes are present only with OK. -/
  | btRead (dev : Nat) (n : Nat) (st : Status) (xs : Option (List Byte))
  /-- `BT[xs]->st,ys`; no rule issues it (R41, R223). -/
  | btTransfer (dev : Nat) (xs : List Byte) (st : Status) (ys : Option (List Byte))
  /-- `MR(dev,reg)->st,v`: the value is present only with OK. -/
  | mgRead (dev : Nat) (reg : Word16) (st : Status) (v : Option Word16)
  /-- `MW(dev,reg,v)->st`. -/
  | mgWrite (dev : Nat) (reg : Word16) (v : Word16) (st : Status)
deriving DecidableEq, Repr

/-- The data part of a port's answer. -/
inductive PortData where
  | none
  | bytes (xs : List Byte)
  | value (v : Word16)
deriving DecidableEq, Repr

/-- What the environment answers to a block-transfer or management port call. The code is any 3-bit number and the
data is of any shape, so that an answer outside the port's type (93_implementation_defined.md I16) can be written down
and refused; `noReturn` is the port that never returns (60_exceptions.md R310). -/
inductive PortAnswer where
  | noReturn
  | answer (code : BitVec 3) (data : PortData)
deriving DecidableEq, Repr

end Sys2Proof.Machine
end

