-- ==== Sys2Proof/Config.lean ====
section
/-! DEFINITION. What an implementation fixes (00_scope.md R7), the transport configuration records (10_state.md R31 to
R34), and the free values: what the environment answers where no answer has been written into the state
(20_memory.md R75; assumption 2). -/

namespace Sys2Proof

/-- How a device-address operand becomes the address byte (R7, R100). -/
inductive AddrMode where
  | sevenBit
  | preshifted
deriving DecidableEq, Repr, Inhabited

/-- A bound of a clock-stretch wait: an integer that is at least 1 (R7, R133), held as its predecessor so that no
bound of 0 can be written. -/
structure Bound where
  pred : Nat
deriving DecidableEq, Repr, Inhabited

/-- The bound as a number. -/
def Bound.val (n : Bound) : Nat := n.pred + 1

/-- The OPEN implementation parameters (R7). They are fixed before the first command (R356). -/
structure Params where
  /-- `P_ADDR_MODE`. -/
  addrMode : AddrMode
  /-- `P_TW_DEV`, the two-wire transport's fixed device address. -/
  twDev : Byte
  /-- `N_START`. -/
  nStart : Bound
  /-- `N_STOP`. -/
  nStop : Bound
  /-- `N_BIT`. -/
  nBit : Bound
  /-- `T_TRIAL`; it affects time only, so no rule reads it (R131, R370). -/
  tTrial : Nat
  /-- `BT_RCMD`, the command byte of a block-transfer read. -/
  btRcmd : Byte
  /-- `BT_WCMD`, the command byte of a block-transfer write. -/
  btWcmd : Byte
  /-- `BT_TA`, the read turnaround byte. -/
  btTa : Byte
deriving DecidableEq, Repr, Inhabited

/-- The `TWO_WIRE` variant (R32). -/
structure TwoWireConfig where
  /-- `SDA_PIN`, opaque, passed to the GPIO port. -/
  sdaPin : Nat
  /-- `SCL_PIN`, opaque, passed to the GPIO port. -/
  sclPin : Nat
  /-- `HALF_DELAY`: how long each `DLY(H)` lasts and nothing else. -/
  halfDelay : Nat
  gpioWritePresent : Bool
  gpioReadPresent : Bool
deriving DecidableEq, Repr, Inhabited

/-- The `BLOCK` variant (R33). -/
structure BlockConfig where
  /-- `BT_DEV`, opaque, the first argument of every block-transfer port call. -/
  btDev : Nat
  csAssertPresent : Bool
  csDeassertPresent : Bool
  btWritePresent : Bool
  btReadPresent : Bool
  btTransferPresent : Bool
deriving DecidableEq, Repr, Inhabited

/-- The `MGMT` variant (R34). -/
structure MgmtConfig where
  /-- `MG_DEV`, opaque, the device argument of every management port call. -/
  mgDev : Nat
  mgReadPresent : Bool
  mgWritePresent : Bool
deriving DecidableEq, Repr, Inhabited

/-- A transport configuration record: `TAG` and the fields of the variant it names (R31, R96). The fields of inactive
variants do not exist (R35). `reserved` is `TAG = 3`, which names no variant; INIT refuses it (R210). -/
inductive TransportConfig where
  | twoWire (c : TwoWireConfig)
  | block (c : BlockConfig)
  | mgmt (c : MgmtConfig)
  | reserved
deriving DecidableEq, Repr, Inhabited

/-- `TAG` (R31). -/
def TransportConfig.tag : TransportConfig → BitVec 2
  | .twoWire _ => 0
  | .block _ => 1
  | .mgmt _ => 2
  | .reserved => 3

/-- The values the implementation gives the OPEN parameters: free, no value is stated (R7; assumption 4). -/
opaque Config.params : Params

/-- Free value: the bit the environment answers to a read of a line after a trace (R75; assumption 2). -/
opaque Config.freeLine : List Machine.Event → Machine.Line → Bit

/-- Free value: the status the environment answers to a port call after a trace (R75; assumption 2). -/
opaque Config.freeStatus : List Machine.Event → Machine.Status

/-- Free value: the byte at an index of what the environment answers to a `BT_READ` after a trace (R75; assumption 2). -/
opaque Config.freeByte : List Machine.Event → Nat → Byte

/-- Free value: the 16-bit value the environment answers to an `MG_READ` after a trace (R75; assumption 2). -/
opaque Config.freeValue : List Machine.Event → Word16

end Sys2Proof
end

