-- ==== Sys2Proof/Syntax.lean ====
section
/-! DEFINITION. The commands of the block: one constructor for each row of the opcode map (30_encoding.md R97). -/

namespace Sys2Proof

/-- A command with its operands (R90 to R97). `hnull` is the flag `F0` (null handle), `onull` the flag `F1` of a command
that returns data (null output); a null configuration (`F1` of INIT, CNULL) is an absent `cfgIn` (R96, R99). The `LEN` of
a command that carries `D_IN` is the length of its byte list (R95). -/
inductive Instr where
  | init (cfgIn : Option TransportConfig) (hnull : Bool)
  | deinit (hnull : Bool)
  | bbStart (hnull : Bool)
  | bbStop (hnull : Bool)
  | bbWriteByte (b : Byte) (hnull : Bool)
  | bbReadByte (sendAck onull hnull : Bool)
  | bbWrite (dev : Byte) (xs : List Byte) (hnull : Bool)
  | bbRead (dev : Byte) (len : Word32) (onull hnull : Bool)
  | bbMemWrite (dev aw : Byte) (addr : Word16) (xs : List Byte) (hnull : Bool)
  | bbMemRead (dev aw : Byte) (addr : Word16) (len : Word32) (onull hnull : Bool)
  | bbIsDeviceReady (dev : Byte) (trials : Word32) (hnull : Bool)
  | readU8 (addr : Word16) (onull hnull : Bool)
  | readU16 (addr : Word16) (onull hnull : Bool)
  | readU32 (addr : Word16) (onull hnull : Bool)
  | writeU8 (addr : Word16) (value : Byte) (hnull : Bool)
  | writeU16 (addr : Word16) (value : Word16) (hnull : Bool)
  | writeU32 (addr : Word16) (value : Word32) (hnull : Bool)
  | readBurst (addr : Word16) (len : Word32) (onull hnull : Bool)
  | writeBurst (addr : Word16) (xs : List Byte) (hnull : Bool)
  | modifyU8 (addr : Word16) (mask value : Byte) (hnull : Bool)
  | modifyU16 (addr : Word16) (mask value : Word16) (hnull : Bool)
deriving DecidableEq, Repr

end Sys2Proof
end

