-- ==== Sys2Proof/WellFormed.lean ====
section
/-! DEFINITION. When a command can be written as a descriptor: the byte list of a command that carries `D_IN` has a
length that the 32-bit field `LEN` can hold (30_encoding.md R93, R95). Every other operand has the width of its field. -/

namespace Sys2Proof

/-- `LEN` is an unsigned 32-bit byte count (R93, R104). -/
def lengthEncodable (xs : List Byte) : Bool := decide (xs.length < 2 ^ 32)

/-- The command has a descriptor (R90 to R96). -/
def Instr.wellFormed : Instr → Bool
  | .init _ _ => true
  | .deinit _ => true
  | .bbStart _ => true
  | .bbStop _ => true
  | .bbWriteByte _ _ => true
  | .bbReadByte _ _ _ => true
  | .bbWrite _ xs _ => lengthEncodable xs
  | .bbRead _ _ _ _ => true
  | .bbMemWrite _ _ _ xs _ => lengthEncodable xs
  | .bbMemRead _ _ _ _ _ _ => true
  | .bbIsDeviceReady _ _ _ => true
  | .readU8 _ _ _ => true
  | .readU16 _ _ _ => true
  | .readU32 _ _ _ => true
  | .writeU8 _ _ _ => true
  | .writeU16 _ _ _ => true
  | .writeU32 _ _ _ => true
  | .readBurst _ _ _ _ => true
  | .writeBurst _ xs _ => lengthEncodable xs
  | .modifyU8 _ _ _ _ => true
  | .modifyU16 _ _ _ _ => true

end Sys2Proof
end

