-- ==== Sys2Proof/Decode.lean ====
section
/-! DEFINITION. The decoder of descriptors and the encoder (30_encoding.md R90 to R99, R108). Both read one table of
opcodes: the opcode map of R97. -/

namespace Sys2Proof

/-- A command as the host hands it over: four words, the data of a write and the configuration of an INIT (R90). -/
structure Descriptor where
  w0 : Word32
  w1 : Word32
  w2 : Word32
  w3 : Word32
  /-- `D_IN`. -/
  dIn : List Byte
  /-- `CFGIN`. -/
  cfgIn : Option TransportConfig
deriving DecidableEq, Repr

/-- Why a descriptor is malformed (R98). -/
inductive DecodeError where
  /-- R98 (a). -/
  | reservedOpcode
  /-- R98 (b). -/
  | reservedW0
  /-- R98 (c) for `w1`. -/
  | reservedW1
  /-- R98 (c) for `w2`. -/
  | reservedW2
  /-- R98 (c) for `w3`. -/
  | reservedW3
  /-- R98 (d). -/
  | dataLength
  /-- R98 (e): INIT with CNULL = 0 and no `CFGIN`. -/
  | configAbsent
  /-- R98 (e) and R96: a `CFGIN` where none may be. -/
  | configUnexpected
deriving DecidableEq, Repr

/-- The opcodes of R97. -/
inductive Op where
  | init | deinit
  | bbStart | bbStop | bbWriteByte | bbReadByte
  | bbWrite | bbRead | bbMemWrite | bbMemRead | bbIsDeviceReady
  | readU8 | readU16 | readU32 | writeU8 | writeU16 | writeU32
  | readBurst | writeBurst | modifyU8 | modifyU16
deriving DecidableEq, Repr

/-- `OPC` (R97). -/
def Op.code : Op → BitVec 8
  | .init => 0x01
  | .deinit => 0x02
  | .bbStart => 0x10
  | .bbStop => 0x11
  | .bbWriteByte => 0x12
  | .bbReadByte => 0x13
  | .bbWrite => 0x14
  | .bbRead => 0x15
  | .bbMemWrite => 0x16
  | .bbMemRead => 0x17
  | .bbIsDeviceReady => 0x18
  | .readU8 => 0x20
  | .readU16 => 0x21
  | .readU32 => 0x22
  | .writeU8 => 0x24
  | .writeU16 => 0x25
  | .writeU32 => 0x26
  | .readBurst => 0x28
  | .writeBurst => 0x29
  | .modifyU8 => 0x2A
  | .modifyU16 => 0x2B

/-- Every opcode, in the order of the table (R97). -/
def Op.all : List Op :=
  [.init, .deinit, .bbStart, .bbStop, .bbWriteByte, .bbReadByte, .bbWrite, .bbRead, .bbMemWrite, .bbMemRead,
   .bbIsDeviceReady] ++
  [.readU8, .readU16, .readU32, .writeU8, .writeU16, .writeU32, .readBurst, .writeBurst, .modifyU8, .modifyU16]

/-- The opcode a number stands for; every number that is not in the table is reserved (R98). -/
def Op.ofCode (c : BitVec 8) : Option Op := Op.all.find? fun op => op.code == c

/-- The `mask` column: the bits of `w0` the decoder compares (R97). -/
def Op.mask : Op → Word32
  | .init => 0xFFFFFFFC
  | .deinit => 0xFFFFFFFE
  | .bbStart => 0xFFFFFFFE
  | .bbStop => 0xFFFFFFFE
  | .bbWriteByte => 0xFFFF00FE
  | .bbReadByte => 0xFFFFFEFC
  | .bbWrite => 0xFF00FFFE
  | .bbRead => 0xFF00FFFC
  | .bbMemWrite => 0xFF0000FE
  | .bbMemRead => 0xFF0000FC
  | .bbIsDeviceReady => 0xFF00FFFE
  | .readU8 => 0xFFFFFFFC
  | .readU16 => 0xFFFFFFFC
  | .readU32 => 0xFFFFFFFC
  | .writeU8 => 0xFFFFFFFE
  | .writeU16 => 0xFFFFFFFE
  | .writeU32 => 0xFFFFFFFE
  | .readBurst => 0xFFFFFFFC
  | .writeBurst => 0xFFFFFFFE
  | .modifyU8 => 0xFFFFFFFE
  | .modifyU16 => 0xFFFFFFFE

/-- The `match` column: the value of the compared bits (R97). It is `OPC` in bits 31:24 and 0 elsewhere. -/
def Op.pattern (op : Op) : Word32 := op.code ++ 0#24

/-- The bits of `w1` a command may use: `ADDR`, or none (R92, R97). -/
def Op.w1Bits : Op → Word32
  | .bbMemWrite | .bbMemRead => 0x0000FFFF
  | .readU8 | .readU16 | .readU32 | .writeU8 | .writeU16 | .writeU32 => 0x0000FFFF
  | .readBurst | .writeBurst | .modifyU8 | .modifyU16 => 0x0000FFFF
  | .init | .deinit | .bbStart | .bbStop | .bbWriteByte | .bbReadByte | .bbWrite | .bbRead | .bbIsDeviceReady => 0

/-- The bits of `w2` a command may use: `LEN`, `TRIALS`, `VALUE` at its width, or none (R93, R97). -/
def Op.w2Bits : Op → Word32
  | .bbWrite | .bbRead | .bbMemWrite | .bbMemRead | .readBurst | .writeBurst => 0xFFFFFFFF
  | .bbIsDeviceReady => 0xFFFFFFFF
  | .writeU8 | .modifyU8 => 0x000000FF
  | .writeU16 | .modifyU16 => 0x0000FFFF
  | .writeU32 => 0xFFFFFFFF
  | .init | .deinit | .bbStart | .bbStop | .bbWriteByte | .bbReadByte | .readU8 | .readU16 | .readU32 => 0

/-- The bits of `w3` a command may use: `MASK` at its width, or none (R94, R97). -/
def Op.w3Bits : Op → Word32
  | .modifyU8 => 0x000000FF
  | .modifyU16 => 0x0000FFFF
  | .init | .deinit | .bbStart | .bbStop | .bbWriteByte | .bbReadByte | .bbWrite | .bbRead | .bbMemWrite => 0
  | .bbMemRead | .bbIsDeviceReady | .readU8 | .readU16 | .readU32 | .writeU8 | .writeU16 | .writeU32 => 0
  | .readBurst | .writeBurst => 0

/-- The commands that carry `D_IN` of exactly `LEN` bytes (R95). -/
def Op.carriesData : Op → Bool
  | .bbWrite | .bbMemWrite | .writeBurst => true
  | .init | .deinit | .bbStart | .bbStop | .bbWriteByte | .bbReadByte | .bbRead | .bbMemRead => false
  | .bbIsDeviceReady | .readU8 | .readU16 | .readU32 | .writeU8 | .writeU16 | .writeU32 => false
  | .readBurst | .modifyU8 | .modifyU16 => false

/-! ## Fields (R91 to R94) -/

/-- `OPC`, bits 31:24 of `w0`. -/
def Descriptor.opc (d : Descriptor) : BitVec 8 := d.w0.extractLsb' 24 8

/-- `DEV`, bits 23:16 of `w0`. -/
def Descriptor.dev (d : Descriptor) : Byte := d.w0.extractLsb' 16 8

/-- `ARG`, bits 15:8 of `w0`. -/
def Descriptor.arg (d : Descriptor) : Byte := d.w0.extractLsb' 8 8

/-- `F1`, bit 1 of `w0`. -/
def Descriptor.f1 (d : Descriptor) : Bool := d.w0.getLsbD 1

/-- `F0`, bit 0 of `w0`. -/
def Descriptor.f0 (d : Descriptor) : Bool := d.w0.getLsbD 0

/-- `ADDR`, bits 15:0 of `w1`. -/
def Descriptor.addr (d : Descriptor) : Word16 := d.w1.extractLsb' 0 16

/-- The command a descriptor with the opcode `op` stands for: its operand fields (R91 to R97, R105). -/
def Op.build (op : Op) (d : Descriptor) : Instr :=
  match op with
  | .init => .init d.cfgIn d.f0
  | .deinit => .deinit d.f0
  | .bbStart => .bbStart d.f0
  | .bbStop => .bbStop d.f0
  | .bbWriteByte => .bbWriteByte d.arg d.f0
  | .bbReadByte => .bbReadByte (d.arg.getLsbD 0) d.f1 d.f0
  | .bbWrite => .bbWrite d.dev d.dIn d.f0
  | .bbRead => .bbRead d.dev d.w2 d.f1 d.f0
  | .bbMemWrite => .bbMemWrite d.dev d.arg d.addr d.dIn d.f0
  | .bbMemRead => .bbMemRead d.dev d.arg d.addr d.w2 d.f1 d.f0
  | .bbIsDeviceReady => .bbIsDeviceReady d.dev d.w2 d.f0
  | .readU8 => .readU8 d.addr d.f1 d.f0
  | .readU16 => .readU16 d.addr d.f1 d.f0
  | .readU32 => .readU32 d.addr d.f1 d.f0
  | .writeU8 => .writeU8 d.addr (d.w2.extractLsb' 0 8) d.f0
  | .writeU16 => .writeU16 d.addr (d.w2.extractLsb' 0 16) d.f0
  | .writeU32 => .writeU32 d.addr d.w2 d.f0
  | .readBurst => .readBurst d.addr d.w2 d.f1 d.f0
  | .writeBurst => .writeBurst d.addr d.dIn d.f0
  | .modifyU8 => .modifyU8 d.addr (d.w3.extractLsb' 0 8) (d.w2.extractLsb' 0 8) d.f0
  | .modifyU16 => .modifyU16 d.addr (d.w3.extractLsb' 0 16) (d.w2.extractLsb' 0 16) d.f0

/-- R98 (b) and (c): the first word in which a bit that must be fixed is not. -/
def Op.wordError (op : Op) (d : Descriptor) : Option DecodeError :=
  if d.w0 &&& op.mask ≠ op.pattern then some .reservedW0
  else if d.w1 &&& ~~~op.w1Bits ≠ 0 then some .reservedW1
  else if d.w2 &&& ~~~op.w2Bits ≠ 0 then some .reservedW2
  else if d.w3 &&& ~~~op.w3Bits ≠ 0 then some .reservedW3
  else none

/-- R98 (d): `D_IN` has exactly `LEN` bytes, or none where the command carries no data (R95). -/
def Op.dataError (op : Op) (d : Descriptor) : Option DecodeError :=
  if d.dIn.length = (if op.carriesData then d.w2.toNat else 0) then none else some .dataLength

/-- R98 (e): `CFGIN` is present exactly when the command is INIT and CNULL is 0 (R96; assumption 9). -/
def Op.configError (op : Op) (d : Descriptor) : Option DecodeError :=
  match d.cfgIn, decide (op = .init ∧ d.f1 = false) with
  | some _, true => none
  | none, false => none
  | none, true => some .configAbsent
  | some _, false => some .configUnexpected

/-- The decoder: the command of a descriptor, or the reason why it is malformed (R97, R98). -/
def decode (d : Descriptor) : Except DecodeError Instr :=
  match Op.ofCode d.opc with
  | none => .error .reservedOpcode
  | some op =>
    match ((op.wordError d).or (op.dataError d)).or (op.configError d) with
    | some e => .error e
    | none => .ok (op.build d)

/-! ## The encoder -/

/-- `w0` from its fields (R91). -/
def packW0 (op : Op) (dev arg : Byte) (f1 f0 : Bool) : Word32 :=
  op.code ++ dev ++ arg ++ 0#6 ++ BitVec.ofBool f1 ++ BitVec.ofBool f0

/-- A descriptor with no `D_IN` and no `CFGIN`. -/
def plainDescriptor (w0 w1 w2 w3 : Word32) : Descriptor := ⟨w0, w1, w2, w3, [], none⟩

/-- The descriptor of a command (R90 to R97). -/
def encode : Instr → Descriptor
  | .init cfgIn hnull => ⟨packW0 .init 0 0 cfgIn.isNone hnull, 0, 0, 0, [], cfgIn⟩
  | .deinit hnull => plainDescriptor (packW0 .deinit 0 0 false hnull) 0 0 0
  | .bbStart hnull => plainDescriptor (packW0 .bbStart 0 0 false hnull) 0 0 0
  | .bbStop hnull => plainDescriptor (packW0 .bbStop 0 0 false hnull) 0 0 0
  | .bbWriteByte b hnull => plainDescriptor (packW0 .bbWriteByte 0 b false hnull) 0 0 0
  | .bbReadByte ack onull hnull =>
    plainDescriptor (packW0 .bbReadByte 0 ((BitVec.ofBool ack).setWidth 8) onull hnull) 0 0 0
  | .bbWrite dev xs hnull => ⟨packW0 .bbWrite dev 0 false hnull, 0, BitVec.ofNat 32 xs.length, 0, xs, none⟩
  | .bbRead dev len onull hnull => plainDescriptor (packW0 .bbRead dev 0 onull hnull) 0 len 0
  | .bbMemWrite dev aw addr xs hnull =>
    ⟨packW0 .bbMemWrite dev aw false hnull, addr.setWidth 32, BitVec.ofNat 32 xs.length, 0, xs, none⟩
  | .bbMemRead dev aw addr len onull hnull =>
    plainDescriptor (packW0 .bbMemRead dev aw onull hnull) (addr.setWidth 32) len 0
  | .bbIsDeviceReady dev trials hnull => plainDescriptor (packW0 .bbIsDeviceReady dev 0 false hnull) 0 trials 0
  | .readU8 addr onull hnull => plainDescriptor (packW0 .readU8 0 0 onull hnull) (addr.setWidth 32) 0 0
  | .readU16 addr onull hnull => plainDescriptor (packW0 .readU16 0 0 onull hnull) (addr.setWidth 32) 0 0
  | .readU32 addr onull hnull => plainDescriptor (packW0 .readU32 0 0 onull hnull) (addr.setWidth 32) 0 0
  | .writeU8 addr value hnull =>
    plainDescriptor (packW0 .writeU8 0 0 false hnull) (addr.setWidth 32) (value.setWidth 32) 0
  | .writeU16 addr value hnull =>
    plainDescriptor (packW0 .writeU16 0 0 false hnull) (addr.setWidth 32) (value.setWidth 32) 0
  | .writeU32 addr value hnull => plainDescriptor (packW0 .writeU32 0 0 false hnull) (addr.setWidth 32) value 0
  | .readBurst addr len onull hnull =>
    plainDescriptor (packW0 .readBurst 0 0 onull hnull) (addr.setWidth 32) len 0
  | .writeBurst addr xs hnull =>
    ⟨packW0 .writeBurst 0 0 false hnull, addr.setWidth 32, BitVec.ofNat 32 xs.length, 0, xs, none⟩
  | .modifyU8 addr mask value hnull =>
    plainDescriptor (packW0 .modifyU8 0 0 false hnull) (addr.setWidth 32) (value.setWidth 32) (mask.setWidth 32)
  | .modifyU16 addr mask value hnull =>
    plainDescriptor (packW0 .modifyU16 0 0 false hnull) (addr.setWidth 32) (value.setWidth 32) (mask.setWidth 32)

/-! ## Table words -/

/-- The configuration that accompanies an INIT whose words come from the opcode table alone: a two-wire record with
both GPIO ports present (assumption 8). -/
def tableConfig : TransportConfig :=
  .twoWire
    { sdaPin := 0
      sclPin := 1
      halfDelay := 0
      gpioWritePresent := true
      gpioReadPresent := true }

/-- The descriptor whose low `nbits` bits are `w`, `w0` first, every bit above them 0. `D_IN` is `LEN` bytes of 0 where
the command carries data, and `CFGIN` is `tableConfig` where INIT needs one (assumption 8). -/
def tableDescriptor (nbits w : Nat) : Descriptor :=
  let v := w % 2 ^ nbits
  let w0 := BitVec.ofNat 32 v
  let w2 := BitVec.ofNat 32 (v / 2 ^ 64)
  let op := Op.ofCode (w0.extractLsb' 24 8)
  { w0 := w0
    w1 := BitVec.ofNat 32 (v / 2 ^ 32)
    w2 := w2
    w3 := BitVec.ofNat 32 (v / 2 ^ 96)
    dIn := if (op.map Op.carriesData).getD false then List.replicate w2.toNat 0 else []
    cfgIn := if op = some .init ∧ w0.getLsbD 1 = false then some tableConfig else none }

/-- The instruction the decoder reads from a word of `nbits` bits of the opcode table. -/
def decodeTableWord (nbits w : Nat) : Option Instr :=
  match decode (tableDescriptor nbits w) with
  | .ok i => some i
  | .error _ => none

end Sys2Proof
end

