-- ==== Sys2Proof/Machine/State.lean ====
section
/-! DEFINITION. The state of the block (10_state.md R20 to R46): persistent, session and response state, the host's
program and position, the OPEN parameters, and the answers the environment has ready. All of it is plain data. -/

namespace Sys2Proof.Machine

/-! ## Positions of the micro-program counter (R21) -/

/-- The states of the four line sequences, one micro-operation each (40_bitbang_primitives.md R163). The bit index of
R163 is the register `BC` and its poll count the register `SC`. -/
inductive LineLabel where
  | stSda1 | stL1 | stRise | stH1 | stPoll | stEdge | stFall
  | spSda0 | spL1 | spRise | spH1 | spPoll | spEdge
  | wbSet | wbL1 | wbRise | wbH1 | wbPoll | wbFall | wbL2
  | akRel | akL1 | akRise | akH1 | akPoll | akSmp | akFall | akL2
  | rbRel | rbL1 | rbRise | rbH1 | rbPoll | rbSmp | rbFall | rbL2
  | raDrv | raL1 | raRise | raH1 | raPoll | raFall | raL2 | raRel
deriving DecidableEq, Repr

/-- The phases of an engine transaction (41_bitbang_transactions.md R195): which call the line sequence returns to. -/
inductive Phase where
  /-- A primitive command: its one line sequence is the whole command (R140 to R155). -/
  | prim
  | tStart
  | tAddr
  /-- The `k`-th byte of MADDR (30_encoding.md R102). -/
  | tMaddr (k : Nat)
  | tRstart
  | tRaddr
  | tWdata
  | tRdata
  | tStop
  | abort
  /-- The STOP that closes a NACKed trial of is_device_ready (R190). -/
  | trialStop
deriving DecidableEq, Repr

/-- The line activity a command runs, with its arguments. -/
inductive Txn where
  | start
  | stop
  | writeByte (b : Byte)
  | readByte (ack : Bool)
  | write (dev : Byte) (xs : List Byte)
  | read (dev : Byte) (n : Nat)
  | memWrite (dev : Byte) (a : Word16) (aw : Byte) (xs : List Byte)
  | memRead (dev : Byte) (a : Word16) (aw : Byte) (n : Nat)
  | ready (dev : Byte) (trials : Nat)
deriving DecidableEq, Repr

/-- Which part of its command a transaction is: all of it, or the read or the write of a modify (R270, R272). -/
inductive Leg where
  | whole
  | modifyRead
  | modifyWrite
deriving DecidableEq, Repr

/-- A `MemRead` or `MemWrite` of the transport (42_transport_and_handle.md). -/
inductive Access where
  | read (a : Word16) (n : Nat)
  | write (a : Word16) (xs : List Byte)
deriving DecidableEq, Repr

/-- A position in the micro-program of the running command (R21). -/
inductive Pos where
  /-- The first label of every command: its entry check. -/
  | entry
  /-- In a line sequence of a phase of a transaction. -/
  | bus (leg : Leg) (t : Txn) (p : Phase) (l : LineLabel)
  /-- `DLY(T)` between two trials (R190). -/
  | trialGap (t : Txn)
  /-- `CALL CS_ASSERT` (R222, R223). -/
  | csAssert (leg : Leg) (acc : Access)
  /-- The header's `CALL BT_WRITE`. -/
  | btHeader (leg : Leg) (acc : Access)
  /-- The data's `CALL BT_READ` or `CALL BT_WRITE`. -/
  | btData (leg : Leg) (acc : Access)
  /-- `CALL CS_DEASSERT`, with what the access will return. -/
  | csDeassert (leg : Leg) (acc : Access) (st : Status) (xs : List Byte)
  /-- `CALL MG_READ` or `CALL MG_WRITE` (R226, R227). -/
  | mgmt (leg : Leg) (acc : Access)
deriving DecidableEq, Repr

/-- `UPC`: `IDLE`, or a position in the micro-program of the running command (R21). -/
inductive Upc where
  | idle
  | running (i : Instr) (p : Pos)
deriving DecidableEq, Repr

/-! ## The session registers (R23, R27 to R30, R38) -/

/-- The registers that exist only while a command runs. `none` is the spec's own "no value" (R38, R45). -/
structure Session where
  /-- `SR`, the byte being shifted. -/
  sr : Option Byte
  /-- `BC`, the index of the bit being transferred. -/
  bc : Option Nat
  /-- `SC`, the clock-stretch deadline counter. -/
  sc : Option Nat
  /-- `ACKB`, the acknowledge bit sampled last. -/
  ackb : Option Bit
  /-- `BI`, the index of the byte being transferred. -/
  bi : Option Nat
  /-- `TRIAL`, the trial number. -/
  trial : Option Nat
  /-- `ERR`, the first failure of a transaction that aborts. -/
  err : Option Status
  /-- `BUF`, the bytes received so far. -/
  buf : Option (List Byte)
deriving DecidableEq, Repr

/-- No session register holds a value (R38). -/
def Session.clear : Session :=
  { sr := none
    bc := none
    sc := none
    ackb := none
    bi := none
    trial := none
    err := none
    buf := none }

/-! ## The state (R20) -/

/-- The state of one block instance, its host's program, and what its environment has ready. -/
structure State where
  /-- `INIT`, the handle's initialized flag (R25). -/
  init : Bool
  /-- `CFG`, the active configuration; `none` is `NONE` (R26). -/
  cfg : Option TransportConfig
  /-- `OUT_SDA`, the level last driven on SDA; `none` until the first drive (R36). -/
  outSda : Option Bit
  /-- `OUT_SCL`, the level last driven on SCL; `none` until the first drive (R36). -/
  outScl : Option Bit
  /-- `TRACE`, oldest first (R24). -/
  trace : List Event
  /-- `UPC` (R21). -/
  upc : Upc
  /-- The session registers (R23, R38). -/
  session : Session
  /-- `STATUS`; `none` before the first response (R37, R45). -/
  status : Option Status
  /-- `RVAL`, present only after a command that returns a value (R37). -/
  rval : Option Word32
  /-- `D_OUT`, present only after a command that returns bytes (R37). -/
  dOut : Option (List Byte)
  /-- `HPC`, the host's position in its list of commands (R22). -/
  hpc : Nat
  /-- The host's list of commands (R22). -/
  program : List Descriptor
  /-- The OPEN parameters (00_scope.md R7), which no step changes (R356). -/
  params : Params
  /-- The answers the environment has ready for the next reads of a line, next first (20_memory.md R75; assumption 2). -/
  lineIn : List Bit
  /-- The answers the environment has ready for the next port calls, next first (R75; assumption 2). -/
  portIn : List PortAnswer
deriving DecidableEq, Repr

/-- The state of a block instance before its first command (R45, R350). The parameters are free (assumption 4); the
program and the environment's ready answers are the model's own fields and are empty (assumptions 2 and 7). -/
def State.reset : State :=
  { init := false
    cfg := none
    outSda := none
    outScl := none
    trace := []
    upc := .idle
    session := Session.clear
    status := none
    rval := none
    dOut := none
    hpc := 0
    program := []
    params := Config.params
    lineIn := []
    portIn := [] }

/-! ## Why a step may stop -/

/-- The registers that may hold no value (93_implementation_defined.md I12 to I14). -/
inductive Valueless where
  | outSda | outScl
  | sr | bc | sc | ackb | bi | trial | err | buf
  | status | rval | dOut
deriving DecidableEq, Repr

/-- The faults. -/
inductive Fault where
  /-- A register that holds no value is read: raised by the micro-steps of Micro.lean for a session register (R38), and
  by the host's and the claim's reads of HostPort.lean for the response registers and the line latches (R36, R37;
  I12, I13, I14). No micro-program of the spec does it. Safe: the machine stops where the spec says it faults. -/
  | noValue (r : Valueless)
  /-- The micro-program counter holds a position that no micro-program of the spec reaches (R21), for example a
  management access under a two-wire configuration: raised by Micro.lean. Safe: no run from an idle state gets there. -/
  | positionOutsideProgram
deriving DecidableEq, Repr

/-- The refusals. -/
inductive Refusal where
  /-- The instruction has no meaning in the model: raised by an arm of `exec` alone. Safe. -/
  | notModelled (mnemonic : String)
  /-- A command is issued while another is running (60_exceptions.md R316, 70_reset_and_hazards.md R360; I1): raised by
  every meaning. Safe: the spec refuses the execution. -/
  | commandWhileRunning
  /-- A port answers the reserved status code 6 or 7 (10_state.md R43; I16): raised by the port calls of Ops.lean.
  Safe: the spec refuses the execution. -/
  | portStatusReserved
  /-- A port answers a byte count other than the one requested (R41; I16): raised by `BT_READ`. Safe, as above. -/
  | portByteCount
  /-- A port answers data with a status other than OK (R43; I16). Safe, as above. -/
  | portDataWithFailure
  /-- A port answers OK without the data its type gives, or data of another type (R41, R42, R43). Safe, as above. -/
  | portAnswerType
deriving DecidableEq, Repr

end Sys2Proof.Machine
end

