-- ==== Sys2Proof/Machine/Ops.lean ====
section
/-! DEFINITION. The named operations on the state: writes of single registers, the micro-operations `DRV`, `DLY` and
`RD` (40_bitbang_primitives.md R130 to R132), the port calls (10_state.md R40 to R43), the start of a command and its
response (R21, R22, R37). The block has no exceptions (60_exceptions.md): a failure is a status result, and `respond`
with that status is the one operation every failure ends in. -/

namespace Sys2Proof.Machine

/-! ## Writes of single registers -/

/-- `UPC <- u`. -/
def State.setUpc (u : Upc) (s : State) : State := { s with upc := u }

/-- A write inside the session registers. -/
def State.setSession (x : Session) (s : State) : State := { s with session := x }

/-- `SR <- b`. -/
def State.setSr (b : Byte) (s : State) : State := s.setSession { s.session with sr := some b }

/-- `BC <- k`. -/
def State.setBc (k : Nat) (s : State) : State := s.setSession { s.session with bc := some k }

/-- `SC <- k`. -/
def State.setSc (k : Nat) (s : State) : State := s.setSession { s.session with sc := some k }

/-- `ACKB <- a`. -/
def State.setAckb (a : Bit) (s : State) : State := s.setSession { s.session with ackb := some a }

/-- `BI <- k`. -/
def State.setBi (k : Nat) (s : State) : State := s.setSession { s.session with bi := some k }

/-- `TRIAL <- k`. -/
def State.setTrial (k : Nat) (s : State) : State := s.setSession { s.session with trial := some k }

/-- `ERR <- st`. -/
def State.setErr (st : Status) (s : State) : State := s.setSession { s.session with err := some st }

/-- `BUF <- xs`. -/
def State.setBuf (xs : List Byte) (s : State) : State := s.setSession { s.session with buf := some xs }

/-- Append one event to `TRACE` (R24). -/
def State.emit (e : Event) (s : State) : State := { s with trace := s.trace ++ [e] }

/-- `OUT_l <- v` (R36). -/
def State.setOut (l : Line) (v : Bit) (s : State) : State :=
  match l with
  | .sda => { s with outSda := some v }
  | .scl => { s with outScl := some v }

/-- Move to another position of the running command's micro-program (R21). -/
def State.moveTo (p : Pos) (s : State) : State :=
  match s.upc with
  | .idle => s
  | .running i _ => s.setUpc (.running i p)

/-- `CFG <- c`, `INIT <- 1` (R210). -/
def State.install (c : TransportConfig) (s : State) : State := { s with cfg := some c, init := true }

/-- `CFG <- NONE`, `INIT <- 0` (R215). -/
def State.uninstall (s : State) : State := { s with cfg := none, init := false }

/-! ## Micro-operations -/

/-- `DRV(l, v)` (R130). -/
def drv (l : Line) (v : Bit) (s : State) : State := (s.setOut l v).emit (.drive l v)

/-- `DLY(k)` (R131). -/
def dly (k : Delay) (s : State) : State := s.emit (.delay k)

/-- What the environment answers to a read of line `l` (R75). -/
def lineAnswer (l : Line) (s : State) : Bit :=
  match s.lineIn with
  | v :: _ => v
  | [] => Config.freeLine s.trace l

/-- The state when a read of line `l` has been answered (R132). -/
def afterRead (l : Line) (s : State) : State :=
  State.emit (.read l (lineAnswer l s)) { s with lineIn := s.lineIn.tail }

/-! ## Results of subroutines -/

/-- What a subroutine returns: OK with its data, or a failure status (R10). -/
inductive Result (α : Type) where
  | ok (x : α) (s : State)
  | fail (st : Status) (s : State)
deriving DecidableEq, Repr

/-- Go on after `OK`; a failure is returned at once (`if st != OK: return st`). -/
def Result.andThen {α β : Type} (r : Result α) (f : α → State → Result β) : Result β :=
  match r with
  | .ok x s => f x s
  | .fail st s => .fail st s

/-- The state a subroutine leaves. -/
def Result.state {α : Type} : Result α → State
  | .ok _ s => s
  | .fail _ s => s

/-- The status a subroutine returns. -/
def Result.status {α : Type} : Result α → Status
  | .ok _ _ => .ok
  | .fail st _ => st

/-- What a transport access returns: a result, or a port call that does not return (R310), or an answer outside the
port's type, which is refused (93_implementation_defined.md I16). -/
inductive Reply (α : Type) where
  | done (r : Result α)
  | stuck (s : State)
  | refused (r : Refusal)
deriving DecidableEq, Repr

/-- Go on after `OK` of a transport access. -/
def Reply.andThen {α β : Type} (r : Reply α) (f : α → State → Reply β) : Reply β :=
  match r with
  | .done (.ok x s) => f x s
  | .done (.fail st s) => .done (.fail st s)
  | .stuck s => .stuck s
  | .refused e => .refused e

/-! ## Port calls -/

/-- What a port call gives back to the block: what it answered, no return, or an answer outside its type. -/
inductive Pull (α : Type) where
  | got (x : α)
  | noReturn
  | refused (r : Refusal)
deriving DecidableEq, Repr

/-- The answer of a port that returns a status alone: `BT_WRITE`, `MG_WRITE` (R41 to R43). -/
def statusAnswer (s : State) : Pull Status :=
  match s.portIn with
  | [] => .got (Config.freeStatus s.trace)
  | .noReturn :: _ => .noReturn
  | .answer code data :: _ =>
    match Status.ofCode code with
    | none => .refused .portStatusReserved
    | some st =>
      if data = .none then .got st
      else if st = .ok then .refused .portAnswerType
      else .refused .portDataWithFailure

/-- The answer of `BT_READ`: a status and, on OK, exactly `n` bytes (R41, R43). -/
def bytesAnswer (n : Nat) (s : State) : Pull (Except Status (List Byte)) :=
  match s.portIn with
  | [] =>
    .got
      (if Config.freeStatus s.trace = .ok then .ok ((List.range n).map (Config.freeByte s.trace))
       else .error (Config.freeStatus s.trace))
  | .noReturn :: _ => .noReturn
  | .answer code data :: _ =>
    match Status.ofCode code, data with
    | none, _ => .refused .portStatusReserved
    | some .ok, .bytes xs => if xs.length = n then .got (.ok xs) else .refused .portByteCount
    | some .ok, _ => .refused .portAnswerType
    | some st, .none => .got (.error st)
    | some _, _ => .refused .portDataWithFailure

/-- The answer of `MG_READ`: a status and, on OK, a 16-bit value (R42, R43). -/
def valueAnswer (s : State) : Pull (Except Status Word16) :=
  match s.portIn with
  | [] =>
    .got
      (if Config.freeStatus s.trace = .ok then .ok (Config.freeValue s.trace)
       else .error (Config.freeStatus s.trace))
  | .noReturn :: _ => .noReturn
  | .answer code data :: _ =>
    match Status.ofCode code, data with
    | none, _ => .refused .portStatusReserved
    | some .ok, .value v => .got (.ok v)
    | some .ok, _ => .refused .portAnswerType
    | some st, .none => .got (.error st)
    | some _, _ => .refused .portDataWithFailure

/-- The answer at the head has been given. -/
def State.answered (s : State) : State := { s with portIn := s.portIn.tail }

/-- A call of a port that returns a status alone: the event it appends, or no return, or a refusal. A call that does
not return appends no event and leaves the block where it is (R310; assumption 5). -/
def callStatus (event : Status → Event) (s : State) : Reply Status :=
  match statusAnswer s with
  | .got st => .done (.ok st (s.answered.emit (event st)))
  | .noReturn => .stuck s
  | .refused r => .refused r

/-- `CALL BT_WRITE(dev, xs)` (R41). -/
def callBtWrite (dev : Nat) (xs : List Byte) (s : State) : Reply Status := callStatus (.btWrite dev xs) s

/-- `CALL MG_WRITE(dev, reg, v)` (R42). -/
def callMgWrite (dev : Nat) (reg v : Word16) (s : State) : Reply Status := callStatus (.mgWrite dev reg v) s

/-- The status of an answer with data. -/
def replyStatus {α : Type} : Except Status α → Status
  | .ok _ => .ok
  | .error st => st

/-- The data of an answer with data. -/
def replyData {α : Type} : Except Status α → Option α
  | .ok x => some x
  | .error _ => none

/-- `CALL BT_READ(dev, n)` (R41). -/
def callBtRead (dev n : Nat) (s : State) : Reply (Except Status (List Byte)) :=
  match bytesAnswer n s with
  | .got x => .done (.ok x (s.answered.emit (.btRead dev n (replyStatus x) (replyData x))))
  | .noReturn => .stuck s
  | .refused r => .refused r

/-- `CALL MG_READ(dev, reg)` (R42). -/
def callMgRead (dev : Nat) (reg : Word16) (s : State) : Reply (Except Status Word16) :=
  match valueAnswer s with
  | .got x => .done (.ok x (s.answered.emit (.mgRead dev reg (replyStatus x) (replyData x))))
  | .noReturn => .stuck s
  | .refused r => .refused r

/-- `CALL CS_ASSERT(dev)`, which always completes (R41). -/
def callCsAssert (dev : Nat) (s : State) : State := s.emit (.csAssert dev)

/-- `CALL CS_DEASSERT(dev)`, which always completes (R41). -/
def callCsDeassert (dev : Nat) (s : State) : State := s.emit (.csDeassert dev)

/-- The GPIO call behind an event: `GPIO_WRITE(pin, level)` of a drive, `GPIO_READ(pin)` of a read, with the pin of the
configuration (R40). -/
inductive GpioCall where
  | write (pin : Nat) (level : Bit)
  | read (pin : Nat) (level : Bit)
deriving DecidableEq, Repr

/-- The pin of a line (R40). -/
def TwoWireConfig.pin (c : TwoWireConfig) : Line → Nat
  | .sda => c.sdaPin
  | .scl => c.sclPin

/-- The GPIO call an event stands for; the other events are no GPIO calls (R11, R40). -/
def gpioCall (c : TwoWireConfig) : Event → Option GpioCall
  | .drive l v => some (.write (TwoWireConfig.pin c l) v)
  | .read l v => some (.read (TwoWireConfig.pin c l) v)
  | .delay _ => none
  | .csAssert _ => none
  | .csDeassert _ => none
  | .btWrite _ _ _ => none
  | .btRead _ _ _ _ => none
  | .btTransfer _ _ _ _ => none
  | .mgRead _ _ _ _ => none
  | .mgWrite _ _ _ _ => none

/-! ## The start of a command and its response -/

/-- The host issues a command: `UPC` moves from `IDLE` to the command's first label, and no session register holds a
value (R21, R38). -/
def startCommand (i : Instr) (s : State) : State := (s.setUpc (.running i .entry)).setSession Session.clear

/-- A `return` at command level: the response registers are written, `UPC <- IDLE`, the session ends and `HPC`
increases by 1 (R21, R22, R37, R39). A status other than OK comes with no `RVAL` and no `D_OUT` (R37). -/
def respond (st : Status) (rval : Option Word32) (dOut : Option (List Byte)) (s : State) : State :=
  { s with
    status := some st
    rval := if st = .ok then rval else none
    dOut := if st = .ok then dOut else none
    upc := .idle
    session := Session.clear
    hpc := s.hpc + 1 }

/-- `return INVALID_PARAM`, before any port action (60_exceptions.md R301). -/
def respondInvalid (s : State) : State := respond .invalidParam none none s

/-- The response to what a command's last subroutine returned. -/
def respondResult {α : Type} (rval : α → Option Word32) (dOut : α → Option (List Byte)) : Result α → State
  | .ok x s => respond .ok (rval x) (dOut x) s
  | .fail st s => respond st none none s

/-- The outcome of a command whose last action is a transport access: its response; or the block is left in a call that
does not return (R310); or the environment is outside its type (I16). -/
def outcomeOf {α : Type} (rval : α → Option Word32) (dOut : α → Option (List Byte)) :
    Reply α → Host.Outcome State Fault Refusal
  | .done r => .next (respondResult rval dOut r)
  | .stuck s => .next s
  | .refused r => .refused r

/-- Run a command: refused while another one is running (R316, R360), else its body from its first label; `accept` is
the command's entry and operand checks, and where they fail the command responds INVALID_PARAM (R301). -/
def command (i : Instr) (accept : State → Bool) (body : State → Host.Outcome State Fault Refusal) (s : State) :
    Host.Outcome State Fault Refusal :=
  if s.upc = .idle then
    if accept s then body (startCommand i s) else .next (respondInvalid s)
  else .refused .commandWhileRunning

end Sys2Proof.Machine
end

