-- ==== Sys2Proof/Machine/Operands.lean ====
section
/-! DEFINITION. Operand forms: the address byte, memory address bytes, big-endian values (30_encoding.md R100 to R103,
00_scope.md R9), single bits of a byte, and the merge of a modify (43_facade_access.md R270 to R275). -/

namespace Sys2Proof.Machine

/-- The direction bit of an address byte: 0 is write, 1 is read (R101). -/
inductive Direction where
  | write
  | read
deriving DecidableEq, Repr

/-- The direction as a bit (R101; assumption 10). -/
def Direction.bit : Direction → BitVec 1
  | .write => 0
  | .read => 1

/-- `ADDRBYTE(dev, rw)` (R100). -/
def addrByte (mode : AddrMode) (dev : Byte) (rw : Direction) : Byte :=
  match mode with
  | .sevenBit => dev.extractLsb' 0 7 ++ rw.bit
  | .preshifted => dev.extractLsb' 1 7 ++ rw.bit

/-- `MADDR(a, aw)` for `aw` 1 or 2 (R102); another width is rejected before it is used (R171). -/
def maddr (a : Word16) (aw : Byte) : List Byte :=
  if aw = 1 then [a.extractLsb' 0 8] else [a.extractLsb' 8 8, a.extractLsb' 0 8]

/-- `BE_8` (R9). -/
def be8 (v : Byte) : List Byte := [v]

/-- `BE_16` (R9). -/
def be16 (v : Word16) : List Byte := [v.extractLsb' 8 8, v.extractLsb' 0 8]

/-- `BE_32` (R9). -/
def be32 (v : Word32) : List Byte := [v.extractLsb' 24 8, v.extractLsb' 16 8, v.extractLsb' 8 8, v.extractLsb' 0 8]

/-- `unBE` as a number: the value whose big-endian bytes are `xs` (R9, R103). -/
def unBeNat (xs : List Byte) : Nat := xs.foldl (fun v b => v * 256 + b.toNat) 0

/-- `unBE` of at most two bytes. -/
def unBe16 (xs : List Byte) : Word16 := BitVec.ofNat 16 (unBeNat xs)

/-- `unBE` of at most four bytes, zero-extended to the 32 bits of `RVAL` (R103). -/
def unBe32 (xs : List Byte) : Word32 := BitVec.ofNat 32 (unBeNat xs)

/-- `SR[k]`. -/
def bitAt (b : Byte) (k : Nat) : Bit := b.getLsbD k

/-- `SR[k] <- v`. -/
def setBit (b : Byte) (k : Nat) (v : Bit) : Byte := if v then b ||| (1#8 <<< k) else b &&& ~~~(1#8 <<< k)

/-- `(v & ~mask) | (value & mask)`, the merge of a modify (R270, R272, R275). -/
def merge {w : Nat} (v mask value : BitVec w) : BitVec w := (v &&& ~~~mask) ||| (value &&& mask)

/-- The first byte of a one-byte access, `xs[0]` (R255, R270). -/
def firstByte (xs : List Byte) : Byte := xs.headD 0

end Sys2Proof.Machine
end

