-- ==== Sys2Proof/Machine/Flags.lean ====
section
/-! DEFINITION. The block's flag-like state is `INIT`, `ACKB` and `STATUS` (10_state.md R44). This file holds every
condition that is computed from flags and operands before a command acts: the presence bits of a configuration
(42_transport_and_handle.md R210), the engine's entry and operand checks (41_bitbang_transactions.md R170, R171), the
capability table (R228) and the facade's entry check (43_facade_access.md R250). -/

namespace Sys2Proof.Machine

/-- Every port of the variant is present; `TAG = 3` names no variant (R210). -/
def portsPresent : TransportConfig → Bool
  | .twoWire c => c.gpioWritePresent && c.gpioReadPresent
  | .block c => c.csAssertPresent && c.csDeassertPresent && c.btWritePresent && c.btReadPresent && c.btTransferPresent
  | .mgmt c => c.mgReadPresent && c.mgWritePresent
  | .reserved => false

/-- The active configuration is the two-wire variant. -/
def isTwoWire : Option TransportConfig → Bool
  | some (.twoWire _) => true
  | some (.block _) => false
  | some (.mgmt _) => false
  | some .reserved => false
  | none => false

/-- `ENGINE_ENTRY` (R170). A command that returns no data passes `onull := false`. -/
def engineEntry (hnull onull : Bool) (s : State) : Bool := !hnull && s.init && isTwoWire s.cfg && !onull

/-- `AW` is 1 or 2 (R171). -/
def widthLegal (aw : Byte) : Bool := aw == 1 || aw == 2

/-- `LEN` or `TRIALS` is at least 1 (R171, R250). -/
def atLeastOne (n : Word32) : Bool := n != 0

/-- The four shapes of a facade access that the capability table tells apart (R228). -/
inductive Shape where
  | u8
  | u16
  | u32
  | burst
deriving DecidableEq, Repr

/-- `CAP(CFG.TAG, op)` (R228): the management transport carries 16-bit accesses only. -/
def capable : Option TransportConfig → Shape → Bool
  | some (.twoWire _), _ => true
  | some (.block _), _ => true
  | some (.mgmt _), shape => shape == .u16
  | some .reserved, _ => false
  | none, _ => false

/-- `FACADE_ENTRY` (R250). A command that returns no data passes `onull := false`; `empty` is `LEN = 0` of a burst. -/
def facadeEntry (shape : Shape) (hnull onull empty : Bool) (s : State) : Bool :=
  !hnull && s.init && !onull && !empty && capable s.cfg shape

/-- The status an acknowledge bit stands for: ACK is 0, NACK is 1 (40_bitbang_primitives.md R150). -/
def ackStatus (ackb : Bit) : Status := if ackb then .nack else .ok

end Sys2Proof.Machine
end

