-- ==== Sys2Proof/Machine/Engine.lean ====
section
/-! DEFINITION. The line sequences and the transactions of the bit-bang engine, as the spec's micro-programs: the
clock-stretch wait and the pulse (40_bitbang_primitives.md R133, R134), START, STOP, write_byte and read_byte (R140 to
R155), the finish of a transaction and the five transactions (41_bitbang_transactions.md R172 to R190). -/

namespace Sys2Proof.Machine

/-! ## Shared subroutines -/

/-- The polls of `WAIT_SCL`, with `left` polls allowed after this one and `sc` polls that have returned 0 (R133). -/
def pollScl : Nat → Nat → State → Result Unit
  | 0, sc, s =>
    if lineAnswer .scl s then .ok () (afterRead .scl s)
    else .fail .timeout ((afterRead .scl s).setSc (sc + 1))
  | left + 1, sc, s =>
    if lineAnswer .scl s then .ok () (afterRead .scl s)
    else pollScl left (sc + 1) ((afterRead .scl s).setSc (sc + 1))

/-- `WAIT_SCL(N)`: at least one and at most `N` reads of SCL; OK at the first that yields 1 (R133). -/
def waitScl (n : Bound) (s : State) : Result Unit := pollScl n.pred 0 (s.setSc 0)

/-- SCL is released after a half-bit delay, and after another one the wait begins: the first half of `PULSE`, of
`START_SEQ` and of `STOP_SEQ` (R134, R140, R145). -/
def raiseScl (n : Bound) (s : State) : Result Unit := waitScl n (dly .half (drv .scl true (dly .half s)))

/-- The end of a pulse: SCL is pulled low, and a half-bit delay follows (R134). -/
def lowerScl (s : State) : State := dly .half (drv .scl false s)

/-- `PULSE(false)` (R134). -/
def pulse (s : State) : Result Unit := (raiseScl s.params.nBit s).andThen fun _ s => .ok () (lowerScl s)

/-- `PULSE(true)`: SDA is read once after the wait has seen SCL high and before SCL is pulled low (R134). -/
def pulseSample (s : State) : Result Bit :=
  (raiseScl s.params.nBit s).andThen fun _ s => .ok (lineAnswer .sda s) (lowerScl (afterRead .sda s))

/-! ## Primitives -/

/-- `START_SEQ` (R140). -/
def startSeq (s : State) : Result Unit :=
  (raiseScl s.params.nStart (drv .sda true s)).andThen fun _ s => .ok () (drv .scl false (drv .sda false s))

/-- `STOP_SEQ` (R145). -/
def stopSeq (s : State) : Result Unit :=
  (raiseScl s.params.nStop (drv .sda false s)).andThen fun _ s => .ok () (drv .sda true s)

/-- Transmit bit `k` of `b` (R150, label B1). -/
def writeBit (b : Byte) (k : Nat) (s : State) : Result Unit := pulse (drv .sda (bitAt b k) (s.setBc k))

/-- Transmit the bits `k`, ..., 0 of `b` (R150). -/
def writeBits (b : Byte) : Nat → State → Result Unit
  | 0, s => writeBit b 0 s
  | k + 1, s => (writeBit b (k + 1) s).andThen fun _ s => writeBits b k s

/-- What the sampled acknowledge makes of a byte: OK on ACK, NACK on NACK (R150). -/
def acknowledge (ackb : Bit) (s : State) : Result Unit :=
  if ackb then .fail .nack (s.setAckb ackb) else .ok () (s.setAckb ackb)

/-- `WRITE_BYTE_SEQ(b)` (R150). -/
def writeByteSeq (b : Byte) (s : State) : Result Unit :=
  (writeBits b 7 (s.setSr b)).andThen fun _ s => (pulseSample (drv .sda true s)).andThen acknowledge

/-- Sample bit `k` into the byte collected so far (R155, label B1). -/
def readBit (sr : Byte) (k : Nat) (s : State) : Result Byte :=
  (pulseSample (s.setBc k)).andThen fun v s => .ok (setBit sr k v) (s.setSr (setBit sr k v))

/-- Sample the bits `k`, ..., 0 (R155). -/
def readBits (sr : Byte) : Nat → State → Result Byte
  | 0, s => readBit sr 0 s
  | k + 1, s => (readBit sr (k + 1) s).andThen fun sr s => readBits sr k s

/-- `READ_BYTE_SEQ(send_ack)`: the acknowledge drive is low for ACK and a release for NACK (R155). -/
def readByteSeq (sendAck : Bool) (s : State) : Result Byte :=
  (readBits 0 7 ((drv .sda true s).setSr 0)).andThen fun x s =>
    (pulse (drv .sda (!sendAck) s)).andThen fun _ s => .ok x (drv .sda true s)

/-! ## Finishing and aborting -/

/-- `FINISH(OK)`: the STOP's result is the status (R172). -/
def finishOk {α : Type} (x : α) (s : State) : Result α := (stopSeq s).andThen fun _ s => .ok x s

/-- `FINISH(st)` of a failure: the STOP is issued, its result is discarded, and the first failure is returned (R172). -/
def finishFail {α : Type} (st : Status) (s : State) : Result α := .fail st (stopSeq (s.setErr st)).state

/-- `if st != OK: return FINISH(st)`: go on after OK, abort after a failure (R172). -/
def Result.orFinish {α β : Type} (r : Result α) (f : α → State → Result β) : Result β :=
  match r with
  | .ok x s => f x s
  | .fail st s => finishFail st s

/-! ## Transactions -/

/-- The address byte of a device under the block's address mode (30_encoding.md R100). -/
def addrByteOf (dev : Byte) (rw : Direction) (s : State) : Byte := addrByte s.params.addrMode dev rw

/-- START and the address byte, the phases `T_START` and `T_ADDR` of every transaction (R195). -/
def addressed {β : Type} (dev : Byte) (rw : Direction) (f : State → Result β) (s : State) : Result β :=
  (startSeq s).orFinish fun _ s => (writeByteSeq (addrByteOf dev rw s) s).orFinish fun _ s => f s

/-- The memory address bytes, the phase `T_MADDR` (R180, R182). -/
def sendAddress {β : Type} (f : State → Result β) : List Byte → State → Result β
  | [], s => f s
  | m :: ms, s => (writeByteSeq m s).orFinish fun _ s => sendAddress f ms s

/-- The data bytes of a write from index `bi` on and the STOP, the phases `T_WDATA` and `T_STOP` (R174, R180). -/
def writeData : Nat → List Byte → State → Result Unit
  | _, [], s => finishOk () s
  | bi, x :: xs, s => (writeByteSeq x s).orFinish fun _ s => writeData (bi + 1) xs (s.setBi (bi + 1))

/-- The data bytes of a read and the STOP, the phases `T_RDATA` and `T_STOP`: `left` bytes after this one, the bytes
`buf` received before it; every byte but the last is acknowledged (R176, R182). -/
def readData : Nat → Nat → List Byte → State → Result (List Byte)
  | 0, bi, buf, s =>
    (readByteSeq false s).orFinish fun x s =>
      finishOk (buf ++ [x]) ((s.setBuf (buf ++ [x])).setBi (bi + 1))
  | left + 1, bi, buf, s =>
    (readByteSeq true s).orFinish fun x s =>
      readData left (bi + 1) (buf ++ [x]) ((s.setBuf (buf ++ [x])).setBi (bi + 1))

/-- `BUF <- [] ; BI <- 0` and the `n` data bytes of a read (R176, R182); `n` is at least 1 (R171). -/
def readPhase (n : Nat) (s : State) : Result (List Byte) := readData (n - 1) 0 [] ((s.setBuf []).setBi 0)

/-- `WRITE_SEQ(dev, xs)` (R174). -/
def writeSeq (dev : Byte) (xs : List Byte) (s : State) : Result Unit :=
  addressed dev .write (fun s => writeData 0 xs (s.setBi 0)) s

/-- `READ_SEQ(dev, n)` (R176). -/
def readSeq (dev : Byte) (n : Nat) (s : State) : Result (List Byte) := addressed dev .read (readPhase n) s

/-- `MEM_WRITE_SEQ(dev, a, aw, xs)` (R180). -/
def memWriteSeq (dev : Byte) (a : Word16) (aw : Byte) (xs : List Byte) (s : State) : Result Unit :=
  addressed dev .write (sendAddress (fun s => writeData 0 xs (s.setBi 0)) (maddr a aw)) s

/-- `MEM_READ_SEQ(dev, a, aw, n)`: a repeated start precedes the address byte with the read bit (R182). -/
def memReadSeq (dev : Byte) (a : Word16) (aw : Byte) (n : Nat) (s : State) : Result (List Byte) :=
  addressed dev .write (sendAddress (addressed dev .read (readPhase n)) (maddr a aw)) s

/-- One trial of is_device_ready: START and the address byte with the write direction (R190). -/
def probe (dev : Byte) (s : State) : Result Unit :=
  (startSeq s).andThen fun _ s => writeByteSeq (addrByteOf dev .write s) s

/-- The trials of is_device_ready, with `left` trials after this one, the number `trial` (R190). A NACKed trial is
closed by its own STOP; if that times out, so does the command. -/
def trials (dev : Byte) : Nat → Nat → State → Result Unit
  | 0, _, s =>
    match probe dev s with
    | .ok _ s => finishOk () s
    | .fail .nack s => (stopSeq s).andThen fun _ s => .fail .nack s
    | .fail st s => finishFail st s
  | left + 1, trial, s =>
    match probe dev s with
    | .ok _ s => finishOk () s
    | .fail .nack s =>
      (stopSeq s).andThen fun _ s => trials dev left (trial + 1) ((dly .trial s).setTrial (trial + 1))
    | .fail st s => finishFail st s

/-- The micro-program of `BB_IS_DEVICE_READY`, `n` at least 1 (R171, R190). -/
def readySeq (dev : Byte) (n : Nat) (s : State) : Result Unit := trials dev (n - 1) 1 (s.setTrial 1)

end Sys2Proof.Machine
end

