-- ==== Sys2Proof/Machine/Transport.lean ====
section
/-! DEFINITION. The transport selector: `MemRead(addr, n)` and `MemWrite(addr, n, xs)` for each of the three transports
(42_transport_and_handle.md R220 to R229). `leg` says which part of its command an access is; it is used only to place
`UPC` at the port call that may not return (10_state.md R21, 60_exceptions.md R310). -/

namespace Sys2Proof.Machine

/-- `TW_MemRead(a, n)` (R220). -/
def twMemRead (a : Word16) (n : Nat) (s : State) : Result (List Byte) := memReadSeq s.params.twDev a 2 n s

/-- `TW_MemWrite(a, n, xs)` (R220). -/
def twMemWrite (a : Word16) (xs : List Byte) (s : State) : Result Unit := memWriteSeq s.params.twDev a 2 xs s

/-- The header of a block-transfer read: command, address high, address low, turnaround (R222). -/
def readHeader (p : Params) (a : Word16) : List Byte := [p.btRcmd, a.extractLsb' 8 8, a.extractLsb' 0 8, p.btTa]

/-- The header of a block-transfer write: command, address high, address low (R223). -/
def writeHeader (p : Params) (a : Word16) : List Byte := [p.btWcmd, a.extractLsb' 8 8, a.extractLsb' 0 8]

/-- `CALL CS_DEASSERT` and the return of what the access gave (R222, R223). -/
def btReturn {α : Type} (dev : Nat) (x : Except Status α) (s : State) : Reply α :=
  match x with
  | .ok x => .done (.ok x (callCsDeassert dev s))
  | .error st => .done (.fail st (callCsDeassert dev s))

/-- The exchange of a block-transfer read after the chip-select: header, then `BT_READ` if it returned OK (R222). -/
def btReadExchange (leg : Leg) (dev : Nat) (a : Word16) (n : Nat) (s : State) : Reply (Except Status (List Byte)) :=
  (callBtWrite dev (readHeader s.params a) (s.moveTo (.btHeader leg (.read a n)))).andThen fun st s =>
    if st = .ok then callBtRead dev n (s.moveTo (.btData leg (.read a n))) else .done (.ok (.error st) s)

/-- `BT_MemRead(a, n)` (R222). -/
def btMemRead (leg : Leg) (c : BlockConfig) (a : Word16) (n : Nat) (s : State) : Reply (List Byte) :=
  (btReadExchange leg c.btDev a n (callCsAssert c.btDev s)).andThen (btReturn c.btDev)

/-- The result of a port call that returns a status alone. -/
def statusResult (st : Status) : Except Status Unit := if st = .ok then .ok () else .error st

/-- The exchange of a block-transfer write after the chip-select: header, then the data if it returned OK (R223). -/
def btWriteExchange (leg : Leg) (dev : Nat) (a : Word16) (xs : List Byte) (s : State) : Reply Status :=
  (callBtWrite dev (writeHeader s.params a) (s.moveTo (.btHeader leg (.write a xs)))).andThen fun st s =>
    if st = .ok then callBtWrite dev xs (s.moveTo (.btData leg (.write a xs))) else .done (.ok st s)

/-- `BT_MemWrite(a, n, xs)` (R223). -/
def btMemWrite (leg : Leg) (c : BlockConfig) (a : Word16) (xs : List Byte) (s : State) : Reply Unit :=
  (btWriteExchange leg c.btDev a xs (callCsAssert c.btDev s)).andThen fun st s =>
    btReturn c.btDev (statusResult st) s

/-- `MG_MemRead(a, 2)` (R226). -/
def mgMemRead (leg : Leg) (c : MgmtConfig) (a : Word16) (n : Nat) (s : State) : Reply (List Byte) :=
  (callMgRead c.mgDev a (s.moveTo (.mgmt leg (.read a n)))).andThen fun x s =>
    match x with
    | .ok v => .done (.ok (be16 v) s)
    | .error st => .done (.fail st s)

/-- `MG_MemWrite(a, 2, xs)` (R227). -/
def mgMemWrite (leg : Leg) (c : MgmtConfig) (a : Word16) (xs : List Byte) (s : State) : Reply Unit :=
  (callMgWrite c.mgDev a (unBe16 xs) (s.moveTo (.mgmt leg (.write a xs)))).andThen fun st s =>
    if st = .ok then .done (.ok () s) else .done (.fail st s)

/-- `MemRead(a, n)` of the active transport, chosen by `CFG.TAG` alone (R229). Without a transport there is no access:
the facade's entry check has failed before (R250). -/
def memRead (leg : Leg) (a : Word16) (n : Nat) (s : State) : Reply (List Byte) :=
  match s.cfg with
  | some (.twoWire _) => .done (twMemRead a n s)
  | some (.block c) => btMemRead leg c a n s
  | some (.mgmt c) => mgMemRead leg c a n s
  | some .reserved => .done (.fail .invalidParam s)
  | none => .done (.fail .invalidParam s)

/-- `MemWrite(a, n, xs)` of the active transport (R229). -/
def memWrite (leg : Leg) (a : Word16) (xs : List Byte) (s : State) : Reply Unit :=
  match s.cfg with
  | some (.twoWire _) => .done (twMemWrite a xs s)
  | some (.block c) => btMemWrite leg c a xs s
  | some (.mgmt c) => mgMemWrite leg c a xs s
  | some .reserved => .done (.fail .invalidParam s)
  | none => .done (.fail .invalidParam s)

end Sys2Proof.Machine
end

