-- ==== Sys2Proof/Machine/Facade.lean ====
section
/-! DEFINITION. The register access facade (43_facade_access.md R250 to R277): scalar reads and writes, bursts and
read-modify-writes over the active transport. The transport's status is returned unchanged (R276). -/

namespace Sys2Proof.Machine

/-- The response to a facade write or modify: a status alone. -/
def answerStatus (r : Reply Unit) : Host.Outcome State Fault Refusal := outcomeOf (fun _ => none) (fun _ => none) r

/-- `READ_U8 a` (R255). -/
def execReadU8 (addr : Word16) (onull hnull : Bool) (s : State) : Host.Outcome State Fault Refusal :=
  command (.readU8 addr onull hnull) (facadeEntry .u8 hnull onull false)
    (fun s => outcomeOf (fun xs => some ((firstByte xs).setWidth 32)) (fun _ => none) (memRead .whole addr 1 s))
    s

/-- `READ_U16 a` (R256). -/
def execReadU16 (addr : Word16) (onull hnull : Bool) (s : State) : Host.Outcome State Fault Refusal :=
  command (.readU16 addr onull hnull) (facadeEntry .u16 hnull onull false)
    (fun s => outcomeOf (fun xs => some (unBe32 xs)) (fun _ => none) (memRead .whole addr 2 s))
    s

/-- `READ_U32 a` (R257). -/
def execReadU32 (addr : Word16) (onull hnull : Bool) (s : State) : Host.Outcome State Fault Refusal :=
  command (.readU32 addr onull hnull) (facadeEntry .u32 hnull onull false)
    (fun s => outcomeOf (fun xs => some (unBe32 xs)) (fun _ => none) (memRead .whole addr 4 s))
    s

/-- `WRITE_U8 a, v` (R260). -/
def execWriteU8 (addr : Word16) (value : Byte) (hnull : Bool) (s : State) : Host.Outcome State Fault Refusal :=
  command (.writeU8 addr value hnull) (facadeEntry .u8 hnull false false)
    (fun s => answerStatus (memWrite .whole addr (be8 value) s))
    s

/-- `WRITE_U16 a, v` (R261). -/
def execWriteU16 (addr : Word16) (value : Word16) (hnull : Bool) (s : State) : Host.Outcome State Fault Refusal :=
  command (.writeU16 addr value hnull) (facadeEntry .u16 hnull false false)
    (fun s => answerStatus (memWrite .whole addr (be16 value) s))
    s

/-- `WRITE_U32 a, v` (R262). -/
def execWriteU32 (addr : Word16) (value : Word32) (hnull : Bool) (s : State) : Host.Outcome State Fault Refusal :=
  command (.writeU32 addr value hnull) (facadeEntry .u32 hnull false false)
    (fun s => answerStatus (memWrite .whole addr (be32 value) s))
    s

/-- `READ_BURST a, n`, with `n` at least 1 (R250, R265). -/
def execReadBurst (addr : Word16) (len : Word32) (onull hnull : Bool) (s : State) : Host.Outcome State Fault Refusal :=
  command (.readBurst addr len onull hnull) (facadeEntry .burst hnull onull (!atLeastOne len))
    (fun s => outcomeOf (fun _ => none) some (memRead .whole addr len.toNat s))
    s

/-- `WRITE_BURST a, xs`, with at least one byte (R250, R266). -/
def execWriteBurst (addr : Word16) (xs : List Byte) (hnull : Bool) (s : State) : Host.Outcome State Fault Refusal :=
  command (.writeBurst addr xs hnull) (facadeEntry .burst hnull false xs.isEmpty)
    (fun s => answerStatus (memWrite .whole addr xs s))
    s

/-- `MODIFY_U8 a, mask, value`: the write is performed after every read that returned OK (R270). -/
def execModifyU8 (addr : Word16) (mask value : Byte) (hnull : Bool) (s : State) : Host.Outcome State Fault Refusal :=
  command (.modifyU8 addr mask value hnull) (facadeEntry .u8 hnull false false)
    (fun s =>
      answerStatus
        ((memRead .modifyRead addr 1 s).andThen fun xs s =>
          memWrite .modifyWrite addr (be8 (merge (firstByte xs) mask value)) s))
    s

/-- `MODIFY_U16 a, mask, value` (R272). -/
def execModifyU16 (addr : Word16) (mask value : Word16) (hnull : Bool) (s : State) : Host.Outcome State Fault Refusal :=
  command (.modifyU16 addr mask value hnull) (facadeEntry .u16 hnull false false)
    (fun s =>
      answerStatus
        ((memRead .modifyRead addr 2 s).andThen fun xs s =>
          memWrite .modifyWrite addr (be16 (merge (unBe16 xs) mask value)) s))
    s

end Sys2Proof.Machine
end

