-- ==== Sys2Proof/Machine/Handle.lean ====
section
/-! DEFINITION. The handle commands INIT and DEINIT (42_transport_and_handle.md R210 to R215). -/

namespace Sys2Proof.Machine

/-- The checks of INIT: no null handle, a configuration, and every port of its variant present (R210). -/
def initAccepts (cfgIn : Option TransportConfig) (hnull : Bool) : Bool := !hnull && (cfgIn.map portsPresent).getD false

/-- `INIT` (R210 to R212): it installs the configuration and performs no port action; a failed INIT changes nothing. -/
def execInit (cfgIn : Option TransportConfig) (hnull : Bool) (s : State) : Host.Outcome State Fault Refusal :=
  command (.init cfgIn hnull) (fun _ => initAccepts cfgIn hnull)
    (fun s =>
      match cfgIn with
      | some c => .next (respond .ok none none (s.install c))
      | none => .next (respondInvalid s))
    s

/-- `DEINIT` (R215): the handle's state is that of reset, and the lines are not touched. -/
def execDeinit (hnull : Bool) (s : State) : Host.Outcome State Fault Refusal :=
  command (.deinit hnull) (fun _ => !hnull) (fun s => .next (respond .ok none none s.uninstall)) s

end Sys2Proof.Machine
end

