-- ==== Sys2Proof/Machine/Primitive.lean ====
section
/-! DEFINITION. The primitive commands of the engine (40_bitbang_primitives.md R140 to R155). -/

namespace Sys2Proof.Machine

/-- The response of an engine command that returns no data. -/
def respondUnit (r : Result Unit) : Host.Outcome State Fault Refusal :=
  .next (respondResult (fun _ => none) (fun _ => none) r)

/-- `BB_START` (R140). -/
def execBbStart (hnull : Bool) (s : State) : Host.Outcome State Fault Refusal :=
  command (.bbStart hnull) (engineEntry hnull false) (fun s => respondUnit (startSeq s)) s

/-- `BB_STOP` (R145). -/
def execBbStop (hnull : Bool) (s : State) : Host.Outcome State Fault Refusal :=
  command (.bbStop hnull) (engineEntry hnull false) (fun s => respondUnit (stopSeq s)) s

/-- `BB_WRITE_BYTE b` (R150). -/
def execBbWriteByte (b : Byte) (hnull : Bool) (s : State) : Host.Outcome State Fault Refusal :=
  command (.bbWriteByte b hnull) (engineEntry hnull false) (fun s => respondUnit (writeByteSeq b s)) s

/-- `BB_READ_BYTE ack|nack`: on OK `RVAL` is the byte, zero-extended (R155). -/
def execBbReadByte (sendAck onull hnull : Bool) (s : State) : Host.Outcome State Fault Refusal :=
  command (.bbReadByte sendAck onull hnull) (engineEntry hnull onull)
    (fun s => .next (respondResult (fun x => some (x.setWidth 32)) (fun _ => none) (readByteSeq sendAck s)))
    s

end Sys2Proof.Machine
end

