-- ==== Sys2Proof/Machine/Transaction.lean ====
section
/-! DEFINITION. The transaction commands of the engine (41_bitbang_transactions.md R171 to R190). -/

namespace Sys2Proof.Machine

/-- The response of an engine command that returns bytes: on OK they are `D_OUT` (R176, R182). -/
def respondBytes (r : Result (List Byte)) : Host.Outcome State Fault Refusal :=
  .next (respondResult (fun _ => none) some r)

/-- `BB_WRITE dev, xs` (R174). -/
def execBbWrite (dev : Byte) (xs : List Byte) (hnull : Bool) (s : State) : Host.Outcome State Fault Refusal :=
  command (.bbWrite dev xs hnull) (engineEntry hnull false) (fun s => respondUnit (writeSeq dev xs s)) s

/-- `BB_READ dev, n`, with `n` at least 1 (R171, R176). -/
def execBbRead (dev : Byte) (len : Word32) (onull hnull : Bool) (s : State) : Host.Outcome State Fault Refusal :=
  command (.bbRead dev len onull hnull) (fun s => engineEntry hnull onull s && atLeastOne len)
    (fun s => respondBytes (readSeq dev len.toNat s))
    s

/-- `BB_MEM_WRITE dev, a, aw, xs`, with `aw` 1 or 2 (R171, R180). -/
def execBbMemWrite (dev aw : Byte) (addr : Word16) (xs : List Byte) (hnull : Bool) (s : State) :
    Host.Outcome State Fault Refusal :=
  command (.bbMemWrite dev aw addr xs hnull) (fun s => engineEntry hnull false s && widthLegal aw)
    (fun s => respondUnit (memWriteSeq dev addr aw xs s))
    s

/-- `BB_MEM_READ dev, a, aw, n`, with `aw` 1 or 2 and `n` at least 1 (R171, R182). -/
def execBbMemRead (dev aw : Byte) (addr : Word16) (len : Word32) (onull hnull : Bool) (s : State) :
    Host.Outcome State Fault Refusal :=
  command (.bbMemRead dev aw addr len onull hnull)
    (fun s => engineEntry hnull onull s && widthLegal aw && atLeastOne len)
    (fun s => respondBytes (memReadSeq dev addr aw len.toNat s))
    s

/-- `BB_IS_DEVICE_READY dev, trials`, with `trials` at least 1 (R171, R190). -/
def execBbIsDeviceReady (dev : Byte) (trials : Word32) (hnull : Bool) (s : State) :
    Host.Outcome State Fault Refusal :=
  command (.bbIsDeviceReady dev trials hnull) (fun s => engineEntry hnull false s && atLeastOne trials)
    (fun s => respondUnit (readySeq dev trials.toNat s))
    s

end Sys2Proof.Machine
end

