-- ==== Sys2Proof/Machine/Dispatch.lean ====
section
/-! DEFINITION. The meaning of every command of the opcode map (30_encoding.md R97), one arm for each. -/

namespace Sys2Proof.Machine

def exec (i : Instr) (s : State) : Host.Outcome State Fault Refusal :=
  match i with
  -- the handle
  | .init cfgIn hnull => Sys2Proof.Machine.execInit cfgIn hnull s
  | .deinit hnull => Sys2Proof.Machine.execDeinit hnull s
  -- the primitives of the engine
  | .bbStart hnull => Sys2Proof.Machine.execBbStart hnull s
  | .bbStop hnull => Sys2Proof.Machine.execBbStop hnull s
  | .bbWriteByte b hnull => Sys2Proof.Machine.execBbWriteByte b hnull s
  | .bbReadByte sendAck onull hnull => Sys2Proof.Machine.execBbReadByte sendAck onull hnull s
  -- the transactions of the engine
  | .bbWrite dev xs hnull => Sys2Proof.Machine.execBbWrite dev xs hnull s
  | .bbRead dev len onull hnull => Sys2Proof.Machine.execBbRead dev len onull hnull s
  | .bbMemWrite dev aw addr xs hnull => Sys2Proof.Machine.execBbMemWrite dev aw addr xs hnull s
  | .bbMemRead dev aw addr len onull hnull => Sys2Proof.Machine.execBbMemRead dev aw addr len onull hnull s
  | .bbIsDeviceReady dev trials hnull => Sys2Proof.Machine.execBbIsDeviceReady dev trials hnull s
  -- the register access facade
  | .readU8 addr onull hnull => Sys2Proof.Machine.execReadU8 addr onull hnull s
  | .readU16 addr onull hnull => Sys2Proof.Machine.execReadU16 addr onull hnull s
  | .readU32 addr onull hnull => Sys2Proof.Machine.execReadU32 addr onull hnull s
  | .writeU8 addr value hnull => Sys2Proof.Machine.execWriteU8 addr value hnull s
  | .writeU16 addr value hnull => Sys2Proof.Machine.execWriteU16 addr value hnull s
  | .writeU32 addr value hnull => Sys2Proof.Machine.execWriteU32 addr value hnull s
  | .readBurst addr len onull hnull => Sys2Proof.Machine.execReadBurst addr len onull hnull s
  | .writeBurst addr xs hnull => Sys2Proof.Machine.execWriteBurst addr xs hnull s
  | .modifyU8 addr mask value hnull => Sys2Proof.Machine.execModifyU8 addr mask value hnull s
  | .modifyU16 addr mask value hnull => Sys2Proof.Machine.execModifyU16 addr mask value hnull s

end Sys2Proof.Machine
end

