-- ==== Sys2Proof/Machine/Micro.lean ====
section
/-! DEFINITION. The block one micro-operation at a time: `UPC` walks the states of the line sequences
(40_bitbang_primitives.md R163), the phases of the transactions (41_bitbang_transactions.md R195) and the port calls of
the transports, and every loop counter is read from its session register (10_state.md R21, R23, R38). `exec` runs a
command whole; `microRun` from `issue` runs the same command in these steps. -/

namespace Sys2Proof.Machine

/-- The outcome of a micro-step. -/
abbrev Micro := Host.Outcome State Fault Refusal

/-! ## Calls into a line sequence -/

/-- Put `UPC` at a state of a line sequence. -/
def enter (i : Instr) (leg : Leg) (t : Txn) (p : Phase) (l : LineLabel) (s : State) : Micro :=
  .next (s.setUpc (.running i (.bus leg t p l)))

/-- `call WRITE_BYTE_SEQ(b)`: `SR <- b`, `BC <- 7` (R150). -/
def enterWrite (i : Instr) (leg : Leg) (t : Txn) (p : Phase) (b : Byte) (s : State) : Micro :=
  enter i leg t p .wbSet ((s.setSr b).setBc 7)

/-! ## The end of a command -/

/-- `RVAL` of a command that has received `xs` (R155, R255 to R257). -/
def rvalOf (i : Instr) (xs : List Byte) : Option Word32 :=
  match i with
  | .bbReadByte _ _ _ => some ((firstByte xs).setWidth 32)
  | .readU8 _ _ _ => some ((firstByte xs).setWidth 32)
  | .readU16 _ _ _ => some (unBe32 xs)
  | .readU32 _ _ _ => some (unBe32 xs)
  | .init _ _ | .deinit _ | .bbStart _ | .bbStop _ | .bbWriteByte _ _ | .bbWrite _ _ _ | .bbRead _ _ _ _ => none
  | .bbMemWrite _ _ _ _ _ | .bbMemRead _ _ _ _ _ _ | .bbIsDeviceReady _ _ _ => none
  | .writeU8 _ _ _ | .writeU16 _ _ _ | .writeU32 _ _ _ | .readBurst _ _ _ _ | .writeBurst _ _ _ => none
  | .modifyU8 _ _ _ _ | .modifyU16 _ _ _ _ => none

/-- `D_OUT` of a command that has received `xs` (R176, R182, R265). -/
def dOutOf (i : Instr) (xs : List Byte) : Option (List Byte) :=
  match i with
  | .bbRead _ _ _ _ => some xs
  | .bbMemRead _ _ _ _ _ _ => some xs
  | .readBurst _ _ _ _ => some xs
  | .init _ _ | .deinit _ | .bbStart _ | .bbStop _ | .bbWriteByte _ _ | .bbReadByte _ _ _ | .bbWrite _ _ _ => none
  | .bbMemWrite _ _ _ _ _ | .bbIsDeviceReady _ _ _ => none
  | .readU8 _ _ _ | .readU16 _ _ _ | .readU32 _ _ _ | .writeU8 _ _ _ | .writeU16 _ _ _ | .writeU32 _ _ _ => none
  | .writeBurst _ _ _ | .modifyU8 _ _ _ _ | .modifyU16 _ _ _ _ => none

/-- Begin a `MemRead` or `MemWrite` of the active transport (42_transport_and_handle.md R220 to R229). -/
def startAccess (i : Instr) (leg : Leg) (acc : Access) (s : State) : Micro :=
  match s.cfg, acc with
  | some (.twoWire _), .read a n => enter i leg (.memRead s.params.twDev a 2 n) .tStart .stSda1 s
  | some (.twoWire _), .write a xs => enter i leg (.memWrite s.params.twDev a 2 xs) .tStart .stSda1 s
  | some (.block _), acc => .next (s.setUpc (.running i (.csAssert leg acc)))
  | some (.mgmt _), acc => .next (s.setUpc (.running i (.mgmt leg acc)))
  | some .reserved, _ => .fault .positionOutsideProgram
  | none, _ => .fault .positionOutsideProgram

/-- The write of a modify whose read gave `xs` (R270, R272). -/
def modifyWriteOf (i : Instr) (xs : List Byte) : Option Access :=
  match i with
  | .modifyU8 a mask value _ => some (.write a (be8 (merge (firstByte xs) mask value)))
  | .modifyU16 a mask value _ => some (.write a (be16 (merge (unBe16 xs) mask value)))
  | .init _ _ | .deinit _ | .bbStart _ | .bbStop _ | .bbWriteByte _ _ | .bbReadByte _ _ _ | .bbWrite _ _ _ => none
  | .bbRead _ _ _ _ | .bbMemWrite _ _ _ _ _ | .bbMemRead _ _ _ _ _ _ | .bbIsDeviceReady _ _ _ => none
  | .readU8 _ _ _ | .readU16 _ _ _ | .readU32 _ _ _ | .writeU8 _ _ _ | .writeU16 _ _ _ | .writeU32 _ _ _ => none
  | .readBurst _ _ _ _ | .writeBurst _ _ _ => none

/-- A transaction or access has returned `st` and, on OK, the bytes `xs`: the command responds, or goes on with the
write of a modify whose read returned OK. -/
def accessDone (i : Instr) (leg : Leg) (st : Status) (xs : List Byte) (s : State) : Micro :=
  match leg with
  | .whole => .next (respond st (rvalOf i xs) (dOutOf i xs) s)
  | .modifyWrite => .next (respond st none none s)
  | .modifyRead =>
    if st = .ok then
      match modifyWriteOf i xs with
      | some acc => startAccess i .modifyWrite acc s
      | none => .fault .positionOutsideProgram
    else .next (respond st none none s)

/-! ## The phases of a transaction (R195) -/

/-- `FINISH(st)` (R172). -/
def finish (i : Instr) (leg : Leg) (t : Txn) (st : Status) (s : State) : Micro :=
  if st = .ok then enter i leg t .tStop .spSda0 s else enter i leg t .abort .spSda0 (s.setErr st)

/-- `T_WDATA` with `BI <- bi`: the byte at that index, or the STOP after the last (R174, R180). -/
def writePhase (i : Instr) (leg : Leg) (t : Txn) (bi : Nat) (xs : List Byte) (s : State) : Micro :=
  match xs[bi]? with
  | some x => enterWrite i leg t .tWdata x (s.setBi bi)
  | none => finish i leg t .ok (s.setBi bi)

/-- `BUF <- [] ; BI <- 0` and the first read (R176, R182). -/
def enterRead (i : Instr) (leg : Leg) (t : Txn) (s : State) : Micro :=
  enter i leg t .tRdata .rbRel ((s.setBuf []).setBi 0)

/-- After the `k` first bytes of MADDR: the next one, or the phase that follows them (R180, R182). -/
def maddrPhase (i : Instr) (leg : Leg) (t : Txn) (k : Nat) (s : State) : Micro :=
  match t with
  | .memWrite _ a aw xs =>
    match (maddr a aw)[k]? with
    | some m => enterWrite i leg t (.tMaddr k) m s
    | none => writePhase i leg t 0 xs s
  | .memRead _ a aw _ =>
    match (maddr a aw)[k]? with
    | some m => enterWrite i leg t (.tMaddr k) m s
    | none => enter i leg t .tRstart .stSda1 s
  | .start | .stop | .writeByte _ | .readByte _ | .write _ _ | .read _ _ | .ready _ _ =>
    .fault .positionOutsideProgram

/-- The address byte of a transaction's first addressing (R195): `rw` is read for BB_READ alone. -/
def firstAddress (t : Txn) (s : State) : Option Byte :=
  match t with
  | .write dev _ => some (addrByteOf dev .write s)
  | .read dev _ => some (addrByteOf dev .read s)
  | .memWrite dev _ _ _ => some (addrByteOf dev .write s)
  | .memRead dev _ _ _ => some (addrByteOf dev .write s)
  | .ready dev _ => some (addrByteOf dev .write s)
  | .start | .stop | .writeByte _ | .readByte _ => none

/-- The phase after an acknowledged address byte (R195). -/
def afterAddress (i : Instr) (leg : Leg) (t : Txn) (s : State) : Micro :=
  match t with
  | .write _ xs => writePhase i leg t 0 xs s
  | .read _ _ => enterRead i leg t s
  | .memWrite _ _ _ _ => maddrPhase i leg t 0 s
  | .memRead _ _ _ _ => maddrPhase i leg t 0 s
  | .ready _ _ => finish i leg t .ok s
  | .start | .stop | .writeByte _ | .readByte _ => .fault .positionOutsideProgram

/-- What a transaction that has succeeded returns: `BUF` for a read, no bytes for the others. -/
def received (t : Txn) (s : State) : Option (List Byte) :=
  match t with
  | .read _ _ => s.session.buf
  | .memRead _ _ _ _ => s.session.buf
  | .start | .stop | .writeByte _ | .readByte _ | .write _ _ | .memWrite _ _ _ _ | .ready _ _ => some []

/-- A data byte has been read into `SR`: `BUF <- BUF ++ [SR] ; BI <- BI + 1`, and the next byte or the STOP. -/
def afterByteRead (i : Instr) (leg : Leg) (t : Txn) (n : Nat) (s : State) : Micro :=
  match s.session.sr, s.session.buf, s.session.bi with
  | some x, some xs, some bi =>
    let s := (s.setBuf (xs ++ [x])).setBi (bi + 1)
    if bi + 1 < n then enter i leg t .tRdata .rbRel s else finish i leg t .ok s
  | none, _, _ => .fault (.noValue .sr)
  | some _, none, _ => .fault (.noValue .buf)
  | some _, some _, none => .fault (.noValue .bi)

/-- A primitive command's line sequence has returned `st`: BB_READ_BYTE returns `SR` (R155). -/
def primDone (i : Instr) (leg : Leg) (t : Txn) (st : Status) (s : State) : Micro :=
  match t with
  | .readByte _ =>
    match s.session.sr with
    | some x => accessDone i leg st [x] s
    | none => .fault (.noValue .sr)
  | .start | .stop | .writeByte _ => accessDone i leg st [] s
  | .write _ _ | .read _ _ | .memWrite _ _ _ _ | .memRead _ _ _ _ | .ready _ _ => .fault .positionOutsideProgram

/-- A line sequence returns `st` to the phase that called it (R21, R195). -/
def subDone (i : Instr) (leg : Leg) (t : Txn) (p : Phase) (st : Status) (s : State) : Micro :=
  match p with
  | .prim => primDone i leg t st s
  | .tStart =>
    if st = .ok then
      match firstAddress t s with
      | some b => enterWrite i leg t .tAddr b s
      | none => .fault .positionOutsideProgram
    else finish i leg t st s
  | .tAddr =>
    match t, st with
    | _, .ok => afterAddress i leg t s
    | .ready _ _, .nack => enter i leg t .trialStop .spSda0 s
    | _, st => finish i leg t st s
  | .tMaddr k => if st = .ok then maddrPhase i leg t (k + 1) s else finish i leg t st s
  | .tRstart =>
    if st = .ok then
      match t with
      | .memRead dev _ _ _ => enterWrite i leg t .tRaddr (addrByteOf dev .read s) s
      | .start | .stop | .writeByte _ | .readByte _ | .write _ _ | .read _ _ | .memWrite _ _ _ _ | .ready _ _ =>
        .fault .positionOutsideProgram
    else finish i leg t st s
  | .tRaddr => if st = .ok then enterRead i leg t s else finish i leg t st s
  | .tWdata =>
    if st = .ok then
      match t, s.session.bi with
      | .write _ xs, some bi => writePhase i leg t (bi + 1) xs s
      | .memWrite _ _ _ xs, some bi => writePhase i leg t (bi + 1) xs s
      | _, none => .fault (.noValue .bi)
      | _, some _ => .fault .positionOutsideProgram
    else finish i leg t st s
  | .tRdata =>
    if st = .ok then
      match t with
      | .read _ n => afterByteRead i leg t n s
      | .memRead _ _ _ n => afterByteRead i leg t n s
      | .start | .stop | .writeByte _ | .readByte _ | .write _ _ | .memWrite _ _ _ _ | .ready _ _ =>
        .fault .positionOutsideProgram
    else finish i leg t st s
  | .tStop =>
    match received t s with
    | some xs => accessDone i leg st xs s
    | none => .fault (.noValue .buf)
  | .abort =>
    match s.session.err with
    | some first => accessDone i leg first [] s
    | none => .fault (.noValue .err)
  | .trialStop =>
    if st = .ok then
      match t, s.session.trial with
      | .ready _ n, some k =>
        if k = n then accessDone i leg .nack [] s else .next (s.setUpc (.running i (.trialGap t)))
      | _, none => .fault (.noValue .trial)
      | _, some _ => .fault .positionOutsideProgram
    else accessDone i leg .timeout [] s

/-- The acknowledge a read sends: the operand of BB_READ_BYTE, or ACK for every byte but the last (R155, R176). -/
def ackToSend (t : Txn) (s : State) : Option Bit :=
  match t with
  | .readByte ack => some ack
  | .read _ n => s.session.bi.map fun bi => decide (bi + 1 < n)
  | .memRead _ _ _ n => s.session.bi.map fun bi => decide (bi + 1 < n)
  | .start | .stop | .writeByte _ | .write _ _ | .memWrite _ _ _ _ | .ready _ _ => none

/-! ## The line sequences (R163) -/

/-- One poll of `WAIT_SCL(N)` (R133): on to `next`, another poll at the same position, or TIMEOUT. -/
def poll (i : Instr) (leg : Leg) (t : Txn) (p : Phase) (n : Bound) (next : LineLabel) (s : State) : Micro :=
  if lineAnswer .scl s then enter i leg t p next (afterRead .scl s)
  else
    match s.session.sc with
    | some sc =>
      let s := (afterRead .scl s).setSc (sc + 1)
      if sc + 1 = n.val then subDone i leg t p .timeout s else .next s
    | none => .fault (.noValue .sc)

/-- The micro-operation of one state of a line sequence, and the state after it (R163). -/
def lineStep (i : Instr) (leg : Leg) (t : Txn) (p : Phase) (l : LineLabel) (s : State) : Micro :=
  match l with
  -- START_SEQ (R140)
  | .stSda1 => enter i leg t p .stL1 (drv .sda true s)
  | .stL1 => enter i leg t p .stRise (dly .half s)
  | .stRise => enter i leg t p .stH1 (drv .scl true s)
  | .stH1 => enter i leg t p .stPoll ((dly .half s).setSc 0)
  | .stPoll => poll i leg t p s.params.nStart .stEdge s
  | .stEdge => enter i leg t p .stFall (drv .sda false s)
  | .stFall => subDone i leg t p .ok (drv .scl false s)
  -- STOP_SEQ (R145)
  | .spSda0 => enter i leg t p .spL1 (drv .sda false s)
  | .spL1 => enter i leg t p .spRise (dly .half s)
  | .spRise => enter i leg t p .spH1 (drv .scl true s)
  | .spH1 => enter i leg t p .spPoll ((dly .half s).setSc 0)
  | .spPoll => poll i leg t p s.params.nStop .spEdge s
  | .spEdge => subDone i leg t p .ok (drv .sda true s)
  -- WRITE_BYTE_SEQ (R150)
  | .wbSet =>
    match s.session.sr, s.session.bc with
    | some b, some k => enter i leg t p .wbL1 (drv .sda (bitAt b k) s)
    | none, _ => .fault (.noValue .sr)
    | some _, none => .fault (.noValue .bc)
  | .wbL1 => enter i leg t p .wbRise (dly .half s)
  | .wbRise => enter i leg t p .wbH1 (drv .scl true s)
  | .wbH1 => enter i leg t p .wbPoll ((dly .half s).setSc 0)
  | .wbPoll => poll i leg t p s.params.nBit .wbFall s
  | .wbFall => enter i leg t p .wbL2 (drv .scl false s)
  | .wbL2 =>
    match s.session.bc with
    | some 0 => enter i leg t p .akRel (dly .half s)
    | some (k + 1) => enter i leg t p .wbSet ((dly .half s).setBc k)
    | none => .fault (.noValue .bc)
  | .akRel => enter i leg t p .akL1 (drv .sda true s)
  | .akL1 => enter i leg t p .akRise (dly .half s)
  | .akRise => enter i leg t p .akH1 (drv .scl true s)
  | .akH1 => enter i leg t p .akPoll ((dly .half s).setSc 0)
  | .akPoll => poll i leg t p s.params.nBit .akSmp s
  | .akSmp => enter i leg t p .akFall ((afterRead .sda s).setAckb (lineAnswer .sda s))
  | .akFall => enter i leg t p .akL2 (drv .scl false s)
  | .akL2 =>
    match s.session.ackb with
    | some a => subDone i leg t p (ackStatus a) (dly .half s)
    | none => .fault (.noValue .ackb)
  -- READ_BYTE_SEQ (R155)
  | .rbRel => enter i leg t p .rbL1 (((drv .sda true s).setSr 0).setBc 7)
  | .rbL1 => enter i leg t p .rbRise (dly .half s)
  | .rbRise => enter i leg t p .rbH1 (drv .scl true s)
  | .rbH1 => enter i leg t p .rbPoll ((dly .half s).setSc 0)
  | .rbPoll => poll i leg t p s.params.nBit .rbSmp s
  | .rbSmp =>
    match s.session.sr, s.session.bc with
    | some b, some k => enter i leg t p .rbFall ((afterRead .sda s).setSr (setBit b k (lineAnswer .sda s)))
    | none, _ => .fault (.noValue .sr)
    | some _, none => .fault (.noValue .bc)
  | .rbFall => enter i leg t p .rbL2 (drv .scl false s)
  | .rbL2 =>
    match s.session.bc with
    | some 0 => enter i leg t p .raDrv (dly .half s)
    | some (k + 1) => enter i leg t p .rbL1 ((dly .half s).setBc k)
    | none => .fault (.noValue .bc)
  | .raDrv =>
    match ackToSend t s with
    | some ack => enter i leg t p .raL1 (drv .sda (!ack) s)
    | none => .fault .positionOutsideProgram
  | .raL1 => enter i leg t p .raRise (dly .half s)
  | .raRise => enter i leg t p .raH1 (drv .scl true s)
  | .raH1 => enter i leg t p .raPoll ((dly .half s).setSc 0)
  | .raPoll => poll i leg t p s.params.nBit .raFall s
  | .raFall => enter i leg t p .raL2 (drv .scl false s)
  | .raL2 => enter i leg t p .raRel (dly .half s)
  | .raRel => subDone i leg t p .ok (drv .sda true s)

/-! ## The port calls (R222 to R227) -/

/-- A port call that has not returned leaves the block at the call (60_exceptions.md R310); an answer outside the
port's type is refused. -/
def afterCall {α : Type} (r : Reply α) (next : α → State → Micro) : Micro :=
  match r with
  | .done (.ok x s) => next x s
  | .done (.fail _ _) => .fault .positionOutsideProgram
  | .stuck s => .next s
  | .refused e => .refused e

/-- On to `CS_DEASSERT` with the result of the exchange (R224). -/
def enterDeassert (i : Instr) (leg : Leg) (acc : Access) (st : Status) (xs : List Byte) (s : State) : Micro :=
  .next (s.setUpc (.running i (.csDeassert leg acc st xs)))

/-- The header's `BT_WRITE`, then the data or `CS_DEASSERT` (R222, R223). -/
def headerStep (i : Instr) (leg : Leg) (acc : Access) (c : BlockConfig) (s : State) : Micro :=
  let header :=
    match acc with
    | .read a _ => readHeader s.params a
    | .write a _ => writeHeader s.params a
  afterCall (callBtWrite c.btDev header s) fun st s =>
    if st = .ok then .next (s.setUpc (.running i (.btData leg acc))) else enterDeassert i leg acc st [] s

/-- The data's `BT_READ` or `BT_WRITE`, then `CS_DEASSERT` (R222, R223). -/
def dataStep (i : Instr) (leg : Leg) (acc : Access) (c : BlockConfig) (s : State) : Micro :=
  match acc with
  | .read _ n =>
    afterCall (callBtRead c.btDev n s) fun x s => enterDeassert i leg acc (replyStatus x) ((replyData x).getD []) s
  | .write _ xs => afterCall (callBtWrite c.btDev xs s) fun st s => enterDeassert i leg acc st [] s

/-- `MG_READ` or `MG_WRITE` (R226, R227). -/
def mgmtStep (i : Instr) (leg : Leg) (acc : Access) (c : MgmtConfig) (s : State) : Micro :=
  match acc with
  | .read a _ =>
    afterCall (callMgRead c.mgDev a s) fun x s => accessDone i leg (replyStatus x) (((replyData x).map be16).getD []) s
  | .write a xs => afterCall (callMgWrite c.mgDev a (unBe16 xs) s) fun st s => accessDone i leg st [] s

/-! ## The entry of a command -/

/-- The entry and operand checks of every command (R170, R171, R210, R215, R250). -/
def accepts (i : Instr) (s : State) : Bool :=
  match i with
  | .init cfgIn hnull => !hnull && (cfgIn.map portsPresent).getD false
  | .deinit hnull => !hnull
  | .bbStart hnull => engineEntry hnull false s
  | .bbStop hnull => engineEntry hnull false s
  | .bbWriteByte _ hnull => engineEntry hnull false s
  | .bbReadByte _ onull hnull => engineEntry hnull onull s
  | .bbWrite _ _ hnull => engineEntry hnull false s
  | .bbRead _ len onull hnull => engineEntry hnull onull s && atLeastOne len
  | .bbMemWrite _ aw _ _ hnull => engineEntry hnull false s && widthLegal aw
  | .bbMemRead _ aw _ len onull hnull => engineEntry hnull onull s && widthLegal aw && atLeastOne len
  | .bbIsDeviceReady _ trials hnull => engineEntry hnull false s && atLeastOne trials
  | .readU8 _ onull hnull => facadeEntry .u8 hnull onull false s
  | .readU16 _ onull hnull => facadeEntry .u16 hnull onull false s
  | .readU32 _ onull hnull => facadeEntry .u32 hnull onull false s
  | .writeU8 _ _ hnull => facadeEntry .u8 hnull false false s
  | .writeU16 _ _ hnull => facadeEntry .u16 hnull false false s
  | .writeU32 _ _ hnull => facadeEntry .u32 hnull false false s
  | .readBurst _ len onull hnull => facadeEntry .burst hnull onull (!atLeastOne len) s
  | .writeBurst _ xs hnull => facadeEntry .burst hnull false xs.isEmpty s
  | .modifyU8 _ _ _ hnull => facadeEntry .u8 hnull false false s
  | .modifyU16 _ _ _ hnull => facadeEntry .u16 hnull false false s

/-- The first micro-operation of an accepted command; INIT and DEINIT have none and respond at once (R210, R215). -/
def firstStep (i : Instr) (s : State) : Micro :=
  match i with
  | .init (some c) _ => .next (respond .ok none none (s.install c))
  | .init none _ => .next (respondInvalid s)
  | .deinit _ => .next (respond .ok none none s.uninstall)
  | .bbStart _ => enter i .whole .start .prim .stSda1 s
  | .bbStop _ => enter i .whole .stop .prim .spSda0 s
  | .bbWriteByte b _ => enterWrite i .whole (.writeByte b) .prim b s
  | .bbReadByte ack _ _ => enter i .whole (.readByte ack) .prim .rbRel s
  | .bbWrite dev xs _ => enter i .whole (.write dev xs) .tStart .stSda1 s
  | .bbRead dev len _ _ => enter i .whole (.read dev len.toNat) .tStart .stSda1 s
  | .bbMemWrite dev aw a xs _ => enter i .whole (.memWrite dev a aw xs) .tStart .stSda1 s
  | .bbMemRead dev aw a len _ _ => enter i .whole (.memRead dev a aw len.toNat) .tStart .stSda1 s
  | .bbIsDeviceReady dev n _ => enter i .whole (.ready dev n.toNat) .tStart .stSda1 (s.setTrial 1)
  | .readU8 a _ _ => startAccess i .whole (.read a 1) s
  | .readU16 a _ _ => startAccess i .whole (.read a 2) s
  | .readU32 a _ _ => startAccess i .whole (.read a 4) s
  | .writeU8 a v _ => startAccess i .whole (.write a (be8 v)) s
  | .writeU16 a v _ => startAccess i .whole (.write a (be16 v)) s
  | .writeU32 a v _ => startAccess i .whole (.write a (be32 v)) s
  | .readBurst a len _ _ => startAccess i .whole (.read a len.toNat) s
  | .writeBurst a xs _ => startAccess i .whole (.write a xs) s
  | .modifyU8 a _ _ _ => startAccess i .modifyRead (.read a 1) s
  | .modifyU16 a _ _ _ => startAccess i .modifyRead (.read a 2) s

/-! ## The step and the run -/

/-- One micro-step. Between commands the block does nothing. -/
def microStep (s : State) : Micro :=
  match s.upc with
  | .idle => .next s
  | .running i .entry => if accepts i s then firstStep i s else .next (respondInvalid s)
  | .running i (.bus leg t p l) => lineStep i leg t p l s
  | .running i (.trialGap t) =>
    match s.session.trial with
    | some k => enter i .whole t .tStart .stSda1 ((dly .trial s).setTrial (k + 1))
    | none => .fault (.noValue .trial)
  | .running i (.csAssert leg acc) =>
    match s.cfg with
    | some (.block c) => .next ((callCsAssert c.btDev s).setUpc (.running i (.btHeader leg acc)))
    | some (.twoWire _) | some (.mgmt _) | some .reserved | none => .fault .positionOutsideProgram
  | .running i (.btHeader leg acc) =>
    match s.cfg with
    | some (.block c) => headerStep i leg acc c s
    | some (.twoWire _) | some (.mgmt _) | some .reserved | none => .fault .positionOutsideProgram
  | .running i (.btData leg acc) =>
    match s.cfg with
    | some (.block c) => dataStep i leg acc c s
    | some (.twoWire _) | some (.mgmt _) | some .reserved | none => .fault .positionOutsideProgram
  | .running i (.csDeassert leg _ st xs) =>
    match s.cfg with
    | some (.block c) => accessDone i leg st xs (callCsDeassert c.btDev s)
    | some (.twoWire _) | some (.mgmt _) | some .reserved | none => .fault .positionOutsideProgram
  | .running i (.mgmt leg acc) =>
    match s.cfg with
    | some (.mgmt c) => mgmtStep i leg acc c s
    | some (.twoWire _) | some (.block _) | some .reserved | none => .fault .positionOutsideProgram

/-- `n` micro-steps, or fewer if the machine stops. -/
def microRun : Nat → State → Micro
  | 0, s => .next s
  | n + 1, s =>
    match microStep s with
    | .next s' => microRun n s'
    | .fault r => .fault r
    | .refused r => .refused r

/-- The host issues a command to an idle block (R21). -/
def issue (i : Instr) (s : State) : State := startCommand i s

end Sys2Proof.Machine
end

