-- ==== Sys2Proof/Machine/Fetch.lean ====
section
/-! DEFINITION. How the next command reaches the block: the host issues the commands of its list in order
(10_state.md R22). The block itself fetches nothing (20_memory.md R77). -/

namespace Sys2Proof.Machine

/-- The command at the host's position, or none where its list has ended (R22). -/
def fetch (s : State) : Option Descriptor := s.program[s.hpc]?

/-- Run one descriptor: a malformed one completes at once with INVALID_PARAM and no other effect
(30_encoding.md R98). -/
def runDescriptor (d : Descriptor) (s : State) : Host.Outcome State Fault Refusal :=
  match decode d with
  | .ok i => exec i s
  | .error _ => .next (respondInvalid s)

/-- One step of an idle block: the host issues its next command; without one the block waits (70_reset_and_hazards.md
R351; assumption 7). -/
def runNext (s : State) : Host.Outcome State Fault Refusal :=
  match fetch s with
  | some d => runDescriptor d s
  | none => .next s

/-- Put a command at a position of a list of commands; a list that is too short is filled up with a reserved opcode
(assumption 8). -/
def placeAt : List Descriptor → Nat → Descriptor → List Descriptor
  | [], 0, d => [d]
  | [], n + 1, d => plainDescriptor 0 0 0 0 :: placeAt [] n d
  | _ :: ds, 0, d => d :: ds
  | e :: ds, n + 1, d => e :: placeAt ds n d

end Sys2Proof.Machine
end

