-- ==== Sys2Proof/Machine/Step.lean ====
section
/-! DEFINITION. One step of the machine: a whole command when the block is idle, one micro-operation when it is in the
middle of a command (10_state.md R21, R22). -/

namespace Sys2Proof.Machine

/-- One step. A block that is idle runs the host's next command to its response. A block that is inside a command, as
one whose port call has not returned is (60_exceptions.md R310), goes on with the micro-operation at `UPC`. -/
def step (s : State) : Host.Outcome State Fault Refusal :=
  match s.upc with
  | .idle => runNext s
  | .running _ _ => microStep s

/-- The state with a word of the opcode table as the host's next command, and the block ready for it (assumption 8). -/
def State.withFetchWord (s : State) (nbits w : Nat) : State :=
  { s with
    program := placeAt s.program s.hpc (tableDescriptor nbits w)
    upc := .idle }

end Sys2Proof.Machine
end

