-- ==== Sys2Proof/Machine/HostPort.lean ====
section
/-! DEFINITION. What the host does to the block besides waiting: it issues a command and reads the response registers
(10_state.md R22, R37). A read of a register that holds no value faults (R36, R37, R38;
93_implementation_defined.md I12 to I14). -/

namespace Sys2Proof.Machine

/-- The host adds a command to the end of its list (R22). -/
def hostIssue (d : Descriptor) (s : State) : State := { s with program := s.program ++ [d] }

/-- Read a register, or fault where it holds no value. -/
def readOr {α : Type} (r : Valueless) : Option α → Except Fault α
  | some x => .ok x
  | none => .error (.noValue r)

/-- The host reads `STATUS` (R37). -/
def readStatus (s : State) : Except Fault Status := readOr .status s.status

/-- The host reads `RVAL` (R37, I14). -/
def readRval (s : State) : Except Fault Word32 := readOr .rval s.rval

/-- The host reads `D_OUT` (R37, I14). -/
def readDOut (s : State) : Except Fault (List Byte) := readOr .dOut s.dOut

/-- A read of a line output latch; no command performs it (R36, I12). -/
def readLatch (l : Line) (s : State) : Except Fault Bit :=
  match l with
  | .sda => readOr .outSda s.outSda
  | .scl => readOr .outScl s.outScl

end Sys2Proof.Machine
end

