-- ==== Sys2Proof/Machine/Shorthand.lean ====
section
/-! DEFINITION. The names of whole event sequences (00_scope.md R12) and of the answers of the environment that lead to
them. They are no part of any command's meaning; statements use them. `z` says how many polls of a wait read 0 before
the one that reads 1: how long the device stretches the clock. -/

namespace Sys2Proof.Machine

/-- How long each of the nine pulses of a byte is stretched: bit index 7 to 0, and 8 for the acknowledge pulse. -/
abbrev Stretch := Nat → Nat

/-- The environment releases SCL at the first poll (R12). -/
def noStretch : Stretch := fun _ => 0

/-- The order of the bits of a byte on SDA: most significant first (20_memory.md R65). -/
def bitOrder : List Nat := [7, 6, 5, 4, 3, 2, 1, 0]

/-! ## Events -/

/-- `z` polls that read 0 and one that reads 1 (R133). -/
def evWait (z : Nat) : List Event := List.replicate z (.read .scl false) ++ [.read .scl true]

/-- SCL released between two half-bit delays (R134). -/
def evRaise : List Event := [.delay .half, .drive .scl true, .delay .half]

/-- SCL pulled low and a half-bit delay (R134). -/
def evLower : List Event := [.drive .scl false, .delay .half]

/-- `PULSE(false)` (R134). -/
def evPulse (z : Nat) : List Event := evRaise ++ evWait z ++ evLower

/-- `PULSE(true)` that samples `v` (R134). -/
def evSample (z : Nat) (v : Bit) : List Event := evRaise ++ evWait z ++ [.read .sda v] ++ evLower

/-- A start (R140). -/
def evStart (z : Nat) : List Event := [.drive .sda true] ++ evRaise ++ evWait z ++ [.drive .sda false, .drive .scl false]

/-- A stop (R145). -/
def evStop (z : Nat) : List Event := [.drive .sda false] ++ evRaise ++ evWait z ++ [.drive .sda true]

/-- The transmission of bit `k` of `b` (R150). -/
def evBit (z : Stretch) (b : Byte) (k : Nat) : List Event := .drive .sda (bitAt b k) :: evPulse (z k)

/-- A write_byte of `b` whose acknowledge sample is `a` (R150). -/
def evWriteByte (z : Stretch) (b : Byte) (a : Bit) : List Event :=
  bitOrder.flatMap (evBit z b) ++ [.drive .sda true] ++ evSample (z 8) a

/-- A read_byte that samples `b` and drives the acknowledge level `lvl` (R155). -/
def evReadByte (z : Stretch) (b : Byte) (lvl : Bit) : List Event :=
  [.drive .sda true] ++ bitOrder.flatMap (fun k => evSample (z k) (bitAt b k)) ++ [.drive .sda lvl] ++ evPulse (z 8) ++
    [.drive .sda true]

/-- `S` (R12). -/
def evS : List Event := evStart 0

/-- `P` (R12). -/
def evP : List Event := evStop 0

/-- `W(b;a)` (R12). -/
def evW (b : Byte) (a : Bit) : List Event := evWriteByte noStretch b a

/-- `Rb(b;k)` (R12). -/
def evRb (b : Byte) (lvl : Bit) : List Event := evReadByte noStretch b lvl

/-- `W(x0;0) ... W(xn;0)`. -/
def evWs (xs : List Byte) : List Event := xs.flatMap fun x => evW x false

/-- `Rb(x0;0) ... Rb(xn;1)`: every byte but the last is acknowledged (R176). -/
def evRbs : List Byte → List Event
  | [] => []
  | [x] => evRb x true
  | x :: y :: ys => evRb x false ++ evRbs (y :: ys)

/-! ## The environment's answers -/

/-- The answers to a wait (R133). -/
def ansWait (z : Nat) : List Bit := List.replicate z false ++ [true]

/-- The answers to a write_byte (R150). -/
def ansWriteByte (z : Stretch) (a : Bit) : List Bit := bitOrder.flatMap (fun k => ansWait (z k)) ++ ansWait (z 8) ++ [a]

/-- The answers to a read_byte (R155). -/
def ansReadByte (z : Stretch) (b : Byte) : List Bit :=
  bitOrder.flatMap (fun k => ansWait (z k) ++ [bitAt b k]) ++ ansWait (z 8)

/-- The answers behind `S` and `P`. -/
def ansS : List Bit := ansWait 0

/-- The answers behind `W(b;a)`. -/
def ansW (a : Bit) : List Bit := ansWriteByte noStretch a

/-- The answers behind `Rb(b;k)`. -/
def ansRb (b : Byte) : List Bit := ansReadByte noStretch b

/-- The answers behind `W(x0;0) ... W(xn;0)`. -/
def ansWs (xs : List Byte) : List Bit := xs.flatMap fun _ => ansW false

/-- The answers behind `Rb(x0;0) ... Rb(xn;1)`. -/
def ansRbs (xs : List Byte) : List Bit := xs.flatMap ansRb

end Sys2Proof.Machine
end

