-- ==== Sys2Proof/Safety.lean ====
section
/-! DEFINITION. What holds of every state between steps: the configuration invariant (10_state.md R35), no session
register carried over (R39), no data after a failure (R37), latches that agree with the trace (R36), reads on released
lines only (40_bitbang_primitives.md R161), and chip-select bracketing (42_transport_and_handle.md R224). -/

namespace Sys2Proof.Machine

/-- R35, with R26 and R45 for the other direction: `CFG` is present exactly while `INIT = 1`, and every port of its
variant is then present, so its `TAG` is not 3. -/
def State.ConfigInv (s : State) : Prop :=
  (s.init = true → ∃ c, s.cfg = some c ∧ portsPresent c = true) ∧ (s.init = false → s.cfg = none)

/-- No data with a status other than OK (R37). -/
def State.ResponseInv (s : State) : Prop := s.status ≠ some .ok → s.rval = none ∧ s.dOut = none

/-- The level last driven on a line in a trace (R36). -/
def lastDriven (l : Line) : List Event → Option Bit
  | [] => none
  | .drive l' v :: es =>
    match lastDriven l es with
    | some w => some w
    | none => if l' = l then some v else none
  | _ :: es => lastDriven l es

/-- The latches hold the levels last driven (R36, R130). -/
def State.LatchInv (s : State) : Prop := s.outSda = lastDriven .sda s.trace ∧ s.outScl = lastDriven .scl s.trace

/-- Every read of a line happens while the level last driven on it is released (R161). -/
def ReadsReleased (tr : List Event) : Prop :=
  ∀ before l v after, tr = before ++ .read l v :: after → lastDriven l before = some true

/-- The event is an action on the two lines: a drive, a delay or a read (40_bitbang_primitives.md R130 to R132). -/
def Event.onLines : Event → Bool
  | .drive _ _ => true
  | .delay _ => true
  | .read _ _ => true
  | .csAssert _ => false
  | .csDeassert _ => false
  | .btWrite _ _ _ => false
  | .btRead _ _ _ _ => false
  | .btTransfer _ _ _ _ => false
  | .mgRead _ _ _ _ => false
  | .mgWrite _ _ _ _ => false

/-- The status a port returned (10_state.md R41 to R43); the other events carry none. -/
def Event.portStatus : Event → Option Status
  | .drive _ _ => none
  | .delay _ => none
  | .read _ _ => none
  | .csAssert _ => none
  | .csDeassert _ => none
  | .btWrite _ _ st => some st
  | .btRead _ _ st _ => some st
  | .btTransfer _ _ st _ => some st
  | .mgRead _ _ st _ => some st
  | .mgWrite _ _ _ st => some st

/-- The command returns a value in `RVAL` (R37). -/
def returnsValue : Instr → Bool
  | .bbReadByte _ _ _ | .readU8 _ _ _ | .readU16 _ _ _ | .readU32 _ _ _ => true
  | _ => false

/-- The command returns bytes in `D_OUT` (R37). -/
def returnsBytes : Instr → Bool
  | .bbRead _ _ _ _ | .bbMemRead _ _ _ _ _ _ | .readBurst _ _ _ _ => true
  | _ => false

/-- The command is a modify: the only one that is two transactions, a read and then a write (20_memory.md R70). -/
def isModify : Instr → Bool
  | .modifyU8 _ _ _ _ | .modifyU16 _ _ _ _ => true
  | _ => false

/-- How the chip-select stands after a trace: deasserted, asserted, or in an order R224 does not allow. -/
inductive ChipSelect where
  | high
  | low (dev : Nat)
  | broken
deriving DecidableEq, Repr

/-- The chip-select after one more event: asserted only when deasserted, deasserted only when asserted, and every
block-transfer call is made while it is asserted, all for one device (R224). -/
def ChipSelect.after (c : ChipSelect) (e : Event) : ChipSelect :=
  match c, e with
  | .high, .csAssert dev => .low dev
  | .low dev, .csDeassert dev' => if dev = dev' then .high else .broken
  | .low dev, .btWrite dev' _ _ => if dev = dev' then .low dev else .broken
  | .low dev, .btRead dev' _ _ _ => if dev = dev' then .low dev else .broken
  | .high, .csDeassert _ => .broken
  | .high, .btWrite _ _ _ => .broken
  | .high, .btRead _ _ _ _ => .broken
  | .low _, .csAssert _ => .broken
  | _, .btTransfer _ _ _ _ => .broken
  | c, .drive _ _ => c
  | c, .delay _ => c
  | c, .read _ _ => c
  | c, .mgRead _ _ _ _ => c
  | c, .mgWrite _ _ _ _ => c
  | .broken, .csAssert _ => .broken
  | .broken, .csDeassert _ => .broken
  | .broken, .btWrite _ _ _ => .broken
  | .broken, .btRead _ _ _ _ => .broken

/-- The chip-select after a trace. -/
def chipSelect (tr : List Event) : ChipSelect := tr.foldl ChipSelect.after .high

/-- Between commands no chip-select is asserted (R224); inside a block-transfer call it is asserted. -/
def State.ChipSelectInv (s : State) : Prop :=
  chipSelect s.trace ≠ .broken ∧ (s.upc = .idle → chipSelect s.trace = .high)

/-- The block waits in a call of a port that does not return: the only way to be inside a command between two steps of
the machine (60_exceptions.md R310). -/
def State.InCall (s : State) : Prop :=
  s.portIn.head? = some .noReturn ∧
    ∃ i leg acc,
      (s.upc = .running i (.btHeader leg acc) ∧ ∃ c, s.cfg = some (.block c)) ∨
      (s.upc = .running i (.btData leg acc) ∧ ∃ c, s.cfg = some (.block c)) ∨
      (s.upc = .running i (.mgmt leg acc) ∧ ∃ c, s.cfg = some (.mgmt c))

/-- What holds between any two steps of the machine. -/
structure State.Inv (s : State) : Prop where
  config : s.ConfigInv
  response : s.ResponseInv
  /-- No session register survives (R39). -/
  session : s.session = Session.clear
  latch : s.LatchInv
  released : ReadsReleased s.trace
  chipSelect : s.ChipSelectInv
  position : s.upc = .idle ∨ s.InCall

end Sys2Proof.Machine
end

