-- ==== Sys2Proof/Certificates/Slice0/Obligations.lean ====
section
/-! DEFINITION. The statements for the provers. Those about a command's result give the whole next state as an equation,
so that they say at once that the command completes, what it writes and what it leaves alone. -/

namespace Sys2Proof.Machine

/-! ## Words the statements use -/

/-- `s` after a response (10_state.md R21, R22, R37, R39): the three response registers as given, `UPC` idle, no session
register with a value, `HPC` one further; everything else as in `s`. -/
def State.responded (st : Status) (rval : Option Word32) (dOut : Option (List Byte)) (s : State) : State :=
  { s with
    status := some st
    rval := rval
    dOut := dOut
    upc := .idle
    session := Session.clear
    hpc := s.hpc + 1 }

/-- `s` after a line activity: the events it appended, the line answers left, the latches; everything else as in `s`. -/
def State.lines (es : List Event) (rest : List Bit) (sda scl : Bit) (s : State) : State :=
  { s with
    trace := s.trace ++ es
    lineIn := rest
    outSda := some sda
    outScl := some scl }

/-- `s` after port calls: the events they appended and the answers left; everything else as in `s`. -/
def State.ports (es : List Event) (rest : List PortAnswer) (s : State) : State :=
  { s with
    trace := s.trace ++ es
    portIn := rest }

/-- Idle and initialized with a two-wire configuration: the engine's entry check passes (R170). -/
def State.EngineReady (s : State) : Prop := s.upc = .idle ∧ s.init = true ∧ ∃ c, s.cfg = some (.twoWire c)

/-- Idle and initialized with this block-transfer configuration. -/
def State.BlockReady (c : BlockConfig) (s : State) : Prop := s.upc = .idle ∧ s.init = true ∧ s.cfg = some (.block c)

/-- Idle and initialized with this management configuration. -/
def State.MgmtReady (c : MgmtConfig) (s : State) : Prop := s.upc = .idle ∧ s.init = true ∧ s.cfg = some (.mgmt c)

/-- `n` polls of SCL that all read 0. -/
def evHeld (n : Bound) : List Event := evRaise ++ List.replicate n.val (.read .scl false)

/-- The answers of a device that holds SCL low for a whole bound. -/
def ansHeld (n : Bound) : List Bit := List.replicate n.val false

/-- A START whose wait runs out (40_bitbang_primitives.md R140). -/
def evStartHeld (s : State) : List Event := .drive .sda true :: evHeld s.params.nStart

/-- A STOP whose wait runs out (R145). -/
def evStopHeld (s : State) : List Event := .drive .sda false :: evHeld s.params.nStop

/-- The flags `(F0, F1)` of an engine command; `F1` counts where the command returns data (R170). -/
def engineFlags : Instr → Option (Bool × Bool)
  | .bbStart h => some (h, false)
  | .bbStop h => some (h, false)
  | .bbWriteByte _ h => some (h, false)
  | .bbReadByte _ o h => some (h, o)
  | .bbWrite _ _ h => some (h, false)
  | .bbRead _ _ o h => some (h, o)
  | .bbMemWrite _ _ _ _ h => some (h, false)
  | .bbMemRead _ _ _ _ o h => some (h, o)
  | .bbIsDeviceReady _ _ h => some (h, false)
  | .init _ _ | .deinit _ | .readU8 _ _ _ | .readU16 _ _ _ | .readU32 _ _ _ => none
  | .writeU8 _ _ _ | .writeU16 _ _ _ | .writeU32 _ _ _ | .readBurst _ _ _ _ | .writeBurst _ _ _ => none
  | .modifyU8 _ _ _ _ | .modifyU16 _ _ _ _ => none

/-- The flags `(F0, F1)` of a facade command (43_facade_access.md R250). -/
def facadeFlags : Instr → Option (Bool × Bool)
  | .readU8 _ o h => some (h, o)
  | .readU16 _ o h => some (h, o)
  | .readU32 _ o h => some (h, o)
  | .writeU8 _ _ h => some (h, false)
  | .writeU16 _ _ h => some (h, false)
  | .writeU32 _ _ h => some (h, false)
  | .readBurst _ _ o h => some (h, o)
  | .writeBurst _ _ h => some (h, false)
  | .modifyU8 _ _ _ h => some (h, false)
  | .modifyU16 _ _ _ h => some (h, false)
  | .init _ _ | .deinit _ | .bbStart _ | .bbStop _ | .bbWriteByte _ _ | .bbReadByte _ _ _ | .bbWrite _ _ _ => none
  | .bbRead _ _ _ _ | .bbMemWrite _ _ _ _ _ | .bbMemRead _ _ _ _ _ _ | .bbIsDeviceReady _ _ _ => none

/-- A burst of length 0 (R250). -/
def emptyBurst : Instr → Bool
  | .readBurst _ len _ _ => decide (len = 0)
  | .writeBurst _ xs _ => xs.isEmpty
  | _ => false

/-- The facade commands of 16-bit width, the only ones the management transport carries (R228). -/
def sixteenBit : Instr → Bool
  | .readU16 _ _ _ => true
  | .writeU16 _ _ _ => true
  | .modifyU16 _ _ _ _ => true
  | _ => false

/-- The address of a facade command. -/
def facadeAddr : Instr → Word16
  | .readU8 a _ _ | .readU16 a _ _ | .readU32 a _ _ => a
  | .writeU8 a _ _ | .writeU16 a _ _ | .writeU32 a _ _ => a
  | .readBurst a _ _ _ | .writeBurst a _ _ => a
  | .modifyU8 a _ _ _ | .modifyU16 a _ _ _ => a
  | _ => 0

/-- The facade commands that only write; the others begin with a read. -/
def writesOnly : Instr → Bool
  | .writeU8 _ _ _ | .writeU16 _ _ _ | .writeU32 _ _ _ | .writeBurst _ _ _ => true
  | _ => false

/-- The command is one of the four primitives of the engine. -/
def isPrimitive : Instr → Bool
  | .bbStart _ | .bbStop _ | .bbWriteByte _ _ | .bbReadByte _ _ _ => true
  | _ => false

/-- How many bytes a facade command that begins with a read asks for (R255 to R257, R265, R270, R272). -/
def readLength : Instr → Option Nat
  | .readU8 _ _ _ | .modifyU8 _ _ _ _ => some 1
  | .readU16 _ _ _ | .modifyU16 _ _ _ _ => some 2
  | .readU32 _ _ _ => some 4
  | .readBurst _ len _ _ => some len.toNat
  | _ => none

/-- The bytes a facade command that only writes sends: a value most significant byte first (R9, R260 to R262, R266). -/
def writtenBytes : Instr → Option (List Byte)
  | .writeU8 _ v _ => some [v]
  | .writeU16 _ v _ => some [v.extractLsb' 8 8, v.extractLsb' 0 8]
  | .writeU32 _ v _ => some [v.extractLsb' 24 8, v.extractLsb' 16 8, v.extractLsb' 8 8, v.extractLsb' 0 8]
  | .writeBurst _ xs _ => some xs
  | _ => none

/-- A facade command whose operands its entry check lets through on a transport that carries its width (R250). -/
def accepted (i : Instr) : Prop := facadeFlags i = some (false, false) ∧ emptyBurst i = false

/-- The first address byte of an engine transaction that passes its checks in a two-wire state (R171, R195). -/
def firstByteOnWire (s : State) : Instr → Option Byte
  | .bbWrite dev _ false => some (addrByteOf dev .write s)
  | .bbRead dev len false false => if len = 0 then none else some (addrByteOf dev .read s)
  | .bbMemWrite dev aw _ _ false => if aw = 1 ∨ aw = 2 then some (addrByteOf dev .write s) else none
  | .bbMemRead dev aw _ len false false =>
    if (aw = 1 ∨ aw = 2) ∧ len ≠ 0 then some (addrByteOf dev .write s) else none
  | _ => none

/-- One step of a transaction before its STOP: a start, a byte sent, or a byte `x` received and answered with an ACK or a
NACK (R174 to R182). -/
inductive WireUnit where
  | start
  | send (b : Byte)
  | receive (x : Byte) (ack : Bool)
deriving DecidableEq, Repr

/-- Its events where it goes well, without stretching. -/
def WireUnit.events : WireUnit → List Event
  | .start => evS
  | .send b => evW b false
  | .receive x ack => evRb x (!ack)

/-- The answers behind it. -/
def WireUnit.answers : WireUnit → List Bit
  | .start => ansS
  | .send _ => ansW false
  | .receive x _ => ansRb x

/-- Every byte but the last is acknowledged (R176). -/
def receives : List Byte → List WireUnit
  | [] => []
  | [x] => [.receive x false]
  | x :: y :: ys => .receive x true :: receives (y :: ys)

/-- The steps of an engine transaction that passes its checks in a two-wire state; a read receives the bytes `ys`, as
many as its length says (R174, R176, R180, R182). -/
def wireUnits (s : State) (ys : List Byte) : Instr → Option (List WireUnit)
  | .bbWrite dev xs false => some (.start :: .send (addrByteOf dev .write s) :: xs.map .send)
  | .bbRead dev len false false =>
    if len ≠ 0 ∧ ys.length = len.toNat then some (.start :: .send (addrByteOf dev .read s) :: receives ys) else none
  | .bbMemWrite dev aw a xs false =>
    if aw = 1 ∨ aw = 2 then some (.start :: .send (addrByteOf dev .write s) :: (maddr a aw ++ xs).map .send) else none
  | .bbMemRead dev aw a len false false =>
    if (aw = 1 ∨ aw = 2) ∧ len ≠ 0 ∧ ys.length = len.toNat then
      some (.start :: .send (addrByteOf dev .write s) ::
        ((maddr a aw).map .send ++ .start :: .send (addrByteOf dev .read s) :: receives ys))
    else none
  | _ => none

/-- The events of a byte sent whose wait runs out after `j` bits; `j = 8` is the acknowledge pulse (R150). -/
def evSendHeld (s : State) (b : Byte) (j : Nat) : List Event :=
  (bitOrder.take j).flatMap (evBit noStretch b) ++ [.drive .sda (if j = 8 then true else bitAt b (7 - j))] ++
    evHeld s.params.nBit

/-- The answers behind it. -/
def ansSendHeld (s : State) (j : Nat) : List Bit := (bitOrder.take j).flatMap (fun _ => ansS) ++ ansHeld s.params.nBit

/-- The events of a byte received whose wait runs out after `j` bits; `j = 8` is the acknowledge pulse (R155). -/
def evReceiveHeld (s : State) (x : Byte) (ack : Bool) (j : Nat) : List Event :=
  [.drive .sda true] ++ (bitOrder.take j).flatMap (fun k => evSample 0 (bitAt x k)) ++
    (if j = 8 then [.drive .sda (!ack)] else []) ++ evHeld s.params.nBit

/-- The answers behind it. -/
def ansReceiveHeld (s : State) (x : Byte) (j : Nat) : List Bit :=
  (bitOrder.take j).flatMap (fun k => ansS ++ [bitAt x k]) ++ ansHeld s.params.nBit

/-- A wait of the step runs out: the events up to the last poll, and the answers behind them (R133). -/
inductive RunsOut (s : State) : WireUnit → List Event → List Bit → Prop where
  | start : RunsOut s .start (evStartHeld s) (ansHeld s.params.nStart)
  | send (b : Byte) (j : Nat) (hj : j ≤ 8) : RunsOut s (.send b) (evSendHeld s b j) (ansSendHeld s j)
  | receive (x : Byte) (ack : Bool) (j : Nat) (hj : j ≤ 8) :
      RunsOut s (.receive x ack) (evReceiveHeld s x ack j) (ansReceiveHeld s x j)

/-- How a transaction ends whose steps `done` went well and whose next step gave the events `es` on the answers `as` and
failed with `st`: the failure is the status, whether the STOP behind it sees SCL released or runs out (R172). -/
def EndsAborted (s : State) (i : Instr) (done : List WireUnit) (st : Status) (es : List Event) (as : List Bit) : Prop :=
  (∀ rest, s.lineIn = done.flatMap WireUnit.answers ++ as ++ ansS ++ rest →
    exec i s = .next ((s.lines (done.flatMap WireUnit.events ++ es ++ evP) rest true true).responded st none none)) ∧
  (∀ rest, s.lineIn = done.flatMap WireUnit.answers ++ as ++ ansHeld s.params.nStop ++ rest →
    exec i s =
      .next ((s.lines (done.flatMap WireUnit.events ++ es ++ evStopHeld s) rest false true).responded st none none))

/-- The events of a two-wire `MemRead` that receives `xs` (43_facade_access.md R277). -/
def evTwRead (s : State) (a : Word16) (xs : List Byte) : List Event :=
  evS ++ evW (addrByteOf s.params.twDev .write s) false ++ evWs [a.extractLsb' 8 8, a.extractLsb' 0 8] ++
    evS ++ evW (addrByteOf s.params.twDev .read s) false ++ evRbs xs ++ evP

/-- The answers behind it: four bytes acknowledged, `xs` sent, no stretching. -/
def ansTwRead (xs : List Byte) : List Bit :=
  ansS ++ ansW false ++ (ansW false ++ ansW false) ++ ansS ++ ansW false ++ ansRbs xs ++ ansS

/-- The events of a two-wire `MemWrite` of `xs` (R277). -/
def evTwWrite (s : State) (a : Word16) (xs : List Byte) : List Event :=
  evS ++ evW (addrByteOf s.params.twDev .write s) false ++ evWs [a.extractLsb' 8 8, a.extractLsb' 0 8] ++ evWs xs ++ evP

/-- The answers behind it: every byte acknowledged, no stretching. -/
def ansTwWrite (xs : List Byte) : List Bit := ansS ++ ansW false ++ (ansW false ++ ansW false) ++ ansWs xs ++ ansS

/-- The header of a block-transfer read (42_transport_and_handle.md R222). -/
def evReadHeader (s : State) (c : BlockConfig) (a : Word16) (st : Status) : Event :=
  .btWrite c.btDev [s.params.btRcmd, a.extractLsb' 8 8, a.extractLsb' 0 8, s.params.btTa] st

/-- The header of a block-transfer write (R223). -/
def evWriteHeader (s : State) (c : BlockConfig) (a : Word16) (st : Status) : Event :=
  .btWrite c.btDev [s.params.btWcmd, a.extractLsb' 8 8, a.extractLsb' 0 8] st

/-- The events of a block-transfer `MemRead` that receives `xs` (R222, R277). -/
def evBtRead (s : State) (c : BlockConfig) (a : Word16) (xs : List Byte) : List Event :=
  [.csAssert c.btDev, evReadHeader s c a .ok, .btRead c.btDev xs.length .ok (some xs), .csDeassert c.btDev]

/-- The events of a block-transfer `MemWrite` of `xs` (R223, R277). -/
def evBtWrite (s : State) (c : BlockConfig) (a : Word16) (xs : List Byte) : List Event :=
  [.csAssert c.btDev, evWriteHeader s c a .ok, .btWrite c.btDev xs .ok, .csDeassert c.btDev]

/-- A port answers a status alone. -/
def ansStatus (st : Status) : PortAnswer := .answer st.code .none

/-- A port answers OK with bytes. -/
def ansBytes (xs : List Byte) : PortAnswer := .answer Status.ok.code (.bytes xs)

/-- A port answers OK with a value. -/
def ansValue (v : Word16) : PortAnswer := .answer Status.ok.code (.value v)

/-- What a port returns beside its status: nothing (`BT_WRITE`, `MG_WRITE`), `n` bytes (`BT_READ`) or a 16-bit value
(`MG_READ`) (10_state.md R41, R42). -/
inductive PortType where
  | status
  | bytes (n : Nat)
  | value
deriving DecidableEq, Repr

/-- The call a facade command comes to after it has made the calls of `answered`, which all returned OK, and the events
`es`: every call of every command over ports has a row (R222, R223, R226, R227, R270, R272). -/
inductive ComesTo (s : State) (i : Instr) : (answered : List PortAnswer) → (es : List Event) → PortType → Prop where
  | header (c : BlockConfig) (hc : s.cfg = some (.block c)) : ComesTo s i [] [.csAssert c.btDev] .status
  | readData (c : BlockConfig) (hc : s.cfg = some (.block c)) (n : Nat) (hn : readLength i = some n) :
      ComesTo s i [ansStatus .ok] [.csAssert c.btDev, evReadHeader s c (facadeAddr i) .ok] (.bytes n)
  | writeData (c : BlockConfig) (hc : s.cfg = some (.block c)) (hw : writesOnly i = true) :
      ComesTo s i [ansStatus .ok] [.csAssert c.btDev, evWriteHeader s c (facadeAddr i) .ok] .status
  | modifyHeader (c : BlockConfig) (hc : s.cfg = some (.block c)) (hm : isModify i = true) (xs : List Byte)
      (hn : readLength i = some xs.length) :
      ComesTo s i [ansStatus .ok, ansBytes xs] (evBtRead s c (facadeAddr i) xs ++ [.csAssert c.btDev]) .status
  | modifyData (c : BlockConfig) (hc : s.cfg = some (.block c)) (hm : isModify i = true) (xs : List Byte)
      (hn : readLength i = some xs.length) :
      ComesTo s i [ansStatus .ok, ansBytes xs, ansStatus .ok]
        (evBtRead s c (facadeAddr i) xs ++ [.csAssert c.btDev, evWriteHeader s c (facadeAddr i) .ok]) .status
  | mgmtRead (c : MgmtConfig) (hc : s.cfg = some (.mgmt c)) (hw : writesOnly i = false) (h16 : sixteenBit i = true) :
      ComesTo s i [] [] .value
  | mgmtWrite (c : MgmtConfig) (hc : s.cfg = some (.mgmt c)) (hw : writesOnly i = true) (h16 : sixteenBit i = true) :
      ComesTo s i [] [] .status
  | mgmtModify (c : MgmtConfig) (hc : s.cfg = some (.mgmt c)) (hm : isModify i = true) (h16 : sixteenBit i = true)
      (v : Word16) : ComesTo s i [ansValue v] [.mgRead c.mgDev (facadeAddr i) .ok (some v)] .status

/-- An answer outside the port's type, and the name it is refused by (93_implementation_defined.md I16, R43); the rows
`okUnexpected`, `okNoBytes` and `okNoValue` are the model's own reading (assumption 6). -/
inductive OutsideType : PortType → (code : BitVec 3) → PortData → Refusal → Prop where
  | reserved (k : PortType) (code : BitVec 3) (data : PortData) (h : code = 6 ∨ code = 7) :
      OutsideType k code data .portStatusReserved
  | byteCount (n : Nat) (xs : List Byte) (h : xs.length ≠ n) :
      OutsideType (.bytes n) Status.ok.code (.bytes xs) .portByteCount
  | withFailure (k : PortType) (st : Status) (data : PortData) (hst : st ≠ .ok) (h : data ≠ .none) :
      OutsideType k st.code data .portDataWithFailure
  | okUnexpected (data : PortData) (h : data ≠ .none) : OutsideType .status Status.ok.code data .portAnswerType
  | okNoBytes (n : Nat) (data : PortData) (h : ∀ xs, data ≠ .bytes xs) :
      OutsideType (.bytes n) Status.ok.code data .portAnswerType
  | okNoValue (data : PortData) (h : ∀ v, data ≠ .value v) : OutsideType .value Status.ok.code data .portAnswerType

/-- What the poll after `k` polls that read 0 finds: the environment's next answer (R75). -/
def sclPoll (s : State) (k : Nat) : Bit :=
  match s.lineIn[k]? with
  | some v => v
  | none => Config.freeLine (s.trace ++ List.replicate k (.read .scl false)) .scl

end Sys2Proof.Machine

namespace Sys2Proof

/-- One row of the opcode map, with the bits of `w1`, `w2` and `w3` a command may use (30_encoding.md R92 to R97). -/
structure MapRow where
  opc : Nat
  pat : Word32
  mask : Word32
  free1 : Word32
  free2 : Word32
  free3 : Word32
  data : Bool
deriving DecidableEq, Repr

/-- The opcode map of R97, row by row. -/
def opcodeMap : List MapRow :=
  [⟨0x01, 0x01000000, 0xFFFFFFFC, 0, 0, 0, false⟩,
   ⟨0x02, 0x02000000, 0xFFFFFFFE, 0, 0, 0, false⟩,
   ⟨0x10, 0x10000000, 0xFFFFFFFE, 0, 0, 0, false⟩,
   ⟨0x11, 0x11000000, 0xFFFFFFFE, 0, 0, 0, false⟩,
   ⟨0x12, 0x12000000, 0xFFFF00FE, 0, 0, 0, false⟩,
   ⟨0x13, 0x13000000, 0xFFFFFEFC, 0, 0, 0, false⟩,
   ⟨0x14, 0x14000000, 0xFF00FFFE, 0, 0xFFFFFFFF, 0, true⟩,
   ⟨0x15, 0x15000000, 0xFF00FFFC, 0, 0xFFFFFFFF, 0, false⟩,
   ⟨0x16, 0x16000000, 0xFF0000FE, 0xFFFF, 0xFFFFFFFF, 0, true⟩,
   ⟨0x17, 0x17000000, 0xFF0000FC, 0xFFFF, 0xFFFFFFFF, 0, false⟩] ++
  [⟨0x18, 0x18000000, 0xFF00FFFE, 0, 0xFFFFFFFF, 0, false⟩,
   ⟨0x20, 0x20000000, 0xFFFFFFFC, 0xFFFF, 0, 0, false⟩,
   ⟨0x21, 0x21000000, 0xFFFFFFFC, 0xFFFF, 0, 0, false⟩,
   ⟨0x22, 0x22000000, 0xFFFFFFFC, 0xFFFF, 0, 0, false⟩,
   ⟨0x24, 0x24000000, 0xFFFFFFFE, 0xFFFF, 0xFF, 0, false⟩,
   ⟨0x25, 0x25000000, 0xFFFFFFFE, 0xFFFF, 0xFFFF, 0, false⟩,
   ⟨0x26, 0x26000000, 0xFFFFFFFE, 0xFFFF, 0xFFFFFFFF, 0, false⟩,
   ⟨0x28, 0x28000000, 0xFFFFFFFC, 0xFFFF, 0xFFFFFFFF, 0, false⟩,
   ⟨0x29, 0x29000000, 0xFFFFFFFE, 0xFFFF, 0xFFFFFFFF, 0, true⟩,
   ⟨0x2A, 0x2A000000, 0xFFFFFFFE, 0xFFFF, 0xFF, 0xFF, false⟩,
   ⟨0x2B, 0x2B000000, 0xFFFFFFFE, 0xFFFF, 0xFFFF, 0xFFFF, false⟩]

/-- The descriptor passes R98 (a) to (d) by this row: its opcode, the fixed bits of its words, the length of `D_IN`. -/
def MapRow.admits (r : MapRow) (d : Descriptor) : Prop :=
  d.w0.toNat / 2 ^ 24 = r.opc ∧ d.w0 &&& r.mask = r.pat ∧
  d.w1 ||| r.free1 = r.free1 ∧ d.w2 ||| r.free2 = r.free2 ∧ d.w3 ||| r.free3 = r.free3 ∧
  d.dIn.length = (if r.data then d.w2.toNat else 0)

/-- R98: no row admits the descriptor, or it is an INIT whose `CFGIN` does not agree with CNULL (bit 1 of `w0`). -/
def Descriptor.Malformed (d : Descriptor) : Prop :=
  (¬ ∃ r ∈ opcodeMap, r.admits d) ∨
  (d.w0.toNat / 2 ^ 24 = 1 ∧ (d.cfgIn.isSome ↔ d.w0.toNat / 2 % 2 = 1))

/-- The fields of a descriptor as numbers (R91 to R94): `v[hi:lo]` is `v / 2 ^ lo % 2 ^ (hi - lo + 1)` (R8). -/
def Instr.FieldsOf (d : Descriptor) : Instr → Prop
  | .init cfgIn h => cfgIn = d.cfgIn ∧ h.toNat = d.w0.toNat % 2
  | .deinit h => h.toNat = d.w0.toNat % 2
  | .bbStart h => h.toNat = d.w0.toNat % 2
  | .bbStop h => h.toNat = d.w0.toNat % 2
  | .bbWriteByte b h => b.toNat = d.w0.toNat / 2 ^ 8 % 2 ^ 8 ∧ h.toNat = d.w0.toNat % 2
  | .bbReadByte ack o h =>
    ack.toNat = d.w0.toNat / 2 ^ 8 % 2 ^ 8 ∧ o.toNat = d.w0.toNat / 2 % 2 ∧ h.toNat = d.w0.toNat % 2
  | .bbWrite dev xs h =>
    dev.toNat = d.w0.toNat / 2 ^ 16 % 2 ^ 8 ∧ xs = d.dIn ∧ xs.length = d.w2.toNat ∧ h.toNat = d.w0.toNat % 2
  | .bbRead dev len o h =>
    dev.toNat = d.w0.toNat / 2 ^ 16 % 2 ^ 8 ∧ len = d.w2 ∧ o.toNat = d.w0.toNat / 2 % 2 ∧ h.toNat = d.w0.toNat % 2
  | .bbMemWrite dev aw a xs h =>
    dev.toNat = d.w0.toNat / 2 ^ 16 % 2 ^ 8 ∧ aw.toNat = d.w0.toNat / 2 ^ 8 % 2 ^ 8 ∧ a.toNat = d.w1.toNat ∧
      xs = d.dIn ∧ xs.length = d.w2.toNat ∧ h.toNat = d.w0.toNat % 2
  | .bbMemRead dev aw a len o h =>
    dev.toNat = d.w0.toNat / 2 ^ 16 % 2 ^ 8 ∧ aw.toNat = d.w0.toNat / 2 ^ 8 % 2 ^ 8 ∧ a.toNat = d.w1.toNat ∧
      len = d.w2 ∧ o.toNat = d.w0.toNat / 2 % 2 ∧ h.toNat = d.w0.toNat % 2
  | .bbIsDeviceReady dev trials h =>
    dev.toNat = d.w0.toNat / 2 ^ 16 % 2 ^ 8 ∧ trials = d.w2 ∧ h.toNat = d.w0.toNat % 2
  | .readU8 a o h | .readU16 a o h | .readU32 a o h =>
    a.toNat = d.w1.toNat ∧ o.toNat = d.w0.toNat / 2 % 2 ∧ h.toNat = d.w0.toNat % 2
  | .writeU8 a v h => a.toNat = d.w1.toNat ∧ v.toNat = d.w2.toNat ∧ h.toNat = d.w0.toNat % 2
  | .writeU16 a v h => a.toNat = d.w1.toNat ∧ v.toNat = d.w2.toNat ∧ h.toNat = d.w0.toNat % 2
  | .writeU32 a v h => a.toNat = d.w1.toNat ∧ v = d.w2 ∧ h.toNat = d.w0.toNat % 2
  | .readBurst a len o h =>
    a.toNat = d.w1.toNat ∧ len = d.w2 ∧ o.toNat = d.w0.toNat / 2 % 2 ∧ h.toNat = d.w0.toNat % 2
  | .writeBurst a xs h =>
    a.toNat = d.w1.toNat ∧ xs = d.dIn ∧ xs.length = d.w2.toNat ∧ h.toNat = d.w0.toNat % 2
  | .modifyU8 a m v h =>
    a.toNat = d.w1.toNat ∧ m.toNat = d.w3.toNat ∧ v.toNat = d.w2.toNat ∧ h.toNat = d.w0.toNat % 2
  | .modifyU16 a m v h =>
    a.toNat = d.w1.toNat ∧ m.toNat = d.w3.toNat ∧ v.toNat = d.w2.toNat ∧ h.toNat = d.w0.toNat % 2

/-- The opcode of a command, `w0[31:24]` (R97). -/
def Instr.opcode : Instr → Nat
  | .init _ _ => 0x01
  | .deinit _ => 0x02
  | .bbStart _ => 0x10
  | .bbStop _ => 0x11
  | .bbWriteByte _ _ => 0x12
  | .bbReadByte _ _ _ => 0x13
  | .bbWrite _ _ _ => 0x14
  | .bbRead _ _ _ _ => 0x15
  | .bbMemWrite _ _ _ _ _ => 0x16
  | .bbMemRead _ _ _ _ _ _ => 0x17
  | .bbIsDeviceReady _ _ _ => 0x18
  | .readU8 _ _ _ => 0x20
  | .readU16 _ _ _ => 0x21
  | .readU32 _ _ _ => 0x22
  | .writeU8 _ _ _ => 0x24
  | .writeU16 _ _ _ => 0x25
  | .writeU32 _ _ _ => 0x26
  | .readBurst _ _ _ _ => 0x28
  | .writeBurst _ _ _ => 0x29
  | .modifyU8 _ _ _ _ => 0x2A
  | .modifyU16 _ _ _ _ => 0x2B

/-- A configuration with every port of its variant present (10_state.md R31 to R34). -/
def AllPortsPresent : TransportConfig → Prop
  | .twoWire c => c.gpioWritePresent = true ∧ c.gpioReadPresent = true
  | .block c =>
    c.csAssertPresent = true ∧ c.csDeassertPresent = true ∧ c.btWritePresent = true ∧ c.btReadPresent = true ∧
      c.btTransferPresent = true
  | .mgmt c => c.mgReadPresent = true ∧ c.mgWritePresent = true
  | .reserved => False

end Sys2Proof

open Sys2Proof Sys2Proof.Machine

/-! ## Decoding (30_encoding.md) -/

/-- R97: a word written out from each of the 21 rows of the opcode map decodes to its command. -/
def Obligations.SampleWordsDecode : Prop :=
  decode ⟨0x01000002, 0, 0, 0, [], none⟩ = .ok (.init none false) ∧
  decode ⟨0x02000001, 0, 0, 0, [], none⟩ = .ok (.deinit true) ∧
  decode ⟨0x10000000, 0, 0, 0, [], none⟩ = .ok (.bbStart false) ∧
  decode ⟨0x11000001, 0, 0, 0, [], none⟩ = .ok (.bbStop true) ∧
  decode ⟨0x1200A500, 0, 0, 0, [], none⟩ = .ok (.bbWriteByte 0xA5 false) ∧
  decode ⟨0x13000102, 0, 0, 0, [], none⟩ = .ok (.bbReadByte true true false) ∧
  decode ⟨0x14500000, 0, 2, 0, [0x00, 0x11], none⟩ = .ok (.bbWrite 0x50 [0x00, 0x11] false) ∧
  decode ⟨0x15500002, 0, 3, 0, [], none⟩ = .ok (.bbRead 0x50 3 true false) ∧
  decode ⟨0x16500100, 0x12AB, 1, 0, [0x7E], none⟩ = .ok (.bbMemWrite 0x50 1 0x12AB [0x7E] false) ∧
  decode ⟨0x17500200, 0x1234, 2, 0, [], none⟩ = .ok (.bbMemRead 0x50 2 0x1234 2 false false) ∧
  decode ⟨0x18500000, 0, 3, 0, [], none⟩ = .ok (.bbIsDeviceReady 0x50 3 false) ∧
  decode ⟨0x20000002, 0x0100, 0, 0, [], none⟩ = .ok (.readU8 0x0100 true false) ∧
  decode ⟨0x21000000, 0x1234, 0, 0, [], none⟩ = .ok (.readU16 0x1234 false false) ∧
  decode ⟨0x22000001, 0xFFFF, 0, 0, [], none⟩ = .ok (.readU32 0xFFFF false true) ∧
  decode ⟨0x24000000, 0x0100, 0x5A, 0, [], none⟩ = .ok (.writeU8 0x0100 0x5A false) ∧
  decode ⟨0x25000001, 0x0010, 0xBEEF, 0, [], none⟩ = .ok (.writeU16 0x0010 0xBEEF true) ∧
  decode ⟨0x26000000, 0x0010, 0x01020304, 0, [], none⟩ = .ok (.writeU32 0x0010 0x01020304 false) ∧
  decode ⟨0x28000002, 0x0020, 4, 0, [], none⟩ = .ok (.readBurst 0x0020 4 true false) ∧
  decode ⟨0x29000000, 0x0100, 3, 0, [1, 2, 3], none⟩ = .ok (.writeBurst 0x0100 [1, 2, 3] false) ∧
  decode ⟨0x2A000000, 0x0200, 0x05, 0x0F, [], none⟩ = .ok (.modifyU8 0x0200 0x0F 0x05 false) ∧
  decode ⟨0x2B000001, 0x0010, 0xFFFF, 0x0400, [], none⟩ = .ok (.modifyU16 0x0010 0x0400 0xFFFF true)

/-- R98. A descriptor whose `CFGIN`, if any, accompanies an INIT is refused by the decoder exactly where R98 (a) to (e)
say it is malformed; the opcodes that no row has are the listed ones; and a malformed descriptor of an idle block
completes with INVALID_PARAM, no event and no other state changed but the host's position. That the position advances,
as R22 says of every response, although R98 says that no other state changes, is the model's reading (assumption 19). -/
def Obligations.MalformedDescriptors : Prop :=
  (∀ d : Descriptor, (d.cfgIn = none ∨ d.w0.toNat / 2 ^ 24 = 1) → ((∃ e, decode d = .error e) ↔ d.Malformed)) ∧
  (∀ k < 256, (∀ r ∈ opcodeMap, r.opc ≠ k) ↔
    k = 0 ∨ (3 ≤ k ∧ k ≤ 0x0F) ∨ (0x19 ≤ k ∧ k ≤ 0x1F) ∨ k = 0x23 ∨ k = 0x27 ∨ 0x2C ≤ k) ∧
  (∀ (s : State) (d : Descriptor), s.upc = .idle → s.program[s.hpc]? = some d →
    (d.cfgIn = none ∨ d.w0.toNat / 2 ^ 24 = 1) → d.Malformed →
      step s = .next (s.responded .invalidParam none none))

/-- A decoded command is that of its descriptor's opcode (R97), and its operands are the fields of its descriptor: every
field from its place, at its width. -/
def Obligations.OperandFields : Prop :=
  ∀ (d : Descriptor) (i : Instr), decode d = .ok i → d.w0.toNat / 2 ^ 24 = i.opcode ∧ i.FieldsOf d

/-- Every command with a descriptor decodes from the descriptor the encoder gives it. -/
def Obligations.DecodeEncode : Prop := ∀ i : Instr, i.wellFormed = true → decode (encode i) = .ok i

/-- Every accepted descriptor is the one the encoder gives its command: no bit of it is ignored, no command has two
descriptors, and the command is well-formed. That a `CFGIN` with another command than INIT is not accepted is the
model's reading of R90 and R96 (assumption 9). -/
def Obligations.EncodeDecode : Prop :=
  ∀ (d : Descriptor) (i : Instr), decode d = .ok i → i.wellFormed = true ∧ encode i = d

/-- R100, R102, R103 and R9, as numbers (the layout of the address byte and the polarity of its direction bit are the
spec's own general knowledge: assumption 10). -/
def Obligations.OperandAssembly : Prop :=
  (∀ dev : Byte, (addrByte .sevenBit dev .write).toNat = dev.toNat % 128 * 2) ∧
  (∀ dev : Byte, (addrByte .sevenBit dev .read).toNat = dev.toNat % 128 * 2 + 1) ∧
  (∀ dev : Byte, (addrByte .preshifted dev .write).toNat = dev.toNat / 2 * 2) ∧
  (∀ dev : Byte, (addrByte .preshifted dev .read).toNat = dev.toNat / 2 * 2 + 1) ∧
  (∀ a : Word16, (maddr a 1).map BitVec.toNat = [a.toNat % 256]) ∧
  (∀ a : Word16, (maddr a 2).map BitVec.toNat = [a.toNat / 256, a.toNat % 256])

/-- R9, R103: a value is read back from its big-endian bytes, at each of the three widths, and the bytes from the
value. -/
def Obligations.BigEndianRoundTrip : Prop :=
  (∀ v : Byte, unBe32 (be8 v) = v.setWidth 32) ∧
  (∀ v : Word16, unBe16 (be16 v) = v ∧ unBe32 (be16 v) = v.setWidth 32) ∧
  (∀ v : Word32, unBe32 (be32 v) = v) ∧
  (∀ b0 b1 : Byte, be16 (unBe16 [b0, b1]) = [b0, b1]) ∧
  (∀ b0 b1 b2 b3 : Byte, be32 (unBe32 [b0, b1, b2, b3]) = [b0, b1, b2, b3])

/-! ## Reset and the step (10_state.md, 70_reset_and_hazards.md) -/

/-- R45, R350: the state of a block before its first command. A register of it that has no value is not read: R36 says so
of the latches, R37 of `RVAL` and `D_OUT` (I12, I14); of `STATUS`, of which R45 says only that it has no value, it is the
model's reading (assumption 3). -/
def Obligations.ResetState : Prop :=
  State.reset.init = false ∧ State.reset.cfg = none ∧ State.reset.outSda = none ∧ State.reset.outScl = none ∧
  State.reset.trace = [] ∧ State.reset.upc = .idle ∧ State.reset.session = Session.clear ∧
  State.reset.status = none ∧ State.reset.rval = none ∧ State.reset.dOut = none ∧ State.reset.hpc = 0 ∧
  (∀ l, ∃ r, readLatch l State.reset = .error (.noValue r)) ∧
  readStatus State.reset = .error (.noValue .status) ∧ readRval State.reset = .error (.noValue .rval) ∧
  readDOut State.reset = .error (.noValue .dOut)

/-- An idle block runs the command at the host's position (R22): a step is `exec` of what the decoder reads there. That a
step of an idle block is a whole command and one inside a command a micro-step (R21) is the model's choice (assumption 1);
so are where a word of the opcode table is placed (assumption 8) and that a block without a command waits
(assumption 7). -/
def Obligations.StepRunsTheCommand : Prop :=
  (∀ (s : State) (d : Descriptor) (i : Instr), s.upc = .idle → s.program[s.hpc]? = some d → decode d = .ok i →
    step s = exec i s) ∧
  (∀ (s : State) (nbits w : Nat) (i : Instr), decodeTableWord nbits w = some i →
    step (s.withFetchWord nbits w) = exec i (s.withFetchWord nbits w)) ∧
  (∀ s : State, s.upc = .idle → s.program[s.hpc]? = none → step s = .next s) ∧
  (∀ (s : State) (i : Instr) (p : Pos), s.upc = .running i p → step s = microStep s)

/-- R316, R360: a command issued while another one runs is refused, whichever the two are. -/
def Obligations.OverlapRefused : Prop :=
  ∀ (i : Instr) (s : State), s.upc ≠ .idle → exec i s = .refused .commandWhileRunning

/-- R38, R39: what the session registers held before a command is never seen, and none holds a value after its
response. -/
def Obligations.SessionNotPersisted : Prop :=
  (∀ (i : Instr) (s : State) (x : Session), s.upc = .idle → exec i { s with session := x } = exec i s) ∧
  (∀ (i : Instr) (s t : State), exec i s = .next t → t.upc = .idle → t.session = Session.clear)

/-! ## The handle (42_transport_and_handle.md) -/

/-- R210, R211, R212: INIT installs a configuration whose ports are all present, whatever was installed before; with a
null handle, no configuration, a missing port or TAG 3 it changes nothing but the response. No event either way. R211 says
that a failed INIT changes nothing: that `RVAL` and `D_OUT` become absent (R37) and the host advances (R22) is the model's
reading of the three together (assumption 19). -/
def Obligations.InitCommand : Prop :=
  (∀ (s : State) (c : TransportConfig), s.upc = .idle → AllPortsPresent c →
    exec (.init (some c) false) s = .next ({ s with cfg := some c, init := true }.responded .ok none none)) ∧
  (∀ (s : State) (c : TransportConfig), s.upc = .idle → ¬ AllPortsPresent c →
    exec (.init (some c) false) s = .next (s.responded .invalidParam none none)) ∧
  (∀ s : State, s.upc = .idle → exec (.init none false) s = .next (s.responded .invalidParam none none)) ∧
  (∀ (s : State) (c : Option TransportConfig), s.upc = .idle →
    exec (.init c true) s = .next (s.responded .invalidParam none none))

/-- R215, R352: DEINIT takes the handle back to its reset state and touches neither lines nor trace; with a null handle it
changes nothing but the response. -/
def Obligations.DeinitCommand : Prop :=
  (∀ s : State, s.upc = .idle →
    exec (.deinit false) s = .next ({ s with cfg := none, init := false }.responded .ok none none)) ∧
  (∀ s : State, s.upc = .idle → exec (.deinit true) s = .next (s.responded .invalidParam none none))

/-- R25, R26, R35, R356: no command but INIT and DEINIT writes the handle, and none writes the parameters or the host's
program. -/
def Obligations.HandleWrittenByInitAndDeinitAlone : Prop :=
  ∀ (i : Instr) (s t : State), exec i s = .next t →
    t.params = s.params ∧ t.program = s.program ∧
    ((∀ c h, i ≠ .init c h) → (∀ h, i ≠ .deinit h) → t.cfg = s.cfg ∧ t.init = s.init)

/-! ## The line layer (40_bitbang_primitives.md) -/

/-- R133, for EVERY environment: the wait takes the environment's answers one by one (`sclPoll`) and returns OK at the
first that is 1, or TIMEOUT when as many as the bound says are 0. The reads it records are the answers it took; nothing
else happens. -/
def Obligations.ClockStretchWait : Prop :=
  ∀ (n : Bound) (s : State),
    (∀ k, k < n.val → (∀ j < k, sclPoll s j = false) → sclPoll s k = true →
      waitScl n s =
        .ok () { s with
          trace := s.trace ++ List.replicate k (.read .scl false) ++ [.read .scl true]
          lineIn := s.lineIn.drop (k + 1)
          session := { s.session with sc := some k } }) ∧
    ((∀ j < n.val, sclPoll s j = false) →
      waitScl n s =
        .fail .timeout { s with
          trace := s.trace ++ List.replicate n.val (.read .scl false)
          lineIn := s.lineIn.drop n.val
          session := { s.session with sc := some n.val } })

/-- R140: a START whose wait ends in time, however long the device stretches below the bound, and one whose wait does
not. -/
def Obligations.StartCommand : Prop :=
  (∀ (s : State) (z : Nat) (rest : List Bit), s.EngineReady → z < s.params.nStart.val → s.lineIn = ansWait z ++ rest →
    exec (.bbStart false) s = .next ((s.lines (evStart z) rest false false).responded .ok none none)) ∧
  (∀ (s : State) (rest : List Bit), s.EngineReady → s.lineIn = ansHeld s.params.nStart ++ rest →
    exec (.bbStart false) s = .next ((s.lines (evStartHeld s) rest true true).responded .timeout none none))

/-- R145: a STOP whose wait ends in time, and one whose wait does not. -/
def Obligations.StopCommand : Prop :=
  (∀ (s : State) (z : Nat) (rest : List Bit), s.EngineReady → z < s.params.nStop.val → s.lineIn = ansWait z ++ rest →
    exec (.bbStop false) s = .next ((s.lines (evStop z) rest true true).responded .ok none none)) ∧
  (∀ (s : State) (rest : List Bit), s.EngineReady → s.lineIn = ansHeld s.params.nStop ++ rest →
    exec (.bbStop false) s = .next ((s.lines (evStopHeld s) rest false true).responded .timeout none none))

/-- R150: a byte whose nine waits end in time is OK or NACK as its acknowledge reads; one whose wait runs out, at any of
the nine, is TIMEOUT at once. `j` is the number of bits sent before; `j = 8` is the acknowledge pulse. -/
def Obligations.WriteByteCommand : Prop :=
  (∀ (s : State) (b : Byte) (z : Stretch) (a : Bit) (rest : List Bit), s.EngineReady →
    (∀ k ≤ 8, z k < s.params.nBit.val) → s.lineIn = ansWriteByte z a ++ rest →
    exec (.bbWriteByte b false) s =
      .next ((s.lines (evWriteByte z b a) rest true false).responded (if a then .nack else .ok) none none)) ∧
  (∀ (s : State) (b : Byte) (z : Stretch) (j : Nat) (rest : List Bit), s.EngineReady → j ≤ 8 →
    (∀ k ∈ bitOrder.take j, z k < s.params.nBit.val) →
    s.lineIn = (bitOrder.take j).flatMap (fun k => ansWait (z k)) ++ ansHeld s.params.nBit ++ rest →
    exec (.bbWriteByte b false) s =
      .next ((s.lines
        ((bitOrder.take j).flatMap (evBit z b) ++ [.drive .sda (if j = 8 then true else bitAt b (7 - j))] ++
          evHeld s.params.nBit)
        rest (if j = 8 then true else bitAt b (7 - j)) true).responded .timeout none none))

/-- R155: a byte read with all nine waits in time, and the acknowledge level sent; TIMEOUT at once where a wait runs
out, at any of the nine. -/
def Obligations.ReadByteCommand : Prop :=
  (∀ (s : State) (ack : Bool) (b : Byte) (z : Stretch) (rest : List Bit), s.EngineReady →
    (∀ k ≤ 8, z k < s.params.nBit.val) → s.lineIn = ansReadByte z b ++ rest →
    exec (.bbReadByte ack false false) s =
      .next ((s.lines (evReadByte z b (!ack)) rest true false).responded .ok (some (b.setWidth 32)) none)) ∧
  (∀ (s : State) (ack : Bool) (b : Byte) (z : Stretch) (j : Nat) (rest : List Bit), s.EngineReady → j ≤ 8 →
    (∀ k ∈ bitOrder.take j, z k < s.params.nBit.val) →
    s.lineIn =
      (bitOrder.take j).flatMap (fun k => ansWait (z k) ++ [bitAt b k]) ++ ansHeld s.params.nBit ++ rest →
    exec (.bbReadByte ack false false) s =
      .next ((s.lines
        ([.drive .sda true] ++ (bitOrder.take j).flatMap (fun k => evSample (z k) (bitAt b k)) ++
          (if j = 8 then [.drive .sda (!ack)] else []) ++ evHeld s.params.nBit)
        rest (if j = 8 then !ack else true) true).responded .timeout none none))

/-- R164, for EVERY environment: nothing follows the read of SCL that ran out, so a primitive that times out issues no
STOP. -/
def Obligations.TimeoutEndsAPrimitive : Prop :=
  ∀ (i : Instr) (s t : State), isPrimitive i = true → exec i s = .next t → t.status = some .timeout →
    ∃ es, t.trace = s.trace ++ es ++ [.read .scl false]

/-- R161, for EVERY environment and every command: a read of a line follows, within the same command, a drive that
released the line, with none between that pulled it low. -/
def Obligations.ReadsOfReleasedLinesOnly : Prop :=
  ∀ (i : Instr) (s t : State), exec i s = .next t → ∃ es, t.trace = s.trace ++ es ∧ ReadsReleased es

/-- R36, R160: no command reads the line latches, so that what was driven before changes nothing a command does. -/
def Obligations.LatchesAreNotRead : Prop :=
  ∀ (i : Instr) (s : State) (a b : Option Bit),
    match exec i s, exec i { s with outSda := a, outScl := b } with
    | .next t, .next t' => t' = { t with outSda := t'.outSda, outScl := t'.outScl }
    | .fault r, .fault r' => r = r'
    | .refused r, .refused r' => r = r'
    | _, _ => False

/-- `s` with other durations: `HALF_DELAY` of a two-wire configuration and `T_TRIAL`. -/
def Sys2Proof.Machine.State.withDurations (h k : Nat) (s : State) : State :=
  { s with
    params := { s.params with tTrial := k }
    cfg :=
      match s.cfg with
      | some (.twoWire c) => some (.twoWire { c with halfDelay := h })
      | c => c }

/-- R32, R131, R370: the durations of the two delays change nothing: a command does the same with others. INIT replaces
`HALF_DELAY`, so it is left out. -/
def Obligations.DurationsChangeNothing : Prop :=
  ∀ (i : Instr) (s : State) (h k : Nat), (∀ c f, i ≠ .init c f) →
    exec i (s.withDurations h k) =
      match exec i s with
      | .next t => .next (t.withDurations h k)
      | .fault r => .fault r
      | .refused r => .refused r

/-! ## The engine's transactions (41_bitbang_transactions.md) -/

/-- R170, R99: an engine command with a null handle, without an initialized two-wire handle, or with a null output where
it returns data, fails with INVALID_PARAM and changes no state but the response registers and the host's position. R170
names the response registers alone: that the position advances (R22) is the model's reading (assumption 19). -/
def Obligations.EngineEntryCheck : Prop :=
  ∀ (i : Instr) (s : State) (hnull onull : Bool), s.upc = .idle → engineFlags i = some (hnull, onull) →
    (hnull = true ∨ s.init = false ∨ (∀ c, s.cfg ≠ some (.twoWire c)) ∨ onull = true) →
    exec i s = .next (s.responded .invalidParam none none)

/-- R171: an address width other than 1 and 2, a read of length 0 and 0 trials fail with INVALID_PARAM and no line
action, and change nothing but the response (as for every failed check: assumption 19); a write of length 0 is legal and
sends no data bytes. -/
def Obligations.OperandChecks : Prop :=
  (∀ (s : State) (dev aw : Byte) (a : Word16) (xs : List Byte) (h : Bool), s.upc = .idle → aw ≠ 1 → aw ≠ 2 →
    exec (.bbMemWrite dev aw a xs h) s = .next (s.responded .invalidParam none none)) ∧
  (∀ (s : State) (dev aw : Byte) (a : Word16) (n : Word32) (o h : Bool), s.upc = .idle → aw ≠ 1 → aw ≠ 2 →
    exec (.bbMemRead dev aw a n o h) s = .next (s.responded .invalidParam none none)) ∧
  (∀ (s : State) (dev : Byte) (o h : Bool), s.upc = .idle →
    exec (.bbRead dev 0 o h) s = .next (s.responded .invalidParam none none)) ∧
  (∀ (s : State) (dev aw : Byte) (a : Word16) (o h : Bool), s.upc = .idle →
    exec (.bbMemRead dev aw a 0 o h) s = .next (s.responded .invalidParam none none)) ∧
  (∀ (s : State) (dev : Byte) (h : Bool), s.upc = .idle →
    exec (.bbIsDeviceReady dev 0 h) s = .next (s.responded .invalidParam none none)) ∧
  (∀ (s : State) (dev : Byte) (rest : List Bit), s.EngineReady → s.lineIn = ansS ++ ansW false ++ ansS ++ rest →
    exec (.bbWrite dev [] false) s =
      .next ((s.lines (evS ++ evW (addrByteOf dev .write s) false ++ evP) rest true true).responded .ok none none)) ∧
  (∀ (s : State) (dev aw : Byte) (a : Word16) (rest : List Bit), s.EngineReady → aw = 1 ∨ aw = 2 →
    s.lineIn = ansS ++ ansW false ++ ansWs (maddr a aw) ++ ansS ++ rest →
    exec (.bbMemWrite dev aw a [] false) s =
      .next ((s.lines (evS ++ evW (addrByteOf dev .write s) false ++ evWs (maddr a aw) ++ evP) rest true true).responded
        .ok none none))

/-- R174: a write whose bytes are all acknowledged, without stretching. -/
def Obligations.WriteTransaction : Prop :=
  ∀ (s : State) (dev : Byte) (xs : List Byte) (rest : List Bit), s.EngineReady →
    s.lineIn = ansS ++ ansW false ++ ansWs xs ++ ansS ++ rest →
    exec (.bbWrite dev xs false) s =
      .next ((s.lines (evS ++ evW (addrByteOf dev .write s) false ++ evWs xs ++ evP) rest true true).responded
        .ok none none)

/-- R176: a read whose address byte is acknowledged, without stretching: every byte but the last is acknowledged, and
`D_OUT` is the bytes in the order received. -/
def Obligations.ReadTransaction : Prop :=
  ∀ (s : State) (dev : Byte) (len : Word32) (xs : List Byte) (rest : List Bit), s.EngineReady → len ≠ 0 →
    xs.length = len.toNat → s.lineIn = ansS ++ ansW false ++ ansRbs xs ++ ansS ++ rest →
    exec (.bbRead dev len false false) s =
      .next ((s.lines (evS ++ evW (addrByteOf dev .read s) false ++ evRbs xs ++ evP) rest true true).responded
        .ok none (some xs))

/-- R180: a memory write whose bytes are all acknowledged, without stretching, with an address of either width. -/
def Obligations.MemWriteTransaction : Prop :=
  ∀ (s : State) (dev aw : Byte) (a : Word16) (xs : List Byte) (rest : List Bit), s.EngineReady → aw = 1 ∨ aw = 2 →
    s.lineIn = ansS ++ ansW false ++ ansWs (maddr a aw) ++ ansWs xs ++ ansS ++ rest →
    exec (.bbMemWrite dev aw a xs false) s =
      .next ((s.lines (evS ++ evW (addrByteOf dev .write s) false ++ evWs (maddr a aw) ++ evWs xs ++ evP) rest
        true true).responded .ok none none)

/-- R182: a memory read whose address bytes are all acknowledged, without stretching: a repeated start with no stop
before it, then the bytes. -/
def Obligations.MemReadTransaction : Prop :=
  ∀ (s : State) (dev aw : Byte) (a : Word16) (len : Word32) (xs : List Byte) (rest : List Bit), s.EngineReady →
    aw = 1 ∨ aw = 2 → len ≠ 0 → xs.length = len.toNat →
    s.lineIn = ansS ++ ansW false ++ ansWs (maddr a aw) ++ ansS ++ ansW false ++ ansRbs xs ++ ansS ++ rest →
    exec (.bbMemRead dev aw a len false false) s =
      .next ((s.lines
        (evS ++ evW (addrByteOf dev .write s) false ++ evWs (maddr a aw) ++ evS ++ evW (addrByteOf dev .read s) false ++
          evRbs xs ++ evP) rest true true).responded .ok none (some xs))

/-- R190, without stretching but where a wait runs out: ready at the first acknowledged trial, with a delay after each
refused one; NACK after the last; TIMEOUT, and no further trial, where a trial's START, one of the nine waits of its
address byte (after `j` bits), an acknowledged trial's STOP or a refused trial's STOP runs out. `k` is the number of
trials refused before. -/
def Obligations.IsDeviceReady : Prop :=
  ∀ (s : State) (dev : Byte) (n : Word32) (b : Byte) (refused : List Event) (refusedIn : List Bit), s.EngineReady →
    b = addrByteOf dev .write s → refused = evS ++ evW b true ++ evP → refusedIn = ansS ++ ansW true ++ ansS →
    (∀ (k : Nat) (rest : List Bit), k < n.toNat →
      s.lineIn = (List.replicate k refusedIn).flatten ++ ansS ++ ansW false ++ ansS ++ rest →
      exec (.bbIsDeviceReady dev n false) s =
        .next ((s.lines ((List.replicate k (refused ++ [.delay .trial])).flatten ++ evS ++ evW b false ++ evP) rest
          true true).responded .ok none none)) ∧
    (∀ rest : List Bit, n ≠ 0 → s.lineIn = (List.replicate n.toNat refusedIn).flatten ++ rest →
      exec (.bbIsDeviceReady dev n false) s =
        .next ((s.lines ((List.replicate (n.toNat - 1) (refused ++ [.delay .trial])).flatten ++ refused) rest
          true true).responded .nack none none)) ∧
    (∀ (k : Nat) (rest : List Bit), k < n.toNat →
      s.lineIn = (List.replicate k refusedIn).flatten ++ ansHeld s.params.nStart ++ ansS ++ rest →
      exec (.bbIsDeviceReady dev n false) s =
        .next ((s.lines ((List.replicate k (refused ++ [.delay .trial])).flatten ++ evStartHeld s ++ evP) rest
          true true).responded .timeout none none)) ∧
    (∀ (k : Nat) (rest : List Bit), k < n.toNat →
      s.lineIn = (List.replicate k refusedIn).flatten ++ ansS ++ ansW true ++ ansHeld s.params.nStop ++ rest →
      exec (.bbIsDeviceReady dev n false) s =
        .next ((s.lines
          ((List.replicate k (refused ++ [.delay .trial])).flatten ++ evS ++ evW b true ++ evStopHeld s) rest
          false true).responded .timeout none none)) ∧
    (∀ (k : Nat) (rest : List Bit), k < n.toNat →
      s.lineIn = (List.replicate k refusedIn).flatten ++ ansS ++ ansW false ++ ansHeld s.params.nStop ++ rest →
      exec (.bbIsDeviceReady dev n false) s =
        .next ((s.lines
          ((List.replicate k (refused ++ [.delay .trial])).flatten ++ evS ++ evW b false ++ evStopHeld s) rest
          false true).responded .timeout none none)) ∧
    (∀ (k j : Nat) (rest : List Bit), k < n.toNat → j ≤ 8 →
      s.lineIn = (List.replicate k refusedIn).flatten ++ ansS ++ ansSendHeld s j ++ ansS ++ rest →
      exec (.bbIsDeviceReady dev n false) s =
        .next ((s.lines
          ((List.replicate k (refused ++ [.delay .trial])).flatten ++ evS ++ evSendHeld s b j ++ evP) rest
          true true).responded .timeout none none))

/-- R172, R173, R307(3), (4) and (6), without stretching but where a wait runs out: a transaction whose first address byte
is refused ends at once with NACK; one in which a wait runs out, in its START, its repeated START or any byte it sends or
receives, ends at once with TIMEOUT; each after a STOP whose own result is discarded. `done` are the steps before it. -/
def Obligations.AbortedTransaction : Prop :=
  (∀ (s : State) (i : Instr) (b : Byte), s.EngineReady → firstByteOnWire s i = some b →
    EndsAborted s i [.start] .nack (evW b true) (ansW true)) ∧
  (∀ (s : State) (i : Instr) (ys : List Byte) (done left : List WireUnit) (u : WireUnit) (es : List Event)
    (as : List Bit), s.EngineReady → wireUnits s ys i = some (done ++ u :: left) → RunsOut s u es as →
    EndsAborted s i done .timeout es as)

/-- R173, R174, R180, R182: a byte that is refused after the first address byte, a memory address byte, the second address
byte of a memory read or a data byte, the last one included, ends the transaction with NACK after the STOP, and no later
byte is sent. -/
def Obligations.DataByteRefused : Prop :=
  ∀ (s : State) (i : Instr) (ys : List Byte) (a y : Byte) (mid left : List WireUnit), s.EngineReady →
    wireUnits s ys i = some (.start :: .send a :: mid ++ .send y :: left) →
    EndsAborted s i (.start :: .send a :: mid) .nack (evW y true) (ansW true)

/-- R172: when everything before it succeeded, the STOP's result is the command's: where its wait runs out, the status
of any of the four transactions is TIMEOUT, and the bytes that were read are not returned. -/
def Obligations.FinalStopRunsOut : Prop :=
  ∀ (s : State) (i : Instr) (ys : List Byte) (units : List WireUnit) (rest : List Bit), s.EngineReady →
    wireUnits s ys i = some units →
    s.lineIn = units.flatMap WireUnit.answers ++ ansHeld s.params.nStop ++ rest →
    exec i s =
      .next ((s.lines (units.flatMap WireUnit.events ++ evStopHeld s) rest false true).responded .timeout none none)

/-- R172, R305 to R308, for EVERY environment: an engine transaction that passes its checks ends with a STOP, whatever
happened before; its status is OK, NACK or TIMEOUT; and it is OK only if that STOP saw SCL high. -/
def Obligations.TransactionsEndWithAStop : Prop :=
  ∀ (s : State) (i : Instr), s.EngineReady →
    ((∃ b, firstByteOnWire s i = some b) ∨ ∃ dev n, i = .bbIsDeviceReady dev n false ∧ n ≠ 0) →
    ∃ t es, exec i s = .next t ∧
      ((∃ z, z < s.params.nStop.val ∧ t.trace = s.trace ++ es ++ evStop z) ∨
       (t.trace = s.trace ++ es ++ evStopHeld s ∧ t.status ≠ some .ok)) ∧
      (t.status = some .ok ∨ t.status = some .nack ∨ t.status = some .timeout)

/-! ## The facade (42_transport_and_handle.md, 43_facade_access.md) -/

/-- R250, R251, R228: a facade command with a null handle, without an initialized handle, with a null output, with an
empty burst, or of another width than 16 bits on the management transport, fails with INVALID_PARAM, calls no port and
changes no state but the response registers and the host's position. R251 names `STATUS` alone: that `RVAL` and `D_OUT`
become absent (R37) and the position advances (R22) is the model's reading of the three together (assumption 19). -/
def Obligations.FacadeEntryCheck : Prop :=
  ∀ (i : Instr) (s : State) (hnull onull : Bool), s.upc = .idle → facadeFlags i = some (hnull, onull) →
    (hnull = true ∨ s.init = false ∨ onull = true ∨ emptyBurst i = true ∨
      ((∃ c, s.cfg = some (.mgmt c)) ∧ sixteenBit i = false)) →
    exec i s = .next (s.responded .invalidParam none none)

/-- R220, R221, R255 to R257, R265, R277: the reads over the two-wire transport, every byte acknowledged, no
stretching. -/
def Obligations.TwoWireReads : Prop :=
  (∀ (s : State) (a : Word16) (x : Byte) (rest : List Bit), s.EngineReady → s.lineIn = ansTwRead [x] ++ rest →
    exec (.readU8 a false false) s =
      .next ((s.lines (evTwRead s a [x]) rest true true).responded .ok (some (x.setWidth 32)) none)) ∧
  (∀ (s : State) (a v : Word16) (rest : List Bit), s.EngineReady → s.lineIn = ansTwRead (be16 v) ++ rest →
    exec (.readU16 a false false) s =
      .next ((s.lines (evTwRead s a (be16 v)) rest true true).responded .ok (some (v.setWidth 32)) none)) ∧
  (∀ (s : State) (a : Word16) (v : Word32) (rest : List Bit), s.EngineReady → s.lineIn = ansTwRead (be32 v) ++ rest →
    exec (.readU32 a false false) s =
      .next ((s.lines (evTwRead s a (be32 v)) rest true true).responded .ok (some v) none)) ∧
  (∀ (s : State) (a : Word16) (len : Word32) (xs : List Byte) (rest : List Bit), s.EngineReady → len ≠ 0 →
    xs.length = len.toNat → s.lineIn = ansTwRead xs ++ rest →
    exec (.readBurst a len false false) s =
      .next ((s.lines (evTwRead s a xs) rest true true).responded .ok none (some xs)))

/-- R220, R221, R260 to R262, R266, R277: the writes over the two-wire transport, every byte acknowledged, no
stretching. -/
def Obligations.TwoWireWrites : Prop :=
  (∀ (s : State) (a : Word16) (v : Byte) (rest : List Bit), s.EngineReady → s.lineIn = ansTwWrite [v] ++ rest →
    exec (.writeU8 a v false) s =
      .next ((s.lines (evTwWrite s a [v]) rest true true).responded .ok none none)) ∧
  (∀ (s : State) (a v : Word16) (rest : List Bit), s.EngineReady → s.lineIn = ansTwWrite (be16 v) ++ rest →
    exec (.writeU16 a v false) s =
      .next ((s.lines (evTwWrite s a [v.extractLsb' 8 8, v.extractLsb' 0 8]) rest true true).responded .ok none none)) ∧
  (∀ (s : State) (a : Word16) (v : Word32) (rest : List Bit), s.EngineReady → s.lineIn = ansTwWrite (be32 v) ++ rest →
    exec (.writeU32 a v false) s =
      .next ((s.lines
        (evTwWrite s a [v.extractLsb' 24 8, v.extractLsb' 16 8, v.extractLsb' 8 8, v.extractLsb' 0 8]) rest
        true true).responded .ok none none)) ∧
  (∀ (s : State) (a : Word16) (xs : List Byte) (rest : List Bit), s.EngineReady → xs ≠ [] →
    s.lineIn = ansTwWrite xs ++ rest →
    exec (.writeBurst a xs false) s =
      .next ((s.lines (evTwWrite s a xs) rest true true).responded .ok none none))

/-- R270, R272, R277: the modifies over the two-wire transport: a read, then a write of the merged value, also where it
equals the value read. -/
def Obligations.TwoWireModifies : Prop :=
  (∀ (s : State) (a : Word16) (v mask value w : Byte) (rest : List Bit), s.EngineReady →
    w = (v &&& ~~~mask) ||| (value &&& mask) → s.lineIn = ansTwRead [v] ++ ansTwWrite [w] ++ rest →
    exec (.modifyU8 a mask value false) s =
      .next ((s.lines (evTwRead s a [v] ++ evTwWrite s a [w]) rest true true).responded .ok none none)) ∧
  (∀ (s : State) (a v mask value w : Word16) (rest : List Bit), s.EngineReady →
    w = (v &&& ~~~mask) ||| (value &&& mask) → s.lineIn = ansTwRead (be16 v) ++ ansTwWrite (be16 w) ++ rest →
    exec (.modifyU16 a mask value false) s =
      .next ((s.lines (evTwRead s a (be16 v) ++ evTwWrite s a (be16 w)) rest true true).responded .ok none none))

/-- R276, R173: over the two-wire transport every facade command passes a refused address on as NACK, after the STOP; a
modify then writes nothing. -/
def Obligations.TwoWireAddressRefused : Prop :=
  ∀ (s : State) (i : Instr) (rest : List Bit), s.EngineReady → accepted i →
    s.lineIn = ansS ++ ansW true ++ ansS ++ rest →
    exec i s =
      .next ((s.lines (evS ++ evW (addrByteOf s.params.twDev .write s) true ++ evP) rest true true).responded
        .nack none none)

/-- R222, R255 to R257, R265, R277: the reads over the block-transfer transport. -/
def Obligations.BlockReads : Prop :=
  (∀ (s : State) (c : BlockConfig) (a : Word16) (x : Byte) (rest : List PortAnswer), s.BlockReady c →
    s.portIn = ansStatus .ok :: ansBytes [x] :: rest →
    exec (.readU8 a false false) s =
      .next ((s.ports (evBtRead s c a [x]) rest).responded .ok (some (x.setWidth 32)) none)) ∧
  (∀ (s : State) (c : BlockConfig) (a v : Word16) (rest : List PortAnswer), s.BlockReady c →
    s.portIn = ansStatus .ok :: ansBytes (be16 v) :: rest →
    exec (.readU16 a false false) s =
      .next ((s.ports (evBtRead s c a (be16 v)) rest).responded .ok (some (v.setWidth 32)) none)) ∧
  (∀ (s : State) (c : BlockConfig) (a : Word16) (v : Word32) (rest : List PortAnswer), s.BlockReady c →
    s.portIn = ansStatus .ok :: ansBytes (be32 v) :: rest →
    exec (.readU32 a false false) s =
      .next ((s.ports (evBtRead s c a (be32 v)) rest).responded .ok (some v) none)) ∧
  (∀ (s : State) (c : BlockConfig) (a : Word16) (len : Word32) (xs : List Byte) (rest : List PortAnswer),
    s.BlockReady c → len ≠ 0 → xs.length = len.toNat → s.portIn = ansStatus .ok :: ansBytes xs :: rest →
    exec (.readBurst a len false false) s =
      .next ((s.ports (evBtRead s c a xs) rest).responded .ok none (some xs)))

/-- R223, R260 to R262, R266, R277: the writes over the block-transfer transport. -/
def Obligations.BlockWrites : Prop :=
  (∀ (s : State) (c : BlockConfig) (a : Word16) (v : Byte) (rest : List PortAnswer), s.BlockReady c →
    s.portIn = ansStatus .ok :: ansStatus .ok :: rest →
    exec (.writeU8 a v false) s = .next ((s.ports (evBtWrite s c a [v]) rest).responded .ok none none)) ∧
  (∀ (s : State) (c : BlockConfig) (a v : Word16) (rest : List PortAnswer), s.BlockReady c →
    s.portIn = ansStatus .ok :: ansStatus .ok :: rest →
    exec (.writeU16 a v false) s =
      .next ((s.ports (evBtWrite s c a [v.extractLsb' 8 8, v.extractLsb' 0 8]) rest).responded .ok none none)) ∧
  (∀ (s : State) (c : BlockConfig) (a : Word16) (v : Word32) (rest : List PortAnswer), s.BlockReady c →
    s.portIn = ansStatus .ok :: ansStatus .ok :: rest →
    exec (.writeU32 a v false) s =
      .next ((s.ports
        (evBtWrite s c a [v.extractLsb' 24 8, v.extractLsb' 16 8, v.extractLsb' 8 8, v.extractLsb' 0 8]) rest).responded
        .ok none none)) ∧
  (∀ (s : State) (c : BlockConfig) (a : Word16) (xs : List Byte) (rest : List PortAnswer), s.BlockReady c → xs ≠ [] →
    s.portIn = ansStatus .ok :: ansStatus .ok :: rest →
    exec (.writeBurst a xs false) s = .next ((s.ports (evBtWrite s c a xs) rest).responded .ok none none))

/-- R270, R272, R277: the modifies over the block-transfer transport. -/
def Obligations.BlockModifies : Prop :=
  (∀ (s : State) (c : BlockConfig) (a : Word16) (v mask value w : Byte) (rest : List PortAnswer), s.BlockReady c →
    w = (v &&& ~~~mask) ||| (value &&& mask) →
    s.portIn = ansStatus .ok :: ansBytes [v] :: ansStatus .ok :: ansStatus .ok :: rest →
    exec (.modifyU8 a mask value false) s =
      .next ((s.ports (evBtRead s c a [v] ++ evBtWrite s c a [w]) rest).responded .ok none none)) ∧
  (∀ (s : State) (c : BlockConfig) (a v mask value w : Word16) (rest : List PortAnswer), s.BlockReady c →
    w = (v &&& ~~~mask) ||| (value &&& mask) →
    s.portIn = ansStatus .ok :: ansBytes (be16 v) :: ansStatus .ok :: ansStatus .ok :: rest →
    exec (.modifyU16 a mask value false) s =
      .next ((s.ports (evBtRead s c a (be16 v) ++ evBtWrite s c a (be16 w)) rest).responded .ok none none))

/-- R222, R223, R270, R272, R304: a call that the port fails ends the access with the port's status: after a failed
header the data is not moved, after failed data none is returned, a modify whose read fails writes nothing, and the
chip-select is deasserted each time. -/
def Obligations.BlockCallFails : Prop :=
  (∀ (s : State) (c : BlockConfig) (i : Instr) (st : Status) (rest : List PortAnswer), s.BlockReady c →
    accepted i → st ≠ .ok → s.portIn = ansStatus st :: rest →
    exec i s =
      .next ((s.ports
        [.csAssert c.btDev,
          if writesOnly i then evWriteHeader s c (facadeAddr i) st else evReadHeader s c (facadeAddr i) st,
          .csDeassert c.btDev] rest).responded st none none)) ∧
  (∀ (s : State) (c : BlockConfig) (i : Instr) (n : Nat) (st : Status) (rest : List PortAnswer), s.BlockReady c →
    accepted i → readLength i = some n → st ≠ .ok → s.portIn = ansStatus .ok :: ansStatus st :: rest →
    exec i s =
      .next ((s.ports
        [.csAssert c.btDev, evReadHeader s c (facadeAddr i) .ok, .btRead c.btDev n st none, .csDeassert c.btDev]
        rest).responded st none none)) ∧
  (∀ (s : State) (c : BlockConfig) (i : Instr) (xs : List Byte) (st : Status) (rest : List PortAnswer), s.BlockReady c →
    accepted i → writtenBytes i = some xs → st ≠ .ok → s.portIn = ansStatus .ok :: ansStatus st :: rest →
    exec i s =
      .next ((s.ports
        [.csAssert c.btDev, evWriteHeader s c (facadeAddr i) .ok, .btWrite c.btDev xs st, .csDeassert c.btDev]
        rest).responded st none none))

/-- R226, R227, R256, R261, R272, R277: the 16-bit commands over the management transport, which moves the value as a
whole. -/
def Obligations.ManagementAccess : Prop :=
  (∀ (s : State) (c : MgmtConfig) (a v : Word16) (rest : List PortAnswer), s.MgmtReady c →
    s.portIn = ansValue v :: rest →
    exec (.readU16 a false false) s =
      .next ((s.ports [.mgRead c.mgDev a .ok (some v)] rest).responded .ok (some (v.setWidth 32)) none)) ∧
  (∀ (s : State) (c : MgmtConfig) (a v : Word16) (st : Status) (rest : List PortAnswer), s.MgmtReady c →
    s.portIn = ansStatus st :: rest →
    exec (.writeU16 a v false) s =
      .next ((s.ports [.mgWrite c.mgDev a v st] rest).responded st none none)) ∧
  (∀ (s : State) (c : MgmtConfig) (a v mask value w : Word16) (st : Status) (rest : List PortAnswer), s.MgmtReady c →
    w = (v &&& ~~~mask) ||| (value &&& mask) → s.portIn = ansValue v :: ansStatus st :: rest →
    exec (.modifyU16 a mask value false) s =
      .next ((s.ports [.mgRead c.mgDev a .ok (some v), .mgWrite c.mgDev a w st] rest).responded st none none)) ∧
  (∀ (s : State) (c : MgmtConfig) (a mask value : Word16) (st : Status) (rest : List PortAnswer), s.MgmtReady c →
    st ≠ .ok → s.portIn = ansStatus st :: rest →
    exec (.readU16 a false false) s =
      .next ((s.ports [.mgRead c.mgDev a st none] rest).responded st none none) ∧
    exec (.modifyU16 a mask value false) s =
      .next ((s.ports [.mgRead c.mgDev a st none] rest).responded st none none))

/-- R275: bit by bit, a merge takes the value where the mask is 1 and the old value elsewhere, at both widths. -/
def Obligations.MergeLaw : Prop :=
  (∀ (v mask value : Byte) (k : Nat), k < 8 →
    (merge v mask value).getLsbD k = if mask.getLsbD k then value.getLsbD k else v.getLsbD k) ∧
  (∀ (v mask value : Word16) (k : Nat), k < 16 →
    (merge v mask value).getLsbD k = if mask.getLsbD k then value.getLsbD k else v.getLsbD k)

/-- R70, R224, for EVERY environment: on the block-transfer transport a facade command whose entry check fails makes no
chip-select cycle, a read or a write exactly one, and a modify one or two, two where it returns OK; a cycle asserts the
chip-select, makes calls to the one device, and deasserts it. -/
def Obligations.ChipSelectCycles : Prop :=
  ∀ (s t : State) (c : BlockConfig) (i : Instr) (h o : Bool), s.BlockReady c → facadeFlags i = some (h, o) →
    exec i s = .next t → t.upc = .idle →
    ∃ cycles : List (List Event),
      (¬ accepted i → cycles = []) ∧
      (accepted i → cycles ≠ [] ∧ cycles.length ≤ (if isModify i then 2 else 1)) ∧
      (t.status = some .ok → cycles.length = (if isModify i then 2 else 1)) ∧
      t.trace = s.trace ++ cycles.flatMap (fun es => .csAssert c.btDev :: es ++ [.csDeassert c.btDev]) ∧
      ∀ es ∈ cycles, es ≠ [] ∧ ∀ e ∈ es, (∃ xs st, e = .btWrite c.btDev xs st) ∨ ∃ n st ys, e = .btRead c.btDev n st ys

/-- R69, R103, R265, for EVERY environment: READ_U8 gives a byte, READ_U16 a 16-bit value, and the three commands that
return bytes give exactly as many as their length says. -/
def Obligations.ReadWidths : Prop :=
  (∀ (s t : State) (a : Word16) (o h : Bool) (v : Word32), exec (.readU8 a o h) s = .next t → t.upc = .idle →
    t.rval = some v → v.toNat < 2 ^ 8) ∧
  (∀ (s t : State) (ack o h : Bool) (v : Word32), exec (.bbReadByte ack o h) s = .next t → t.rval = some v →
    v.toNat < 2 ^ 8) ∧
  (∀ (s t : State) (a : Word16) (o h : Bool) (v : Word32), exec (.readU16 a o h) s = .next t → t.upc = .idle →
    t.rval = some v → v.toNat < 2 ^ 16) ∧
  (∀ (s t : State) (i : Instr) (len : Word32) (xs : List Byte),
    ((∃ dev o h, i = .bbRead dev len o h) ∨ (∃ dev aw a o h, i = .bbMemRead dev aw a len o h) ∨
      ∃ a o h, i = .readBurst a len o h) →
    exec i s = .next t → t.upc = .idle → t.dOut = some xs → xs.length = len.toNat)

/-! ## Responses and failures (10_state.md R37, 60_exceptions.md) -/

/-- R37: a command that returns has written `STATUS`; `RVAL` is present exactly after an OK of a command that returns a
value, and `D_OUT` exactly after an OK of one that returns bytes. -/
def Obligations.ResponseRegisters : Prop :=
  ∀ (i : Instr) (s t : State), exec i s = .next t → t.upc = .idle →
    t.status.isSome = true ∧
    (t.rval.isSome = true ↔ t.status = some .ok ∧ returnsValue i = true) ∧
    (t.dOut.isSome = true ↔ t.status = some .ok ∧ returnsBytes i = true)

/-- R22, R24: a command appends events and removes none; `HPC` increases by 1 with the response, and only then. -/
def Obligations.TraceGrowsAndHostAdvances : Prop :=
  ∀ (i : Instr) (s t : State), exec i s = .next t →
    (∃ es, t.trace = s.trace ++ es) ∧
    ((t.upc = .idle ∧ t.hpc = s.hpc + 1) ∨ (t.upc ≠ .idle ∧ t.hpc = s.hpc ∧ t.status = s.status))

/-- R229 and the transports' rules: over the lines a command takes no port answer and makes no port call; over ports it
takes no line answer and leaves the lines and their latches as they were. -/
def Obligations.TransportsAreSeparate : Prop :=
  (∀ (i : Instr) (s t : State), (∃ c, s.cfg = some (.twoWire c)) → exec i s = .next t →
    t.portIn = s.portIn ∧ ∃ es, t.trace = s.trace ++ es ∧ ∀ e ∈ es, e.onLines = true) ∧
  (∀ (i : Instr) (s t : State), (∀ c, s.cfg ≠ some (.twoWire c)) → exec i s = .next t →
    t.lineIn = s.lineIn ∧ t.outSda = s.outSda ∧ t.outScl = s.outScl ∧
    ∃ es, t.trace = s.trace ++ es ∧ ∀ e ∈ es, e.onLines = false)

/-- R304: BUS_ERROR and GENERIC_ERROR reach `STATUS` only when a port has returned them during the command. -/
def Obligations.BusErrorsComeFromPorts : Prop :=
  ∀ (i : Instr) (s t : State) (st : Status), exec i s = .next t → t.upc = .idle → t.status = some st →
    st = .busError ∨ st = .genericError →
    ∃ es, t.trace = s.trace ++ es ∧ ∃ e ∈ es, e.portStatus = some st

/-- R276, R304: a status other than OK that a port returns during a command is the command's status. -/
def Obligations.PortFailurePassesThrough : Prop :=
  ∀ (i : Instr) (s t : State) (es : List Event) (e : Event) (st : Status), exec i s = .next t → t.upc = .idle →
    t.trace = s.trace ++ es → e ∈ es → e.portStatus = some st → st ≠ .ok → t.status = some st

/-- R301: a command that answers INVALID_PARAM has done nothing before, unless a port returned that status. -/
def Obligations.InvalidParamBeforeAnyAction : Prop :=
  ∀ (i : Instr) (s t : State), exec i s = .next t → t.upc = .idle → t.status = some .invalidParam →
    t = s.responded .invalidParam none none ∨
    ∃ es, t.trace = s.trace ++ es ∧ ∃ e ∈ es, e.portStatus = some .invalidParam

/-- R310, R43: a command of an idle block returns, whatever the environment answers, if every port call returns; it is
refused only where an answer is outside its port's type, and never where the environment's answers are the free ones. -/
def Obligations.EveryCommandReturns : Prop :=
  ∀ (i : Instr) (s : State), s.upc = .idle → (∀ a ∈ s.portIn, a ≠ .noReturn) →
    (∃ t, exec i s = .next t ∧ t.upc = .idle) ∨
    (s.portIn ≠ [] ∧
      ∃ r, exec i s = .refused r ∧
        (r = .portStatusReserved ∨ r = .portByteCount ∨ r = .portDataWithFailure ∨ r = .portAnswerType))

/-- R310, I2: a port that never returns, at whichever of its calls a command meets it, leaves the block inside that call;
the response registers, the host's position and all else are as before the command, the trace holds the events up to the
call, and every later step leaves the block there. That the call itself has appended no event is the model's choice
(assumption 5). -/
def Obligations.PortThatNeverReturns : Prop :=
  ∀ (i : Instr) (s : State) (answered rest : List PortAnswer) (es : List Event) (k : PortType), s.upc = .idle →
    s.init = true → accepted i → ComesTo s i answered es k → s.portIn = answered ++ .noReturn :: rest →
    ∃ (p : Pos) (t : State),
      t = { s.ports es (.noReturn :: rest) with upc := .running i p, session := Session.clear } ∧
      exec i s = .next t ∧ t.InCall ∧ step t = .next t

/-- R43, I16: at every port call of every facade command, an answer of code 6 or 7, bytes of another number than asked
for and data with a failure are refused, each by its name; so are an OK without the port's data and an OK with data of
another type, which the spec does not name (assumption 6). -/
def Obligations.AnswersOutsideTheirType : Prop :=
  ∀ (i : Instr) (s : State) (answered rest : List PortAnswer) (es : List Event) (k : PortType) (code : BitVec 3)
    (data : PortData) (r : Refusal), s.upc = .idle → s.init = true → accepted i → ComesTo s i answered es k →
    OutsideType k code data r → s.portIn = answered ++ .answer code data :: rest → exec i s = .refused r

/-! ## Invariants and refinement -/

/-- The state after reset meets the invariant. -/
def Obligations.ResetMeetsInvariant : Prop := State.reset.Inv

/-- Every step keeps the invariant: the configuration invariant (R35), no data after a failure (R37), no session carried
over (R39), latches that agree with the trace (R36), reads of released lines only (R161), chip-select bracketing (R224),
and no place inside a command but a call that has not returned (R310). -/
def Obligations.StepKeepsInvariant : Prop := ∀ s t : State, s.Inv → step s = .next t → t.Inv

/-- The micro-steps of 10_state.md R21 and the states of R163 and R195 run every command to the outcome `exec` gives: from
some number of micro-steps on, the run has come to that outcome and stays there. -/
def Obligations.MicroStepsRefineExec : Prop :=
  ∀ (i : Instr) (s : State), s.upc = .idle → ∃ n, ∀ m, n ≤ m → microRun m (issue i s) = exec i s

/-- R38: no command's micro-program reads a session register that it has not written, or reaches a position outside
itself: no run of micro-steps from the start of a command faults. -/
def Obligations.NoMicroProgramFaults : Prop :=
  ∀ (i : Instr) (s : State) (n : Nat) (r : Fault), s.upc = .idle →
    (issue i s).session = Session.clear ∧ microRun n (issue i s) ≠ .fault r
end

