-- ==== Sys2Proof/Machine/Assembly.lean ====
section
/-! DEFINITION. The assembly syntax of commands (30_encoding.md R106), as the parts of a line: mnemonic, flag suffixes and
operands. It is another spelling of the commands; the expansions of R107 are what the commands do and add none. -/

namespace Sys2Proof.Machine

/-- An operand of an assembly line. -/
inductive AsmOperand where
  | config (c : TransportConfig)
  | ack
  | nack
  | number (v : Nat)
  | bytes (xs : List Byte)
deriving DecidableEq, Repr

/-- An assembly line: the mnemonic in lower case, the suffixes `.hnull`, `.onull` and `.cnull`, and the operands. -/
structure AsmLine where
  mnemonic : String
  hnull : Bool
  onull : Bool
  cnull : Bool
  operands : List AsmOperand
deriving DecidableEq, Repr

/-- A line without the suffix `.cnull`. -/
def asmLine (mnemonic : String) (hnull onull : Bool) (operands : List AsmOperand) : AsmLine :=
  ⟨mnemonic, hnull, onull, false, operands⟩

/-- The assembly line of a command. -/
def toAsm : Instr → AsmLine
  | .init (some c) hnull => asmLine "init" hnull false [.config c]
  | .init none hnull => ⟨"init", hnull, false, true, []⟩
  | .deinit hnull => asmLine "deinit" hnull false []
  | .bbStart hnull => asmLine "bb.start" hnull false []
  | .bbStop hnull => asmLine "bb.stop" hnull false []
  | .bbWriteByte b hnull => asmLine "bb.write_byte" hnull false [.number b.toNat]
  | .bbReadByte true onull hnull => asmLine "bb.read_byte" hnull onull [.ack]
  | .bbReadByte false onull hnull => asmLine "bb.read_byte" hnull onull [.nack]
  | .bbWrite dev xs hnull => asmLine "bb.write" hnull false [.number dev.toNat, .bytes xs]
  | .bbRead dev len onull hnull => asmLine "bb.read" hnull onull [.number dev.toNat, .number len.toNat]
  | .bbMemWrite dev aw a xs hnull =>
    asmLine "bb.mem_write" hnull false [.number dev.toNat, .number a.toNat, .number aw.toNat, .bytes xs]
  | .bbMemRead dev aw a len onull hnull =>
    asmLine "bb.mem_read" hnull onull [.number dev.toNat, .number a.toNat, .number aw.toNat, .number len.toNat]
  | .bbIsDeviceReady dev n hnull =>
    asmLine "bb.is_device_ready" hnull false [.number dev.toNat, .number n.toNat]
  | .readU8 a onull hnull => asmLine "read_u8" hnull onull [.number a.toNat]
  | .readU16 a onull hnull => asmLine "read_u16" hnull onull [.number a.toNat]
  | .readU32 a onull hnull => asmLine "read_u32" hnull onull [.number a.toNat]
  | .writeU8 a v hnull => asmLine "write_u8" hnull false [.number a.toNat, .number v.toNat]
  | .writeU16 a v hnull => asmLine "write_u16" hnull false [.number a.toNat, .number v.toNat]
  | .writeU32 a v hnull => asmLine "write_u32" hnull false [.number a.toNat, .number v.toNat]
  | .readBurst a len onull hnull => asmLine "read_burst" hnull onull [.number a.toNat, .number len.toNat]
  | .writeBurst a xs hnull => asmLine "write_burst" hnull false [.number a.toNat, .bytes xs]
  | .modifyU8 a m v hnull => asmLine "modify_u8" hnull false [.number a.toNat, .number m.toNat, .number v.toNat]
  | .modifyU16 a m v hnull => asmLine "modify_u16" hnull false [.number a.toNat, .number m.toNat, .number v.toNat]

/-- A number that fits an operand of `w` bits. -/
def fits (w v : Nat) : Option (BitVec w) := if v < 2 ^ w then some (BitVec.ofNat w v) else none

/-- The command of an assembly line whose suffixes the command has; its operands must fit their fields. -/
def fromAsm (l : AsmLine) : Option Instr :=
  match l.mnemonic, l.onull, l.cnull, l.operands with
  | "init", false, false, [.config c] => some (.init (some c) l.hnull)
  | "init", false, true, [] => some (.init none l.hnull)
  | "deinit", false, false, [] => some (.deinit l.hnull)
  | "bb.start", false, false, [] => some (.bbStart l.hnull)
  | "bb.stop", false, false, [] => some (.bbStop l.hnull)
  | "bb.write_byte", false, false, [.number b] => do return .bbWriteByte (← fits 8 b) l.hnull
  | "bb.read_byte", o, false, [.ack] => some (.bbReadByte true o l.hnull)
  | "bb.read_byte", o, false, [.nack] => some (.bbReadByte false o l.hnull)
  | "bb.write", false, false, [.number dev, .bytes xs] => do return .bbWrite (← fits 8 dev) xs l.hnull
  | "bb.read", o, false, [.number dev, .number n] => do return .bbRead (← fits 8 dev) (← fits 32 n) o l.hnull
  | "bb.mem_write", false, false, [.number dev, .number a, .number aw, .bytes xs] => do
    return .bbMemWrite (← fits 8 dev) (← fits 8 aw) (← fits 16 a) xs l.hnull
  | "bb.mem_read", o, false, [.number dev, .number a, .number aw, .number n] => do
    return .bbMemRead (← fits 8 dev) (← fits 8 aw) (← fits 16 a) (← fits 32 n) o l.hnull
  | "bb.is_device_ready", false, false, [.number dev, .number n] => do
    return .bbIsDeviceReady (← fits 8 dev) (← fits 32 n) l.hnull
  | "read_u8", o, false, [.number a] => do return .readU8 (← fits 16 a) o l.hnull
  | "read_u16", o, false, [.number a] => do return .readU16 (← fits 16 a) o l.hnull
  | "read_u32", o, false, [.number a] => do return .readU32 (← fits 16 a) o l.hnull
  | "write_u8", false, false, [.number a, .number v] => do return .writeU8 (← fits 16 a) (← fits 8 v) l.hnull
  | "write_u16", false, false, [.number a, .number v] => do return .writeU16 (← fits 16 a) (← fits 16 v) l.hnull
  | "write_u32", false, false, [.number a, .number v] => do return .writeU32 (← fits 16 a) (← fits 32 v) l.hnull
  | "read_burst", o, false, [.number a, .number n] => do return .readBurst (← fits 16 a) (← fits 32 n) o l.hnull
  | "write_burst", false, false, [.number a, .bytes xs] => do return .writeBurst (← fits 16 a) xs l.hnull
  | "modify_u8", false, false, [.number a, .number m, .number v] => do
    return .modifyU8 (← fits 16 a) (← fits 8 m) (← fits 8 v) l.hnull
  | "modify_u16", false, false, [.number a, .number m, .number v] => do
    return .modifyU16 (← fits 16 a) (← fits 16 m) (← fits 16 v) l.hnull
  | _, _, _, _ => none

end Sys2Proof.Machine
end

