-- ==== Sys2Proof/Laws/Assembly.lean ====
section
/-! SUPPORT. The assembly line of a command names that command alone (30_encoding.md R106). -/

namespace Sys2Proof.Machine

theorem fits_toNat {w : Nat} (v : BitVec w) : fits w v.toNat = some v := by simp [fits, v.isLt]

theorem fits_bind {w : Nat} {β : Type} (v : BitVec w) (f : BitVec w → Option β) : (fits w v.toNat >>= f) = f v := by
  rw [fits_toNat]
  rfl

theorem fromAsm_toAsm (i : Instr) : fromAsm (toAsm i) = some i := by
  cases i with
  | init c h => cases c <;> rfl
  | deinit | bbStart | bbStop => rfl
  | bbReadByte a o h => cases a <;> rfl
  | bbWriteByte b h => exact fits_bind b _
  | bbWrite dev xs h => exact fits_bind dev _
  | bbRead dev n o h => exact (fits_bind dev _).trans (fits_bind n _)
  | bbMemWrite dev aw a xs h => exact (fits_bind dev _).trans ((fits_bind aw _).trans (fits_bind a _))
  | bbMemRead dev aw a n o h =>
    exact (fits_bind dev _).trans ((fits_bind aw _).trans ((fits_bind a _).trans (fits_bind n _)))
  | bbIsDeviceReady dev n h => exact (fits_bind dev _).trans (fits_bind n _)
  | readU8 a | readU16 a | readU32 a => exact fits_bind a _
  | writeU8 a v | writeU16 a v | writeU32 a v => exact (fits_bind a _).trans (fits_bind v _)
  | readBurst a n => exact (fits_bind a _).trans (fits_bind n _)
  | writeBurst a xs => exact fits_bind a _
  | modifyU8 a m v | modifyU16 a m v => exact (fits_bind a _).trans ((fits_bind m _).trans (fits_bind v _))

end Sys2Proof.Machine
end

