-- ==== Sys2Proof/Laws/Encoding.lean ====
section
/-! SUPPORT. The fields of an encoded `w0` (30_encoding.md R91): its number, its bits, its opcode; and the table of
opcodes read in both directions (R97). -/

namespace Sys2Proof

theorem Op.ofCode_code (op : Op) : Op.ofCode op.code = some op := by cases op <;> rfl

theorem Op.code_of_ofCode {c : BitVec 8} {op : Op} (h : Op.ofCode c = some op) : op.code = c := by
  have := List.find?_some h
  simpa using this

/-- `w0` as a number: each field at its place. -/
theorem packW0_toNat (op : Op) (dev arg : Byte) (f1 f0 : Bool) :
    (packW0 op dev arg f1 f0).toNat =
      op.code.toNat * 2 ^ 24 + dev.toNat * 2 ^ 16 + arg.toNat * 2 ^ 8 + f1.toNat * 2 + f0.toNat := by
  simp only [packW0, BitVec.toNat_append, BitVec.toNat_ofBool]
  have h1 := dev.isLt
  have h2 := arg.isLt
  have e : ∀ a b n : Nat, b < 2 ^ n → a <<< n ||| b = a * 2 ^ n + b := by
    intro a b n hb
    rw [Nat.shiftLeft_eq, Nat.mul_comm, Nat.two_pow_add_eq_or_of_lt hb]
  rw [e _ _ _ (by cases f0 <;> decide), e _ _ _ (by cases f1 <;> decide), e _ _ _ (by simp), e _ _ _ h2, e _ _ _ h1]
  simp
  omega

/-- The bits of `w0`. -/
theorem packW0_bit (op : Op) (dev arg : Byte) (f1 f0 : Bool) (k : Nat) :
    (packW0 op dev arg f1 f0).getLsbD k =
      if k = 0 then f0 else if k = 1 then f1 else if k < 8 then false
      else if k < 16 then arg.getLsbD (k - 8) else if k < 24 then dev.getLsbD (k - 16) else op.code.getLsbD (k - 24) := by
  simp only [packW0, BitVec.getLsbD_append, BitVec.getLsbD_ofBool]
  rcases k with _ | _ | k
  · simp
  · simp
  · have h : decide (k < 6) = decide (k + 1 + 1 < 8) := decide_eq_decide.2 (by omega)
    simp only [Nat.add_sub_cancel, Nat.sub_sub]
    simp [h]
    repeat' split
    all_goals first | rfl | omega

/-- A field of `w0` is its number divided and cut. -/
theorem packW0_field (op : Op) (dev arg : Byte) (f1 f0 : Bool) :
    (packW0 op dev arg f1 f0).extractLsb' 24 8 = op.code ∧ (packW0 op dev arg f1 f0).extractLsb' 16 8 = dev ∧
    (packW0 op dev arg f1 f0).extractLsb' 8 8 = arg ∧ (packW0 op dev arg f1 f0).getLsbD 1 = f1 ∧
    (packW0 op dev arg f1 f0).getLsbD 0 = f0 := by
  have := op.code.isLt
  have := dev.isLt
  have := arg.isLt
  have := f1.toNat_lt
  have := f0.toNat_lt
  refine ⟨?_, ?_, ?_, by rw [packW0_bit]; simp, by rw [packW0_bit]; simp⟩ <;>
  · apply BitVec.eq_of_toNat_eq
    rw [BitVec.extractLsb'_toNat, packW0_toNat, Nat.shiftRight_eq_div_pow]
    omega

theorem Op.mask_high (op : Op) (k : Nat) (hk : k < 8) : op.mask.getLsbD (24 + k) = true := by
  have h : ∀ j : Fin 8, op.mask.getLsbD (24 + j.val) = true := by cases op <;> decide
  exact h ⟨k, hk⟩

/-- A `w0` whose operands lie outside the mask agrees with the row's `match` (R97). -/
theorem packW0_mask (op : Op) (dev arg : Byte) (f1 f0 : Bool) (hdev : dev &&& op.mask.extractLsb' 16 8 = 0)
    (harg : arg &&& op.mask.extractLsb' 8 8 = 0) (h1 : (f1 && op.mask.getLsbD 1) = false)
    (h0 : (f0 && op.mask.getLsbD 0) = false) : packW0 op dev arg f1 f0 &&& op.mask = op.pattern := by
  apply BitVec.eq_of_getLsbD_eq
  intro k hk
  rw [BitVec.getLsbD_and, packW0_bit, Op.pattern, BitVec.getLsbD_append]
  by_cases k24 : k < 24
  · simp only [k24, if_true, BitVec.getLsbD_zero]
    split
    · next h => subst h; simpa using h0
    · split
      · next h => subst h; simpa using h1
      · split
        · simp
        · next h8 =>
          split
          · have := congrArg (fun v => v.getLsbD (k - 8)) harg
            simpa [show 8 + (k - 8) = k by omega, show k - 8 < 8 by omega] using this
          · have := congrArg (fun v => v.getLsbD (k - 16)) hdev
            simpa [show 16 + (k - 16) = k by omega, show k - 16 < 8 by omega] using this
  · have hm := Op.mask_high op (k - 24) (by omega)
    rw [show 24 + (k - 24) = k by omega] at hm
    simp [hm, k24, show ¬ k = 0 by omega, show ¬ k = 1 by omega, show ¬ k < 8 by omega, show ¬ k < 16 by omega]

end Sys2Proof
end

