-- ==== Sys2Proof/Laws/State.lean ====
section
/-! SUPPORT. One lemma for each field of the state and each update of it, so that no later proof unfolds a record
update; and one inversion for each shape of a result. -/

namespace Sys2Proof.Machine

/-! ## Writes of single registers -/

@[simp] theorem State.setUpc_init (u : Upc) (s : State) : (s.setUpc u).init = s.init := rfl
@[simp] theorem State.setUpc_cfg (u : Upc) (s : State) : (s.setUpc u).cfg = s.cfg := rfl
@[simp] theorem State.setUpc_outSda (u : Upc) (s : State) : (s.setUpc u).outSda = s.outSda := rfl
@[simp] theorem State.setUpc_outScl (u : Upc) (s : State) : (s.setUpc u).outScl = s.outScl := rfl
@[simp] theorem State.setUpc_trace (u : Upc) (s : State) : (s.setUpc u).trace = s.trace := rfl
@[simp] theorem State.setUpc_upc (u : Upc) (s : State) : (s.setUpc u).upc = u := rfl
@[simp] theorem State.setUpc_session (u : Upc) (s : State) : (s.setUpc u).session = s.session := rfl
@[simp] theorem State.setUpc_status (u : Upc) (s : State) : (s.setUpc u).status = s.status := rfl
@[simp] theorem State.setUpc_rval (u : Upc) (s : State) : (s.setUpc u).rval = s.rval := rfl
@[simp] theorem State.setUpc_dOut (u : Upc) (s : State) : (s.setUpc u).dOut = s.dOut := rfl
@[simp] theorem State.setUpc_hpc (u : Upc) (s : State) : (s.setUpc u).hpc = s.hpc := rfl
@[simp] theorem State.setUpc_program (u : Upc) (s : State) : (s.setUpc u).program = s.program := rfl
@[simp] theorem State.setUpc_params (u : Upc) (s : State) : (s.setUpc u).params = s.params := rfl
@[simp] theorem State.setUpc_lineIn (u : Upc) (s : State) : (s.setUpc u).lineIn = s.lineIn := rfl
@[simp] theorem State.setUpc_portIn (u : Upc) (s : State) : (s.setUpc u).portIn = s.portIn := rfl
@[simp] theorem State.setSession_init (x : Session) (s : State) : (s.setSession x).init = s.init := rfl
@[simp] theorem State.setSession_cfg (x : Session) (s : State) : (s.setSession x).cfg = s.cfg := rfl
@[simp] theorem State.setSession_outSda (x : Session) (s : State) : (s.setSession x).outSda = s.outSda := rfl
@[simp] theorem State.setSession_outScl (x : Session) (s : State) : (s.setSession x).outScl = s.outScl := rfl
@[simp] theorem State.setSession_trace (x : Session) (s : State) : (s.setSession x).trace = s.trace := rfl
@[simp] theorem State.setSession_upc (x : Session) (s : State) : (s.setSession x).upc = s.upc := rfl
@[simp] theorem State.setSession_session (x : Session) (s : State) : (s.setSession x).session = x := rfl
@[simp] theorem State.setSession_status (x : Session) (s : State) : (s.setSession x).status = s.status := rfl
@[simp] theorem State.setSession_rval (x : Session) (s : State) : (s.setSession x).rval = s.rval := rfl
@[simp] theorem State.setSession_dOut (x : Session) (s : State) : (s.setSession x).dOut = s.dOut := rfl
@[simp] theorem State.setSession_hpc (x : Session) (s : State) : (s.setSession x).hpc = s.hpc := rfl
@[simp] theorem State.setSession_program (x : Session) (s : State) : (s.setSession x).program = s.program := rfl
@[simp] theorem State.setSession_params (x : Session) (s : State) : (s.setSession x).params = s.params := rfl
@[simp] theorem State.setSession_lineIn (x : Session) (s : State) : (s.setSession x).lineIn = s.lineIn := rfl
@[simp] theorem State.setSession_portIn (x : Session) (s : State) : (s.setSession x).portIn = s.portIn := rfl
@[simp] theorem State.setSr_init (x : Byte) (s : State) : (s.setSr x).init = s.init := rfl
@[simp] theorem State.setSr_cfg (x : Byte) (s : State) : (s.setSr x).cfg = s.cfg := rfl
@[simp] theorem State.setSr_outSda (x : Byte) (s : State) : (s.setSr x).outSda = s.outSda := rfl
@[simp] theorem State.setSr_outScl (x : Byte) (s : State) : (s.setSr x).outScl = s.outScl := rfl
@[simp] theorem State.setSr_trace (x : Byte) (s : State) : (s.setSr x).trace = s.trace := rfl
@[simp] theorem State.setSr_upc (x : Byte) (s : State) : (s.setSr x).upc = s.upc := rfl
@[simp] theorem State.setSr_session (x : Byte) (s : State) : (s.setSr x).session = { s.session with sr := some x } := rfl
@[simp] theorem State.setSr_status (x : Byte) (s : State) : (s.setSr x).status = s.status := rfl
@[simp] theorem State.setSr_rval (x : Byte) (s : State) : (s.setSr x).rval = s.rval := rfl
@[simp] theorem State.setSr_dOut (x : Byte) (s : State) : (s.setSr x).dOut = s.dOut := rfl
@[simp] theorem State.setSr_hpc (x : Byte) (s : State) : (s.setSr x).hpc = s.hpc := rfl
@[simp] theorem State.setSr_program (x : Byte) (s : State) : (s.setSr x).program = s.program := rfl
@[simp] theorem State.setSr_params (x : Byte) (s : State) : (s.setSr x).params = s.params := rfl
@[simp] theorem State.setSr_lineIn (x : Byte) (s : State) : (s.setSr x).lineIn = s.lineIn := rfl
@[simp] theorem State.setSr_portIn (x : Byte) (s : State) : (s.setSr x).portIn = s.portIn := rfl
@[simp] theorem State.setBc_init (x : Nat) (s : State) : (s.setBc x).init = s.init := rfl
@[simp] theorem State.setBc_cfg (x : Nat) (s : State) : (s.setBc x).cfg = s.cfg := rfl
@[simp] theorem State.setBc_outSda (x : Nat) (s : State) : (s.setBc x).outSda = s.outSda := rfl
@[simp] theorem State.setBc_outScl (x : Nat) (s : State) : (s.setBc x).outScl = s.outScl := rfl
@[simp] theorem State.setBc_trace (x : Nat) (s : State) : (s.setBc x).trace = s.trace := rfl
@[simp] theorem State.setBc_upc (x : Nat) (s : State) : (s.setBc x).upc = s.upc := rfl
@[simp] theorem State.setBc_session (x : Nat) (s : State) : (s.setBc x).session = { s.session with bc := some x } := rfl
@[simp] theorem State.setBc_status (x : Nat) (s : State) : (s.setBc x).status = s.status := rfl
@[simp] theorem State.setBc_rval (x : Nat) (s : State) : (s.setBc x).rval = s.rval := rfl
@[simp] theorem State.setBc_dOut (x : Nat) (s : State) : (s.setBc x).dOut = s.dOut := rfl
@[simp] theorem State.setBc_hpc (x : Nat) (s : State) : (s.setBc x).hpc = s.hpc := rfl
@[simp] theorem State.setBc_program (x : Nat) (s : State) : (s.setBc x).program = s.program := rfl
@[simp] theorem State.setBc_params (x : Nat) (s : State) : (s.setBc x).params = s.params := rfl
@[simp] theorem State.setBc_lineIn (x : Nat) (s : State) : (s.setBc x).lineIn = s.lineIn := rfl
@[simp] theorem State.setBc_portIn (x : Nat) (s : State) : (s.setBc x).portIn = s.portIn := rfl
@[simp] theorem State.setSc_init (x : Nat) (s : State) : (s.setSc x).init = s.init := rfl
@[simp] theorem State.setSc_cfg (x : Nat) (s : State) : (s.setSc x).cfg = s.cfg := rfl
@[simp] theorem State.setSc_outSda (x : Nat) (s : State) : (s.setSc x).outSda = s.outSda := rfl
@[simp] theorem State.setSc_outScl (x : Nat) (s : State) : (s.setSc x).outScl = s.outScl := rfl
@[simp] theorem State.setSc_trace (x : Nat) (s : State) : (s.setSc x).trace = s.trace := rfl
@[simp] theorem State.setSc_upc (x : Nat) (s : State) : (s.setSc x).upc = s.upc := rfl
@[simp] theorem State.setSc_session (x : Nat) (s : State) : (s.setSc x).session = { s.session with sc := some x } := rfl
@[simp] theorem State.setSc_status (x : Nat) (s : State) : (s.setSc x).status = s.status := rfl
@[simp] theorem State.setSc_rval (x : Nat) (s : State) : (s.setSc x).rval = s.rval := rfl
@[simp] theorem State.setSc_dOut (x : Nat) (s : State) : (s.setSc x).dOut = s.dOut := rfl
@[simp] theorem State.setSc_hpc (x : Nat) (s : State) : (s.setSc x).hpc = s.hpc := rfl
@[simp] theorem State.setSc_program (x : Nat) (s : State) : (s.setSc x).program = s.program := rfl
@[simp] theorem State.setSc_params (x : Nat) (s : State) : (s.setSc x).params = s.params := rfl
@[simp] theorem State.setSc_lineIn (x : Nat) (s : State) : (s.setSc x).lineIn = s.lineIn := rfl
@[simp] theorem State.setSc_portIn (x : Nat) (s : State) : (s.setSc x).portIn = s.portIn := rfl
@[simp] theorem State.setAckb_init (x : Bit) (s : State) : (s.setAckb x).init = s.init := rfl
@[simp] theorem State.setAckb_cfg (x : Bit) (s : State) : (s.setAckb x).cfg = s.cfg := rfl
@[simp] theorem State.setAckb_outSda (x : Bit) (s : State) : (s.setAckb x).outSda = s.outSda := rfl
@[simp] theorem State.setAckb_outScl (x : Bit) (s : State) : (s.setAckb x).outScl = s.outScl := rfl
@[simp] theorem State.setAckb_trace (x : Bit) (s : State) : (s.setAckb x).trace = s.trace := rfl
@[simp] theorem State.setAckb_upc (x : Bit) (s : State) : (s.setAckb x).upc = s.upc := rfl
@[simp] theorem State.setAckb_session (x : Bit) (s : State) : (s.setAckb x).session = { s.session with ackb := some x } := rfl
@[simp] theorem State.setAckb_status (x : Bit) (s : State) : (s.setAckb x).status = s.status := rfl
@[simp] theorem State.setAckb_rval (x : Bit) (s : State) : (s.setAckb x).rval = s.rval := rfl
@[simp] theorem State.setAckb_dOut (x : Bit) (s : State) : (s.setAckb x).dOut = s.dOut := rfl
@[simp] theorem State.setAckb_hpc (x : Bit) (s : State) : (s.setAckb x).hpc = s.hpc := rfl
@[simp] theorem State.setAckb_program (x : Bit) (s : State) : (s.setAckb x).program = s.program := rfl
@[simp] theorem State.setAckb_params (x : Bit) (s : State) : (s.setAckb x).params = s.params := rfl
@[simp] theorem State.setAckb_lineIn (x : Bit) (s : State) : (s.setAckb x).lineIn = s.lineIn := rfl
@[simp] theorem State.setAckb_portIn (x : Bit) (s : State) : (s.setAckb x).portIn = s.portIn := rfl
@[simp] theorem State.setBi_init (x : Nat) (s : State) : (s.setBi x).init = s.init := rfl
@[simp] theorem State.setBi_cfg (x : Nat) (s : State) : (s.setBi x).cfg = s.cfg := rfl
@[simp] theorem State.setBi_outSda (x : Nat) (s : State) : (s.setBi x).outSda = s.outSda := rfl
@[simp] theorem State.setBi_outScl (x : Nat) (s : State) : (s.setBi x).outScl = s.outScl := rfl
@[simp] theorem State.setBi_trace (x : Nat) (s : State) : (s.setBi x).trace = s.trace := rfl
@[simp] theorem State.setBi_upc (x : Nat) (s : State) : (s.setBi x).upc = s.upc := rfl
@[simp] theorem State.setBi_session (x : Nat) (s : State) : (s.setBi x).session = { s.session with bi := some x } := rfl
@[simp] theorem State.setBi_status (x : Nat) (s : State) : (s.setBi x).status = s.status := rfl
@[simp] theorem State.setBi_rval (x : Nat) (s : State) : (s.setBi x).rval = s.rval := rfl
@[simp] theorem State.setBi_dOut (x : Nat) (s : State) : (s.setBi x).dOut = s.dOut := rfl
@[simp] theorem State.setBi_hpc (x : Nat) (s : State) : (s.setBi x).hpc = s.hpc := rfl
@[simp] theorem State.setBi_program (x : Nat) (s : State) : (s.setBi x).program = s.program := rfl
@[simp] theorem State.setBi_params (x : Nat) (s : State) : (s.setBi x).params = s.params := rfl
@[simp] theorem State.setBi_lineIn (x : Nat) (s : State) : (s.setBi x).lineIn = s.lineIn := rfl
@[simp] theorem State.setBi_portIn (x : Nat) (s : State) : (s.setBi x).portIn = s.portIn := rfl
@[simp] theorem State.setTrial_init (x : Nat) (s : State) : (s.setTrial x).init = s.init := rfl
@[simp] theorem State.setTrial_cfg (x : Nat) (s : State) : (s.setTrial x).cfg = s.cfg := rfl
@[simp] theorem State.setTrial_outSda (x : Nat) (s : State) : (s.setTrial x).outSda = s.outSda := rfl
@[simp] theorem State.setTrial_outScl (x : Nat) (s : State) : (s.setTrial x).outScl = s.outScl := rfl
@[simp] theorem State.setTrial_trace (x : Nat) (s : State) : (s.setTrial x).trace = s.trace := rfl
@[simp] theorem State.setTrial_upc (x : Nat) (s : State) : (s.setTrial x).upc = s.upc := rfl
@[simp] theorem State.setTrial_session (x : Nat) (s : State) : (s.setTrial x).session = { s.session with trial := some x } := rfl
@[simp] theorem State.setTrial_status (x : Nat) (s : State) : (s.setTrial x).status = s.status := rfl
@[simp] theorem State.setTrial_rval (x : Nat) (s : State) : (s.setTrial x).rval = s.rval := rfl
@[simp] theorem State.setTrial_dOut (x : Nat) (s : State) : (s.setTrial x).dOut = s.dOut := rfl
@[simp] theorem State.setTrial_hpc (x : Nat) (s : State) : (s.setTrial x).hpc = s.hpc := rfl
@[simp] theorem State.setTrial_program (x : Nat) (s : State) : (s.setTrial x).program = s.program := rfl
@[simp] theorem State.setTrial_params (x : Nat) (s : State) : (s.setTrial x).params = s.params := rfl
@[simp] theorem State.setTrial_lineIn (x : Nat) (s : State) : (s.setTrial x).lineIn = s.lineIn := rfl
@[simp] theorem State.setTrial_portIn (x : Nat) (s : State) : (s.setTrial x).portIn = s.portIn := rfl
@[simp] theorem State.setErr_init (x : Status) (s : State) : (s.setErr x).init = s.init := rfl
@[simp] theorem State.setErr_cfg (x : Status) (s : State) : (s.setErr x).cfg = s.cfg := rfl
@[simp] theorem State.setErr_outSda (x : Status) (s : State) : (s.setErr x).outSda = s.outSda := rfl
@[simp] theorem State.setErr_outScl (x : Status) (s : State) : (s.setErr x).outScl = s.outScl := rfl
@[simp] theorem State.setErr_trace (x : Status) (s : State) : (s.setErr x).trace = s.trace := rfl
@[simp] theorem State.setErr_upc (x : Status) (s : State) : (s.setErr x).upc = s.upc := rfl
@[simp] theorem State.setErr_session (x : Status) (s : State) : (s.setErr x).session = { s.session with err := some x } := rfl
@[simp] theorem State.setErr_status (x : Status) (s : State) : (s.setErr x).status = s.status := rfl
@[simp] theorem State.setErr_rval (x : Status) (s : State) : (s.setErr x).rval = s.rval := rfl
@[simp] theorem State.setErr_dOut (x : Status) (s : State) : (s.setErr x).dOut = s.dOut := rfl
@[simp] theorem State.setErr_hpc (x : Status) (s : State) : (s.setErr x).hpc = s.hpc := rfl
@[simp] theorem State.setErr_program (x : Status) (s : State) : (s.setErr x).program = s.program := rfl
@[simp] theorem State.setErr_params (x : Status) (s : State) : (s.setErr x).params = s.params := rfl
@[simp] theorem State.setErr_lineIn (x : Status) (s : State) : (s.setErr x).lineIn = s.lineIn := rfl
@[simp] theorem State.setErr_portIn (x : Status) (s : State) : (s.setErr x).portIn = s.portIn := rfl
@[simp] theorem State.setBuf_init (x : List Byte) (s : State) : (s.setBuf x).init = s.init := rfl
@[simp] theorem State.setBuf_cfg (x : List Byte) (s : State) : (s.setBuf x).cfg = s.cfg := rfl
@[simp] theorem State.setBuf_outSda (x : List Byte) (s : State) : (s.setBuf x).outSda = s.outSda := rfl
@[simp] theorem State.setBuf_outScl (x : List Byte) (s : State) : (s.setBuf x).outScl = s.outScl := rfl
@[simp] theorem State.setBuf_trace (x : List Byte) (s : State) : (s.setBuf x).trace = s.trace := rfl
@[simp] theorem State.setBuf_upc (x : List Byte) (s : State) : (s.setBuf x).upc = s.upc := rfl
@[simp] theorem State.setBuf_session (x : List Byte) (s : State) : (s.setBuf x).session = { s.session with buf := some x } := rfl
@[simp] theorem State.setBuf_status (x : List Byte) (s : State) : (s.setBuf x).status = s.status := rfl
@[simp] theorem State.setBuf_rval (x : List Byte) (s : State) : (s.setBuf x).rval = s.rval := rfl
@[simp] theorem State.setBuf_dOut (x : List Byte) (s : State) : (s.setBuf x).dOut = s.dOut := rfl
@[simp] theorem State.setBuf_hpc (x : List Byte) (s : State) : (s.setBuf x).hpc = s.hpc := rfl
@[simp] theorem State.setBuf_program (x : List Byte) (s : State) : (s.setBuf x).program = s.program := rfl
@[simp] theorem State.setBuf_params (x : List Byte) (s : State) : (s.setBuf x).params = s.params := rfl
@[simp] theorem State.setBuf_lineIn (x : List Byte) (s : State) : (s.setBuf x).lineIn = s.lineIn := rfl
@[simp] theorem State.setBuf_portIn (x : List Byte) (s : State) : (s.setBuf x).portIn = s.portIn := rfl
@[simp] theorem State.emit_init (e : Event) (s : State) : (s.emit e).init = s.init := rfl
@[simp] theorem State.emit_cfg (e : Event) (s : State) : (s.emit e).cfg = s.cfg := rfl
@[simp] theorem State.emit_outSda (e : Event) (s : State) : (s.emit e).outSda = s.outSda := rfl
@[simp] theorem State.emit_outScl (e : Event) (s : State) : (s.emit e).outScl = s.outScl := rfl
@[simp] theorem State.emit_trace (e : Event) (s : State) : (s.emit e).trace = s.trace ++ [e] := rfl
@[simp] theorem State.emit_upc (e : Event) (s : State) : (s.emit e).upc = s.upc := rfl
@[simp] theorem State.emit_session (e : Event) (s : State) : (s.emit e).session = s.session := rfl
@[simp] theorem State.emit_status (e : Event) (s : State) : (s.emit e).status = s.status := rfl
@[simp] theorem State.emit_rval (e : Event) (s : State) : (s.emit e).rval = s.rval := rfl
@[simp] theorem State.emit_dOut (e : Event) (s : State) : (s.emit e).dOut = s.dOut := rfl
@[simp] theorem State.emit_hpc (e : Event) (s : State) : (s.emit e).hpc = s.hpc := rfl
@[simp] theorem State.emit_program (e : Event) (s : State) : (s.emit e).program = s.program := rfl
@[simp] theorem State.emit_params (e : Event) (s : State) : (s.emit e).params = s.params := rfl
@[simp] theorem State.emit_lineIn (e : Event) (s : State) : (s.emit e).lineIn = s.lineIn := rfl
@[simp] theorem State.emit_portIn (e : Event) (s : State) : (s.emit e).portIn = s.portIn := rfl
@[simp] theorem State.install_init (c : TransportConfig) (s : State) : (s.install c).init = true := rfl
@[simp] theorem State.install_cfg (c : TransportConfig) (s : State) : (s.install c).cfg = some c := rfl
@[simp] theorem State.install_outSda (c : TransportConfig) (s : State) : (s.install c).outSda = s.outSda := rfl
@[simp] theorem State.install_outScl (c : TransportConfig) (s : State) : (s.install c).outScl = s.outScl := rfl
@[simp] theorem State.install_trace (c : TransportConfig) (s : State) : (s.install c).trace = s.trace := rfl
@[simp] theorem State.install_upc (c : TransportConfig) (s : State) : (s.install c).upc = s.upc := rfl
@[simp] theorem State.install_session (c : TransportConfig) (s : State) : (s.install c).session = s.session := rfl
@[simp] theorem State.install_status (c : TransportConfig) (s : State) : (s.install c).status = s.status := rfl
@[simp] theorem State.install_rval (c : TransportConfig) (s : State) : (s.install c).rval = s.rval := rfl
@[simp] theorem State.install_dOut (c : TransportConfig) (s : State) : (s.install c).dOut = s.dOut := rfl
@[simp] theorem State.install_hpc (c : TransportConfig) (s : State) : (s.install c).hpc = s.hpc := rfl
@[simp] theorem State.install_program (c : TransportConfig) (s : State) : (s.install c).program = s.program := rfl
@[simp] theorem State.install_params (c : TransportConfig) (s : State) : (s.install c).params = s.params := rfl
@[simp] theorem State.install_lineIn (c : TransportConfig) (s : State) : (s.install c).lineIn = s.lineIn := rfl
@[simp] theorem State.install_portIn (c : TransportConfig) (s : State) : (s.install c).portIn = s.portIn := rfl
@[simp] theorem State.uninstall_init  (s : State) : (s.uninstall).init = false := rfl
@[simp] theorem State.uninstall_cfg  (s : State) : (s.uninstall).cfg = none := rfl
@[simp] theorem State.uninstall_outSda  (s : State) : (s.uninstall).outSda = s.outSda := rfl
@[simp] theorem State.uninstall_outScl  (s : State) : (s.uninstall).outScl = s.outScl := rfl
@[simp] theorem State.uninstall_trace  (s : State) : (s.uninstall).trace = s.trace := rfl
@[simp] theorem State.uninstall_upc  (s : State) : (s.uninstall).upc = s.upc := rfl
@[simp] theorem State.uninstall_session  (s : State) : (s.uninstall).session = s.session := rfl
@[simp] theorem State.uninstall_status  (s : State) : (s.uninstall).status = s.status := rfl
@[simp] theorem State.uninstall_rval  (s : State) : (s.uninstall).rval = s.rval := rfl
@[simp] theorem State.uninstall_dOut  (s : State) : (s.uninstall).dOut = s.dOut := rfl
@[simp] theorem State.uninstall_hpc  (s : State) : (s.uninstall).hpc = s.hpc := rfl
@[simp] theorem State.uninstall_program  (s : State) : (s.uninstall).program = s.program := rfl
@[simp] theorem State.uninstall_params  (s : State) : (s.uninstall).params = s.params := rfl
@[simp] theorem State.uninstall_lineIn  (s : State) : (s.uninstall).lineIn = s.lineIn := rfl
@[simp] theorem State.uninstall_portIn  (s : State) : (s.uninstall).portIn = s.portIn := rfl
@[simp] theorem State.answered_init  (s : State) : (s.answered).init = s.init := rfl
@[simp] theorem State.answered_cfg  (s : State) : (s.answered).cfg = s.cfg := rfl
@[simp] theorem State.answered_outSda  (s : State) : (s.answered).outSda = s.outSda := rfl
@[simp] theorem State.answered_outScl  (s : State) : (s.answered).outScl = s.outScl := rfl
@[simp] theorem State.answered_trace  (s : State) : (s.answered).trace = s.trace := rfl
@[simp] theorem State.answered_upc  (s : State) : (s.answered).upc = s.upc := rfl
@[simp] theorem State.answered_session  (s : State) : (s.answered).session = s.session := rfl
@[simp] theorem State.answered_status  (s : State) : (s.answered).status = s.status := rfl
@[simp] theorem State.answered_rval  (s : State) : (s.answered).rval = s.rval := rfl
@[simp] theorem State.answered_dOut  (s : State) : (s.answered).dOut = s.dOut := rfl
@[simp] theorem State.answered_hpc  (s : State) : (s.answered).hpc = s.hpc := rfl
@[simp] theorem State.answered_program  (s : State) : (s.answered).program = s.program := rfl
@[simp] theorem State.answered_params  (s : State) : (s.answered).params = s.params := rfl
@[simp] theorem State.answered_lineIn  (s : State) : (s.answered).lineIn = s.lineIn := rfl
@[simp] theorem State.answered_portIn  (s : State) : (s.answered).portIn = s.portIn.tail := rfl

/-! ## A move of UPC inside a command -/

@[simp] theorem State.moveTo_init (p : Pos) (s : State) : (s.moveTo p).init = s.init := by
  unfold State.moveTo; split <;> rfl
@[simp] theorem State.moveTo_cfg (p : Pos) (s : State) : (s.moveTo p).cfg = s.cfg := by
  unfold State.moveTo; split <;> rfl
@[simp] theorem State.moveTo_outSda (p : Pos) (s : State) : (s.moveTo p).outSda = s.outSda := by
  unfold State.moveTo; split <;> rfl
@[simp] theorem State.moveTo_outScl (p : Pos) (s : State) : (s.moveTo p).outScl = s.outScl := by
  unfold State.moveTo; split <;> rfl
@[simp] theorem State.moveTo_trace (p : Pos) (s : State) : (s.moveTo p).trace = s.trace := by
  unfold State.moveTo; split <;> rfl
@[simp] theorem State.moveTo_session (p : Pos) (s : State) : (s.moveTo p).session = s.session := by
  unfold State.moveTo; split <;> rfl
@[simp] theorem State.moveTo_status (p : Pos) (s : State) : (s.moveTo p).status = s.status := by
  unfold State.moveTo; split <;> rfl
@[simp] theorem State.moveTo_rval (p : Pos) (s : State) : (s.moveTo p).rval = s.rval := by
  unfold State.moveTo; split <;> rfl
@[simp] theorem State.moveTo_dOut (p : Pos) (s : State) : (s.moveTo p).dOut = s.dOut := by
  unfold State.moveTo; split <;> rfl
@[simp] theorem State.moveTo_hpc (p : Pos) (s : State) : (s.moveTo p).hpc = s.hpc := by
  unfold State.moveTo; split <;> rfl
@[simp] theorem State.moveTo_program (p : Pos) (s : State) : (s.moveTo p).program = s.program := by
  unfold State.moveTo; split <;> rfl
@[simp] theorem State.moveTo_params (p : Pos) (s : State) : (s.moveTo p).params = s.params := by
  unfold State.moveTo; split <;> rfl
@[simp] theorem State.moveTo_lineIn (p : Pos) (s : State) : (s.moveTo p).lineIn = s.lineIn := by
  unfold State.moveTo; split <;> rfl
@[simp] theorem State.moveTo_portIn (p : Pos) (s : State) : (s.moveTo p).portIn = s.portIn := by
  unfold State.moveTo; split <;> rfl
@[simp] theorem State.moveTo_upc_running (p q : Pos) (i : Instr) (s : State) (h : s.upc = .running i q) :
    (s.moveTo p).upc = .running i p := by simp [State.moveTo, h]

/-! ## Micro-operations -/

@[simp] theorem drv_sda_init (v : Bit) (s : State) : (drv .sda v s).init = s.init := rfl
@[simp] theorem drv_sda_cfg (v : Bit) (s : State) : (drv .sda v s).cfg = s.cfg := rfl
@[simp] theorem drv_sda_outSda (v : Bit) (s : State) : (drv .sda v s).outSda = some v := rfl
@[simp] theorem drv_sda_outScl (v : Bit) (s : State) : (drv .sda v s).outScl = s.outScl := rfl
@[simp] theorem drv_sda_trace (v : Bit) (s : State) : (drv .sda v s).trace = s.trace ++ [.drive .sda v] := rfl
@[simp] theorem drv_sda_upc (v : Bit) (s : State) : (drv .sda v s).upc = s.upc := rfl
@[simp] theorem drv_sda_session (v : Bit) (s : State) : (drv .sda v s).session = s.session := rfl
@[simp] theorem drv_sda_status (v : Bit) (s : State) : (drv .sda v s).status = s.status := rfl
@[simp] theorem drv_sda_rval (v : Bit) (s : State) : (drv .sda v s).rval = s.rval := rfl
@[simp] theorem drv_sda_dOut (v : Bit) (s : State) : (drv .sda v s).dOut = s.dOut := rfl
@[simp] theorem drv_sda_hpc (v : Bit) (s : State) : (drv .sda v s).hpc = s.hpc := rfl
@[simp] theorem drv_sda_program (v : Bit) (s : State) : (drv .sda v s).program = s.program := rfl
@[simp] theorem drv_sda_params (v : Bit) (s : State) : (drv .sda v s).params = s.params := rfl
@[simp] theorem drv_sda_lineIn (v : Bit) (s : State) : (drv .sda v s).lineIn = s.lineIn := rfl
@[simp] theorem drv_sda_portIn (v : Bit) (s : State) : (drv .sda v s).portIn = s.portIn := rfl
@[simp] theorem drv_scl_init (v : Bit) (s : State) : (drv .scl v s).init = s.init := rfl
@[simp] theorem drv_scl_cfg (v : Bit) (s : State) : (drv .scl v s).cfg = s.cfg := rfl
@[simp] theorem drv_scl_outSda (v : Bit) (s : State) : (drv .scl v s).outSda = s.outSda := rfl
@[simp] theorem drv_scl_outScl (v : Bit) (s : State) : (drv .scl v s).outScl = some v := rfl
@[simp] theorem drv_scl_trace (v : Bit) (s : State) : (drv .scl v s).trace = s.trace ++ [.drive .scl v] := rfl
@[simp] theorem drv_scl_upc (v : Bit) (s : State) : (drv .scl v s).upc = s.upc := rfl
@[simp] theorem drv_scl_session (v : Bit) (s : State) : (drv .scl v s).session = s.session := rfl
@[simp] theorem drv_scl_status (v : Bit) (s : State) : (drv .scl v s).status = s.status := rfl
@[simp] theorem drv_scl_rval (v : Bit) (s : State) : (drv .scl v s).rval = s.rval := rfl
@[simp] theorem drv_scl_dOut (v : Bit) (s : State) : (drv .scl v s).dOut = s.dOut := rfl
@[simp] theorem drv_scl_hpc (v : Bit) (s : State) : (drv .scl v s).hpc = s.hpc := rfl
@[simp] theorem drv_scl_program (v : Bit) (s : State) : (drv .scl v s).program = s.program := rfl
@[simp] theorem drv_scl_params (v : Bit) (s : State) : (drv .scl v s).params = s.params := rfl
@[simp] theorem drv_scl_lineIn (v : Bit) (s : State) : (drv .scl v s).lineIn = s.lineIn := rfl
@[simp] theorem drv_scl_portIn (v : Bit) (s : State) : (drv .scl v s).portIn = s.portIn := rfl
@[simp] theorem dly_init (k : Delay) (s : State) : (dly k s).init = s.init := rfl
@[simp] theorem dly_cfg (k : Delay) (s : State) : (dly k s).cfg = s.cfg := rfl
@[simp] theorem dly_outSda (k : Delay) (s : State) : (dly k s).outSda = s.outSda := rfl
@[simp] theorem dly_outScl (k : Delay) (s : State) : (dly k s).outScl = s.outScl := rfl
@[simp] theorem dly_trace (k : Delay) (s : State) : (dly k s).trace = s.trace ++ [.delay k] := rfl
@[simp] theorem dly_upc (k : Delay) (s : State) : (dly k s).upc = s.upc := rfl
@[simp] theorem dly_session (k : Delay) (s : State) : (dly k s).session = s.session := rfl
@[simp] theorem dly_status (k : Delay) (s : State) : (dly k s).status = s.status := rfl
@[simp] theorem dly_rval (k : Delay) (s : State) : (dly k s).rval = s.rval := rfl
@[simp] theorem dly_dOut (k : Delay) (s : State) : (dly k s).dOut = s.dOut := rfl
@[simp] theorem dly_hpc (k : Delay) (s : State) : (dly k s).hpc = s.hpc := rfl
@[simp] theorem dly_program (k : Delay) (s : State) : (dly k s).program = s.program := rfl
@[simp] theorem dly_params (k : Delay) (s : State) : (dly k s).params = s.params := rfl
@[simp] theorem dly_lineIn (k : Delay) (s : State) : (dly k s).lineIn = s.lineIn := rfl
@[simp] theorem dly_portIn (k : Delay) (s : State) : (dly k s).portIn = s.portIn := rfl
@[simp] theorem afterRead_init (l : Line) (s : State) : (afterRead l s).init = s.init := rfl
@[simp] theorem afterRead_cfg (l : Line) (s : State) : (afterRead l s).cfg = s.cfg := rfl
@[simp] theorem afterRead_outSda (l : Line) (s : State) : (afterRead l s).outSda = s.outSda := rfl
@[simp] theorem afterRead_outScl (l : Line) (s : State) : (afterRead l s).outScl = s.outScl := rfl
@[simp] theorem afterRead_trace (l : Line) (s : State) : (afterRead l s).trace = s.trace ++ [.read l (lineAnswer l s)] := rfl
@[simp] theorem afterRead_upc (l : Line) (s : State) : (afterRead l s).upc = s.upc := rfl
@[simp] theorem afterRead_session (l : Line) (s : State) : (afterRead l s).session = s.session := rfl
@[simp] theorem afterRead_status (l : Line) (s : State) : (afterRead l s).status = s.status := rfl
@[simp] theorem afterRead_rval (l : Line) (s : State) : (afterRead l s).rval = s.rval := rfl
@[simp] theorem afterRead_dOut (l : Line) (s : State) : (afterRead l s).dOut = s.dOut := rfl
@[simp] theorem afterRead_hpc (l : Line) (s : State) : (afterRead l s).hpc = s.hpc := rfl
@[simp] theorem afterRead_program (l : Line) (s : State) : (afterRead l s).program = s.program := rfl
@[simp] theorem afterRead_params (l : Line) (s : State) : (afterRead l s).params = s.params := rfl
@[simp] theorem afterRead_lineIn (l : Line) (s : State) : (afterRead l s).lineIn = s.lineIn.tail := rfl
@[simp] theorem afterRead_portIn (l : Line) (s : State) : (afterRead l s).portIn = s.portIn := rfl
@[simp] theorem callCsAssert_init (dev : Nat) (s : State) : (callCsAssert dev s).init = s.init := rfl
@[simp] theorem callCsAssert_cfg (dev : Nat) (s : State) : (callCsAssert dev s).cfg = s.cfg := rfl
@[simp] theorem callCsAssert_outSda (dev : Nat) (s : State) : (callCsAssert dev s).outSda = s.outSda := rfl
@[simp] theorem callCsAssert_outScl (dev : Nat) (s : State) : (callCsAssert dev s).outScl = s.outScl := rfl
@[simp] theorem callCsAssert_trace (dev : Nat) (s : State) : (callCsAssert dev s).trace = s.trace ++ [.csAssert dev] := rfl
@[simp] theorem callCsAssert_upc (dev : Nat) (s : State) : (callCsAssert dev s).upc = s.upc := rfl
@[simp] theorem callCsAssert_session (dev : Nat) (s : State) : (callCsAssert dev s).session = s.session := rfl
@[simp] theorem callCsAssert_status (dev : Nat) (s : State) : (callCsAssert dev s).status = s.status := rfl
@[simp] theorem callCsAssert_rval (dev : Nat) (s : State) : (callCsAssert dev s).rval = s.rval := rfl
@[simp] theorem callCsAssert_dOut (dev : Nat) (s : State) : (callCsAssert dev s).dOut = s.dOut := rfl
@[simp] theorem callCsAssert_hpc (dev : Nat) (s : State) : (callCsAssert dev s).hpc = s.hpc := rfl
@[simp] theorem callCsAssert_program (dev : Nat) (s : State) : (callCsAssert dev s).program = s.program := rfl
@[simp] theorem callCsAssert_params (dev : Nat) (s : State) : (callCsAssert dev s).params = s.params := rfl
@[simp] theorem callCsAssert_lineIn (dev : Nat) (s : State) : (callCsAssert dev s).lineIn = s.lineIn := rfl
@[simp] theorem callCsAssert_portIn (dev : Nat) (s : State) : (callCsAssert dev s).portIn = s.portIn := rfl
@[simp] theorem callCsDeassert_init (dev : Nat) (s : State) : (callCsDeassert dev s).init = s.init := rfl
@[simp] theorem callCsDeassert_cfg (dev : Nat) (s : State) : (callCsDeassert dev s).cfg = s.cfg := rfl
@[simp] theorem callCsDeassert_outSda (dev : Nat) (s : State) : (callCsDeassert dev s).outSda = s.outSda := rfl
@[simp] theorem callCsDeassert_outScl (dev : Nat) (s : State) : (callCsDeassert dev s).outScl = s.outScl := rfl
@[simp] theorem callCsDeassert_trace (dev : Nat) (s : State) : (callCsDeassert dev s).trace = s.trace ++ [.csDeassert dev] := rfl
@[simp] theorem callCsDeassert_upc (dev : Nat) (s : State) : (callCsDeassert dev s).upc = s.upc := rfl
@[simp] theorem callCsDeassert_session (dev : Nat) (s : State) : (callCsDeassert dev s).session = s.session := rfl
@[simp] theorem callCsDeassert_status (dev : Nat) (s : State) : (callCsDeassert dev s).status = s.status := rfl
@[simp] theorem callCsDeassert_rval (dev : Nat) (s : State) : (callCsDeassert dev s).rval = s.rval := rfl
@[simp] theorem callCsDeassert_dOut (dev : Nat) (s : State) : (callCsDeassert dev s).dOut = s.dOut := rfl
@[simp] theorem callCsDeassert_hpc (dev : Nat) (s : State) : (callCsDeassert dev s).hpc = s.hpc := rfl
@[simp] theorem callCsDeassert_program (dev : Nat) (s : State) : (callCsDeassert dev s).program = s.program := rfl
@[simp] theorem callCsDeassert_params (dev : Nat) (s : State) : (callCsDeassert dev s).params = s.params := rfl
@[simp] theorem callCsDeassert_lineIn (dev : Nat) (s : State) : (callCsDeassert dev s).lineIn = s.lineIn := rfl
@[simp] theorem callCsDeassert_portIn (dev : Nat) (s : State) : (callCsDeassert dev s).portIn = s.portIn := rfl

/-! ## The start of a command and its response -/

@[simp] theorem startCommand_init (i : Instr) (s : State) : (startCommand i s).init = s.init := rfl
@[simp] theorem startCommand_cfg (i : Instr) (s : State) : (startCommand i s).cfg = s.cfg := rfl
@[simp] theorem startCommand_outSda (i : Instr) (s : State) : (startCommand i s).outSda = s.outSda := rfl
@[simp] theorem startCommand_outScl (i : Instr) (s : State) : (startCommand i s).outScl = s.outScl := rfl
@[simp] theorem startCommand_trace (i : Instr) (s : State) : (startCommand i s).trace = s.trace := rfl
@[simp] theorem startCommand_upc (i : Instr) (s : State) : (startCommand i s).upc = .running i .entry := rfl
@[simp] theorem startCommand_session (i : Instr) (s : State) : (startCommand i s).session = Session.clear := rfl
@[simp] theorem startCommand_status (i : Instr) (s : State) : (startCommand i s).status = s.status := rfl
@[simp] theorem startCommand_rval (i : Instr) (s : State) : (startCommand i s).rval = s.rval := rfl
@[simp] theorem startCommand_dOut (i : Instr) (s : State) : (startCommand i s).dOut = s.dOut := rfl
@[simp] theorem startCommand_hpc (i : Instr) (s : State) : (startCommand i s).hpc = s.hpc := rfl
@[simp] theorem startCommand_program (i : Instr) (s : State) : (startCommand i s).program = s.program := rfl
@[simp] theorem startCommand_params (i : Instr) (s : State) : (startCommand i s).params = s.params := rfl
@[simp] theorem startCommand_lineIn (i : Instr) (s : State) : (startCommand i s).lineIn = s.lineIn := rfl
@[simp] theorem startCommand_portIn (i : Instr) (s : State) : (startCommand i s).portIn = s.portIn := rfl
@[simp] theorem respond_init (st : Status) (r : Option Word32) (d : Option (List Byte)) (s : State) : (respond st r d s).init = s.init := rfl
@[simp] theorem respond_cfg (st : Status) (r : Option Word32) (d : Option (List Byte)) (s : State) : (respond st r d s).cfg = s.cfg := rfl
@[simp] theorem respond_outSda (st : Status) (r : Option Word32) (d : Option (List Byte)) (s : State) : (respond st r d s).outSda = s.outSda := rfl
@[simp] theorem respond_outScl (st : Status) (r : Option Word32) (d : Option (List Byte)) (s : State) : (respond st r d s).outScl = s.outScl := rfl
@[simp] theorem respond_trace (st : Status) (r : Option Word32) (d : Option (List Byte)) (s : State) : (respond st r d s).trace = s.trace := rfl
@[simp] theorem respond_upc (st : Status) (r : Option Word32) (d : Option (List Byte)) (s : State) : (respond st r d s).upc = .idle := rfl
@[simp] theorem respond_session (st : Status) (r : Option Word32) (d : Option (List Byte)) (s : State) : (respond st r d s).session = Session.clear := rfl
@[simp] theorem respond_status (st : Status) (r : Option Word32) (d : Option (List Byte)) (s : State) : (respond st r d s).status = some st := rfl
@[simp] theorem respond_rval (st : Status) (r : Option Word32) (d : Option (List Byte)) (s : State) : (respond st r d s).rval = (if st = .ok then r else none) := rfl
@[simp] theorem respond_dOut (st : Status) (r : Option Word32) (d : Option (List Byte)) (s : State) : (respond st r d s).dOut = (if st = .ok then d else none) := rfl
@[simp] theorem respond_hpc (st : Status) (r : Option Word32) (d : Option (List Byte)) (s : State) : (respond st r d s).hpc = s.hpc + 1 := rfl
@[simp] theorem respond_program (st : Status) (r : Option Word32) (d : Option (List Byte)) (s : State) : (respond st r d s).program = s.program := rfl
@[simp] theorem respond_params (st : Status) (r : Option Word32) (d : Option (List Byte)) (s : State) : (respond st r d s).params = s.params := rfl
@[simp] theorem respond_lineIn (st : Status) (r : Option Word32) (d : Option (List Byte)) (s : State) : (respond st r d s).lineIn = s.lineIn := rfl
@[simp] theorem respond_portIn (st : Status) (r : Option Word32) (d : Option (List Byte)) (s : State) : (respond st r d s).portIn = s.portIn := rfl
@[simp] theorem respondInvalid_init  (s : State) : (respondInvalid s).init = s.init := rfl
@[simp] theorem respondInvalid_cfg  (s : State) : (respondInvalid s).cfg = s.cfg := rfl
@[simp] theorem respondInvalid_outSda  (s : State) : (respondInvalid s).outSda = s.outSda := rfl
@[simp] theorem respondInvalid_outScl  (s : State) : (respondInvalid s).outScl = s.outScl := rfl
@[simp] theorem respondInvalid_trace  (s : State) : (respondInvalid s).trace = s.trace := rfl
@[simp] theorem respondInvalid_upc  (s : State) : (respondInvalid s).upc = .idle := rfl
@[simp] theorem respondInvalid_session  (s : State) : (respondInvalid s).session = Session.clear := rfl
@[simp] theorem respondInvalid_status  (s : State) : (respondInvalid s).status = some .invalidParam := rfl
@[simp] theorem respondInvalid_rval  (s : State) : (respondInvalid s).rval = none := rfl
@[simp] theorem respondInvalid_dOut  (s : State) : (respondInvalid s).dOut = none := rfl
@[simp] theorem respondInvalid_hpc  (s : State) : (respondInvalid s).hpc = s.hpc + 1 := rfl
@[simp] theorem respondInvalid_program  (s : State) : (respondInvalid s).program = s.program := rfl
@[simp] theorem respondInvalid_params  (s : State) : (respondInvalid s).params = s.params := rfl
@[simp] theorem respondInvalid_lineIn  (s : State) : (respondInvalid s).lineIn = s.lineIn := rfl
@[simp] theorem respondInvalid_portIn  (s : State) : (respondInvalid s).portIn = s.portIn := rfl

/-! ## Answers to a read of a line -/

@[simp] theorem lineAnswer_cons (l : Line) (s : State) (v : Bit) (rest : List Bit) (h : s.lineIn = v :: rest) :
    lineAnswer l s = v := by simp [lineAnswer, h]

/-! ## Results -/

@[simp] theorem Result.andThen_ok {α β : Type} (x : α) (s : State) (f : α → State → Result β) :
    (Result.ok x s).andThen f = f x s := rfl
@[simp] theorem Result.andThen_fail {α β : Type} (st : Status) (s : State) (f : α → State → Result β) :
    (Result.fail st s : Result α).andThen f = .fail st s := rfl
@[simp] theorem Result.state_ok {α : Type} (x : α) (s : State) : (Result.ok x s).state = s := rfl
@[simp] theorem Result.state_fail {α : Type} (st : Status) (s : State) : (Result.fail st s : Result α).state = s := rfl
@[simp] theorem Result.status_ok {α : Type} (x : α) (s : State) : (Result.ok x s).status = .ok := rfl
@[simp] theorem Result.status_fail {α : Type} (st : Status) (s : State) : (Result.fail st s : Result α).status = st := rfl
@[simp] theorem Reply.andThen_ok {α β : Type} (x : α) (s : State) (f : α → State → Reply β) :
    (Reply.done (.ok x s)).andThen f = f x s := rfl
@[simp] theorem Reply.andThen_fail {α β : Type} (st : Status) (s : State) (f : α → State → Reply β) :
    (Reply.done (.fail st s) : Reply α).andThen f = .done (.fail st s) := rfl
@[simp] theorem Reply.andThen_stuck {α β : Type} (s : State) (f : α → State → Reply β) :
    (Reply.stuck s : Reply α).andThen f = .stuck s := rfl
@[simp] theorem Reply.andThen_refused {α β : Type} (e : Refusal) (f : α → State → Reply β) :
    (Reply.refused e : Reply α).andThen f = .refused e := rfl

/-- What goes on after a subroutine: it returned OK and the rest ran, or its failure is the result. -/
theorem Result.andThen_cases {α β : Type} (r : Result α) (f : α → State → Result β) :
    (∃ x s, r = .ok x s ∧ r.andThen f = f x s) ∨ (∃ st s, r = .fail st s ∧ r.andThen f = .fail st s) := by
  cases r with
  | ok x s => exact .inl ⟨x, s, rfl, rfl⟩
  | fail st s => exact .inr ⟨st, s, rfl, rfl⟩

/-- What a command does: refused while another runs, INVALID_PARAM where its checks fail, else its body. -/
theorem command_cases (i : Instr) (accept : State → Bool) (body : State → Host.Outcome State Fault Refusal)
    (s : State) :
    (s.upc ≠ .idle ∧ command i accept body s = .refused .commandWhileRunning) ∨
    (s.upc = .idle ∧ accept s = false ∧ command i accept body s = .next (respondInvalid s)) ∨
    (s.upc = .idle ∧ accept s = true ∧ command i accept body s = body (startCommand i s)) := by
  unfold command
  by_cases hu : s.upc = .idle
  · cases ha : accept s <;> simp [hu]
  · simp [hu]

end Sys2Proof.Machine
end

