-- ==== Sys2Proof/Laws/Line.lean ====
section
/-! SUPPORT. What the line sequences do (40_bitbang_primitives.md R130 to R155): one lemma for each subroutine that says
its result, its events, the answers it takes and the state it leaves, for every stretch of the clock below the bound;
and one for a clock that is never released in time. -/

namespace Sys2Proof.Machine

/-! ## The part of the state a line sequence may write -/

/-- The state after a line activity: the events it appended, the answers it left, the latches and the session. -/
def State.bus (es : List Event) (rest : List Bit) (sda scl : Option Bit) (x : Session) (s : State) : State :=
  { s with
    trace := s.trace ++ es
    lineIn := rest
    outSda := sda
    outScl := scl
    session := x }

section
variable (es es' : List Event) (rest rest' : List Bit) (a b a' b' : Option Bit) (x x' : Session) (s : State)

@[simp] theorem State.bus_init : (s.bus es rest a b x).init = s.init := rfl
@[simp] theorem State.bus_cfg : (s.bus es rest a b x).cfg = s.cfg := rfl
@[simp] theorem State.bus_outSda : (s.bus es rest a b x).outSda = a := rfl
@[simp] theorem State.bus_outScl : (s.bus es rest a b x).outScl = b := rfl
@[simp] theorem State.bus_trace : (s.bus es rest a b x).trace = s.trace ++ es := rfl
@[simp] theorem State.bus_upc : (s.bus es rest a b x).upc = s.upc := rfl
@[simp] theorem State.bus_session : (s.bus es rest a b x).session = x := rfl
@[simp] theorem State.bus_params : (s.bus es rest a b x).params = s.params := rfl
@[simp] theorem State.bus_lineIn : (s.bus es rest a b x).lineIn = rest := rfl
@[simp] theorem State.bus_portIn : (s.bus es rest a b x).portIn = s.portIn := rfl

@[simp] theorem State.bus_bus :
    (s.bus es rest a b x).bus es' rest' a' b' x' = s.bus (es ++ es') rest' a' b' x' := by simp [State.bus]

theorem drv_sda_eq_bus (v : Bit) : drv .sda v s = s.bus [.drive .sda v] s.lineIn (some v) s.outScl s.session := rfl
theorem drv_scl_eq_bus (v : Bit) : drv .scl v s = s.bus [.drive .scl v] s.lineIn s.outSda (some v) s.session := rfl
theorem dly_eq_bus (k : Delay) : dly k s = s.bus [.delay k] s.lineIn s.outSda s.outScl s.session := rfl
theorem afterRead_eq_bus (l : Line) :
    afterRead l s = s.bus [.read l (lineAnswer l s)] s.lineIn.tail s.outSda s.outScl s.session := rfl
theorem setSession_eq_bus : s.setSession x = s.bus [] s.lineIn s.outSda s.outScl x := by simp [State.bus, State.setSession]
end

/-! ## The clock-stretch wait (R133) -/

theorem pollScl_released (left sc z : Nat) (rest : List Bit) (s : State) (hz : z ≤ left)
    (h : s.lineIn = ansWait z ++ rest) (hsc : s.session.sc = some sc) :
    pollScl left sc s =
      .ok () (s.bus (evWait z) rest s.outSda s.outScl { s.session with sc := some (sc + z) }) := by
  induction z generalizing left sc s with
  | zero =>
    have h1 : lineAnswer .scl s = true := by simp [lineAnswer, h, ansWait]
    cases left <;> simp [pollScl, h1, afterRead, State.emit, State.bus, evWait, h, ansWait, ← hsc]
  | succ z ih =>
    obtain ⟨left, rfl⟩ : ∃ k, left = k + 1 := ⟨left - 1, by omega⟩
    have h0 : lineAnswer .scl s = false := by simp [lineAnswer, h, ansWait, List.replicate_succ]
    have h' : ((afterRead .scl s).setSc (sc + 1)).lineIn = ansWait z ++ rest := by
      simp [h, ansWait, List.replicate_succ]
    rw [pollScl, h0, if_neg (by decide), ih left (sc + 1) _ (by omega) h' (by simp)]
    simp [State.bus, State.setSc, State.setSession, afterRead, State.emit, h0, evWait, List.replicate_succ, Nat.add_comm,
      Nat.add_left_comm]

/-- The device releases the clock after `z` polls, `z` below the bound. -/
theorem waitScl_released (n : Bound) (z : Nat) (rest : List Bit) (s : State) (hz : z < n.val)
    (h : s.lineIn = ansWait z ++ rest) :
    waitScl n s = .ok () (s.bus (evWait z) rest s.outSda s.outScl { s.session with sc := some z }) := by
  rw [waitScl, pollScl_released n.pred 0 z rest (s.setSc 0) (by unfold Bound.val at hz; omega) (by simpa using h) (by simp)]
  simp [State.setSc, setSession_eq_bus]

theorem pollScl_held (left sc : Nat) (rest : List Bit) (s : State)
    (h : s.lineIn = List.replicate (left + 1) false ++ rest) :
    pollScl left sc s =
      .fail .timeout (s.bus (List.replicate (left + 1) (.read .scl false)) rest s.outSda s.outScl
        { s.session with sc := some (sc + left + 1) }) := by
  induction left generalizing sc s with
  | zero =>
    have h0 : lineAnswer .scl s = false := by simp [lineAnswer, h]
    simp [pollScl, h0, afterRead, State.emit, State.bus, State.setSc, State.setSession, h]
  | succ left ih =>
    have h0 : lineAnswer .scl s = false := by simp [lineAnswer, h, List.replicate_succ]
    have h' : ((afterRead .scl s).setSc (sc + 1)).lineIn = List.replicate (left + 1) false ++ rest := by
      simp [h, List.replicate_succ]
    rw [pollScl, h0, if_neg (by decide), ih (sc + 1) _ h']
    simp [State.bus, State.setSc, State.setSession, afterRead, State.emit, h0, List.replicate_succ, Nat.add_comm,
      Nat.add_left_comm]

/-- The device holds the clock for the whole bound. -/
theorem waitScl_held (n : Bound) (rest : List Bit) (s : State)
    (h : s.lineIn = List.replicate n.val false ++ rest) :
    waitScl n s =
      .fail .timeout (s.bus (List.replicate n.val (.read .scl false)) rest s.outSda s.outScl
        { s.session with sc := some n.val }) := by
  rw [waitScl, pollScl_held n.pred 0 rest (s.setSc 0) (by simpa [Bound.val] using h)]
  simp [State.setSc, setSession_eq_bus, Bound.val]

/-! ## Pulses (R134) -/

/-- SCL raised and released in time. -/
theorem raiseScl_released (n : Bound) (z : Nat) (rest : List Bit) (s : State) (hz : z < n.val)
    (h : s.lineIn = ansWait z ++ rest) :
    raiseScl n s =
      .ok () (s.bus (evRaise ++ evWait z) rest s.outSda (some true) { s.session with sc := some z }) := by
  rw [raiseScl, waitScl_released n z rest _ hz (by simpa using h)]
  simp [dly_eq_bus, drv_scl_eq_bus, evRaise]

theorem lowerScl_eq_bus (s : State) :
    lowerScl s = s.bus evLower s.lineIn s.outSda (some false) s.session := by
  simp [lowerScl, dly_eq_bus, drv_scl_eq_bus, evLower]

/-- A pulse that samples nothing. -/
theorem pulse_released (z : Nat) (rest : List Bit) (s : State) (hz : z < s.params.nBit.val)
    (h : s.lineIn = ansWait z ++ rest) :
    pulse s = .ok () (s.bus (evPulse z) rest s.outSda (some false) { s.session with sc := some z }) := by
  rw [pulse, raiseScl_released _ z rest s hz h]
  simp [lowerScl_eq_bus, evPulse]

/-- A pulse that samples SDA. -/
theorem pulseSample_released (z : Nat) (v : Bit) (rest : List Bit) (s : State) (hz : z < s.params.nBit.val)
    (h : s.lineIn = ansWait z ++ v :: rest) :
    pulseSample s = .ok v (s.bus (evSample z v) rest s.outSda (some false) { s.session with sc := some z }) := by
  rw [pulseSample, raiseScl_released _ z (v :: rest) s hz h]
  simp [lowerScl_eq_bus, afterRead_eq_bus, lineAnswer, evSample]

/-! ## START and STOP (R140, R145) -/

theorem startSeq_released (z : Nat) (rest : List Bit) (s : State) (hz : z < s.params.nStart.val)
    (h : s.lineIn = ansWait z ++ rest) :
    startSeq s = .ok () (s.bus (evStart z) rest (some false) (some false) { s.session with sc := some z }) := by
  rw [startSeq, raiseScl_released _ z rest _ (by simpa using hz) (by simpa using h)]
  simp [drv_sda_eq_bus, drv_scl_eq_bus, evStart]

theorem stopSeq_released (z : Nat) (rest : List Bit) (s : State) (hz : z < s.params.nStop.val)
    (h : s.lineIn = ansWait z ++ rest) :
    stopSeq s = .ok () (s.bus (evStop z) rest (some true) (some true) { s.session with sc := some z }) := by
  rw [stopSeq, raiseScl_released _ z rest _ (by simpa using hz) (by simpa using h)]
  simp [drv_sda_eq_bus, evStop]

/-! ## write_byte (R150) -/

/-- The bit indices `k`, ..., 0. -/
def bitsFrom : Nat → List Nat
  | 0 => [0]
  | k + 1 => (k + 1) :: bitsFrom k

theorem writeBit_released (b : Byte) (k z : Nat) (rest : List Bit) (s : State) (hz : z < s.params.nBit.val)
    (h : s.lineIn = ansWait z ++ rest) :
    writeBit b k s =
      .ok () (s.bus (.drive .sda (bitAt b k) :: evPulse z) rest (some (bitAt b k)) (some false)
        { s.session with bc := some k, sc := some z }) := by
  rw [writeBit, pulse_released z rest _ (by simpa using hz) (by simpa using h)]
  simp [drv_sda_eq_bus, State.setBc, setSession_eq_bus]

theorem writeBits_released (b : Byte) (k : Nat) (z : Stretch) (rest : List Bit) (s : State)
    (hz : ∀ j ≤ k, z j < s.params.nBit.val)
    (h : s.lineIn = (bitsFrom k).flatMap (fun k => ansWait (z k)) ++ rest) :
    writeBits b k s =
      .ok () (s.bus ((bitsFrom k).flatMap (evBit z b)) rest (some (bitAt b 0)) (some false)
        { s.session with bc := some 0, sc := some (z 0) }) := by
  induction k generalizing s with
  | zero => simpa [writeBits, bitsFrom, evBit] using writeBit_released b 0 (z 0) rest s (hz 0 (le_refl 0)) (by simpa [bitsFrom] using h)
  | succ k ih =>
    rw [writeBits, writeBit_released b (k + 1) (z (k + 1)) ((bitsFrom k).flatMap (fun k => ansWait (z k)) ++ rest) s
      (hz _ (le_refl _)) (by simpa [bitsFrom] using h), Result.andThen_ok,
      ih _ (fun j hj => by simpa using hz j (by omega)) (by simp)]
    simp [bitsFrom, evBit]

/-- A byte whose nine waits end in time and whose acknowledge reads `a`: OK for 0, NACK for 1. -/
theorem writeByteSeq_released (b : Byte) (z : Stretch) (a : Bit) (rest : List Bit) (s : State)
    (hz : ∀ j ≤ 8, z j < s.params.nBit.val) (h : s.lineIn = ansWriteByte z a ++ rest) :
    writeByteSeq b s =
      acknowledge a (s.bus (evWriteByte z b a) rest (some true) (some false)
        { s.session with sr := some b, bc := some 0, sc := some (z 8) }) := by
  have h1 : (s.setSr b).lineIn = (bitsFrom 7).flatMap (fun k => ansWait (z k)) ++ (ansWait (z 8) ++ a :: rest) := by
    simpa [ansWriteByte, bitsFrom, bitOrder] using h
  rw [writeByteSeq, writeBits_released b 7 z _ _ (fun j hj => by simpa using hz j (by omega)) h1, Result.andThen_ok,
    pulseSample_released (z 8) a rest _ (by simpa using hz 8 (le_refl 8)) (by simp)]
  simp [drv_sda_eq_bus, State.setSr, setSession_eq_bus, evWriteByte, bitsFrom, bitOrder]

/-! ## read_byte (R155) -/

/-- Writing a bit of `b` into each place from `k` down gives the low `k + 1` bits of `b` over the rest. -/
theorem readBits_released (b sr : Byte) (k : Nat) (z : Stretch) (rest : List Bit) (s : State)
    (hz : ∀ j ≤ k, z j < s.params.nBit.val)
    (h : s.lineIn = (bitsFrom k).flatMap (fun k => ansWait (z k) ++ [bitAt b k]) ++ rest) :
    readBits sr k s =
      .ok ((bitsFrom k).foldl (fun w j => setBit w j (bitAt b j)) sr)
        (s.bus ((bitsFrom k).flatMap (fun k => evSample (z k) (bitAt b k))) rest s.outSda (some false)
          { s.session with
            sr := some ((bitsFrom k).foldl (fun w j => setBit w j (bitAt b j)) sr), bc := some 0, sc := some (z 0) }) := by
  induction k generalizing s sr with
  | zero =>
    rw [readBits, readBit, pulseSample_released (z 0) (bitAt b 0) rest _ (by simpa using hz 0 (le_refl 0))
      (by simpa [bitsFrom] using h)]
    simp [bitsFrom, State.setBc, State.setSr, setSession_eq_bus]
  | succ k ih =>
    rw [readBits, readBit, pulseSample_released (z (k + 1)) (bitAt b (k + 1))
      ((bitsFrom k).flatMap (fun k => ansWait (z k) ++ [bitAt b k]) ++ rest) _ (by simpa using hz _ (le_refl _))
      (by simpa [bitsFrom] using h), Result.andThen_ok, Result.andThen_ok,
      ih _ _ (fun j hj => by simpa [State.setSr, setSession_eq_bus] using hz j (by omega)) (by simp)]
    simp [bitsFrom, State.setBc, State.setSr, setSession_eq_bus]

/-- Eight sampled bits, most significant first, are the byte (R155). -/
theorem collect_bits (b : Byte) : (bitsFrom 7).foldl (fun w j => setBit w j (bitAt b j)) 0 = b := by
  revert b; decide +kernel

/-- A read whose nine waits end in time: the byte sampled, and the acknowledge level driven. -/
theorem readByteSeq_released (sendAck : Bool) (b : Byte) (z : Stretch) (rest : List Bit) (s : State)
    (hz : ∀ j ≤ 8, z j < s.params.nBit.val) (h : s.lineIn = ansReadByte z b ++ rest) :
    readByteSeq sendAck s =
      .ok b (s.bus (evReadByte z b (!sendAck)) rest (some true) (some false)
        { s.session with sr := some b, bc := some 0, sc := some (z 8) }) := by
  have h1 : ((drv .sda true s).setSr 0).lineIn =
      (bitsFrom 7).flatMap (fun k => ansWait (z k) ++ [bitAt b k]) ++ (ansWait (z 8) ++ rest) := by
    simpa [ansReadByte, bitsFrom, bitOrder] using h
  rw [readByteSeq, readBits_released b 0 7 z _ _ (fun j hj => by simpa using hz j (by omega)) h1, Result.andThen_ok,
    pulse_released (z 8) rest _ (by simpa using hz 8 (le_refl 8)) (by simp), Result.andThen_ok, collect_bits]
  simp [drv_sda_eq_bus, State.setSr, setSession_eq_bus, evReadByte, bitsFrom, bitOrder]

end Sys2Proof.Machine
end

