-- ==== Sys2Proof/Laws/LineAny.lean ====
section
/-! SUPPORT. What the line sequences and the engine's transactions do for EVERY sequence of answers of the environment
(20_memory.md R75): they write the line part of the state alone, keep the latches in agreement with the trace, read a
line only while it is released (R161), leave the lines as R162 says, and return OK, NACK or TIMEOUT. -/

namespace Sys2Proof.Machine

/-! ## Latches and traces -/

theorem lastDriven_append (l : Line) (es es' : List Event) :
    lastDriven l (es ++ es') = (lastDriven l es').or (lastDriven l es) := by
  induction es with
  | nil => simp [lastDriven]
  | cons e es ih =>
    cases e <;> simp only [List.cons_append, lastDriven, ih]
    case drive l' v => cases lastDriven l es' <;> cases lastDriven l es <;> simp

theorem readsReleased_append_one (tr : List Event) (e : Event) (h : ReadsReleased tr)
    (he : ∀ l v, e = .read l v → lastDriven l tr = some true) : ReadsReleased (tr ++ [e]) := by
  intro before l v after heq
  rcases List.eq_nil_or_concat after with rfl | ⟨after', e', rfl⟩
  · have := List.append_inj' heq rfl
    obtain ⟨rfl, h1⟩ := this
    exact he l v (by simpa using h1)
  · have h2 : tr ++ [e] = (before ++ .read l v :: after') ++ [e'] := by simpa using heq
    obtain ⟨h3, -⟩ := List.append_inj' h2 rfl
    exact h before l v after' h3

/-- The latches hold the levels last driven since the trace was `base`, and since then every read was of a released
line. With `base` empty this is the whole trace. -/
def State.LatchFrom (base : List Event) (s : State) : Prop :=
  ∃ es, s.trace = base ++ es ∧ s.outSda = lastDriven .sda es ∧ s.outScl = lastDriven .scl es ∧ ReadsReleased es

theorem State.latchFrom_nil (s : State) : s.LatchFrom [] ↔ s.LatchInv ∧ ReadsReleased s.trace := by
  constructor
  · rintro ⟨es, h, ha, hb, hr⟩
    rw [List.nil_append] at h
    subst h
    exact ⟨⟨ha, hb⟩, hr⟩
  · rintro ⟨⟨ha, hb⟩, hr⟩
    exact ⟨s.trace, rfl, ha, hb, hr⟩

/-- What a line activity may have done to the state. -/
structure LineEffect (s t : State) : Prop where
  frame : ∃ es rest a b x, (∀ e ∈ es, e.onLines = true) ∧ t = s.bus es rest a b x
  latch : ∀ base, s.LatchFrom base → t.LatchFrom base

theorem LineEffect.refl (s : State) : LineEffect s s :=
  ⟨⟨[], s.lineIn, s.outSda, s.outScl, s.session, by simp, by simp [State.bus]⟩, fun _ h => h⟩

theorem LineEffect.trans {s t u : State} (h : LineEffect s t) (h' : LineEffect t u) : LineEffect s u := by
  obtain ⟨es, rest, a, b, x, he, rfl⟩ := h.frame
  obtain ⟨es', rest', a', b', x', he', rfl⟩ := h'.frame
  refine ⟨⟨es ++ es', rest', a', b', x', ?_, by simp⟩, fun base hl => h'.latch base (h.latch base hl)⟩
  intro e hm
  rcases List.mem_append.1 hm with hm | hm
  · exact he e hm
  · exact he' e hm

/-- One more event keeps the latches in agreement with the trace. -/
theorem State.LatchFrom.append {base : List Event} {s t : State} {e : Event} (h : s.LatchFrom base)
    (ht : t.trace = s.trace ++ [e]) (ha : t.outSda = (lastDriven .sda [e]).or s.outSda)
    (hb : t.outScl = (lastDriven .scl [e]).or s.outScl)
    (he : ∀ es, s.outSda = lastDriven .sda es → s.outScl = lastDriven .scl es →
      ∀ l v, e = .read l v → lastDriven l es = some true) : t.LatchFrom base := by
  obtain ⟨es, h1, h2, h3, h4⟩ := h
  exact ⟨es ++ [e], by rw [ht, h1, List.append_assoc], by rw [ha, h2, lastDriven_append],
    by rw [hb, h3, lastDriven_append], readsReleased_append_one es e h4 (he es h2 h3)⟩

theorem LineEffect.drv (l : Line) (v : Bit) (s : State) : LineEffect s (drv l v s) where
  frame := by
    cases l
    · exact ⟨_, _, _, _, _, by simp [Event.onLines], drv_sda_eq_bus s v⟩
    · exact ⟨_, _, _, _, _, by simp [Event.onLines], drv_scl_eq_bus s v⟩
  latch := fun base h => by
    cases l
    · exact h.append (e := .drive .sda v) rfl (by simp [lastDriven]) (by simp [lastDriven]) (by simp)
    · exact h.append (e := .drive .scl v) rfl (by simp [lastDriven]) (by simp [lastDriven]) (by simp)

theorem LineEffect.dly (k : Delay) (s : State) : LineEffect s (dly k s) where
  frame := ⟨_, _, _, _, _, by simp [Event.onLines], dly_eq_bus s k⟩
  latch := fun _ h => h.append (e := .delay k) rfl (by simp [lastDriven]) (by simp [lastDriven]) (by simp)

theorem LineEffect.setSession (x : Session) (s : State) : LineEffect s (s.setSession x) where
  frame := ⟨_, _, _, _, _, by simp, setSession_eq_bus x s⟩
  latch := fun _ h => h

/-- The latch of a line. -/
def State.out (l : Line) (s : State) : Option Bit :=
  match l with
  | .sda => s.outSda
  | .scl => s.outScl

/-- A read of a line that the block has released. -/
theorem LineEffect.afterRead (l : Line) (s : State) (h : s.out l = some true) : LineEffect s (afterRead l s) where
  frame := ⟨_, _, _, _, _, by simp [Event.onLines], afterRead_eq_bus s l⟩
  latch := fun _ hl => hl.append (e := .read l (lineAnswer l s)) rfl (by simp [lastDriven]) (by simp [lastDriven]) (by
    rintro es ha hb l' v ⟨⟩
    cases l
    · exact ha ▸ h
    · exact hb ▸ h)

/-! ## Rules for results -/

/-- A result meets a condition on the state after OK and one on the status and state after a failure. -/
def Result.Meets {α : Type} (r : Result α) (ok : State → Prop) (fail : Status → State → Prop) : Prop :=
  match r with
  | .ok _ s => ok s
  | .fail st s => fail st s

theorem Result.Meets.andThen {α β : Type} {r : Result α} {f : α → State → Result β} {p p' : State → Prop}
    {q q' : Status → State → Prop} (h : r.Meets p q) (hf : ∀ x s, p s → (f x s).Meets p' q')
    (hq : ∀ st s, q st s → q' st s) : (r.andThen f).Meets p' q' := by
  cases r with
  | ok x s => exact hf x s h
  | fail st s => exact hq st s h

theorem Result.Meets.mono {α : Type} {r : Result α} {p p' : State → Prop} {q q' : Status → State → Prop}
    (h : r.Meets p q) (hp : ∀ s, p s → p' s) (hq : ∀ st s, q st s → q' st s) : r.Meets p' q' := by
  cases r with
  | ok x s => exact hp s h
  | fail st s => exact hq st s h

/-! ## The wait and the pulse -/

/-- The only failure of a wait, a pulse, a START or a STOP, and the only two of a written byte (R302, R303). -/
theorem pollScl_any (left sc : Nat) (s : State) (h : s.outScl = some true) :
    (pollScl left sc s).Meets
      (fun t => LineEffect s t ∧ t.outSda = s.outSda ∧ t.outScl = some true)
      (fun st t => st = .timeout ∧ LineEffect s t ∧ t.outSda = s.outSda ∧ t.outScl = some true) := by
  have hr : LineEffect s (afterRead .scl s) := .afterRead .scl s h
  induction left generalizing sc s with
  | zero =>
    rw [pollScl]
    split
    · exact ⟨hr, rfl, h⟩
    · exact ⟨rfl, hr.trans (.setSession _ _), rfl, h⟩
  | succ left ih =>
    rw [pollScl]
    split
    · exact ⟨hr, rfl, h⟩
    · have hr' : LineEffect s ((afterRead .scl s).setSc (sc + 1)) := hr.trans (.setSession _ _)
      refine (ih (sc + 1) ((afterRead .scl s).setSc (sc + 1)) h ?_).mono (fun t ht => ⟨hr'.trans ht.1, ht.2.1, ht.2.2⟩)
        (fun st t ht => ⟨ht.1, hr'.trans ht.2.1, ht.2.2.1, ht.2.2.2⟩)
      exact .afterRead .scl _ h

/-- SCL is released, and stays so, whether or not it was seen high in time. -/
theorem raiseScl_any (n : Bound) (s : State) :
    (raiseScl n s).Meets
      (fun t => LineEffect s t ∧ t.outSda = s.outSda ∧ t.outScl = some true)
      (fun st t => st = .timeout ∧ LineEffect s t ∧ t.outSda = s.outSda ∧ t.outScl = some true) := by
  have h0 : LineEffect s ((dly .half (drv .scl true (dly .half s))).setSc 0) :=
    ((LineEffect.dly _ s).trans (.drv _ _ _)).trans ((LineEffect.dly _ _).trans (.setSession _ _))
  exact (pollScl_any n.pred 0 ((dly .half (drv .scl true (dly .half s))).setSc 0) rfl).mono
    (fun t ht => ⟨h0.trans ht.1, ht.2.1, ht.2.2⟩) (fun st t ht => ⟨ht.1, h0.trans ht.2.1, ht.2.2.1, ht.2.2.2⟩)

theorem LineEffect.lowerScl (s : State) : LineEffect s (lowerScl s) := (LineEffect.drv _ _ s).trans (.dly _ _)

theorem pulse_any (s : State) :
    (pulse s).Meets
      (fun t => LineEffect s t ∧ t.outSda = s.outSda ∧ t.outScl = some false)
      (fun st t => st = .timeout ∧ LineEffect s t ∧ t.outSda = s.outSda ∧ t.outScl = some true) :=
  (raiseScl_any s.params.nBit s).andThen
    (fun _ t ht => ⟨ht.1.trans (.lowerScl t), by simpa [lowerScl] using ht.2.1, rfl⟩) (fun _ _ h => h)

/-- A sampling pulse needs SDA released, and keeps it so. -/
theorem pulseSample_any (s : State) (h : s.outSda = some true) :
    (pulseSample s).Meets
      (fun t => LineEffect s t ∧ t.outSda = some true ∧ t.outScl = some false)
      (fun st t => st = .timeout ∧ LineEffect s t ∧ t.outSda = some true ∧ t.outScl = some true) := by
  refine (raiseScl_any s.params.nBit s).andThen (fun _ t ht => ?_) (fun st t ht => ⟨ht.1, ht.2.1, by rw [ht.2.2.1, h], ht.2.2.2⟩)
  have hsda : t.outSda = some true := by rw [ht.2.1, h]
  exact ⟨(ht.1.trans (.afterRead .sda t hsda)).trans (.lowerScl _), hsda, rfl⟩

/-! ## The line sequences (R162) -/

theorem startSeq_any (s : State) :
    (startSeq s).Meets
      (fun t => LineEffect s t ∧ t.outSda = some false ∧ t.outScl = some false)
      (fun st t => st = .timeout ∧ LineEffect s t ∧ t.outSda = some true ∧ t.outScl = some true) := by
  have h0 := LineEffect.drv .sda true s
  exact (raiseScl_any s.params.nStart (drv .sda true s)).andThen
    (fun _ t ht => ⟨(h0.trans ht.1).trans ((LineEffect.drv _ _ _).trans (.drv _ _ _)), rfl, rfl⟩)
    (fun st t ht => ⟨ht.1, h0.trans ht.2.1, ht.2.2.1, ht.2.2.2⟩)

theorem stopSeq_any (s : State) :
    (stopSeq s).Meets
      (fun t => LineEffect s t ∧ t.outSda = some true ∧ t.outScl = some true)
      (fun st t => st = .timeout ∧ LineEffect s t ∧ t.outSda = some false ∧ t.outScl = some true) := by
  have h0 := LineEffect.drv .sda false s
  exact (raiseScl_any s.params.nStop (drv .sda false s)).andThen
    (fun _ t ht => ⟨(h0.trans ht.1).trans (.drv _ _ _), rfl, by simpa using ht.2.2⟩)
    (fun st t ht => ⟨ht.1, h0.trans ht.2.1, ht.2.2.1, ht.2.2.2⟩)

theorem writeBit_any (b : Byte) (k : Nat) (s : State) :
    (writeBit b k s).Meets
      (fun t => LineEffect s t ∧ t.outScl = some false)
      (fun st t => st = .timeout ∧ LineEffect s t ∧ t.outSda = some (bitAt b k) ∧ t.outScl = some true) := by
  have h0 : LineEffect s (drv .sda (bitAt b k) (s.setBc k)) := (LineEffect.setSession _ s).trans (.drv _ _ _)
  exact (pulse_any (drv .sda (bitAt b k) (s.setBc k))).mono (fun t ht => ⟨h0.trans ht.1, ht.2.2⟩)
    (fun st t ht => ⟨ht.1, h0.trans ht.2.1, ht.2.2.1, ht.2.2.2⟩)

theorem writeBits_any (b : Byte) (k : Nat) (s : State) :
    (writeBits b k s).Meets
      (fun t => LineEffect s t ∧ t.outScl = some false)
      (fun st t => st = .timeout ∧ LineEffect s t ∧ (∃ j ≤ k, t.outSda = some (bitAt b j)) ∧ t.outScl = some true) := by
  induction k generalizing s with
  | zero =>
    exact (writeBit_any b 0 s).mono (fun _ h => h) (fun st t ht => ⟨ht.1, ht.2.1, ⟨0, le_refl _, ht.2.2.1⟩, ht.2.2.2⟩)
  | succ k ih =>
    refine (writeBit_any b (k + 1) s).andThen (fun _ t ht => (ih t).mono (fun u hu => ⟨ht.1.trans hu.1, hu.2⟩)
      (fun st u hu => ⟨hu.1, ht.1.trans hu.2.1, ?_, hu.2.2.2⟩))
      (fun st t ht => ⟨ht.1, ht.2.1, ⟨k + 1, le_refl _, ht.2.2.1⟩, ht.2.2.2⟩)
    obtain ⟨j, hj, h⟩ := hu.2.2.1
    exact ⟨j, by omega, h⟩

/-- A written byte: OK or NACK with SDA released and SCL low, or TIMEOUT with SCL released and SDA at a bit of the byte
or released (R162). -/
theorem writeByteSeq_any (b : Byte) (s : State) :
    (writeByteSeq b s).Meets
      (fun t => LineEffect s t ∧ t.outSda = some true ∧ t.outScl = some false)
      (fun st t => LineEffect s t ∧
        ((st = .nack ∧ t.outSda = some true ∧ t.outScl = some false) ∨
         (st = .timeout ∧ ((∃ j ≤ 7, t.outSda = some (bitAt b j)) ∨ t.outSda = some true) ∧ t.outScl = some true))) := by
  have h0 : LineEffect s (s.setSr b) := .setSession _ s
  refine (writeBits_any b 7 (s.setSr b)).andThen (fun _ t ht => ?_)
    (fun st t ht => ⟨h0.trans ht.2.1, .inr ⟨ht.1, .inl ht.2.2.1, ht.2.2.2⟩⟩)
  have h1 : LineEffect s (drv .sda true t) := (h0.trans ht.1).trans (.drv _ _ _)
  refine (pulseSample_any (drv .sda true t) rfl).andThen (fun a u hu => ?_)
    (fun st u hu => ⟨h1.trans hu.2.1, .inr ⟨hu.1, .inr hu.2.2.1, hu.2.2.2⟩⟩)
  cases a
  · exact ⟨(h1.trans hu.1).trans (.setSession _ _), hu.2.1, hu.2.2⟩
  · exact ⟨(h1.trans hu.1).trans (.setSession _ _), .inl ⟨rfl, hu.2.1, hu.2.2⟩⟩

theorem readBit_any (sr : Byte) (k : Nat) (s : State) (h : s.outSda = some true) :
    (readBit sr k s).Meets
      (fun t => LineEffect s t ∧ t.outSda = some true ∧ t.outScl = some false)
      (fun st t => st = .timeout ∧ LineEffect s t ∧ t.outSda = some true ∧ t.outScl = some true) := by
  have h0 : LineEffect s (s.setBc k) := .setSession _ s
  exact (pulseSample_any (s.setBc k) h).andThen
    (fun v t ht => ⟨(h0.trans ht.1).trans (.setSession _ _), ht.2.1, ht.2.2⟩)
    (fun st t ht => ⟨ht.1, h0.trans ht.2.1, ht.2.2.1, ht.2.2.2⟩)

theorem readBits_any (sr : Byte) (k : Nat) (s : State) (h : s.outSda = some true) :
    (readBits sr k s).Meets
      (fun t => LineEffect s t ∧ t.outSda = some true ∧ t.outScl = some false)
      (fun st t => st = .timeout ∧ LineEffect s t ∧ t.outSda = some true ∧ t.outScl = some true) := by
  induction k generalizing sr s with
  | zero => exact readBit_any sr 0 s h
  | succ k ih =>
    exact (readBit_any sr (k + 1) s h).andThen
      (fun x t ht => (ih x t ht.2.1).mono (fun u hu => ⟨ht.1.trans hu.1, hu.2⟩)
        (fun st u hu => ⟨hu.1, ht.1.trans hu.2.1, hu.2.2⟩)) (fun _ _ h => h)

/-- A read byte: OK with SDA released and SCL low, or TIMEOUT with SCL released and SDA released or at the acknowledge
level (R162). -/
theorem readByteSeq_any (sendAck : Bool) (s : State) :
    (readByteSeq sendAck s).Meets
      (fun t => LineEffect s t ∧ t.outSda = some true ∧ t.outScl = some false)
      (fun st t => st = .timeout ∧ LineEffect s t ∧
        (t.outSda = some true ∨ t.outSda = some (!sendAck)) ∧ t.outScl = some true) := by
  have h0 : LineEffect s ((drv .sda true s).setSr 0) := (LineEffect.drv _ _ s).trans (.setSession _ _)
  refine (readBits_any 0 7 ((drv .sda true s).setSr 0) rfl).andThen (fun x t ht => ?_)
    (fun st t ht => ⟨ht.1, h0.trans ht.2.1, .inl ht.2.2.1, ht.2.2.2⟩)
  have h1 : LineEffect s (drv .sda (!sendAck) t) := (h0.trans ht.1).trans (.drv _ _ _)
  exact (pulse_any (drv .sda (!sendAck) t)).andThen
    (fun _ u hu => ⟨(h1.trans hu.1).trans (.drv _ _ _), rfl, by simpa using hu.2.2⟩)
    (fun st u hu => ⟨hu.1, h1.trans hu.2.1, .inr hu.2.2.1, hu.2.2.2⟩)

/-! ## Transactions (R172 to R190) -/

/-- What a transaction may return: OK with both lines released after its STOP, NACK or TIMEOUT; SCL is always left
released, for every transaction ends with a STOP, and SDA is released unless that STOP timed out (R172). -/
abbrev Result.Ends {α : Type} (s : State) (r : Result α) : Prop :=
  r.Meets
    (fun t => LineEffect s t ∧ t.outSda = some true ∧ t.outScl = some true)
    (fun st t => LineEffect s t ∧ (st = .nack ∨ st = .timeout) ∧ t.outSda ≠ none ∧ t.outScl = some true)

theorem finishOk_any {α : Type} (x : α) (s : State) : (finishOk x s).Ends s :=
  (stopSeq_any s).andThen (fun _ _ h => h) (fun st t ht => ⟨ht.2.1, .inr ht.1, by simp [ht.2.2.1], ht.2.2.2⟩)

theorem finishFail_any {α : Type} (st : Status) (hst : st = .nack ∨ st = .timeout) (s : State) :
    (finishFail st s : Result α).Ends s := by
  have h0 : LineEffect s (s.setErr st) := .setSession _ s
  have h := stopSeq_any (s.setErr st)
  cases hr : stopSeq (s.setErr st) with
  | ok x t =>
    rw [hr] at h
    simp only [finishFail, hr]
    exact ⟨h0.trans h.1, hst, by simp [h.2.1], h.2.2⟩
  | fail st' t =>
    rw [hr] at h
    simp only [finishFail, hr]
    exact ⟨h0.trans h.2.1, hst, by simp [h.2.2.1], h.2.2.2⟩

theorem Result.Ends.mono {α : Type} {s t : State} {r : Result α} (h0 : LineEffect s t) (h : r.Ends t) : r.Ends s :=
  Result.Meets.mono h (fun _ hu => ⟨h0.trans hu.1, hu.2⟩) (fun _ _ hu => ⟨h0.trans hu.1, hu.2⟩)

/-- A step of a transaction: OK goes on, a NACK or a TIMEOUT aborts. -/
theorem Result.orFinish_any {α β : Type} {s : State} {r : Result α} {f : α → State → Result β}
    (h : r.Meets (LineEffect s) (fun st t => LineEffect s t ∧ (st = .nack ∨ st = .timeout)))
    (hf : ∀ x t, LineEffect s t → (f x t).Ends t) : (r.orFinish f).Ends s := by
  cases r with
  | ok x t => exact .mono h (hf x t h)
  | fail st t => exact .mono h.1 (finishFail_any st h.2 t)

theorem startSeq_step (s : State) :
    (startSeq s).Meets (LineEffect s) (fun st t => LineEffect s t ∧ (st = .nack ∨ st = .timeout)) :=
  (startSeq_any s).mono (fun _ h => h.1) (fun _ _ h => ⟨h.2.1, .inr h.1⟩)

theorem writeByteSeq_step (b : Byte) (s : State) :
    (writeByteSeq b s).Meets (LineEffect s) (fun st t => LineEffect s t ∧ (st = .nack ∨ st = .timeout)) :=
  (writeByteSeq_any b s).mono (fun _ h => h.1) (fun _ _ h => ⟨h.1, h.2.imp (·.1) (·.1)⟩)

theorem readByteSeq_step (ack : Bool) (s : State) :
    (readByteSeq ack s).Meets (LineEffect s) (fun st t => LineEffect s t ∧ (st = .nack ∨ st = .timeout)) :=
  (readByteSeq_any ack s).mono (fun _ h => h.1) (fun _ _ h => ⟨h.2.1, .inr h.1⟩)

theorem addressed_any {β : Type} (dev : Byte) (rw : Direction) (f : State → Result β) (s : State)
    (hf : ∀ t, (f t).Ends t) : (addressed dev rw f s).Ends s :=
  Result.orFinish_any (startSeq_step s) fun _ t _ =>
    Result.orFinish_any (writeByteSeq_step _ t) fun _ u _ => hf u

theorem sendAddress_any {β : Type} (f : State → Result β) (ms : List Byte) (s : State) (hf : ∀ t, (f t).Ends t) :
    (sendAddress f ms s).Ends s := by
  induction ms generalizing s with
  | nil => exact hf s
  | cons m ms ih => exact Result.orFinish_any (writeByteSeq_step m s) fun _ t _ => ih t

theorem writeData_any (bi : Nat) (xs : List Byte) (s : State) : (writeData bi xs s).Ends s := by
  induction xs generalizing bi s with
  | nil => exact finishOk_any () s
  | cons x xs ih =>
    exact Result.orFinish_any (writeByteSeq_step x s) fun _ t _ => .mono (.setSession _ t) (ih (bi + 1) _)

theorem readData_any (left bi : Nat) (buf : List Byte) (s : State) : (readData left bi buf s).Ends s := by
  induction left generalizing bi buf s with
  | zero =>
    exact Result.orFinish_any (readByteSeq_step false s) fun x t _ =>
      .mono ((LineEffect.setSession _ t).trans (.setSession _ _)) (finishOk_any _ _)
  | succ left ih =>
    exact Result.orFinish_any (readByteSeq_step true s) fun x t _ =>
      .mono ((LineEffect.setSession _ t).trans (.setSession _ _)) (ih _ _ _)

theorem readPhase_any (n : Nat) (s : State) : (readPhase n s).Ends s :=
  .mono ((LineEffect.setSession _ s).trans (.setSession _ _)) (readData_any _ _ _ _)

theorem writeSeq_any (dev : Byte) (xs : List Byte) (s : State) : (writeSeq dev xs s).Ends s :=
  addressed_any dev .write _ s fun t => .mono (.setSession _ t) (writeData_any 0 xs _)

theorem readSeq_any (dev : Byte) (n : Nat) (s : State) : (readSeq dev n s).Ends s :=
  addressed_any dev .read _ s (readPhase_any n)

theorem memWriteSeq_any (dev : Byte) (a : Word16) (aw : Byte) (xs : List Byte) (s : State) :
    (memWriteSeq dev a aw xs s).Ends s :=
  addressed_any dev .write _ s fun t => sendAddress_any _ _ t fun u => .mono (.setSession _ u) (writeData_any 0 xs _)

theorem memReadSeq_any (dev : Byte) (a : Word16) (aw : Byte) (n : Nat) (s : State) :
    (memReadSeq dev a aw n s).Ends s :=
  addressed_any dev .write _ s fun t => sendAddress_any _ _ t fun u => addressed_any dev .read _ u (readPhase_any n)

theorem probe_any (dev : Byte) (s : State) :
    (probe dev s).Meets (LineEffect s) (fun st t => LineEffect s t ∧ (st = .nack ∨ st = .timeout)) :=
  (startSeq_step s).andThen
    (fun _ t ht => (writeByteSeq_step _ t).mono (fun _ hu => ht.trans hu) (fun _ _ hu => ⟨ht.trans hu.1, hu.2⟩))
    (fun _ _ h => h)

theorem trials_any (dev : Byte) (left trial : Nat) (s : State) : (trials dev left trial s).Ends s := by
  induction left generalizing trial s with
  | zero =>
    have h := probe_any dev s
    cases hr : probe dev s with
    | ok x t => rw [hr] at h; simp only [trials, hr]; exact .mono h (finishOk_any () t)
    | fail st t =>
      rw [hr] at h
      rcases h.2 with rfl | rfl
      · simp only [trials, hr]
        exact (stopSeq_any t).andThen (fun _ u hu => ⟨h.1.trans hu.1, .inl rfl, by simp [hu.2.1], hu.2.2⟩)
          (fun st u hu => ⟨h.1.trans hu.2.1, .inr hu.1, by simp [hu.2.2.1], hu.2.2.2⟩)
      · simp only [trials, hr]
        exact .mono h.1 (finishFail_any _ (.inr rfl) t)
  | succ left ih =>
    have h := probe_any dev s
    cases hr : probe dev s with
    | ok x t => rw [hr] at h; simp only [trials, hr]; exact .mono h (finishOk_any () t)
    | fail st t =>
      rw [hr] at h
      rcases h.2 with rfl | rfl
      · simp only [trials, hr]
        exact (stopSeq_any t).andThen
          (fun _ u hu => Result.Ends.mono ((h.1.trans hu.1).trans ((LineEffect.dly _ u).trans (.setSession _ _))) (ih _ _))
          (fun st u hu => ⟨h.1.trans hu.2.1, .inr hu.1, by simp [hu.2.2.1], hu.2.2.2⟩)
      · simp only [trials, hr]
        exact .mono h.1 (finishFail_any _ (.inr rfl) t)

theorem readySeq_any (dev : Byte) (n : Nat) (s : State) : (readySeq dev n s).Ends s :=
  .mono (.setSession _ s) (trials_any dev _ _ _)

end Sys2Proof.Machine
end

