-- ==== Sys2Proof/Laws/Transaction.lean ====
section
/-! SUPPORT. What the engine's transactions do when the device never stretches the clock (00_scope.md R12,
41_bitbang_transactions.md R172 to R190): the byte sequences on the wire when every byte is acknowledged, and when one
is not. The session registers they leave are whatever they are: every command's response clears them. -/

namespace Sys2Proof.Machine

theorem Bound.val_pos (n : Bound) : 0 < n.val := Nat.succ_pos _

/-! ## Bytes without stretching -/

theorem startSeq_plain (rest : List Bit) (s : State) (h : s.lineIn = ansS ++ rest) :
    ∃ x, startSeq s = .ok () (s.bus evS rest (some false) (some false) x) :=
  ⟨_, startSeq_released 0 rest s (Bound.val_pos _) h⟩

theorem stopSeq_plain (rest : List Bit) (s : State) (h : s.lineIn = ansS ++ rest) :
    ∃ x, stopSeq s = .ok () (s.bus evP rest (some true) (some true) x) :=
  ⟨_, stopSeq_released 0 rest s (Bound.val_pos _) h⟩

theorem writeByteSeq_acked (b : Byte) (rest : List Bit) (s : State) (h : s.lineIn = ansW false ++ rest) :
    ∃ x, writeByteSeq b s = .ok () (s.bus (evW b false) rest (some true) (some false) x) := by
  rw [writeByteSeq_released b noStretch false rest s (fun _ _ => Bound.val_pos _) h]
  simp only [acknowledge, State.setAckb, setSession_eq_bus, State.bus_bus, List.append_nil, evW]
  exact ⟨_, rfl⟩

theorem writeByteSeq_nacked (b : Byte) (rest : List Bit) (s : State) (h : s.lineIn = ansW true ++ rest) :
    ∃ x, writeByteSeq b s = .fail .nack (s.bus (evW b true) rest (some true) (some false) x) := by
  rw [writeByteSeq_released b noStretch true rest s (fun _ _ => Bound.val_pos _) h]
  simp only [acknowledge, State.setAckb, setSession_eq_bus, State.bus_bus, List.append_nil, evW]
  exact ⟨_, rfl⟩

theorem readByteSeq_plain (ack : Bool) (b : Byte) (rest : List Bit) (s : State) (h : s.lineIn = ansRb b ++ rest) :
    ∃ x, readByteSeq ack s = .ok b (s.bus (evRb b (!ack)) rest (some true) (some false) x) :=
  ⟨_, readByteSeq_released ack b noStretch rest s (fun _ _ => Bound.val_pos _) h⟩

/-! ## Finishing (R172) -/

theorem finishOk_plain {α : Type} (y : α) (rest : List Bit) (s : State) (h : s.lineIn = ansS ++ rest) :
    ∃ x, finishOk y s = .ok y (s.bus evP rest (some true) (some true) x) := by
  obtain ⟨x, hx⟩ := stopSeq_plain rest s h
  exact ⟨x, by rw [finishOk, hx, Result.andThen_ok]⟩

theorem finishFail_plain {α : Type} (st : Status) (rest : List Bit) (s : State) (h : s.lineIn = ansS ++ rest) :
    ∃ x, (finishFail st s : Result α) = .fail st (s.bus evP rest (some true) (some true) x) := by
  obtain ⟨x, hx⟩ := stopSeq_plain rest (s.setErr st) (by simpa using h)
  exact ⟨x, by rw [finishFail, hx]; simp [State.setErr, setSession_eq_bus]⟩

@[simp] theorem Result.orFinish_ok {α β : Type} (x : α) (s : State) (f : α → State → Result β) :
    (Result.ok x s).orFinish f = f x s := rfl
@[simp] theorem Result.orFinish_fail {α β : Type} (st : Status) (s : State) (f : α → State → Result β) :
    (Result.fail st s : Result α).orFinish f = finishFail st s := rfl

/-! ## The address phase (R195) -/

theorem addressed_acked {β : Type} (dev : Byte) (rw : Direction) (f : State → Result β) (rest : List Bit) (s : State)
    (h : s.lineIn = ansS ++ (ansW false ++ rest)) :
    ∃ x, addressed dev rw f s =
      f (s.bus (evS ++ evW (addrByteOf dev rw s) false) rest (some true) (some false) x) := by
  obtain ⟨x, hx⟩ := startSeq_plain _ s h
  obtain ⟨y, hy⟩ := writeByteSeq_acked (addrByteOf dev rw s) rest _ (State.bus_lineIn evS _ _ _ x s)
  refine ⟨y, ?_⟩
  rw [addressed, hx, Result.orFinish_ok]
  simp only [addrByteOf, State.bus_params] at hy ⊢
  rw [hy, Result.orFinish_ok, State.bus_bus]

theorem addressed_nacked {β : Type} (dev : Byte) (rw : Direction) (f : State → Result β) (rest : List Bit) (s : State)
    (h : s.lineIn = ansS ++ (ansW true ++ (ansS ++ rest))) :
    ∃ x, addressed dev rw f s =
      .fail .nack (s.bus (evS ++ evW (addrByteOf dev rw s) true ++ evP) rest (some true) (some true) x) := by
  obtain ⟨x, hx⟩ := startSeq_plain _ s h
  obtain ⟨y, hy⟩ := writeByteSeq_nacked (addrByteOf dev rw s) _ _ (State.bus_lineIn evS _ _ _ x s)
  simp only [addrByteOf, State.bus_bus] at hy
  obtain ⟨z, hz⟩ := finishFail_plain (α := β) .nack rest _ (State.bus_lineIn _ _ _ _ y s)
  refine ⟨z, ?_⟩
  rw [addressed, hx, Result.orFinish_ok]
  simp only [addrByteOf, State.bus_params]
  rw [hy, Result.orFinish_fail, hz, State.bus_bus]

theorem sendAddress_acked {β : Type} (f : State → Result β) (ms : List Byte) (rest : List Bit) (s : State)
    (hs : s.outSda = some true ∧ s.outScl = some false) (h : s.lineIn = ansWs ms ++ rest) :
    ∃ x, sendAddress f ms s = f (s.bus (evWs ms) rest (some true) (some false) x) := by
  induction ms generalizing s with
  | nil =>
    have h' : rest = s.lineIn := by simpa [ansWs] using h.symm
    exact ⟨s.session, by simp [sendAddress, evWs, State.bus, ← hs.1, ← hs.2, h']⟩
  | cons m ms ih =>
    obtain ⟨x, hx⟩ := writeByteSeq_acked m (ansWs ms ++ rest) s (by simpa [ansWs] using h)
    obtain ⟨y, hy⟩ := ih (s.bus (evW m false) (ansWs ms ++ rest) (some true) (some false) x) ⟨rfl, rfl⟩ rfl
    exact ⟨y, by rw [sendAddress, hx, Result.orFinish_ok, hy, State.bus_bus]; simp [evWs]⟩

/-! ## The data phases (R174 to R182) -/

theorem writeData_acked (bi : Nat) (xs : List Byte) (rest : List Bit) (s : State)
    (h : s.lineIn = ansWs xs ++ (ansS ++ rest)) :
    ∃ x, writeData bi xs s = .ok () (s.bus (evWs xs ++ evP) rest (some true) (some true) x) := by
  induction xs generalizing bi s with
  | nil =>
    obtain ⟨x, hx⟩ := finishOk_plain () rest s (by simpa [ansWs] using h)
    exact ⟨x, by rw [writeData, hx]; simp [evWs]⟩
  | cons y ys ih =>
    obtain ⟨x, hx⟩ := writeByteSeq_acked y (ansWs ys ++ (ansS ++ rest)) s (by simpa [ansWs] using h)
    obtain ⟨z, hz⟩ := ih (bi + 1) ((s.bus (evW y false) (ansWs ys ++ (ansS ++ rest)) (some true) (some false) x).setBi (bi + 1)) rfl
    refine ⟨z, ?_⟩
    rw [writeData, hx, Result.orFinish_ok, hz]
    simp [State.setBi, setSession_eq_bus, evWs]

/-- The byte after `pre` is not acknowledged: the transaction ends with NACK after the STOP (R173). -/
theorem writeData_nacked (bi : Nat) (pre post : List Byte) (y : Byte) (rest : List Bit) (s : State)
    (h : s.lineIn = ansWs pre ++ (ansW true ++ (ansS ++ rest))) :
    ∃ x, writeData bi (pre ++ y :: post) s =
      .fail .nack (s.bus (evWs pre ++ evW y true ++ evP) rest (some true) (some true) x) := by
  induction pre generalizing bi s with
  | nil =>
    obtain ⟨x, hx⟩ := writeByteSeq_nacked y _ s (by simpa [ansWs] using h)
    obtain ⟨z, hz⟩ := finishFail_plain (α := Unit) .nack rest _ (State.bus_lineIn _ _ _ _ x s)
    exact ⟨z, by rw [List.nil_append, writeData, hx, Result.orFinish_fail, hz]; simp [evWs]⟩
  | cons w ws ih =>
    obtain ⟨x, hx⟩ := writeByteSeq_acked w (ansWs ws ++ (ansW true ++ (ansS ++ rest))) s (by simpa [ansWs] using h)
    obtain ⟨z, hz⟩ := ih (bi + 1) ((s.bus (evW w false) (ansWs ws ++ (ansW true ++ (ansS ++ rest))) (some true) (some false) x).setBi (bi + 1)) rfl
    refine ⟨z, ?_⟩
    rw [List.cons_append, writeData, hx, Result.orFinish_ok, hz]
    simp [State.setBi, setSession_eq_bus, evWs]

/-- The bytes the device sends are received in order; every byte but the last is acknowledged (R176). -/
theorem readData_plain (bi : Nat) (buf : List Byte) (y : Byte) (ys : List Byte) (rest : List Bit) (s : State)
    (h : s.lineIn = ansRbs (y :: ys) ++ (ansS ++ rest)) :
    ∃ x, readData ys.length bi buf s =
      .ok (buf ++ y :: ys) (s.bus (evRbs (y :: ys) ++ evP) rest (some true) (some true) x) := by
  induction ys generalizing bi buf y s with
  | nil =>
    obtain ⟨x, hx⟩ := readByteSeq_plain false y _ s (by simpa [ansRbs] using h)
    obtain ⟨z, hz⟩ := finishOk_plain (buf ++ [y]) rest
      (((s.bus (evRb y true) (ansS ++ rest) (some true) (some false) x).setBuf (buf ++ [y])).setBi (bi + 1)) rfl
    refine ⟨z, ?_⟩
    simp only [Bool.not_false] at hx
    rw [List.length_nil, readData, hx, Result.orFinish_ok, hz]
    simp [State.setBi, State.setBuf, setSession_eq_bus, evRbs]
  | cons w ws ih =>
    obtain ⟨x, hx⟩ := readByteSeq_plain true y (ansRbs (w :: ws) ++ (ansS ++ rest)) s (by simpa [ansRbs] using h)
    obtain ⟨z, hz⟩ := ih (bi + 1) (buf ++ [y]) w
      (((s.bus (evRb y false) (ansRbs (w :: ws) ++ (ansS ++ rest)) (some true) (some false) x).setBuf (buf ++ [y])).setBi
        (bi + 1)) rfl
    refine ⟨z, ?_⟩
    simp only [Bool.not_true] at hx
    rw [List.length_cons, readData, hx, Result.orFinish_ok, hz]
    simp [State.setBi, State.setBuf, setSession_eq_bus, evRbs]

theorem readPhase_plain (xs : List Byte) (hxs : xs ≠ []) (rest : List Bit) (s : State)
    (h : s.lineIn = ansRbs xs ++ (ansS ++ rest)) :
    ∃ x, readPhase xs.length s = .ok xs (s.bus (evRbs xs ++ evP) rest (some true) (some true) x) := by
  obtain ⟨y, ys, rfl⟩ := List.exists_cons_of_ne_nil hxs
  obtain ⟨x, hx⟩ := readData_plain 0 [] y ys rest ((s.setBuf []).setBi 0) (by simpa using h)
  refine ⟨x, ?_⟩
  rw [readPhase, List.length_cons, Nat.add_sub_cancel, hx]
  simp [State.setBi, State.setBuf, setSession_eq_bus]

/-! ## Whole transactions -/

/-- `S W(ADDRBYTE(dev,0);0) W(x0;0) ... P` (R174). -/
theorem writeSeq_acked (dev : Byte) (xs : List Byte) (rest : List Bit) (s : State)
    (h : s.lineIn = ansS ++ (ansW false ++ (ansWs xs ++ (ansS ++ rest)))) :
    ∃ x, writeSeq dev xs s =
      .ok () (s.bus (evS ++ evW (addrByteOf dev .write s) false ++ evWs xs ++ evP) rest (some true) (some true) x) := by
  obtain ⟨x, hx⟩ := addressed_acked dev .write (fun s => writeData 0 xs (s.setBi 0)) _ s h
  obtain ⟨y, hy⟩ := writeData_acked 0 xs rest
    ((s.bus (evS ++ evW (addrByteOf dev .write s) false) (ansWs xs ++ (ansS ++ rest)) (some true) (some false) x).setBi 0) rfl
  refine ⟨y, ?_⟩
  rw [writeSeq, hx, hy]
  simp [State.setBi, setSession_eq_bus]

/-- `S W(ADDRBYTE(dev,1);0) Rb(x0;0) ... Rb(xn;1) P` (R176). -/
theorem readSeq_plain (dev : Byte) (xs : List Byte) (hxs : xs ≠ []) (rest : List Bit) (s : State)
    (h : s.lineIn = ansS ++ (ansW false ++ (ansRbs xs ++ (ansS ++ rest)))) :
    ∃ x, readSeq dev xs.length s =
      .ok xs (s.bus (evS ++ evW (addrByteOf dev .read s) false ++ evRbs xs ++ evP) rest (some true) (some true) x) := by
  obtain ⟨x, hx⟩ := addressed_acked dev .read (readPhase xs.length) _ s h
  obtain ⟨y, hy⟩ := readPhase_plain xs hxs rest _ (State.bus_lineIn _ _ _ _ x s)
  exact ⟨y, by rw [readSeq, hx, hy]; simp⟩

/-- `S W(ADDRBYTE(dev,0);0) W(maddr;0) W(x0;0) ... P` (R180). -/
theorem memWriteSeq_acked (dev : Byte) (a : Word16) (aw : Byte) (xs : List Byte) (rest : List Bit) (s : State)
    (h : s.lineIn = ansS ++ (ansW false ++ (ansWs (maddr a aw) ++ (ansWs xs ++ (ansS ++ rest))))) :
    ∃ x, memWriteSeq dev a aw xs s =
      .ok () (s.bus (evS ++ evW (addrByteOf dev .write s) false ++ evWs (maddr a aw) ++ evWs xs ++ evP) rest
        (some true) (some true) x) := by
  obtain ⟨x, hx⟩ := addressed_acked dev .write
    (sendAddress (fun s => writeData 0 xs (s.setBi 0)) (maddr a aw)) _ s h
  obtain ⟨y, hy⟩ := sendAddress_acked (fun s => writeData 0 xs (s.setBi 0)) (maddr a aw) (ansWs xs ++ (ansS ++ rest))
    _ ⟨rfl, rfl⟩
    (State.bus_lineIn (evS ++ evW (addrByteOf dev .write s) false) _ (some true) (some false) x s)
  rw [State.bus_bus] at hy
  obtain ⟨z, hz⟩ := writeData_acked 0 xs rest
    ((s.bus (evS ++ evW (addrByteOf dev .write s) false ++ evWs (maddr a aw)) (ansWs xs ++ (ansS ++ rest))
      (some true) (some false) y).setBi 0) rfl
  refine ⟨z, ?_⟩
  rw [memWriteSeq, hx, hy, hz]
  simp [State.setBi, setSession_eq_bus]

/-- `S W(ADDRBYTE(dev,0);0) W(maddr;0) S W(ADDRBYTE(dev,1);0) Rb(x0;0) ... Rb(xn;1) P` (R182). -/
theorem memReadSeq_plain (dev : Byte) (a : Word16) (aw : Byte) (xs : List Byte) (hxs : xs ≠ []) (rest : List Bit)
    (s : State)
    (h : s.lineIn = ansS ++ (ansW false ++ (ansWs (maddr a aw) ++ (ansS ++ (ansW false ++ (ansRbs xs ++ (ansS ++ rest))))))) :
    ∃ x, memReadSeq dev a aw xs.length s =
      .ok xs (s.bus
        (evS ++ evW (addrByteOf dev .write s) false ++ evWs (maddr a aw) ++ evS ++ evW (addrByteOf dev .read s) false ++
          evRbs xs ++ evP) rest (some true) (some true) x) := by
  obtain ⟨x, hx⟩ := addressed_acked dev .write
    (sendAddress (addressed dev .read (readPhase xs.length)) (maddr a aw)) _ s h
  obtain ⟨y, hy⟩ := sendAddress_acked (addressed dev .read (readPhase xs.length)) (maddr a aw) _ _ ⟨rfl, rfl⟩
    (State.bus_lineIn (evS ++ evW (addrByteOf dev .write s) false) _ (some true) (some false) x s)
  rw [State.bus_bus] at hy
  obtain ⟨z, hz⟩ := addressed_acked dev .read (readPhase xs.length) _ _
    (State.bus_lineIn (evS ++ evW (addrByteOf dev .write s) false ++ evWs (maddr a aw)) _ (some true) (some false) y s)
  obtain ⟨w, hw⟩ := readPhase_plain xs hxs rest _ (State.bus_lineIn _ _ _ _ z s)
  refine ⟨w, ?_⟩
  rw [memReadSeq, hx, hy, hz, State.bus_bus, hw]
  simp [addrByteOf]

end Sys2Proof.Machine
end

