-- ==== Sys2Proof/Laws/Transport.lean ====
section
/-! SUPPORT. What a port call and an access over ports can do (10_state.md R40 to R43, 42_transport_and_handle.md R222
to R227): one inversion for each, with every outcome, and one lemma for each access whose answers are given. -/

namespace Sys2Proof.Machine

/-- The state after port calls: the events they appended, the answers left, the position. -/
def State.called (es : List Event) (rest : List PortAnswer) (u : Upc) (s : State) : State :=
  { s with
    trace := s.trace ++ es
    portIn := rest
    upc := u }

section
variable (es es' : List Event) (rest rest' : List PortAnswer) (u v : Upc) (s : State)

@[simp] theorem State.called_init : (s.called es rest u).init = s.init := rfl
@[simp] theorem State.called_cfg : (s.called es rest u).cfg = s.cfg := rfl
@[simp] theorem State.called_trace : (s.called es rest u).trace = s.trace ++ es := rfl
@[simp] theorem State.called_upc : (s.called es rest u).upc = u := rfl
@[simp] theorem State.called_session : (s.called es rest u).session = s.session := rfl
@[simp] theorem State.called_params : (s.called es rest u).params = s.params := rfl
@[simp] theorem State.called_portIn : (s.called es rest u).portIn = rest := rfl
@[simp] theorem State.called_called :
    (s.called es rest u).called es' rest' v = s.called (es ++ es') rest' v := by simp [State.called]

theorem callCsAssert_eq_called (dev : Nat) : callCsAssert dev s = s.called [.csAssert dev] s.portIn s.upc := rfl
theorem callCsDeassert_eq_called (dev : Nat) : callCsDeassert dev s = s.called [.csDeassert dev] s.portIn s.upc := rfl
theorem answered_emit_eq_called (e : Event) : s.answered.emit e = s.called [e] s.portIn.tail s.upc := rfl
theorem moveTo_eq_called (i : Instr) (p q : Pos) (h : s.upc = .running i p) :
    s.moveTo q = s.called [] s.portIn (.running i q) := by simp [State.moveTo, h, State.called, State.setUpc]
end

/-- The four ways an answer can be outside its port's type (93_implementation_defined.md I16). -/
def Refusal.outOfType (r : Refusal) : Prop :=
  r = .portStatusReserved ∨ r = .portByteCount ∨ r = .portDataWithFailure ∨ r = .portAnswerType

theorem Status.ofCode_code (st : Status) : Status.ofCode st.code = some st := by cases st <;> rfl

/-! ## Port calls -/

/-- A call that returns a status alone. -/
theorem callStatus_cases (event : Status → Event) (s : State) :
    (∃ st, callStatus event s = .done (.ok st (s.called [event st] s.portIn.tail s.upc))) ∨
    (s.portIn.head? = some .noReturn ∧ callStatus event s = .stuck s) ∨
    (s.portIn ≠ [] ∧ ∃ r, r.outOfType ∧ callStatus event s = .refused r) := by
  cases hp : s.portIn with
  | nil => exact .inl ⟨Config.freeStatus s.trace, by simp [callStatus, statusAnswer, hp, answered_emit_eq_called]⟩
  | cons a rest =>
    cases a with
    | noReturn => exact .inr (.inl ⟨rfl, by simp [callStatus, statusAnswer, hp]⟩)
    | answer code data =>
      cases hc : Status.ofCode code with
      | none => exact .inr (.inr ⟨by simp, _, .inl rfl, by simp [callStatus, statusAnswer, hp, hc]⟩)
      | some st =>
        by_cases hd : data = .none
        · exact .inl ⟨st, by simp [callStatus, statusAnswer, hp, hc, hd, answered_emit_eq_called]⟩
        · by_cases hs : st = .ok
          · exact .inr (.inr ⟨by simp, _, .inr (.inr (.inr rfl)), by simp [callStatus, statusAnswer, hp, hc, hd, hs]⟩)
          · exact .inr (.inr ⟨by simp, _, .inr (.inr (.inl rfl)), by simp [callStatus, statusAnswer, hp, hc, hd, hs]⟩)

/-- The call gives the status at the head of the answers. -/
theorem callStatus_given (event : Status → Event) (s : State) (st : Status) (rest : List PortAnswer)
    (h : s.portIn = .answer st.code .none :: rest) :
    callStatus event s = .done (.ok st (s.called [event st] rest s.upc)) := by
  simp [callStatus, statusAnswer, h, Status.ofCode_code, answered_emit_eq_called]

/-- `BT_READ`: on OK exactly the bytes asked for; otherwise a failure without bytes. -/
theorem callBtRead_cases (dev n : Nat) (s : State) :
    (∃ xs : List Byte, xs.length = n ∧
      callBtRead dev n s = .done (.ok (.ok xs) (s.called [.btRead dev n .ok (some xs)] s.portIn.tail s.upc))) ∨
    (∃ st, st ≠ .ok ∧
      callBtRead dev n s = .done (.ok (.error st) (s.called [.btRead dev n st none] s.portIn.tail s.upc))) ∨
    (s.portIn.head? = some .noReturn ∧ callBtRead dev n s = .stuck s) ∨
    (s.portIn ≠ [] ∧ ∃ r, r.outOfType ∧ callBtRead dev n s = .refused r) := by
  cases hp : s.portIn with
  | nil =>
    by_cases hf : Config.freeStatus s.trace = .ok
    · exact .inl ⟨(List.range n).map (Config.freeByte s.trace), by simp,
        by simp [callBtRead, bytesAnswer, hp, hf, answered_emit_eq_called, replyStatus, replyData]⟩
    · exact .inr (.inl ⟨_, hf, by simp [callBtRead, bytesAnswer, hp, hf, answered_emit_eq_called, replyStatus, replyData]⟩)
  | cons a rest =>
    cases a with
    | noReturn => exact .inr (.inr (.inl ⟨rfl, by simp [callBtRead, bytesAnswer, hp]⟩))
    | answer code data =>
      cases hc : Status.ofCode code with
      | none => exact .inr (.inr (.inr ⟨by simp, _, .inl rfl, by simp [callBtRead, bytesAnswer, hp, hc]⟩))
      | some st =>
        by_cases hs : st = .ok
        · subst hs
          cases data with
          | none => exact .inr (.inr (.inr ⟨by simp, _, .inr (.inr (.inr rfl)), by simp [callBtRead, bytesAnswer, hp, hc]⟩))
          | value v =>
            exact .inr (.inr (.inr ⟨by simp, _, .inr (.inr (.inr rfl)), by simp [callBtRead, bytesAnswer, hp, hc]⟩))
          | bytes xs =>
            by_cases hl : xs.length = n
            · exact .inl ⟨xs, hl,
                by simp [callBtRead, bytesAnswer, hp, hc, hl, answered_emit_eq_called, replyStatus, replyData]⟩
            · exact .inr (.inr (.inr ⟨by simp, _, .inr (.inl rfl), by simp [callBtRead, bytesAnswer, hp, hc, hl]⟩))
        · cases data with
          | none =>
            refine .inr (.inl ⟨st, hs, ?_⟩)
            cases st <;>
              simp_all [callBtRead, bytesAnswer, answered_emit_eq_called, replyStatus, replyData]
          | bytes xs =>
            refine .inr (.inr (.inr ⟨by simp, _, .inr (.inr (.inl rfl)), ?_⟩))
            cases st <;> simp_all [callBtRead, bytesAnswer]
          | value v =>
            refine .inr (.inr (.inr ⟨by simp, _, .inr (.inr (.inl rfl)), ?_⟩))
            cases st <;> simp_all [callBtRead, bytesAnswer]

theorem callBtRead_given (dev n : Nat) (s : State) (xs : List Byte) (rest : List PortAnswer) (hl : xs.length = n)
    (h : s.portIn = .answer Status.ok.code (.bytes xs) :: rest) :
    callBtRead dev n s = .done (.ok (.ok xs) (s.called [.btRead dev n .ok (some xs)] rest s.upc)) := by
  simp [callBtRead, bytesAnswer, h, Status.ofCode_code, hl, answered_emit_eq_called, replyStatus, replyData]

theorem callBtRead_fails (dev n : Nat) (s : State) (st : Status) (rest : List PortAnswer) (hst : st ≠ .ok)
    (h : s.portIn = .answer st.code .none :: rest) :
    callBtRead dev n s = .done (.ok (.error st) (s.called [.btRead dev n st none] rest s.upc)) := by
  cases st <;>
    first
    | exact absurd rfl hst
    | simp [callBtRead, bytesAnswer, h, Status.ofCode_code, answered_emit_eq_called, replyStatus, replyData]

/-- `MG_READ`: on OK a value; otherwise a failure without one. -/
theorem callMgRead_cases (dev : Nat) (reg : Word16) (s : State) :
    (∃ v, callMgRead dev reg s = .done (.ok (.ok v) (s.called [.mgRead dev reg .ok (some v)] s.portIn.tail s.upc))) ∨
    (∃ st, st ≠ .ok ∧
      callMgRead dev reg s = .done (.ok (.error st) (s.called [.mgRead dev reg st none] s.portIn.tail s.upc))) ∨
    (s.portIn.head? = some .noReturn ∧ callMgRead dev reg s = .stuck s) ∨
    (s.portIn ≠ [] ∧ ∃ r, r.outOfType ∧ callMgRead dev reg s = .refused r) := by
  cases hp : s.portIn with
  | nil =>
    by_cases hf : Config.freeStatus s.trace = .ok
    · exact .inl ⟨Config.freeValue s.trace,
        by simp [callMgRead, valueAnswer, hp, hf, answered_emit_eq_called, replyStatus, replyData]⟩
    · exact .inr (.inl ⟨_, hf, by simp [callMgRead, valueAnswer, hp, hf, answered_emit_eq_called, replyStatus, replyData]⟩)
  | cons a rest =>
    cases a with
    | noReturn => exact .inr (.inr (.inl ⟨rfl, by simp [callMgRead, valueAnswer, hp]⟩))
    | answer code data =>
      cases hc : Status.ofCode code with
      | none => exact .inr (.inr (.inr ⟨by simp, _, .inl rfl, by simp [callMgRead, valueAnswer, hp, hc]⟩))
      | some st =>
        by_cases hs : st = .ok
        · subst hs
          cases data with
          | none => exact .inr (.inr (.inr ⟨by simp, _, .inr (.inr (.inr rfl)), by simp [callMgRead, valueAnswer, hp, hc]⟩))
          | bytes xs =>
            exact .inr (.inr (.inr ⟨by simp, _, .inr (.inr (.inr rfl)), by simp [callMgRead, valueAnswer, hp, hc]⟩))
          | value v =>
            exact .inl ⟨v, by simp [callMgRead, valueAnswer, hp, hc, answered_emit_eq_called, replyStatus, replyData]⟩
        · cases data with
          | none =>
            refine .inr (.inl ⟨st, hs, ?_⟩)
            cases st <;> simp_all [callMgRead, valueAnswer, answered_emit_eq_called, replyStatus, replyData]
          | bytes xs =>
            refine .inr (.inr (.inr ⟨by simp, _, .inr (.inr (.inl rfl)), ?_⟩))
            cases st <;> simp_all [callMgRead, valueAnswer]
          | value v =>
            refine .inr (.inr (.inr ⟨by simp, _, .inr (.inr (.inl rfl)), ?_⟩))
            cases st <;> simp_all [callMgRead, valueAnswer]

theorem callMgRead_given (dev : Nat) (reg v : Word16) (s : State) (rest : List PortAnswer)
    (h : s.portIn = .answer Status.ok.code (.value v) :: rest) :
    callMgRead dev reg s = .done (.ok (.ok v) (s.called [.mgRead dev reg .ok (some v)] rest s.upc)) := by
  simp [callMgRead, valueAnswer, h, Status.ofCode_code, answered_emit_eq_called, replyStatus, replyData]

theorem callMgRead_fails (dev : Nat) (reg : Word16) (s : State) (st : Status) (rest : List PortAnswer) (hst : st ≠ .ok)
    (h : s.portIn = .answer st.code .none :: rest) :
    callMgRead dev reg s = .done (.ok (.error st) (s.called [.mgRead dev reg st none] rest s.upc)) := by
  cases st <;>
    first
    | exact absurd rfl hst
    | simp [callMgRead, valueAnswer, h, Status.ofCode_code, answered_emit_eq_called, replyStatus, replyData]

/-! ## Accesses -/

/-- A block-transfer read (R222): its bytes; or a failure of the data, or of the header, with the chip-select deasserted
in every case; or stuck in one of its two calls; or refused. -/
theorem btMemRead_cases (leg : Leg) (c : BlockConfig) (a : Word16) (n : Nat) (s : State) (i : Instr) (p : Pos)
    (hu : s.upc = .running i p) :
    (∃ xs rest, rest <:+ s.portIn ∧ xs.length = n ∧ btMemRead leg c a n s =
      .done (.ok xs (s.called
        [.csAssert c.btDev, .btWrite c.btDev (readHeader s.params a) .ok, .btRead c.btDev n .ok (some xs),
          .csDeassert c.btDev] rest (.running i (.btData leg (.read a n)))))) ∨
    (∃ st rest, rest <:+ s.portIn ∧ st ≠ .ok ∧ btMemRead leg c a n s =
      .done (.fail st (s.called
        [.csAssert c.btDev, .btWrite c.btDev (readHeader s.params a) .ok, .btRead c.btDev n st none,
          .csDeassert c.btDev] rest (.running i (.btData leg (.read a n)))))) ∨
    (∃ st rest, rest <:+ s.portIn ∧ st ≠ .ok ∧ btMemRead leg c a n s =
      .done (.fail st (s.called
        [.csAssert c.btDev, .btWrite c.btDev (readHeader s.params a) st, .csDeassert c.btDev] rest
        (.running i (.btHeader leg (.read a n)))))) ∨
    (s.portIn.head? = some .noReturn ∧ btMemRead leg c a n s =
      .stuck (s.called [.csAssert c.btDev] s.portIn (.running i (.btHeader leg (.read a n))))) ∨
    (s.portIn.tail.head? = some .noReturn ∧ btMemRead leg c a n s =
      .stuck (s.called [.csAssert c.btDev, .btWrite c.btDev (readHeader s.params a) .ok] s.portIn.tail
        (.running i (.btData leg (.read a n))))) ∨
    (s.portIn ≠ [] ∧ ∃ r, r.outOfType ∧ btMemRead leg c a n s = .refused r) := by
  have hm : (callCsAssert c.btDev s).moveTo (.btHeader leg (.read a n)) =
      s.called [.csAssert c.btDev] s.portIn (.running i (.btHeader leg (.read a n))) := by
    rw [moveTo_eq_called _ i p _ (by simpa [callCsAssert_eq_called] using hu), callCsAssert_eq_called]; simp
  simp only [btMemRead, btReadExchange, hm, callBtWrite]
  rcases callStatus_cases (.btWrite c.btDev (readHeader s.params a))
    (s.called [.csAssert c.btDev] s.portIn (.running i (.btHeader leg (.read a n)))) with
    ⟨st, h⟩ | ⟨h0, h⟩ | ⟨h0, r, hr, h⟩
  · by_cases hst : st = .ok
    · subst hst
      have hd : (s.called [.csAssert c.btDev, .btWrite c.btDev (readHeader s.params a) .ok] s.portIn.tail
          (.running i (.btHeader leg (.read a n)))).moveTo (.btData leg (.read a n)) =
          s.called [.csAssert c.btDev, .btWrite c.btDev (readHeader s.params a) .ok] s.portIn.tail
            (.running i (.btData leg (.read a n))) := by
        rw [moveTo_eq_called _ i (.btHeader leg (.read a n)) _ rfl]; simp
      rcases callBtRead_cases c.btDev n
        (s.called [.csAssert c.btDev, .btWrite c.btDev (readHeader s.params a) .ok] s.portIn.tail
          (.running i (.btData leg (.read a n)))) with ⟨xs, hl, h'⟩ | ⟨st, hst, h'⟩ | ⟨h0, h'⟩ | ⟨h0, r, hr, h'⟩
      · exact .inl ⟨xs, s.portIn.tail.tail, (List.tail_suffix _).trans (List.tail_suffix _), hl,
          by simp [h, hd, h', btReturn, callCsDeassert_eq_called]⟩
      · exact .inr (.inl ⟨st, s.portIn.tail.tail, (List.tail_suffix _).trans (List.tail_suffix _), hst,
          by simp [h, hd, h', btReturn, callCsDeassert_eq_called]⟩)
      · exact .inr (.inr (.inr (.inr (.inl ⟨h0, by simp [h, hd, h']⟩))))
      · refine .inr (.inr (.inr (.inr (.inr ⟨?_, r, hr, by simp [h, hd, h']⟩))))
        intro hn; simp [hn] at h0
    · exact .inr (.inr (.inl ⟨st, s.portIn.tail, List.tail_suffix _, hst,
        by simp [h, hst, btReturn, callCsDeassert_eq_called]⟩))
  · exact .inr (.inr (.inr (.inl ⟨h0, by simp [h]⟩)))
  · exact .inr (.inr (.inr (.inr (.inr ⟨h0, r, hr, by simp [h]⟩))))

/-- A block-transfer write (R223), likewise. -/
theorem btMemWrite_cases (leg : Leg) (c : BlockConfig) (a : Word16) (xs : List Byte) (s : State) (i : Instr) (p : Pos)
    (hu : s.upc = .running i p) :
    (∃ rest, rest <:+ s.portIn ∧ btMemWrite leg c a xs s =
      .done (.ok () (s.called
        [.csAssert c.btDev, .btWrite c.btDev (writeHeader s.params a) .ok, .btWrite c.btDev xs .ok,
          .csDeassert c.btDev] rest (.running i (.btData leg (.write a xs)))))) ∨
    (∃ st rest, rest <:+ s.portIn ∧ st ≠ .ok ∧ btMemWrite leg c a xs s =
      .done (.fail st (s.called
        [.csAssert c.btDev, .btWrite c.btDev (writeHeader s.params a) .ok, .btWrite c.btDev xs st,
          .csDeassert c.btDev] rest (.running i (.btData leg (.write a xs)))))) ∨
    (∃ st rest, rest <:+ s.portIn ∧ st ≠ .ok ∧ btMemWrite leg c a xs s =
      .done (.fail st (s.called
        [.csAssert c.btDev, .btWrite c.btDev (writeHeader s.params a) st, .csDeassert c.btDev] rest
        (.running i (.btHeader leg (.write a xs)))))) ∨
    (s.portIn.head? = some .noReturn ∧ btMemWrite leg c a xs s =
      .stuck (s.called [.csAssert c.btDev] s.portIn (.running i (.btHeader leg (.write a xs))))) ∨
    (s.portIn.tail.head? = some .noReturn ∧ btMemWrite leg c a xs s =
      .stuck (s.called [.csAssert c.btDev, .btWrite c.btDev (writeHeader s.params a) .ok] s.portIn.tail
        (.running i (.btData leg (.write a xs))))) ∨
    (s.portIn ≠ [] ∧ ∃ r, r.outOfType ∧ btMemWrite leg c a xs s = .refused r) := by
  have hm : (callCsAssert c.btDev s).moveTo (.btHeader leg (.write a xs)) =
      s.called [.csAssert c.btDev] s.portIn (.running i (.btHeader leg (.write a xs))) := by
    rw [moveTo_eq_called _ i p _ (by simpa [callCsAssert_eq_called] using hu), callCsAssert_eq_called]; simp
  simp only [btMemWrite, btWriteExchange, hm, callBtWrite]
  rcases callStatus_cases (.btWrite c.btDev (writeHeader s.params a))
    (s.called [.csAssert c.btDev] s.portIn (.running i (.btHeader leg (.write a xs)))) with
    ⟨st, h⟩ | ⟨h0, h⟩ | ⟨h0, r, hr, h⟩
  · by_cases hst : st = .ok
    · subst hst
      have hd : (s.called [.csAssert c.btDev, .btWrite c.btDev (writeHeader s.params a) .ok] s.portIn.tail
          (.running i (.btHeader leg (.write a xs)))).moveTo (.btData leg (.write a xs)) =
          s.called [.csAssert c.btDev, .btWrite c.btDev (writeHeader s.params a) .ok] s.portIn.tail
            (.running i (.btData leg (.write a xs))) := by
        rw [moveTo_eq_called _ i (.btHeader leg (.write a xs)) _ rfl]; simp
      rcases callStatus_cases (.btWrite c.btDev xs)
        (s.called [.csAssert c.btDev, .btWrite c.btDev (writeHeader s.params a) .ok] s.portIn.tail
          (.running i (.btData leg (.write a xs)))) with ⟨st, h'⟩ | ⟨h0, h'⟩ | ⟨h0, r, hr, h'⟩
      · by_cases hst : st = .ok
        · subst hst
          exact .inl ⟨s.portIn.tail.tail, (List.tail_suffix _).trans (List.tail_suffix _),
            by simp [h, hd, h', btReturn, statusResult, callCsDeassert_eq_called]⟩
        · exact .inr (.inl ⟨st, s.portIn.tail.tail, (List.tail_suffix _).trans (List.tail_suffix _), hst,
          by simp [h, hd, h', hst, btReturn, statusResult, callCsDeassert_eq_called]⟩)
      · exact .inr (.inr (.inr (.inr (.inl ⟨h0, by simp [h, hd, h']⟩))))
      · refine .inr (.inr (.inr (.inr (.inr ⟨?_, r, hr, by simp [h, hd, h']⟩))))
        intro hn; simp [hn] at h0
    · exact .inr (.inr (.inl ⟨st, s.portIn.tail, List.tail_suffix _, hst,
        by simp [h, hst, btReturn, statusResult, callCsDeassert_eq_called]⟩))
  · exact .inr (.inr (.inr (.inl ⟨h0, by simp [h]⟩)))
  · exact .inr (.inr (.inr (.inr (.inr ⟨h0, r, hr, by simp [h]⟩))))

/-- A management read (R226). -/
theorem mgMemRead_cases (leg : Leg) (c : MgmtConfig) (a : Word16) (n : Nat) (s : State) (i : Instr) (p : Pos)
    (hu : s.upc = .running i p) :
    (∃ v rest, rest <:+ s.portIn ∧ mgMemRead leg c a n s =
      .done (.ok (be16 v) (s.called [.mgRead c.mgDev a .ok (some v)] rest (.running i (.mgmt leg (.read a n)))))) ∨
    (∃ st rest, rest <:+ s.portIn ∧ st ≠ .ok ∧ mgMemRead leg c a n s =
      .done (.fail st (s.called [.mgRead c.mgDev a st none] rest (.running i (.mgmt leg (.read a n)))))) ∨
    (s.portIn.head? = some .noReturn ∧ mgMemRead leg c a n s =
      .stuck (s.called [] s.portIn (.running i (.mgmt leg (.read a n))))) ∨
    (s.portIn ≠ [] ∧ ∃ r, r.outOfType ∧ mgMemRead leg c a n s = .refused r) := by
  simp only [mgMemRead, moveTo_eq_called s i p _ hu]
  rcases callMgRead_cases c.mgDev a (s.called [] s.portIn (.running i (.mgmt leg (.read a n)))) with
    ⟨v, h⟩ | ⟨st, hst, h⟩ | ⟨h0, h⟩ | ⟨h0, r, hr, h⟩
  · exact .inl ⟨v, s.portIn.tail, List.tail_suffix _, by simp [h]⟩
  · exact .inr (.inl ⟨st, s.portIn.tail, List.tail_suffix _, hst, by simp [h]⟩)
  · exact .inr (.inr (.inl ⟨h0, by simp [h]⟩))
  · exact .inr (.inr (.inr ⟨h0, r, hr, by simp [h]⟩))

/-- A management write (R227). -/
theorem mgMemWrite_cases (leg : Leg) (c : MgmtConfig) (a : Word16) (xs : List Byte) (s : State) (i : Instr) (p : Pos)
    (hu : s.upc = .running i p) :
    (∃ rest, rest <:+ s.portIn ∧ mgMemWrite leg c a xs s =
      .done (.ok () (s.called [.mgWrite c.mgDev a (unBe16 xs) .ok] rest (.running i (.mgmt leg (.write a xs)))))) ∨
    (∃ st rest, rest <:+ s.portIn ∧ st ≠ .ok ∧ mgMemWrite leg c a xs s =
      .done (.fail st (s.called [.mgWrite c.mgDev a (unBe16 xs) st] rest (.running i (.mgmt leg (.write a xs)))))) ∨
    (s.portIn.head? = some .noReturn ∧ mgMemWrite leg c a xs s =
      .stuck (s.called [] s.portIn (.running i (.mgmt leg (.write a xs))))) ∨
    (s.portIn ≠ [] ∧ ∃ r, r.outOfType ∧ mgMemWrite leg c a xs s = .refused r) := by
  simp only [mgMemWrite, moveTo_eq_called s i p _ hu, callMgWrite]
  rcases callStatus_cases (.mgWrite c.mgDev a (unBe16 xs)) (s.called [] s.portIn (.running i (.mgmt leg (.write a xs)))) with
    ⟨st, h⟩ | ⟨h0, h⟩ | ⟨h0, r, hr, h⟩
  · by_cases hst : st = .ok
    · subst hst
      exact .inl ⟨s.portIn.tail, List.tail_suffix _, by simp [h]⟩
    · exact .inr (.inl ⟨st, s.portIn.tail, List.tail_suffix _, hst, by simp [h, hst]⟩)
  · exact .inr (.inr (.inl ⟨h0, by simp [h]⟩))
  · exact .inr (.inr (.inr ⟨h0, r, hr, by simp [h]⟩))

end Sys2Proof.Machine
end

