-- ==== Sys2Proof/Laws/Exec.lean ====
section
/-! SUPPORT. Everything a command can do, said once (10_state.md R21, R37, 60_exceptions.md R301 to R310): `exec_ran` is the
inversion of `exec`, for every command and every environment. -/

namespace Sys2Proof.Machine

/-! ## What a command may return -/

/-- The bytes of the value a command returns (20_memory.md R69); 4 for the others, which return none. -/
def valueBytes : Instr → Nat
  | .bbReadByte _ _ _ | .readU8 _ _ _ => 1
  | .readU16 _ _ _ => 2
  | _ => 4

/-- How many bytes a command that returns bytes returns (R69). -/
def returnLength : Instr → Nat
  | .bbRead _ len _ _ | .bbMemRead _ _ _ len _ _ | .readBurst _ len _ _ => len.toNat
  | _ => 0

/-- How many accesses a facade command makes where all goes well (20_memory.md R70). -/
def accesses (i : Instr) : Nat := if isModify i then 2 else 1

/-- What a command gives back with OK (R37). -/
structure Answers (i : Instr) (rval : Option Word32) (dOut : Option (List Byte)) : Prop where
  value : rval.isSome = returnsValue i
  bytes : dOut.isSome = returnsBytes i
  narrow : ∀ v, rval = some v → v.toNat < 2 ^ (8 * valueBytes i)
  length : ∀ xs, dOut = some xs → xs.length = returnLength i

theorem Answers.status {i : Instr} (hv : returnsValue i = false) (hb : returnsBytes i = false) :
    Answers i none none := ⟨by simp [hv], by simp [hb], by simp, by simp⟩

theorem Answers.valued {i : Instr} (v : Word32) (hv : returnsValue i = true) (hb : returnsBytes i = false)
    (hn : v.toNat < 2 ^ (8 * valueBytes i)) : Answers i (some v) none :=
  ⟨by simp [hv], by simp [hb], by rintro _ ⟨⟩; exact hn, by simp⟩

theorem Answers.listed {i : Instr} (xs : List Byte) (hv : returnsValue i = false) (hb : returnsBytes i = true)
    (hl : xs.length = returnLength i) : Answers i none (some xs) :=
  ⟨by simp [hv], by simp [hb], by simp, by rintro _ ⟨⟩; exact hl⟩

/-! ## The lengths and values of what is read -/

/-- What a subroutine returns with OK meets a condition. -/
def Result.Gives {α : Type} (good : α → Prop) (r : Result α) : Prop := ∀ x t, r = .ok x t → good x

theorem Result.Gives.orFinish {α β : Type} {good : β → Prop} {f : α → State → Result β} (r : Result α)
    (hf : ∀ x t, (f x t).Gives good) : (r.orFinish f).Gives good := by
  intro y t h
  cases r with
  | ok x u => exact hf x u y t h
  | fail st u => simp [Result.orFinish, finishFail] at h

theorem finishOk_gives {α : Type} (x : α) (s : State) : (finishOk x s).Gives (· = x) := by
  intro y t h
  unfold finishOk at h
  rcases Result.andThen_cases (stopSeq s) (fun _ s => .ok x s) with ⟨_, u, -, h'⟩ | ⟨st, u, -, h'⟩ <;> rw [h'] at h <;>
    cases h
  rfl

theorem readData_length (left bi : Nat) (buf : List Byte) (s : State) :
    (readData left bi buf s).Gives (fun xs => xs.length = buf.length + left + 1) := by
  induction left generalizing bi buf s with
  | zero =>
    refine Result.Gives.orFinish _ fun x t y u h => ?_
    rw [finishOk_gives _ _ y u h]
    simp
  | succ left ih =>
    refine Result.Gives.orFinish _ fun x t y u h => ?_
    rw [ih _ _ _ y u h]
    simp
    omega

theorem readPhase_length (n : Nat) (hn : 1 ≤ n) (s : State) : (readPhase n s).Gives (fun xs => xs.length = n) := by
  intro xs t h
  have := readData_length _ _ _ _ xs t h
  simp at this
  omega

theorem addressed_gives {β : Type} {good : β → Prop} (dev : Byte) (rw : Direction) (f : State → Result β) (s : State)
    (hf : ∀ t, (f t).Gives good) : (addressed dev rw f s).Gives good :=
  Result.Gives.orFinish _ fun _ _ => Result.Gives.orFinish _ fun _ t => hf t

theorem sendAddress_gives {β : Type} {good : β → Prop} (f : State → Result β) (ms : List Byte) (s : State)
    (hf : ∀ t, (f t).Gives good) : (sendAddress f ms s).Gives good := by
  induction ms generalizing s with
  | nil => exact hf s
  | cons m ms ih => exact Result.Gives.orFinish _ fun _ t => ih t

theorem readSeq_length (dev : Byte) (n : Nat) (hn : 1 ≤ n) (s : State) :
    (readSeq dev n s).Gives (fun xs => xs.length = n) := addressed_gives _ _ _ _ (readPhase_length n hn)

theorem memReadSeq_length (dev : Byte) (a : Word16) (aw : Byte) (n : Nat) (hn : 1 ≤ n) (s : State) :
    (memReadSeq dev a aw n s).Gives (fun xs => xs.length = n) :=
  addressed_gives _ _ _ _ fun _ => sendAddress_gives _ _ _ fun _ => addressed_gives _ _ _ _ (readPhase_length n hn)

/-- `unBE` of at most two bytes is a 16-bit number. -/
theorem unBe32_two (xs : List Byte) (h : xs.length = 2) : (unBe32 xs).toNat < 2 ^ 16 := by
  match xs, h with
  | [a, b], _ =>
    have ha := a.isLt
    have hb := b.isLt
    simp [unBe32, unBeNat]
    omega

/-! ## What port calls may do (10_state.md R41 to R43, 42_transport_and_handle.md R222 to R227) -/

/-- A `BT_WRITE` or a `BT_READ` of this device. -/
def IsTransfer (dev : Nat) (e : Event) : Prop := (∃ xs st, e = .btWrite dev xs st) ∨ ∃ n st ys, e = .btRead dev n st ys

/-- An `MG_READ` or an `MG_WRITE` of this device. -/
def IsManagement (dev : Nat) (e : Event) : Prop :=
  (∃ reg st v, e = .mgRead dev reg st v) ∨ ∃ reg v st, e = .mgWrite dev reg v st

/-- One whole access: a chip-select cycle (R224), or one management call. -/
def PortAccess (c : Option TransportConfig) (es : List Event) : Prop :=
  (∃ b mid, c = some (.block b) ∧ mid ≠ [] ∧ es = .csAssert b.btDev :: (mid ++ [.csDeassert b.btDev]) ∧
    ∀ e ∈ mid, IsTransfer b.btDev e) ∨
  (∃ m e, c = some (.mgmt m) ∧ es = [e] ∧ IsManagement m.mgDev e)

/-- The events of an access whose call at position `p` does not return (60_exceptions.md R310). -/
def PartAccess (c : Option TransportConfig) (es : List Event) (p : Pos) : Prop :=
  (∃ b mid leg acc, c = some (.block b) ∧ es = .csAssert b.btDev :: mid ∧ (∀ e ∈ mid, IsTransfer b.btDev e) ∧
    (p = .btHeader leg acc ∨ p = .btData leg acc)) ∨
  (∃ m leg acc, c = some (.mgmt m) ∧ es = [] ∧ p = .mgmt leg acc)

/-- Every port call among the events returned OK. -/
def AllOk (es : List Event) : Prop := ∀ e ∈ es, ∀ st, e.portStatus = some st → st = .ok

/-- One port call among the events failed with `st`, and none with another status. -/
def FailedWith (st : Status) (es : List Event) : Prop :=
  st ≠ .ok ∧ (∃ e ∈ es, e.portStatus = some st) ∧ ∀ e ∈ es, ∀ st', e.portStatus = some st' → st' = .ok ∨ st' = st

theorem AllOk.append {es es' : List Event} (h : AllOk es) (h' : AllOk es') : AllOk (es ++ es') := by
  intro e he
  rcases List.mem_append.1 he with he | he
  · exact h e he
  · exact h' e he

theorem FailedWith.append {st : Status} {es es' : List Event} (h : AllOk es) (h' : FailedWith st es') :
    FailedWith st (es ++ es') := by
  obtain ⟨hst, ⟨e, he, hes⟩, hall⟩ := h'
  refine ⟨hst, ⟨e, List.mem_append_right _ he, hes⟩, fun e he st' h1 => ?_⟩
  rcases List.mem_append.1 he with he | he
  · exact .inl (h e he st' h1)
  · exact hall e he st' h1

/-- What accesses over ports give a command that runs from `s`: `k` of them where it succeeds, at most `k` otherwise. -/
def Reply.Calls {α : Type} (i : Instr) (s : State) (k : Nat) (good : α → Prop) (r : Reply α) : Prop :=
  match r with
  | .done (.ok x t) =>
    good x ∧ ∃ (accs : List (List Event)) (rest : List PortAnswer) (p : Pos), t = s.called accs.flatten rest (.running i p) ∧ accs.length = k ∧
      (∀ es ∈ accs, PortAccess s.cfg es) ∧ rest <:+ s.portIn ∧ AllOk accs.flatten
  | .done (.fail st t) =>
    ∃ (accs : List (List Event)) (rest : List PortAnswer) (p : Pos), t = s.called accs.flatten rest (.running i p) ∧ accs.length ≤ k ∧
      (∀ es ∈ accs, PortAccess s.cfg es) ∧ rest <:+ s.portIn ∧ FailedWith st accs.flatten
  | .stuck t =>
    ∃ (accs : List (List Event)) (part : List Event) (rest : List PortAnswer) (p : Pos), t = s.called (accs.flatten ++ part) rest (.running i p) ∧ accs.length < k ∧
      (∀ es ∈ accs, PortAccess s.cfg es) ∧ PartAccess s.cfg part p ∧ rest <:+ s.portIn ∧
      rest.head? = some .noReturn
  | .refused r => s.portIn ≠ [] ∧ r.outOfType

/-- Two accesses, the second after an OK of the first: a modify (43_facade_access.md R270, R272). -/
theorem Reply.Calls.andThen {α β : Type} {i : Instr} {s : State} {k k' : Nat} {good : α → Prop} {good' : β → Prop}
    {r : Reply α} {f : α → State → Reply β} (h : r.Calls i s k good)
    (hf : ∀ x t p, good x → t.cfg = s.cfg → t.upc = .running i p → (f x t).Calls i t k' good') :
    (r.andThen f).Calls i s (k + k') good' := by
  match r, h with
  | .done (.ok x t), ⟨h0, accs, rest, p, ht, hl, ha, hr, hok⟩ =>
    have hc : t.cfg = s.cfg := by rw [ht]; rfl
    have hp : t.portIn <:+ s.portIn := by rw [ht]; exact hr
    have h' := hf x t p h0 hc (by rw [ht]; rfl)
    change (f x t).Calls i s (k + k') good'
    have hmem : ∀ accs', (∀ es ∈ accs', PortAccess t.cfg es) → ∀ es ∈ accs ++ accs', PortAccess s.cfg es := by
      intro accs' ha' es he
      rcases List.mem_append.1 he with he | he
      · exact ha es he
      · exact hc ▸ ha' es he
    match hq : f x t, h' with
    | .done (.ok y u), ⟨h0', accs', rest', p', hu, hl', ha', hr', hok'⟩ =>
      exact ⟨h0', accs ++ accs', rest', p', by rw [hu, ht]; simp, by simp; omega, hmem _ ha', hr'.trans hp,
        by rw [List.flatten_append]; exact hok.append hok'⟩
    | .done (.fail st u), ⟨accs', rest', p', hu, hl', ha', hr', hok'⟩ =>
      exact ⟨accs ++ accs', rest', p', by rw [hu, ht]; simp, by simp; omega, hmem _ ha', hr'.trans hp,
        by rw [List.flatten_append]; exact hok'.append hok⟩
    | .stuck u, ⟨accs', part, rest', p', hu, hl', ha', hpart, hr', hn⟩ =>
      exact ⟨accs ++ accs', part, rest', p', by rw [hu, ht]; simp, by simp; omega, hmem _ ha', hc ▸ hpart, hr'.trans hp, hn⟩
    | .refused e, ⟨hne, hout⟩ =>
      refine ⟨fun h0 => hne ?_, hout⟩
      exact List.suffix_nil.1 (h0 ▸ hp)
  | .done (.fail st t), ⟨accs, rest, p, h1, h2, h3⟩ => exact ⟨accs, rest, p, h1, by omega, h3⟩
  | .stuck t, ⟨accs, part, rest, p, h1, h2, h3⟩ => exact ⟨accs, part, rest, p, h1, by omega, h3⟩
  | .refused _, h => exact h

/-- `MemRead` over ports. -/
theorem memRead_calls (leg : Leg) (a : Word16) (n : Nat) (s : State) (i : Instr) (p : Pos)
    (hu : s.upc = .running i p) (hc : (∃ c, s.cfg = some (.block c)) ∨ ((∃ c, s.cfg = some (.mgmt c)) ∧ n = 2)) :
    (memRead leg a n s).Calls i s 1 (fun xs => xs.length = n) := by
  rcases hc with ⟨c, hc⟩ | ⟨⟨c, hc⟩, rfl⟩
  · simp only [memRead, hc]
    rcases btMemRead_cases leg c a n s i p hu with ⟨xs, rest, hr, hl, h⟩ | ⟨st, rest, hr, hst, h⟩ | ⟨st, rest, hr, hst, h⟩ |
      ⟨hn, h⟩ | ⟨hn, h⟩ | ⟨hn, r, hr, h⟩ <;> rw [h]
    · exact ⟨hl, [_], rest, _, by simp; rfl, by simp,
        by simpa using .inl ⟨c, [_, _], hc, by simp, rfl, by simp [IsTransfer]⟩, hr, by simp [AllOk, Event.portStatus]⟩
    · exact ⟨[_], rest, _, by simp; rfl, by simp,
        by simpa using .inl ⟨c, [_, _], hc, by simp, rfl, by simp [IsTransfer]⟩, hr, hst,
        by simp [Event.portStatus], by simp [Event.portStatus]⟩
    · exact ⟨[_], rest, _, by simp; rfl, by simp,
        by simpa using .inl ⟨c, [_], hc, by simp, rfl, by simp [IsTransfer]⟩, hr, hst,
        by simp [Event.portStatus], by simp [Event.portStatus]⟩
    · exact ⟨[], _, _, _, by simp; rfl, by simp, by simp,
        .inl ⟨c, [], leg, _, hc, rfl, by simp, .inl rfl⟩, List.suffix_refl _, hn⟩
    · exact ⟨[], _, _, _, by simp; rfl, by simp, by simp,
        .inl ⟨c, [_], leg, _, hc, rfl, by simp [IsTransfer], .inr rfl⟩, List.tail_suffix _, hn⟩
    · exact ⟨hn, hr⟩
  · simp only [memRead, hc]
    rcases mgMemRead_cases leg c a 2 s i p hu with ⟨v, rest, hr, h⟩ | ⟨st, rest, hr, hst, h⟩ | ⟨hn, h⟩ | ⟨hn, r, hr, h⟩ <;>
      rw [h]
    · exact ⟨rfl, [_], rest, _, by simp; rfl, by simp, by simpa using .inr ⟨c, _, hc, rfl, by simp [IsManagement]⟩, hr,
        by simp [AllOk, Event.portStatus]⟩
    · exact ⟨[_], rest, _, by simp; rfl, by simp, by simpa using .inr ⟨c, _, hc, rfl, by simp [IsManagement]⟩, hr, hst,
        by simp [Event.portStatus], by simp [Event.portStatus]⟩
    · exact ⟨[], _, _, _, by simp; rfl, by simp, by simp, .inr ⟨c, leg, _, hc, rfl, rfl⟩, List.suffix_refl _, hn⟩
    · exact ⟨hn, hr⟩

/-- `MemWrite` over ports. -/
theorem memWrite_calls (leg : Leg) (a : Word16) (xs : List Byte) (s : State) (i : Instr) (p : Pos)
    (hu : s.upc = .running i p) (hc : (∃ c, s.cfg = some (.block c)) ∨ ∃ c, s.cfg = some (.mgmt c)) :
    (memWrite leg a xs s).Calls i s 1 (fun _ => True) := by
  rcases hc with ⟨c, hc⟩ | ⟨c, hc⟩
  · simp only [memWrite, hc]
    rcases btMemWrite_cases leg c a xs s i p hu with ⟨rest, hr, h⟩ | ⟨st, rest, hr, hst, h⟩ | ⟨st, rest, hr, hst, h⟩ |
      ⟨hn, h⟩ | ⟨hn, h⟩ | ⟨hn, r, hr, h⟩ <;> rw [h]
    · exact ⟨trivial, [_], rest, _, by simp; rfl, by simp,
        by simpa using .inl ⟨c, [_, _], hc, by simp, rfl, by simp [IsTransfer]⟩, hr, by simp [AllOk, Event.portStatus]⟩
    · exact ⟨[_], rest, _, by simp; rfl, by simp,
        by simpa using .inl ⟨c, [_, _], hc, by simp, rfl, by simp [IsTransfer]⟩, hr, hst,
        by simp [Event.portStatus], by simp [Event.portStatus]⟩
    · exact ⟨[_], rest, _, by simp; rfl, by simp,
        by simpa using .inl ⟨c, [_], hc, by simp, rfl, by simp [IsTransfer]⟩, hr, hst,
        by simp [Event.portStatus], by simp [Event.portStatus]⟩
    · exact ⟨[], _, _, _, by simp; rfl, by simp, by simp,
        .inl ⟨c, [], leg, _, hc, rfl, by simp, .inl rfl⟩, List.suffix_refl _, hn⟩
    · exact ⟨[], _, _, _, by simp; rfl, by simp, by simp,
        .inl ⟨c, [_], leg, _, hc, rfl, by simp [IsTransfer], .inr rfl⟩, List.tail_suffix _, hn⟩
    · exact ⟨hn, hr⟩
  · simp only [memWrite, hc]
    rcases mgMemWrite_cases leg c a xs s i p hu with ⟨rest, hr, h⟩ | ⟨st, rest, hr, hst, h⟩ | ⟨hn, h⟩ | ⟨hn, r, hr, h⟩ <;>
      rw [h]
    · exact ⟨trivial, [_], rest, _, by simp; rfl, by simp, by simpa using .inr ⟨c, _, hc, rfl, by simp [IsManagement]⟩, hr,
        by simp [AllOk, Event.portStatus]⟩
    · exact ⟨[_], rest, _, by simp; rfl, by simp, by simpa using .inr ⟨c, _, hc, rfl, by simp [IsManagement]⟩, hr, hst,
        by simp [Event.portStatus], by simp [Event.portStatus]⟩
    · exact ⟨[], _, _, _, by simp; rfl, by simp, by simp, .inr ⟨c, leg, _, hc, rfl, rfl⟩, List.suffix_refl _, hn⟩
    · exact ⟨hn, hr⟩

/-! ## What an access over the lines may do (R220) -/

/-- What a line activity gives: OK with good data, NACK or TIMEOUT, and the line part of the state alone written. -/
def Result.OnLines {α : Type} (s : State) (good : α → Prop) (r : Result α) : Prop :=
  match r with
  | .ok x t => good x ∧ LineEffect s t
  | .fail st t => (st = .nack ∨ st = .timeout) ∧ LineEffect s t

/-- The same of an access of the transport selector, which over the lines always returns. -/
def Reply.OnLines {α : Type} (s : State) (good : α → Prop) (r : Reply α) : Prop :=
  match r with
  | .done r => r.OnLines s good
  | .stuck _ => False
  | .refused _ => False

theorem Result.Ends.onLines {α : Type} {s : State} {good : α → Prop} {r : Result α} (h : r.Ends s)
    (hg : r.Gives good) : r.OnLines s good := by
  cases r with
  | ok x t => exact ⟨hg x t rfl, h.1⟩
  | fail st t => exact ⟨h.2.1, h.1⟩

theorem Reply.OnLines.andThen {α β : Type} {s : State} {good : α → Prop} {good' : β → Prop} {r : Reply α}
    {f : α → State → Reply β} (h : r.OnLines s good)
    (hf : ∀ x t, good x → t.cfg = s.cfg → (f x t).OnLines t good') : (r.andThen f).OnLines s good' := by
  rcases r with (⟨x, t⟩ | ⟨st, t⟩) | t | e
  · obtain ⟨h0, ht⟩ := h
    have hc : t.cfg = s.cfg := by obtain ⟨_, _, _, _, _, _, rfl⟩ := ht.frame; rfl
    have h' := hf x t h0 hc
    rw [Reply.andThen_ok]
    revert h'
    rcases f x t with (⟨y, u⟩ | ⟨st, u⟩) | u | e
    · exact fun h' => ⟨h'.1, ht.trans h'.2⟩
    · exact fun h' => ⟨h'.1, ht.trans h'.2⟩
    · exact False.elim
    · exact False.elim
  · exact h
  · exact h.elim
  · exact h.elim

theorem memRead_onLines (leg : Leg) (a : Word16) (n : Nat) (hn : 1 ≤ n) (s : State)
    (hc : ∃ c, s.cfg = some (.twoWire c)) : (memRead leg a n s).OnLines s (fun xs => xs.length = n) := by
  obtain ⟨c, hc⟩ := hc
  simp only [memRead, hc]
  exact Result.Ends.onLines (memReadSeq_any _ _ _ _ s) (memReadSeq_length _ _ _ _ hn s)

theorem memWrite_onLines (leg : Leg) (a : Word16) (xs : List Byte) (s : State)
    (hc : ∃ c, s.cfg = some (.twoWire c)) : (memWrite leg a xs s).OnLines s (fun _ => True) := by
  obtain ⟨c, hc⟩ := hc
  simp only [memWrite, hc]
  exact Result.Ends.onLines (memWriteSeq_any _ _ _ _ s) (fun _ _ _ => trivial)

/-! ## The inversion of `exec` -/

/-- Everything a command can do: refused while another runs; INVALID_PARAM at once; the handle written; a line activity
that ends in OK, NACK or TIMEOUT; port calls that end in OK or a port's failure, or in a call that does not return, or
with an answer outside its port's type. -/
inductive Ran (i : Instr) (s : State) : Host.Outcome State Fault Refusal → Prop where
  | overlap (hu : s.upc ≠ .idle) : Ran i s (.refused .commandWhileRunning)
  | invalid (hu : s.upc = .idle) (ha : accepts i s = false) : Ran i s (.next (respondInvalid s))
  | installed (hu : s.upc = .idle) (c : TransportConfig) (h : Bool) (hi : i = .init (some c) h)
      (hp : portsPresent c = true) : Ran i s (.next (respond .ok none none ((startCommand i s).install c)))
  | uninstalled (hu : s.upc = .idle) (h : Bool) (hi : i = .deinit h) :
      Ran i s (.next (respond .ok none none (startCommand i s).uninstall))
  | lineOk (hu : s.upc = .idle) (ha : accepts i s = true) (hi : s.init = true) (hc : ∃ c, s.cfg = some (.twoWire c))
      (rval : Option Word32) (dOut : Option (List Byte)) (t : State) (hans : Answers i rval dOut)
      (he : LineEffect (startCommand i s) t) : Ran i s (.next (respond .ok rval dOut t))
  | lineFail (hu : s.upc = .idle) (ha : accepts i s = true) (hi : s.init = true) (hc : ∃ c, s.cfg = some (.twoWire c))
      (st : Status) (t : State) (hst : st = .nack ∨ st = .timeout) (he : LineEffect (startCommand i s) t) :
      Ran i s (.next (respond st none none t))
  | portOk (hu : s.upc = .idle) (ha : accepts i s = true) (hi : s.init = true) (hc : ∀ c, s.cfg ≠ some (.twoWire c))
      (rval : Option Word32) (dOut : Option (List Byte)) (hans : Answers i rval dOut) (accs : List (List Event))
      (rest : List PortAnswer) (p : Pos) (hl : accs.length = accesses i) (hacc : ∀ es ∈ accs, PortAccess s.cfg es)
      (hr : rest <:+ s.portIn) (hok : AllOk accs.flatten) :
      Ran i s (.next (respond .ok rval dOut ((startCommand i s).called accs.flatten rest (.running i p))))
  | portFail (hu : s.upc = .idle) (ha : accepts i s = true) (hi : s.init = true) (hc : ∀ c, s.cfg ≠ some (.twoWire c))
      (st : Status) (accs : List (List Event)) (rest : List PortAnswer) (p : Pos) (hl : accs.length ≤ accesses i)
      (hacc : ∀ es ∈ accs, PortAccess s.cfg es) (hr : rest <:+ s.portIn) (hf : FailedWith st accs.flatten) :
      Ran i s (.next (respond st none none ((startCommand i s).called accs.flatten rest (.running i p))))
  | portStuck (hu : s.upc = .idle) (ha : accepts i s = true) (hi : s.init = true) (hc : ∀ c, s.cfg ≠ some (.twoWire c))
      (accs : List (List Event)) (part : List Event) (rest : List PortAnswer) (p : Pos) (hl : accs.length < accesses i)
      (hacc : ∀ es ∈ accs, PortAccess s.cfg es) (hpart : PartAccess s.cfg part p) (hr : rest <:+ s.portIn)
      (hn : rest.head? = some .noReturn) :
      Ran i s (.next ((startCommand i s).called (accs.flatten ++ part) rest (.running i p)))
  | portRefused (hu : s.upc = .idle) (ha : accepts i s = true) (hi : s.init = true)
      (hc : ∀ c, s.cfg ≠ some (.twoWire c)) (r : Refusal) (hne : s.portIn ≠ []) (hr : r.outOfType) :
      Ran i s (.refused r)

section
variable {i : Instr} {s : State} {α : Type} {good : α → Prop} {rv : α → Option Word32} {d : α → Option (List Byte)}

theorem ran_result (hu : s.upc = .idle) (ha : accepts i s = true) (hi : s.init = true)
    (hc : ∃ c, s.cfg = some (.twoWire c)) {r : Result α} (h : r.OnLines (startCommand i s) good)
    (hans : ∀ x, good x → Answers i (rv x) (d x)) : Ran i s (.next (respondResult rv d r)) := by
  match r, h with
  | .ok x t, ⟨h0, he⟩ => exact .lineOk hu ha hi hc _ _ t (hans x h0) he
  | .fail st t, ⟨hst, he⟩ => exact .lineFail hu ha hi hc st t hst he

theorem ran_reply (hu : s.upc = .idle) (ha : accepts i s = true) (hi : s.init = true) {r : Reply α}
    (hline : (∃ c, s.cfg = some (.twoWire c)) → r.OnLines (startCommand i s) good)
    (hport : (∀ c, s.cfg ≠ some (.twoWire c)) → r.Calls i (startCommand i s) (accesses i) good)
    (hans : ∀ x, good x → Answers i (rv x) (d x)) : Ran i s (outcomeOf rv d r) := by
  by_cases hc : ∃ c, s.cfg = some (.twoWire c)
  · have h := hline hc
    rcases r with r | t | e
    · exact ran_result hu ha hi hc h hans
    · exact h.elim
    · exact h.elim
  · have hc : ∀ c, s.cfg ≠ some (.twoWire c) := fun c h => hc ⟨c, h⟩
    have h := hport hc
    rcases r with (⟨x, t⟩ | ⟨st, t⟩) | t | e
    · obtain ⟨h0, accs, rest, p, rfl, hl, hacc, hr, hok⟩ := h
      exact .portOk hu ha hi hc _ _ (hans x h0) accs rest p hl hacc hr hok
    · obtain ⟨accs, rest, p, rfl, hl, hacc, hr, hf⟩ := h
      exact .portFail hu ha hi hc st accs rest p hl hacc hr hf
    · obtain ⟨accs, part, rest, p, rfl, hl, hacc, hpart, hr, hn⟩ := h
      exact .portStuck hu ha hi hc accs part rest p hl hacc hpart hr hn
    · exact .portRefused hu ha hi hc e h.1 h.2
end

/-- What an engine command's entry check says (41_bitbang_transactions.md R170). -/
theorem engineEntry_ready {h o : Bool} {s : State} (ha : engineEntry h o s = true) :
    s.init = true ∧ ∃ c, s.cfg = some (.twoWire c) := by
  simp only [engineEntry, Bool.and_eq_true] at ha
  refine ⟨ha.1.1.2, ?_⟩
  have h2 := ha.1.2
  unfold isTwoWire at h2
  split at h2 <;> simp_all

/-- What a facade command's entry check says (43_facade_access.md R250). -/
theorem facadeEntry_ready {shape : Shape} {h o e : Bool} {s : State} (ha : facadeEntry shape h o e s = true) :
    s.init = true ∧ e = false ∧ ((∃ c, s.cfg = some (.twoWire c)) ∨ (∃ c, s.cfg = some (.block c)) ∨
      ((∃ c, s.cfg = some (.mgmt c)) ∧ shape = .u16)) := by
  simp only [facadeEntry, Bool.and_eq_true, Bool.not_eq_true'] at ha
  refine ⟨ha.1.1.1.2, ha.1.2, ?_⟩
  have h2 := ha.2
  unfold capable at h2
  split at h2 <;> simp_all

/-- An access over ports has the transport its entry check found. -/
theorem facadeEntry_port {shape : Shape} {h o e : Bool} {s : State} (ha : facadeEntry shape h o e s = true)
    (hc : ∀ c, s.cfg ≠ some (.twoWire c)) :
    (∃ c, s.cfg = some (.block c)) ∨ ((∃ c, s.cfg = some (.mgmt c)) ∧ shape = .u16) := by
  rcases (facadeEntry_ready ha).2.2 with ⟨c, h⟩ | h
  · exact absurd h (hc c)
  · exact h

/-- The inversion of `exec`. -/
theorem exec_ran (i : Instr) (s : State) : Ran i s (exec i s) := by
  have hone (n : Word32) (h : atLeastOne n = true) : 1 ≤ n.toNat := by
    simp only [atLeastOne, bne_iff_ne, ne_eq] at h
    exact Nat.one_le_iff_ne_zero.2 fun h0 => h (BitVec.eq_of_toNat_eq h0)
  have hcmd (acc : State → Bool) (body : State → Host.Outcome State Fault Refusal) (hacc : acc s = accepts i s)
      (hb : s.upc = .idle → accepts i s = true → Ran i s (body (startCommand i s))) : Ran i s (command i acc body s) := by
    rcases command_cases i acc body s with ⟨hu, h⟩ | ⟨hu, ha, h⟩ | ⟨hu, ha, h⟩ <;> rw [h]
    · exact .overlap hu
    · exact .invalid hu (hacc ▸ ha)
    · exact hb hu (hacc ▸ ha)
  have hunit (r : Result Unit) (hv : returnsValue i = false) (hb : returnsBytes i = false) (hu : s.upc = .idle)
      (ha : accepts i s = true) (hr : s.init = true ∧ ∃ c, s.cfg = some (.twoWire c))
      (h : r.Meets (LineEffect (startCommand i s)) (fun st t => LineEffect (startCommand i s) t ∧
        (st = .nack ∨ st = .timeout))) : Ran i s (respondUnit r) := by
    refine ran_result (good := fun _ => True) hu ha hr.1 hr.2 ?_ (fun _ _ => .status hv hb)
    cases r with
    | ok x t => exact ⟨trivial, h⟩
    | fail st t => exact ⟨h.2, h.1⟩
  have hends {α : Type} (r : Result α) (h : r.Ends (startCommand i s)) :
      r.Meets (LineEffect (startCommand i s)) (fun st t => LineEffect (startCommand i s) t ∧
        (st = .nack ∨ st = .timeout)) := Result.Meets.mono h (fun _ h => h.1) (fun _ _ h => ⟨h.1, h.2.1⟩)
  have hread (h1 : accesses i = 1) (shape : Shape) (h o e : Bool) (n : Nat) (hn : 1 ≤ n) (h2 : shape = .u16 → n = 2) (a : Word16)
      (rv : List Byte → Option Word32) (d : List Byte → Option (List Byte))
      (hans : ∀ xs : List Byte, xs.length = n → Answers i (rv xs) (d xs)) (hu : s.upc = .idle) (ha : accepts i s = true)
      (hf : facadeEntry shape h o e s = true) :
      Ran i s (outcomeOf rv d (memRead .whole a n (startCommand i s))) := by
    refine ran_reply hu ha (facadeEntry_ready hf).1 (fun hc => memRead_onLines _ _ _ hn _ hc)
      (fun hc => h1 ▸ memRead_calls _ _ _ _ i .entry rfl ?_) hans
    exact (facadeEntry_port hf hc).imp id (fun h => ⟨h.1, h2 h.2⟩)
  have hwrite (h1 : accesses i = 1) (shape : Shape) (h o e : Bool) (xs : List Byte) (a : Word16) (hv : returnsValue i = false)
      (hb : returnsBytes i = false) (hu : s.upc = .idle) (ha : accepts i s = true)
      (hf : facadeEntry shape h o e s = true) :
      Ran i s (answerStatus (memWrite .whole a xs (startCommand i s))) := by
    refine ran_reply hu ha (facadeEntry_ready hf).1 (fun hc => memWrite_onLines _ _ _ _ hc)
      (fun hc => h1 ▸ memWrite_calls _ _ _ _ i .entry rfl ?_) (fun _ _ => .status hv hb)
    exact (facadeEntry_port hf hc).imp id And.left
  have hmodify (hm : accesses i = 2) (shape : Shape) (h o e : Bool) (n : Nat) (hn : 1 ≤ n) (h2 : shape = .u16 → n = 2)
      (g : List Byte → List Byte) (a : Word16) (hv : returnsValue i = false)
      (hb : returnsBytes i = false) (hu : s.upc = .idle) (ha : accepts i s = true)
      (hf : facadeEntry shape h o e s = true) :
      Ran i s (answerStatus ((memRead .modifyRead a n (startCommand i s)).andThen fun xs s =>
        memWrite .modifyWrite a (g xs) s)) := by
    refine ran_reply hu ha (facadeEntry_ready hf).1
      (fun hc => Reply.OnLines.andThen (good' := fun _ => True) (memRead_onLines _ _ _ hn (startCommand i s) hc)
        fun _ t _ ht => memWrite_onLines _ _ _ t (by rw [ht]; exact hc))
      (fun hc => hm ▸ Reply.Calls.andThen (k := 1) (k' := 1) (memRead_calls _ _ _ _ i .entry rfl ?_)
        fun _ t p _ ht hp => memWrite_calls _ _ _ t i p hp ?_) (fun _ _ => .status hv hb)
    · exact (facadeEntry_port hf hc).imp id (fun h => ⟨h.1, h2 h.2⟩)
    · rw [ht]
      exact (facadeEntry_port hf hc).imp id And.left
  have hall (xs : List Byte) : (unBe32 xs).toNat < 2 ^ (8 * 4) := (unBe32 xs).isLt
  have hbyte (x : Byte) : (x.setWidth 32).toNat < 2 ^ (8 * 1) := by
    rw [BitVec.toNat_setWidth]
    exact lt_of_le_of_lt (Nat.mod_le _ _) x.isLt
  cases i with
  | init cfgIn hnull =>
    simp only [exec, execInit]
    refine hcmd _ _ rfl fun hu ha => ?_
    simp only [accepts, Bool.and_eq_true] at ha
    cases cfgIn with
    | none => simp at ha
    | some c => exact .installed hu c _ rfl ha.2
  | deinit hnull =>
    simp only [exec, execDeinit]
    exact hcmd _ _ rfl fun hu ha => .uninstalled hu _ rfl
  | bbStart hnull =>
    simp only [exec, execBbStart]
    exact hcmd _ _ rfl fun hu ha => hunit _ rfl rfl hu ha (engineEntry_ready ha) (startSeq_step _)
  | bbStop hnull =>
    simp only [exec, execBbStop]
    exact hcmd _ _ rfl fun hu ha => hunit _ rfl rfl hu ha (engineEntry_ready ha)
      ((stopSeq_any _).mono (fun _ h => h.1) (fun _ _ h => ⟨h.2.1, .inr h.1⟩))
  | bbWriteByte b hnull =>
    simp only [exec, execBbWriteByte]
    exact hcmd _ _ rfl fun hu ha => hunit _ rfl rfl hu ha (engineEntry_ready ha) (writeByteSeq_step _ _)
  | bbReadByte ack onull hnull =>
    simp only [exec, execBbReadByte]
    refine hcmd _ _ rfl fun hu ha => ?_
    refine ran_result (good := fun _ => True) hu ha (engineEntry_ready ha).1 (engineEntry_ready ha).2 ?_
      (fun x _ => .valued _ rfl rfl (hbyte x))
    have h := readByteSeq_step ack (startCommand (.bbReadByte ack onull hnull) s)
    revert h
    cases readByteSeq ack (startCommand (.bbReadByte ack onull hnull) s) with
    | ok x t => exact fun h => ⟨trivial, h⟩
    | fail st t => exact fun h => ⟨h.2, h.1⟩
  | bbWrite dev xs hnull =>
    simp only [exec, execBbWrite]
    exact hcmd _ _ rfl fun hu ha => hunit _ rfl rfl hu ha (engineEntry_ready ha) (hends _ (writeSeq_any _ _ _))
  | bbRead dev len onull hnull =>
    simp only [exec, execBbRead]
    refine hcmd _ _ rfl fun hu ha => ?_
    have h := ha
    simp only [accepts, Bool.and_eq_true] at h
    exact ran_result hu ha (engineEntry_ready h.1).1 (engineEntry_ready h.1).2
      (Result.Ends.onLines (readSeq_any _ _ _) (readSeq_length _ _ (hone _ h.2) _)) (fun xs hx => .listed xs rfl rfl hx)
  | bbMemWrite dev aw addr xs hnull =>
    simp only [exec, execBbMemWrite]
    refine hcmd _ _ rfl fun hu ha => ?_
    have h := ha
    simp only [accepts, Bool.and_eq_true] at h
    exact hunit _ rfl rfl hu ha (engineEntry_ready h.1) (hends _ (memWriteSeq_any _ _ _ _ _))
  | bbMemRead dev aw addr len onull hnull =>
    simp only [exec, execBbMemRead]
    refine hcmd _ _ rfl fun hu ha => ?_
    have h := ha
    simp only [accepts, Bool.and_eq_true] at h
    exact ran_result hu ha (engineEntry_ready h.1.1).1 (engineEntry_ready h.1.1).2
      (Result.Ends.onLines (memReadSeq_any _ _ _ _ _) (memReadSeq_length _ _ _ _ (hone _ h.2) _))
      (fun xs hx => .listed xs rfl rfl hx)
  | bbIsDeviceReady dev trials hnull =>
    simp only [exec, execBbIsDeviceReady]
    refine hcmd _ _ rfl fun hu ha => ?_
    have h := ha
    simp only [accepts, Bool.and_eq_true] at h
    exact hunit _ rfl rfl hu ha (engineEntry_ready h.1) (hends _ (readySeq_any _ _ _))
  | readU8 a o h =>
    simp only [exec, execReadU8]
    exact hcmd _ _ rfl fun hu ha => hread rfl .u8 h o false 1 (by omega) (by simp) a _ _
      (fun xs _ => .valued _ rfl rfl (hbyte _)) hu ha ha
  | readU16 a o h =>
    simp only [exec, execReadU16]
    exact hcmd _ _ rfl fun hu ha => hread rfl .u16 h o false 2 (by omega) (by simp) a _ _
      (fun xs hx => .valued _ rfl rfl (unBe32_two xs hx)) hu ha ha
  | readU32 a o h =>
    simp only [exec, execReadU32]
    exact hcmd _ _ rfl fun hu ha => hread rfl .u32 h o false 4 (by omega) (by simp) a _ _
      (fun xs _ => .valued _ rfl rfl (hall xs)) hu ha ha
  | writeU8 a v h =>
    simp only [exec, execWriteU8]
    exact hcmd _ _ rfl fun hu ha => hwrite rfl .u8 h false false _ a rfl rfl hu ha ha
  | writeU16 a v h =>
    simp only [exec, execWriteU16]
    exact hcmd _ _ rfl fun hu ha => hwrite rfl .u16 h false false _ a rfl rfl hu ha ha
  | writeU32 a v h =>
    simp only [exec, execWriteU32]
    exact hcmd _ _ rfl fun hu ha => hwrite rfl .u32 h false false _ a rfl rfl hu ha ha
  | readBurst a len o h =>
    simp only [exec, execReadBurst]
    refine hcmd _ _ rfl fun hu ha => ?_
    have hl : 1 ≤ len.toNat := hone _ (by have := (facadeEntry_ready ha).2.1; simpa using this)
    exact hread rfl .burst h o _ len.toNat hl (by simp) a _ _ (fun xs hx => .listed xs rfl rfl hx) hu ha ha
  | writeBurst a xs h =>
    simp only [exec, execWriteBurst]
    exact hcmd _ _ rfl fun hu ha => hwrite rfl .burst h false _ _ a rfl rfl hu ha ha
  | modifyU8 a m v h =>
    simp only [exec, execModifyU8]
    exact hcmd _ _ rfl fun hu ha => hmodify rfl .u8 h false false 1 (by omega) (by simp) _ a rfl rfl hu ha ha
  | modifyU16 a m v h =>
    simp only [exec, execModifyU16]
    exact hcmd _ _ rfl fun hu ha => hmodify rfl .u16 h false false 2 (by omega) (by simp) _ a rfl rfl hu ha ha

end Sys2Proof.Machine
end

