-- ==== Sys2Proof/Laws/Micro.lean ====
section
/-! SUPPORT. Runs of micro-steps: what a run from the first state of each line sequence (40_bitbang_primitives.md R163)
comes to is what the sequence returns to the phase that called it. -/

namespace Sys2Proof.Machine

/-! ## UPC is written by moves alone -/

section
variable (u v : Upc) (s : State)

@[simp] theorem setUpc_setUpc : (s.setUpc u).setUpc v = s.setUpc v := rfl
@[simp] theorem drv_setUpc (l : Line) (b : Bit) : drv l b (s.setUpc u) = (drv l b s).setUpc u := by cases l <;> rfl
@[simp] theorem dly_setUpc (k : Delay) : dly k (s.setUpc u) = (dly k s).setUpc u := rfl
@[simp] theorem lineAnswer_setUpc (l : Line) : lineAnswer l (s.setUpc u) = lineAnswer l s := rfl
@[simp] theorem afterRead_setUpc (l : Line) : afterRead l (s.setUpc u) = (afterRead l s).setUpc u := rfl
@[simp] theorem setSr_setUpc (x : Byte) : (s.setUpc u).setSr x = (s.setSr x).setUpc u := rfl
@[simp] theorem setBc_setUpc (x : Nat) : (s.setUpc u).setBc x = (s.setBc x).setUpc u := rfl
@[simp] theorem setSc_setUpc (x : Nat) : (s.setUpc u).setSc x = (s.setSc x).setUpc u := rfl
@[simp] theorem setAckb_setUpc (x : Bit) : (s.setUpc u).setAckb x = (s.setAckb x).setUpc u := rfl
@[simp] theorem setBi_setUpc (x : Nat) : (s.setUpc u).setBi x = (s.setBi x).setUpc u := rfl
@[simp] theorem setTrial_setUpc (x : Nat) : (s.setUpc u).setTrial x = (s.setTrial x).setUpc u := rfl
@[simp] theorem setErr_setUpc (x : Status) : (s.setUpc u).setErr x = (s.setErr x).setUpc u := rfl
@[simp] theorem setBuf_setUpc (x : List Byte) : (s.setUpc u).setBuf x = (s.setBuf x).setUpc u := rfl
@[simp] theorem respond_setUpc (st : Status) (r : Option Word32) (d : Option (List Byte)) :
    respond st r d (s.setUpc u) = respond st r d s := rfl
@[simp] theorem enter_setUpc (i : Instr) (leg : Leg) (t : Txn) (p : Phase) (l : LineLabel) :
    enter i leg t p l (s.setUpc u) = enter i leg t p l s := rfl
@[simp] theorem enterWrite_setUpc (i : Instr) (leg : Leg) (t : Txn) (p : Phase) (b : Byte) :
    enterWrite i leg t p b (s.setUpc u) = enterWrite i leg t p b s := rfl
@[simp] theorem startAccess_setUpc (i : Instr) (leg : Leg) (acc : Access) :
    startAccess i leg acc (s.setUpc u) = startAccess i leg acc s := by
  cases acc <;> simp only [startAccess, State.setUpc_cfg, State.setUpc_params] <;> rfl
@[simp] theorem accessDone_setUpc (i : Instr) (leg : Leg) (st : Status) (xs : List Byte) :
    accessDone i leg st xs (s.setUpc u) = accessDone i leg st xs s := by
  cases leg <;> simp [accessDone]
@[simp] theorem finish_setUpc (i : Instr) (leg : Leg) (t : Txn) (st : Status) :
    finish i leg t st (s.setUpc u) = finish i leg t st s := by simp [finish]
@[simp] theorem writePhase_setUpc (i : Instr) (leg : Leg) (t : Txn) (bi : Nat) (xs : List Byte) :
    writePhase i leg t bi xs (s.setUpc u) = writePhase i leg t bi xs s := by simp [writePhase]
@[simp] theorem enterRead_setUpc (i : Instr) (leg : Leg) (t : Txn) :
    enterRead i leg t (s.setUpc u) = enterRead i leg t s := by simp [enterRead]
@[simp] theorem maddrPhase_setUpc (i : Instr) (leg : Leg) (t : Txn) (k : Nat) :
    maddrPhase i leg t k (s.setUpc u) = maddrPhase i leg t k s := by cases t <;> simp [maddrPhase]
@[simp] theorem afterAddress_setUpc (i : Instr) (leg : Leg) (t : Txn) :
    afterAddress i leg t (s.setUpc u) = afterAddress i leg t s := by cases t <;> simp [afterAddress]
@[simp] theorem afterByteRead_setUpc (i : Instr) (leg : Leg) (t : Txn) (n : Nat) :
    afterByteRead i leg t n (s.setUpc u) = afterByteRead i leg t n s := by
  simp only [afterByteRead, State.setUpc_session]
  split <;> simp
@[simp] theorem primDone_setUpc (i : Instr) (leg : Leg) (t : Txn) (st : Status) :
    primDone i leg t st (s.setUpc u) = primDone i leg t st s := by cases t <;> simp [primDone]

/-- What a phase does with a result does not depend on where `UPC` stood in the sequence that returned it. -/
@[simp] theorem subDone_setUpc (i : Instr) (leg : Leg) (t : Txn) (p : Phase) (st : Status) :
    subDone i leg t p st (s.setUpc u) = subDone i leg t p st s := by
  cases p
  case tStart => cases t <;> simp [subDone, firstAddress, addrByteOf]
  case tAddr => cases t <;> cases st <;> simp [subDone]
  case tRstart => cases t <;> simp [subDone, addrByteOf]
  case tWdata => cases t <;> simp [subDone]
  case tRdata => cases t <;> simp [subDone]
  case tStop => cases t <;> simp [subDone, received]
  case trialStop => cases t <;> simp [subDone]
  all_goals simp [subDone]
end

/-! ## Runs -/

/-- A run of enough micro-steps comes to an outcome, and stays there. -/
def Comes (s : State) (o : Micro) : Prop := ∃ n, ∀ m, n ≤ m → microRun m s = o

/-- The same from the outcome of a micro-step. -/
def ComesFrom (m o : Micro) : Prop :=
  match m with
  | .next s => Comes s o
  | .fault r => o = .fault r
  | .refused r => o = .refused r

theorem Comes.step {s : State} {o : Micro} (h : ComesFrom (microStep s) o) : Comes s o := by
  cases hs : microStep s with
  | next s' =>
    rw [hs] at h
    obtain ⟨n, hn⟩ := h
    refine ⟨n + 1, fun m hm => ?_⟩
    obtain ⟨m, rfl⟩ : ∃ k, m = k + 1 := ⟨m - 1, by omega⟩
    rw [microRun, hs]
    exact hn m (by omega)
  | fault r =>
    rw [hs] at h
    refine ⟨1, fun m hm => ?_⟩
    obtain ⟨m, rfl⟩ : ∃ k, m = k + 1 := ⟨m - 1, by omega⟩
    rw [microRun, hs, h]
  | refused r =>
    rw [hs] at h
    refine ⟨1, fun m hm => ?_⟩
    obtain ⟨m, rfl⟩ : ∃ k, m = k + 1 := ⟨m - 1, by omega⟩
    rw [microRun, hs, h]

/-- A state that a micro-step leaves as it is (an idle block, or one in a call that does not return). -/
theorem Comes.stay {s : State} (h : microStep s = .next s) : Comes s (.next s) := by
  refine ⟨0, fun m _ => ?_⟩
  induction m with
  | zero => rfl
  | succ m ih => rw [microRun, h]; exact ih (Nat.zero_le m)

theorem comes_respond (st : Status) (r : Option Word32) (d : Option (List Byte)) (s : State) :
    ComesFrom (.next (respond st r d s)) (.next (respond st r d s)) := Comes.stay (by simp [microStep])

/-! ## The line sequences -/

section
variable {i : Instr} {leg : Leg} {t : Txn} {p : Phase} {o : Micro}

/-- One micro-step inside a line sequence. -/
theorem comes_line (l : LineLabel) (s : State)
    (h : ComesFrom (lineStep i leg t p l (s.setUpc (.running i (.bus leg t p l)))) o) :
    ComesFrom (enter i leg t p l s) o :=
  Comes.step (by simpa [microStep] using h)

/-- The return of a line sequence to its phase. -/
def returns (i : Instr) (leg : Leg) (t : Txn) (p : Phase) {α : Type} (r : Result α) : Micro :=
  subDone i leg t p r.status r.state

/-- The polls of a wait (R133): on to the next label, or TIMEOUT. -/
theorem comes_poll (l next : LineLabel) (n : Bound) (left sc : Nat) (s : State)
    (hl : ∀ s' : State, s'.params = s.params → lineStep i leg t p l s' = poll i leg t p n next s')
    (hn : sc + left + 1 = n.val) (hsc : s.session.sc = some sc)
    (h : ComesFrom
      (match pollScl left sc s with
        | .ok _ s => enter i leg t p next s
        | .fail _ s => subDone i leg t p .timeout s) o) :
    ComesFrom (enter i leg t p l s) o := by
  induction left generalizing sc s with
  | zero =>
    refine comes_line l s ?_
    rw [hl (s.setUpc (.running i (.bus leg t p l))) rfl, poll]
    by_cases ha : lineAnswer .scl s = true
    · simpa [pollScl, ha] using h
    · simpa [pollScl, ha, hsc, ← hn] using h
  | succ left ih =>
    refine comes_line l s ?_
    rw [hl (s.setUpc (.running i (.bus leg t p l))) rfl, poll]
    by_cases ha : lineAnswer .scl s = true
    · simpa [pollScl, ha] using h
    · have hne : ¬ sc + 1 = n.val := by omega
      simp only [lineAnswer_setUpc, ha, Bool.false_eq_true, if_false, State.setUpc_session, hsc, hne]
      simp only [pollScl, ha, Bool.false_eq_true, if_false] at h
      exact ih (sc + 1) ((afterRead .scl s).setSc (sc + 1)) hl (by omega) (by simp) h

/-- Raising the clock (R134, R140, R145), from the first delay on. -/
theorem comes_raise (l1 l2 l3 l4 next : LineLabel) (n : Bound) (s : State)
    (h1 : ∀ s : State, lineStep i leg t p l1 s = enter i leg t p l2 (dly .half s))
    (h2 : ∀ s : State, lineStep i leg t p l2 s = enter i leg t p l3 (drv .scl true s))
    (h3 : ∀ s : State, lineStep i leg t p l3 s = enter i leg t p l4 ((dly .half s).setSc 0))
    (h4 : ∀ s' : State, s'.params = s.params → lineStep i leg t p l4 s' = poll i leg t p n next s')
    (h : ComesFrom
      (match raiseScl n s with
        | .ok _ s => enter i leg t p next s
        | .fail _ s => subDone i leg t p .timeout s) o) :
    ComesFrom (enter i leg t p l1 s) o := by
  refine comes_line l1 s ?_
  rw [h1, dly_setUpc, enter_setUpc]
  refine comes_line l2 _ ?_
  rw [h2, drv_setUpc, enter_setUpc]
  refine comes_line l3 _ ?_
  rw [h3, dly_setUpc, setSc_setUpc, enter_setUpc]
  exact comes_poll l4 next n n.pred 0 _ h4 (by unfold Bound.val; omega) (by simp) h

/-- A wait, a pulse, a START and a STOP fail with TIMEOUT alone (R302). -/
theorem pollScl_fail {left sc : Nat} {s t : State} {st : Status} (h : pollScl left sc s = .fail st t) :
    st = .timeout := by
  induction left generalizing sc s with
  | zero => rw [pollScl] at h; split at h <;> cases h; rfl
  | succ left ih =>
    rw [pollScl] at h
    split at h
    · cases h
    · exact ih h

theorem raiseScl_fail {n : Bound} {s t : State} {st : Status} (h : raiseScl n s = .fail st t) : st = .timeout :=
  pollScl_fail h

/-- START_SEQ (R140). -/
theorem comes_start (s : State) (h : ComesFrom (returns i leg t p (startSeq s)) o) :
    ComesFrom (enter i leg t p .stSda1 s) o := by
  refine comes_line .stSda1 s ?_
  simp only [lineStep, drv_setUpc, enter_setUpc]
  refine comes_raise .stL1 .stRise .stH1 .stPoll .stEdge s.params.nStart _ (fun _ => rfl) (fun _ => rfl)
    (fun _ => rfl) (fun s' hs' => by simp [lineStep, hs']) ?_
  cases hr : raiseScl s.params.nStart (drv .sda true s) with
  | ok x u =>
    simp only [startSeq, hr, Result.andThen_ok, returns, Result.status_ok, Result.state_ok] at h
    refine comes_line .stEdge u ?_
    simp only [lineStep, drv_setUpc, enter_setUpc]
    refine comes_line .stFall _ ?_
    simpa [lineStep] using h
  | fail st u =>
    obtain rfl := raiseScl_fail hr
    simpa [startSeq, hr, returns] using h

/-- STOP_SEQ (R145). -/
theorem comes_stop (s : State) (h : ComesFrom (returns i leg t p (stopSeq s)) o) :
    ComesFrom (enter i leg t p .spSda0 s) o := by
  refine comes_line .spSda0 s ?_
  simp only [lineStep, drv_setUpc, enter_setUpc]
  refine comes_raise .spL1 .spRise .spH1 .spPoll .spEdge s.params.nStop _ (fun _ => rfl) (fun _ => rfl)
    (fun _ => rfl) (fun s' hs' => by simp [lineStep, hs']) ?_
  cases hr : raiseScl s.params.nStop (drv .sda false s) with
  | ok x u =>
    simp only [stopSeq, hr, Result.andThen_ok, returns, Result.status_ok, Result.state_ok] at h
    refine comes_line .spEdge u ?_
    simpa [lineStep] using h
  | fail st u =>
    obtain rfl := raiseScl_fail hr
    simpa [stopSeq, hr, returns] using h

/-! The session registers a wait leaves alone. -/

theorem pollScl_session {left sc : Nat} {s t : State} (h : pollScl left sc s = .ok () t) :
    t.session.sr = s.session.sr ∧ t.session.bc = s.session.bc ∧ t.session.bi = s.session.bi ∧ t.params = s.params := by
  induction left generalizing sc s with
  | zero =>
    rw [pollScl] at h
    split at h <;> cases h
    exact ⟨rfl, rfl, rfl, rfl⟩
  | succ left ih =>
    rw [pollScl] at h
    split at h
    · cases h; exact ⟨rfl, rfl, rfl, rfl⟩
    · have h' := ih h
      exact h'

theorem raiseScl_session {n : Bound} {s t : State} (h : raiseScl n s = .ok () t) :
    t.session.sr = s.session.sr ∧ t.session.bc = s.session.bc ∧ t.session.bi = s.session.bi ∧ t.params = s.params := by
  have h' := pollScl_session h
  exact h'

/-- The data bits of WRITE_BYTE_SEQ from bit `k` on (R150). -/
theorem comes_writeBits (b : Byte) (k : Nat) (s : State) (hsr : s.session.sr = some b)
    (h : ComesFrom
      (match writeBits b k s with
        | .ok _ s => enter i leg t p .akRel s
        | .fail _ s => subDone i leg t p .timeout s) o) :
    ComesFrom (enter i leg t p .wbSet (s.setBc k)) o := by
  induction k generalizing s with
  | zero =>
    refine comes_line .wbSet _ ?_
    simp only [lineStep, State.setUpc_session, State.setBc_session, hsr, drv_setUpc, enter_setUpc]
    refine comes_raise .wbL1 .wbRise .wbH1 .wbPoll .wbFall s.params.nBit _ (fun _ => rfl) (fun _ => rfl)
      (fun _ => rfl) (fun s' hs' => by simp [lineStep, hs']) ?_
    cases hr : raiseScl s.params.nBit (drv .sda (bitAt b 0) (s.setBc 0)) with
    | ok x u =>
      have hs := (raiseScl_session hr).2.1
      simp only [writeBits, writeBit, pulse, drv_sda_params, State.setBc_params, hr, Result.andThen_ok, lowerScl] at h
      refine comes_line .wbFall u ?_
      simp only [lineStep, drv_setUpc, enter_setUpc]
      refine comes_line .wbL2 _ ?_
      simpa [lineStep, hs] using h
    | fail st u =>
      obtain rfl := raiseScl_fail hr
      simpa [writeBits, writeBit, pulse, hr] using h
  | succ k ih =>
    refine comes_line .wbSet _ ?_
    simp only [lineStep, State.setUpc_session, State.setBc_session, hsr, drv_setUpc, enter_setUpc]
    refine comes_raise .wbL1 .wbRise .wbH1 .wbPoll .wbFall s.params.nBit _ (fun _ => rfl) (fun _ => rfl)
      (fun _ => rfl) (fun s' hs' => by simp [lineStep, hs']) ?_
    cases hr : raiseScl s.params.nBit (drv .sda (bitAt b (k + 1)) (s.setBc (k + 1))) with
    | ok x u =>
      have hs := raiseScl_session hr
      simp only [writeBits, writeBit, pulse, drv_sda_params, State.setBc_params, hr, Result.andThen_ok, lowerScl] at h
      refine comes_line .wbFall u ?_
      simp only [lineStep, drv_setUpc, enter_setUpc]
      refine comes_line .wbL2 _ ?_
      simp only [lineStep, State.setUpc_session, drv_scl_session, hs.2.1, drv_sda_session, State.setBc_session, dly_setUpc,
        setBc_setUpc, enter_setUpc]
      exact ih _ (by simpa [hs.1] using hsr) h
    | fail st u =>
      obtain rfl := raiseScl_fail hr
      simpa [writeBits, writeBit, pulse, hr] using h

theorem writeBits_fail {b : Byte} {k : Nat} {s u : State} {st : Status} (h : writeBits b k s = .fail st u) :
    st = .timeout := by
  induction k generalizing s with
  | zero =>
    simp only [writeBits, writeBit, pulse] at h
    rcases Result.andThen_cases (raiseScl (drv .sda (bitAt b 0) (s.setBc 0)).params.nBit (drv .sda (bitAt b 0) (s.setBc 0)))
      (fun _ s => Result.ok () (lowerScl s)) with ⟨x, v, hr, h'⟩ | ⟨st', v, hr, h'⟩
    · rw [h'] at h; cases h
    · rw [h'] at h; cases h; exact raiseScl_fail hr
  | succ k ih =>
    simp only [writeBits] at h
    rcases Result.andThen_cases (writeBit b (k + 1) s) (fun _ s => writeBits b k s) with ⟨x, v, hr, h'⟩ | ⟨st', v, hr, h'⟩
    · rw [h'] at h; exact ih h
    · rw [h'] at h
      cases h
      simp only [writeBit, pulse] at hr
      rcases Result.andThen_cases (raiseScl (drv .sda (bitAt b (k + 1)) (s.setBc (k + 1))).params.nBit
        (drv .sda (bitAt b (k + 1)) (s.setBc (k + 1)))) (fun _ s => Result.ok () (lowerScl s)) with
        ⟨x, v, hr', h''⟩ | ⟨st', v, hr', h''⟩
      · rw [h''] at hr; cases hr
      · rw [h''] at hr; cases hr; exact raiseScl_fail hr'

/-- WRITE_BYTE_SEQ(b) (R150). -/
theorem comes_writeByte (b : Byte) (s : State) (h : ComesFrom (returns i leg t p (writeByteSeq b s)) o) :
    ComesFrom (enterWrite i leg t p b s) o := by
  refine comes_writeBits b 7 (s.setSr b) (by simp) ?_
  cases hb : writeBits b 7 (s.setSr b) with
  | fail st u =>
    obtain rfl := writeBits_fail hb
    simpa [writeByteSeq, hb, returns] using h
  | ok x u =>
    simp only [writeByteSeq, hb, Result.andThen_ok, pulseSample] at h
    refine comes_line .akRel u ?_
    simp only [lineStep, drv_setUpc, enter_setUpc]
    refine comes_raise .akL1 .akRise .akH1 .akPoll .akSmp u.params.nBit _ (fun _ => rfl) (fun _ => rfl)
      (fun _ => rfl) (fun s' hs' => by simp [lineStep, hs']) ?_
    cases hr : raiseScl u.params.nBit (drv .sda true u) with
    | fail st v =>
      obtain rfl := raiseScl_fail hr
      simpa [hr, returns] using h
    | ok x v =>
      simp only [drv_sda_params, hr, Result.andThen_ok] at h
      refine comes_line .akSmp v ?_
      simp only [lineStep, lineAnswer_setUpc, afterRead_setUpc, setAckb_setUpc, enter_setUpc]
      refine comes_line .akFall _ ?_
      simp only [lineStep, drv_setUpc, enter_setUpc]
      refine comes_line .akL2 _ ?_
      have hc : dly .half (drv .scl false ((afterRead .sda v).setAckb (lineAnswer .sda v))) =
          (lowerScl (afterRead .sda v)).setAckb (lineAnswer .sda v) := rfl
      cases ha : lineAnswer .sda v <;> rw [ha] at hc <;>
        simpa [lineStep, hc, ha, ackStatus, acknowledge, returns] using h

/-- The sampled bits of READ_BYTE_SEQ from bit `k` on (R155). -/
theorem comes_readBits (sr : Byte) (k : Nat) (s : State) (hsr : s.session.sr = some sr)
    (h : ComesFrom
      (match readBits sr k s with
        | .ok _ s => enter i leg t p .raDrv s
        | .fail _ s => subDone i leg t p .timeout s) o) :
    ComesFrom (enter i leg t p .rbL1 (s.setBc k)) o := by
  induction k generalizing s sr with
  | zero =>
    refine comes_raise .rbL1 .rbRise .rbH1 .rbPoll .rbSmp s.params.nBit _ (fun _ => rfl) (fun _ => rfl)
      (fun _ => rfl) (fun s' hs' => by simp [lineStep, hs']) ?_
    cases hr : raiseScl s.params.nBit (s.setBc 0) with
    | ok x u =>
      have hs := raiseScl_session hr
      simp only [readBits, readBit, pulseSample, State.setBc_params, hr, Result.andThen_ok] at h
      refine comes_line .rbSmp u ?_
      simp only [lineStep, State.setUpc_session, hs.1, hs.2.1, State.setBc_session, hsr, lineAnswer_setUpc, afterRead_setUpc,
        setSr_setUpc, enter_setUpc]
      refine comes_line .rbFall _ ?_
      simp only [lineStep, drv_setUpc, enter_setUpc]
      refine comes_line .rbL2 _ ?_
      have hc : dly .half (drv .scl false ((afterRead .sda u).setSr (setBit sr 0 (lineAnswer .sda u)))) =
          (lowerScl (afterRead .sda u)).setSr (setBit sr 0 (lineAnswer .sda u)) := rfl
      simpa [lineStep, hs.2.1, hc] using h
    | fail st u =>
      obtain rfl := raiseScl_fail hr
      simpa [readBits, readBit, pulseSample, hr] using h
  | succ k ih =>
    refine comes_raise .rbL1 .rbRise .rbH1 .rbPoll .rbSmp s.params.nBit _ (fun _ => rfl) (fun _ => rfl)
      (fun _ => rfl) (fun s' hs' => by simp [lineStep, hs']) ?_
    cases hr : raiseScl s.params.nBit (s.setBc (k + 1)) with
    | ok x u =>
      have hs := raiseScl_session hr
      simp only [readBits, readBit, pulseSample, State.setBc_params, hr, Result.andThen_ok] at h
      refine comes_line .rbSmp u ?_
      simp only [lineStep, State.setUpc_session, hs.1, hs.2.1, State.setBc_session, hsr, lineAnswer_setUpc, afterRead_setUpc,
        setSr_setUpc, enter_setUpc]
      refine comes_line .rbFall _ ?_
      simp only [lineStep, drv_setUpc, enter_setUpc]
      refine comes_line .rbL2 _ ?_
      simp only [lineStep, State.setUpc_session, drv_scl_session, State.setSr_session, afterRead_session, hs.2.1,
        State.setBc_session, dly_setUpc, setBc_setUpc, enter_setUpc]
      exact ih _ _ (by simp) h
    | fail st u =>
      obtain rfl := raiseScl_fail hr
      simpa [readBits, readBit, pulseSample, hr] using h

/-- The sampled bits fail with TIMEOUT alone; on OK the byte is in `SR`, and `BI` is untouched. -/
theorem readBits_post (sr : Byte) (k : Nat) (s : State) :
    match readBits sr k s with
    | .ok x u => u.session.sr = some x ∧ u.session.bi = s.session.bi ∧ u.params = s.params
    | .fail st _ => st = .timeout := by
  induction k generalizing sr s with
  | zero =>
    simp only [readBits, readBit, pulseSample]
    cases hr : raiseScl (s.setBc 0).params.nBit (s.setBc 0) with
    | ok x u => have hs := raiseScl_session hr; simp [lowerScl, hs.2.2.1, hs.2.2.2]
    | fail st u => simpa using raiseScl_fail hr
  | succ k ih =>
    simp only [readBits, readBit, pulseSample]
    cases hr : raiseScl (s.setBc (k + 1)).params.nBit (s.setBc (k + 1)) with
    | ok x u =>
      have hs := raiseScl_session hr
      have h := ih (setBit sr (k + 1) (lineAnswer .sda u))
        ((lowerScl (afterRead .sda u)).setSr (setBit sr (k + 1) (lineAnswer .sda u)))
      simp only [Result.andThen_ok]
      revert h
      cases readBits (setBit sr (k + 1) (lineAnswer .sda u)) k
        ((lowerScl (afterRead .sda u)).setSr (setBit sr (k + 1) (lineAnswer .sda u))) with
      | ok y w => intro h; simpa [lowerScl, hs.2.2.1, hs.2.2.2] using h
      | fail st w => exact id
    | fail st u => simpa using raiseScl_fail hr

/-- READ_BYTE_SEQ(ack) (R155). -/
theorem comes_readByte (ack : Bool) (s : State)
    (hack : ∀ u : State, u.session.bi = s.session.bi → ackToSend t u = some ack)
    (h : ComesFrom (returns i leg t p (readByteSeq ack s)) o) :
    ComesFrom (enter i leg t p .rbRel s) o := by
  refine comes_line .rbRel s ?_
  simp only [lineStep, drv_setUpc, setSr_setUpc, setBc_setUpc, enter_setUpc]
  refine comes_readBits 0 7 ((drv .sda true s).setSr 0) (by simp) ?_
  have hp := readBits_post 0 7 ((drv .sda true s).setSr 0)
  cases hb : readBits 0 7 ((drv .sda true s).setSr 0) with
  | fail st u =>
    rw [hb] at hp
    obtain rfl := hp
    simp only [readByteSeq, hb, Result.andThen_fail, returns, Result.status_fail, Result.state_fail] at h
    exact h
  | ok x u =>
    rw [hb] at hp
    simp only [readByteSeq, hb, Result.andThen_ok, pulse] at h
    refine comes_line .raDrv u ?_
    simp only [lineStep, hack (u.setUpc _) (by simpa using hp.2.1), drv_setUpc, enter_setUpc]
    refine comes_raise .raL1 .raRise .raH1 .raPoll .raFall u.params.nBit _ (fun _ => rfl) (fun _ => rfl)
      (fun _ => rfl) (fun s' hs' => by simp [lineStep, hs']) ?_
    cases hr : raiseScl u.params.nBit (drv .sda (!ack) u) with
    | fail st v =>
      obtain rfl := raiseScl_fail hr
      simpa [hr, returns] using h
    | ok y v =>
      simp only [drv_sda_params, hr, Result.andThen_ok, lowerScl] at h
      refine comes_line .raFall v ?_
      simp only [lineStep, drv_setUpc, enter_setUpc]
      refine comes_line .raL2 _ ?_
      simp only [lineStep, dly_setUpc, enter_setUpc]
      refine comes_line .raRel _ ?_
      simpa [lineStep, returns] using h
end

end Sys2Proof.Machine
end

