-- ==== Sys2Proof/Laws/PerInstr.lean ====
section
/-! SUPPORT. Statements made for every constructor of `Instr`: the encoding of each command is an encoding of its own row
of the opcode map (30_encoding.md R97). -/

namespace Sys2Proof.Laws.EncodingRow

/-- The row of a command. -/
def row : Instr → Op
  | .init _ _ => .init
  | .deinit _ => .deinit
  | .bbStart _ => .bbStart
  | .bbStop _ => .bbStop
  | .bbWriteByte _ _ => .bbWriteByte
  | .bbReadByte _ _ _ => .bbReadByte
  | .bbWrite _ _ _ => .bbWrite
  | .bbRead _ _ _ _ => .bbRead
  | .bbMemWrite _ _ _ _ _ => .bbMemWrite
  | .bbMemRead _ _ _ _ _ _ => .bbMemRead
  | .bbIsDeviceReady _ _ _ => .bbIsDeviceReady
  | .readU8 _ _ _ => .readU8
  | .readU16 _ _ _ => .readU16
  | .readU32 _ _ _ => .readU32
  | .writeU8 _ _ _ => .writeU8
  | .writeU16 _ _ _ => .writeU16
  | .writeU32 _ _ _ => .writeU32
  | .readBurst _ _ _ _ => .readBurst
  | .writeBurst _ _ _ => .writeBurst
  | .modifyU8 _ _ _ _ => .modifyU8
  | .modifyU16 _ _ _ _ => .modifyU16

/-- The encoded `w0` has the opcode of the command's row, and agrees with the row's `match` on the row's `mask`. -/
def Statement (i : Instr) : Prop :=
  Op.ofCode (encode i).opc = some (row i) ∧ (encode i).w0 &&& (row i).mask = (row i).pattern

theorem opc (op : Op) (dev arg : Byte) (f1 f0 : Bool) :
    Op.ofCode ((packW0 op dev arg f1 f0).extractLsb' 24 8) = some op := by
  rw [(packW0_field op dev arg f1 f0).1, Op.ofCode_code]

theorem init (c : Option TransportConfig) (h : Bool) : Statement (.init c h) :=
  ⟨opc .init _ _ _ _,
    packW0_mask .init _ _ _ _ BitVec.zero_and BitVec.zero_and (by simp [Op.mask]) (by simp [Op.mask])⟩

theorem deinit (h : Bool) : Statement (.deinit h) :=
  ⟨opc .deinit _ _ _ _,
    packW0_mask .deinit _ _ _ _ BitVec.zero_and BitVec.zero_and (by simp [Op.mask]) (by simp [Op.mask])⟩

theorem bbStart (h : Bool) : Statement (.bbStart h) :=
  ⟨opc .bbStart _ _ _ _,
    packW0_mask .bbStart _ _ _ _ BitVec.zero_and BitVec.zero_and (by simp [Op.mask]) (by simp [Op.mask])⟩

theorem bbStop (h : Bool) : Statement (.bbStop h) :=
  ⟨opc .bbStop _ _ _ _,
    packW0_mask .bbStop _ _ _ _ BitVec.zero_and BitVec.zero_and (by simp [Op.mask]) (by simp [Op.mask])⟩

theorem bbWriteByte (b : Byte) (h : Bool) : Statement (.bbWriteByte b h) :=
  ⟨opc .bbWriteByte _ _ _ _,
    packW0_mask .bbWriteByte _ _ _ _ BitVec.zero_and BitVec.and_zero (by simp [Op.mask]) (by simp [Op.mask])⟩

theorem bbReadByte (ack : Bool) (o : Bool) (h : Bool) : Statement (.bbReadByte ack o h) :=
  ⟨opc .bbReadByte _ _ _ _,
    packW0_mask .bbReadByte _ _ _ _ BitVec.zero_and (by cases ack <;> decide) (by simp [Op.mask]) (by simp [Op.mask])⟩

theorem bbWrite (dev : Byte) (xs : List Byte) (h : Bool) : Statement (.bbWrite dev xs h) :=
  ⟨opc .bbWrite _ _ _ _,
    packW0_mask .bbWrite _ _ _ _ BitVec.and_zero BitVec.zero_and (by simp [Op.mask]) (by simp [Op.mask])⟩

theorem bbRead (dev : Byte) (len : Word32) (o : Bool) (h : Bool) : Statement (.bbRead dev len o h) :=
  ⟨opc .bbRead _ _ _ _,
    packW0_mask .bbRead _ _ _ _ BitVec.and_zero BitVec.zero_and (by simp [Op.mask]) (by simp [Op.mask])⟩

theorem bbMemWrite (dev : Byte) (aw : Byte) (a : Word16) (xs : List Byte) (h : Bool) : Statement (.bbMemWrite dev aw a xs h) :=
  ⟨opc .bbMemWrite _ _ _ _,
    packW0_mask .bbMemWrite _ _ _ _ BitVec.and_zero BitVec.and_zero (by simp [Op.mask]) (by simp [Op.mask])⟩

theorem bbMemRead (dev : Byte) (aw : Byte) (a : Word16) (len : Word32) (o : Bool) (h : Bool) : Statement (.bbMemRead dev aw a len o h) :=
  ⟨opc .bbMemRead _ _ _ _,
    packW0_mask .bbMemRead _ _ _ _ BitVec.and_zero BitVec.and_zero (by simp [Op.mask]) (by simp [Op.mask])⟩

theorem bbIsDeviceReady (dev : Byte) (n : Word32) (h : Bool) : Statement (.bbIsDeviceReady dev n h) :=
  ⟨opc .bbIsDeviceReady _ _ _ _,
    packW0_mask .bbIsDeviceReady _ _ _ _ BitVec.and_zero BitVec.zero_and (by simp [Op.mask]) (by simp [Op.mask])⟩

theorem readU8 (a : Word16) (o : Bool) (h : Bool) : Statement (.readU8 a o h) :=
  ⟨opc .readU8 _ _ _ _,
    packW0_mask .readU8 _ _ _ _ BitVec.zero_and BitVec.zero_and (by simp [Op.mask]) (by simp [Op.mask])⟩

theorem readU16 (a : Word16) (o : Bool) (h : Bool) : Statement (.readU16 a o h) :=
  ⟨opc .readU16 _ _ _ _,
    packW0_mask .readU16 _ _ _ _ BitVec.zero_and BitVec.zero_and (by simp [Op.mask]) (by simp [Op.mask])⟩

theorem readU32 (a : Word16) (o : Bool) (h : Bool) : Statement (.readU32 a o h) :=
  ⟨opc .readU32 _ _ _ _,
    packW0_mask .readU32 _ _ _ _ BitVec.zero_and BitVec.zero_and (by simp [Op.mask]) (by simp [Op.mask])⟩

theorem writeU8 (a : Word16) (v : Byte) (h : Bool) : Statement (.writeU8 a v h) :=
  ⟨opc .writeU8 _ _ _ _,
    packW0_mask .writeU8 _ _ _ _ BitVec.zero_and BitVec.zero_and (by simp [Op.mask]) (by simp [Op.mask])⟩

theorem writeU16 (a : Word16) (v : Word16) (h : Bool) : Statement (.writeU16 a v h) :=
  ⟨opc .writeU16 _ _ _ _,
    packW0_mask .writeU16 _ _ _ _ BitVec.zero_and BitVec.zero_and (by simp [Op.mask]) (by simp [Op.mask])⟩

theorem writeU32 (a : Word16) (v : Word32) (h : Bool) : Statement (.writeU32 a v h) :=
  ⟨opc .writeU32 _ _ _ _,
    packW0_mask .writeU32 _ _ _ _ BitVec.zero_and BitVec.zero_and (by simp [Op.mask]) (by simp [Op.mask])⟩

theorem readBurst (a : Word16) (len : Word32) (o : Bool) (h : Bool) : Statement (.readBurst a len o h) :=
  ⟨opc .readBurst _ _ _ _,
    packW0_mask .readBurst _ _ _ _ BitVec.zero_and BitVec.zero_and (by simp [Op.mask]) (by simp [Op.mask])⟩

theorem writeBurst (a : Word16) (xs : List Byte) (h : Bool) : Statement (.writeBurst a xs h) :=
  ⟨opc .writeBurst _ _ _ _,
    packW0_mask .writeBurst _ _ _ _ BitVec.zero_and BitVec.zero_and (by simp [Op.mask]) (by simp [Op.mask])⟩

theorem modifyU8 (a : Word16) (m : Byte) (v : Byte) (h : Bool) : Statement (.modifyU8 a m v h) :=
  ⟨opc .modifyU8 _ _ _ _,
    packW0_mask .modifyU8 _ _ _ _ BitVec.zero_and BitVec.zero_and (by simp [Op.mask]) (by simp [Op.mask])⟩

theorem modifyU16 (a : Word16) (m : Word16) (v : Word16) (h : Bool) : Statement (.modifyU16 a m v h) :=
  ⟨opc .modifyU16 _ _ _ _,
    packW0_mask .modifyU16 _ _ _ _ BitVec.zero_and BitVec.zero_and (by simp [Op.mask]) (by simp [Op.mask])⟩

end Sys2Proof.Laws.EncodingRow
end

