-- ==== Sys2Proof/Laws/Refine.lean ====
section
/-! SUPPORT. Runs of micro-steps through the transactions (41_bitbang_transactions.md R172 to R195) and the transports
(42_transport_and_handle.md R220 to R227): a run from the first state of each comes to what the engine's and the
transports' functions return. -/

namespace Sys2Proof.Machine

/-- The registers of the transaction level, and the parameters, are as before. -/
structure Outer (s t : State) : Prop where
  bi : t.session.bi = s.session.bi
  trial : t.session.trial = s.session.trial
  err : t.session.err = s.session.err
  buf : t.session.buf = s.session.buf
  params : t.params = s.params
  cfg : t.cfg = s.cfg

/-! ## The line sequences leave those registers alone -/

theorem Outer.trans {s t u : State} (h : Outer s t) (h' : Outer t u) : Outer s u :=
  ⟨h'.bi.trans h.bi, h'.trial.trans h.trial, h'.err.trans h.err, h'.buf.trans h.buf, h'.params.trans h.params, h'.cfg.trans h.cfg⟩

theorem Outer.drv (l : Line) (v : Bit) (s : State) : Outer s (drv l v s) := by cases l <;> exact ⟨rfl, rfl, rfl, rfl, rfl, rfl⟩

theorem Outer.andThen {α β : Type} {s : State} {r : Result α} {f : α → State → Result β} (h : Outer s r.state)
    (hf : ∀ x u, Outer s u → Outer s (f x u).state) : Outer s (r.andThen f).state := by
  cases r with
  | ok x u => exact hf x u h
  | fail st u => exact h

theorem pollScl_outer (left sc : Nat) (s : State) : Outer s (pollScl left sc s).state := by
  induction left generalizing sc s with
  | zero => rw [pollScl]; split <;> exact ⟨rfl, rfl, rfl, rfl, rfl, rfl⟩
  | succ left ih =>
    rw [pollScl]
    split
    · exact ⟨rfl, rfl, rfl, rfl, rfl, rfl⟩
    · have h := ih (sc + 1) ((afterRead .scl s).setSc (sc + 1)); exact ⟨h.bi, h.trial, h.err, h.buf, h.params, h.cfg⟩

theorem raiseScl_outer (n : Bound) (s : State) : Outer s (raiseScl n s).state := by
  have h := pollScl_outer n.pred 0 ((dly .half (drv .scl true (dly .half s))).setSc 0)
  exact ⟨h.bi, h.trial, h.err, h.buf, h.params, h.cfg⟩

theorem pulse_outer (s : State) : Outer s (pulse s).state :=
  Outer.andThen (raiseScl_outer _ s) fun _ _ h => ⟨h.bi, h.trial, h.err, h.buf, h.params, h.cfg⟩

theorem pulseSample_outer (s : State) : Outer s (pulseSample s).state :=
  Outer.andThen (raiseScl_outer _ s) fun _ _ h => ⟨h.bi, h.trial, h.err, h.buf, h.params, h.cfg⟩

theorem startSeq_outer (s : State) : Outer s (startSeq s).state :=
  Outer.andThen ((Outer.drv .sda true s).trans (raiseScl_outer _ _)) fun _ _ h => ⟨h.bi, h.trial, h.err, h.buf, h.params, h.cfg⟩

theorem stopSeq_outer (s : State) : Outer s (stopSeq s).state :=
  Outer.andThen ((Outer.drv .sda false s).trans (raiseScl_outer _ _)) fun _ _ h => ⟨h.bi, h.trial, h.err, h.buf, h.params, h.cfg⟩

theorem writeBit_outer (b : Byte) (k : Nat) (s : State) : Outer s (writeBit b k s).state := by
  have h := pulse_outer (drv .sda (bitAt b k) (s.setBc k)); exact ⟨h.bi, h.trial, h.err, h.buf, h.params, h.cfg⟩

theorem writeBits_outer (b : Byte) (k : Nat) (s : State) : Outer s (writeBits b k s).state := by
  induction k generalizing s with
  | zero => exact writeBit_outer b 0 s
  | succ k ih => exact Outer.andThen (writeBit_outer b _ s) fun _ u h => h.trans (ih u)

theorem writeByteSeq_outer (b : Byte) (s : State) : Outer s (writeByteSeq b s).state := by
  have h0 : Outer s (s.setSr b) := ⟨rfl, rfl, rfl, rfl, rfl, rfl⟩
  refine Outer.andThen (h0.trans (writeBits_outer b 7 _)) fun _ u h => ?_
  refine Outer.andThen ((h.trans (Outer.drv .sda true u)).trans (pulseSample_outer _)) fun a v h => ?_
  cases a <;> exact ⟨h.bi, h.trial, h.err, h.buf, h.params, h.cfg⟩

theorem readBit_outer (sr : Byte) (k : Nat) (s : State) : Outer s (readBit sr k s).state := by
  have h0 : Outer s (s.setBc k) := ⟨rfl, rfl, rfl, rfl, rfl, rfl⟩
  exact Outer.andThen (h0.trans (pulseSample_outer _)) fun _ _ h => ⟨h.bi, h.trial, h.err, h.buf, h.params, h.cfg⟩

theorem readBits_outer (sr : Byte) (k : Nat) (s : State) : Outer s (readBits sr k s).state := by
  induction k generalizing sr s with
  | zero => exact readBit_outer sr 0 s
  | succ k ih => exact Outer.andThen (readBit_outer sr _ s) fun _ u h => h.trans (ih _ u)

theorem readByteSeq_outer (ack : Bool) (s : State) : Outer s (readByteSeq ack s).state := by
  have h0 : Outer s ((drv .sda true s).setSr 0) := ⟨rfl, rfl, rfl, rfl, rfl, rfl⟩
  refine Outer.andThen (h0.trans (readBits_outer 0 7 _)) fun _ u h => ?_
  exact Outer.andThen ((h.trans (Outer.drv .sda _ u)).trans (pulse_outer _)) fun _ v h => ⟨h.bi, h.trial, h.err, h.buf, h.params, h.cfg⟩

/-! ## The end of a transaction -/

theorem respond_fail {st : Status} (h : st ≠ .ok) (r : Option Word32) (d : Option (List Byte)) (s : State) :
    respond st r d s = respond st none none s := by simp [respond, h]

theorem accessDone_fail {i : Instr} {leg : Leg} {st : Status} (h : st ≠ .ok) (xs ys : List Byte) (s : State) :
    accessDone i leg st xs s = accessDone i leg st ys s := by
  cases leg
  · simp only [accessDone]; rw [respond_fail h, respond_fail h (rvalOf i ys)]
  · simp [accessDone, h]
  · rfl

/-- The end of a transaction or access. -/
def accessEnd (i : Instr) (leg : Leg) {α : Type} (g : α → List Byte) : Result α → Micro
  | .ok x u => accessDone i leg .ok (g x) u
  | .fail st u => accessDone i leg st [] u

section
variable {i : Instr} {leg : Leg} {t : Txn} {p : Phase} {o : Micro} {α β : Type}

/-- `FINISH` of a failure (R172). -/
theorem comes_finishFail {g : α → List Byte} (st : Status) (hst : st ≠ .ok) (s : State)
    (h : ComesFrom (accessEnd i leg g (finishFail st s)) o) : ComesFrom (finish i leg t st s) o := by
  rw [finish, if_neg hst]
  refine comes_stop _ ?_
  have he := (stopSeq_outer (s.setErr st)).err
  simpa [returns, subDone, he, accessEnd, finishFail] using h

/-- `FINISH(OK)` (R172). -/
theorem comes_finishOk {g : α → List Byte} (x : α) (s : State)
    (hg : ∀ u : State, u.session.buf = s.session.buf → received t u = some (g x))
    (h : ComesFrom (accessEnd i leg g (finishOk x s)) o) : ComesFrom (finish i leg t .ok s) o := by
  rw [finish, if_pos rfl]
  refine comes_stop s ?_
  have hb := (stopSeq_outer s).buf
  rw [returns, subDone, hg _ hb]
  have hany := stopSeq_any s
  revert h hany
  unfold finishOk
  cases stopSeq s with
  | ok y u => intro h _; exact h
  | fail st u =>
    intro h hany
    obtain rfl := hany.1
    simp only [Result.andThen_fail, accessEnd] at h
    simp only [Result.status_fail, Result.state_fail]
    rwa [accessDone_fail (by decide) _ []]

/-- A START of a transaction: its failure aborts. -/
theorem comes_start_orFinish {g : β → List Byte} (s : State) (f : Unit → State → Result β)
    (hfail : ∀ st u, st ≠ .ok → subDone i leg t p st u = finish i leg t st u)
    (hok : ∀ x u, startSeq s = .ok x u → ComesFrom (accessEnd i leg g (f x u)) o → ComesFrom (subDone i leg t p .ok u) o)
    (h : ComesFrom (accessEnd i leg g ((startSeq s).orFinish f)) o) : ComesFrom (enter i leg t p .stSda1 s) o := by
  refine comes_start s ?_
  have hany := startSeq_any s
  cases hr : startSeq s with
  | ok x u => rw [hr] at h; exact hok x u hr h
  | fail st u =>
    rw [hr] at h hany
    obtain rfl := hany.1
    simp only [returns, Result.status_fail, Result.state_fail]
    rw [hfail _ _ (by decide)]
    exact comes_finishFail _ (by decide) u h

/-- A byte of a transaction: its failure aborts. -/
theorem comes_write_orFinish {g : β → List Byte} (b : Byte) (s : State) (f : Unit → State → Result β)
    (hfail : ∀ st u, st ≠ .ok → subDone i leg t p st u = finish i leg t st u)
    (hok : ∀ x u, writeByteSeq b s = .ok x u → ComesFrom (accessEnd i leg g (f x u)) o → ComesFrom (subDone i leg t p .ok u) o)
    (h : ComesFrom (accessEnd i leg g ((writeByteSeq b s).orFinish f)) o) : ComesFrom (enterWrite i leg t p b s) o := by
  refine comes_writeByte b s ?_
  have hany := writeByteSeq_step b s
  cases hr : writeByteSeq b s with
  | ok x u => rw [hr] at h; exact hok x u hr h
  | fail st u =>
    rw [hr] at h hany
    have hne : st ≠ .ok := by rcases hany.2 with rfl | rfl <;> decide
    simp only [returns, Result.status_fail, Result.state_fail]
    rw [hfail _ _ hne]
    exact comes_finishFail _ hne u h

/-- The data bytes of a write. -/
theorem comes_writeData {t : Txn} {xs : List Byte}
    (ht : (∃ dev, t = .write dev xs) ∨ (∃ dev a aw, t = .memWrite dev a aw xs)) (bi : Nat) (s : State)
    (h : ComesFrom (accessEnd i leg (fun _ => []) (writeData bi (xs.drop bi) (s.setBi bi))) o) :
    ComesFrom (writePhase i leg t bi xs s) o := by
  generalize hys : xs.drop bi = ys at h
  induction ys generalizing bi s with
  | nil =>
    have hn : xs[bi]? = none := by simpa using hys
    rw [writePhase, hn]
    refine comes_finishOk () _ (fun u _ => ?_) h
    rcases ht with ⟨_, rfl⟩ | ⟨_, _, _, rfl⟩ <;> rfl
  | cons y ys ih =>
    have hx : xs[bi]? = some y := by
      have := congrArg List.head? hys
      simpa [List.head?_drop] using this
    rw [writePhase, hx]
    refine comes_write_orFinish y _ _ ?_ (fun x u hu hk => ?_) h
    · intro st u hst; simp [subDone, hst]
    · have hbi : u.session.bi = some bi := by
        have := (writeByteSeq_outer y (s.setBi bi)).bi
        rw [hu] at this; simpa using this
      have hys' : xs.drop (bi + 1) = ys := by rw [← List.tail_drop, hys, List.tail_cons]
      have := ih (bi + 1) u hys' hk
      rcases ht with ⟨_, rfl⟩ | ⟨_, _, _, rfl⟩ <;> simpa [subDone, hbi] using this

/-- A byte that was read is in `SR` (R155). -/
theorem readByteSeq_sr {ack : Bool} {x : Byte} {s u : State} (h : readByteSeq ack s = .ok x u) :
    u.session.sr = some x := by
  have hp := readBits_post 0 7 ((drv .sda true s).setSr 0)
  simp only [readByteSeq] at h
  cases hr : readBits 0 7 ((drv .sda true s).setSr 0) with
  | fail st v => rw [hr] at h; cases h
  | ok y v =>
    rw [hr] at h hp
    simp only [Result.andThen_ok, pulse] at h
    cases hq : raiseScl (drv .sda (!ack) v).params.nBit (drv .sda (!ack) v) with
    | fail st w => rw [hq] at h; cases h
    | ok z w =>
      rw [hq] at h
      cases h
      have := (raiseScl_session hq).1
      simpa [lowerScl, this] using hp.1

/-- The data bytes of a read. -/
theorem comes_readData {t : Txn} {n : Nat}
    (ht : (∃ dev, t = .read dev n) ∨ (∃ dev a aw, t = .memRead dev a aw n)) (left bi : Nat) (buf : List Byte) (s : State)
    (hn : bi + left + 1 = n) (hbi : s.session.bi = some bi) (hbuf : s.session.buf = some buf)
    (h : ComesFrom (accessEnd i leg id (readData left bi buf s)) o) :
    ComesFrom (enter i leg t .tRdata .rbRel s) o := by
  induction left generalizing bi buf s with
  | zero =>
    refine comes_readByte false s ?_ ?_
    · intro u hu
      rcases ht with ⟨_, rfl⟩ | ⟨_, _, _, rfl⟩ <;> simp [ackToSend, hu, hbi] <;> omega
    · have hany := readByteSeq_any false s
      simp only [readData] at h
      cases hr : readByteSeq false s with
      | fail st u =>
        rw [hr] at h hany
        obtain rfl := hany.1
        simp only [returns, Result.status_fail, Result.state_fail, subDone]
        simp only [reduceCtorEq, if_false]
        exact comes_finishFail _ (by decide) u h
      | ok x u =>
        rw [hr] at h
        have ho := readByteSeq_outer false s
        rw [hr] at ho
        have h1 : u.session.bi = some bi := ho.bi.trans hbi
        have h2 : u.session.buf = some buf := ho.buf.trans hbuf
        have h3 := readByteSeq_sr hr
        have hb : ComesFrom (afterByteRead i leg t n u) o := by
          have hlt : ¬ bi + 1 < n := by omega
          simp only [afterByteRead, h1, h2, h3, hlt, if_false]
          refine comes_finishOk (g := id) (buf ++ [x]) _ (fun v hv => ?_) h
          rcases ht with ⟨_, rfl⟩ | ⟨_, _, _, rfl⟩ <;> simpa [received] using hv
        rcases ht with ⟨_, rfl⟩ | ⟨_, _, _, rfl⟩ <;> simpa [returns, subDone] using hb
  | succ left ih =>
    refine comes_readByte true s ?_ ?_
    · intro u hu
      rcases ht with ⟨_, rfl⟩ | ⟨_, _, _, rfl⟩ <;> simp [ackToSend, hu, hbi] <;> omega
    · have hany := readByteSeq_any true s
      simp only [readData] at h
      cases hr : readByteSeq true s with
      | fail st u =>
        rw [hr] at h hany
        obtain rfl := hany.1
        simp only [returns, Result.status_fail, Result.state_fail, subDone]
        simp only [reduceCtorEq, if_false]
        exact comes_finishFail _ (by decide) u h
      | ok x u =>
        rw [hr] at h
        have ho := readByteSeq_outer true s
        rw [hr] at ho
        have h1 : u.session.bi = some bi := ho.bi.trans hbi
        have h2 : u.session.buf = some buf := ho.buf.trans hbuf
        have h3 := readByteSeq_sr hr
        have hb : ComesFrom (afterByteRead i leg t n u) o := by
          have hlt : bi + 1 < n := by omega
          simp only [afterByteRead, h1, h2, h3, hlt, if_true]
          exact ih (bi + 1) (buf ++ [x]) _ (by omega) (by simp) (by simp) h
        rcases ht with ⟨_, rfl⟩ | ⟨_, _, _, rfl⟩ <;> simpa [returns, subDone] using hb

theorem comes_readPhase {t : Txn} {n : Nat} (hpos : 1 ≤ n)
    (ht : (∃ dev, t = .read dev n) ∨ (∃ dev a aw, t = .memRead dev a aw n)) (s : State)
    (h : ComesFrom (accessEnd i leg id (readPhase n s)) o) : ComesFrom (enterRead i leg t s) o :=
  comes_readData ht (n - 1) 0 [] _ (by omega) (by simp) (by simp) h

theorem comes_writeSeq (dev : Byte) (xs : List Byte) (s : State)
    (h : ComesFrom (accessEnd i leg (fun _ => []) (writeSeq dev xs s)) o) :
    ComesFrom (enter i leg (.write dev xs) .tStart .stSda1 s) o := by
  refine comes_start_orFinish s _ (fun st u hst => by simp [subDone, hst]) (fun x u hu hk => ?_) h
  simp only [subDone, if_true, firstAddress]
  refine comes_write_orFinish _ u _ (fun st u hst => by cases st <;> simp_all [subDone]) (fun x v hv hk => ?_) hk
  exact comes_writeData (.inl ⟨_, rfl⟩) 0 v (by simpa using hk)

theorem comes_readSeq (dev : Byte) (n : Nat) (hpos : 1 ≤ n) (s : State)
    (h : ComesFrom (accessEnd i leg id (readSeq dev n s)) o) :
    ComesFrom (enter i leg (.read dev n) .tStart .stSda1 s) o := by
  refine comes_start_orFinish s _ (fun st u hst => by simp [subDone, hst]) (fun x u hu hk => ?_) h
  simp only [subDone, if_true, firstAddress]
  refine comes_write_orFinish _ u _ (fun st u hst => by cases st <;> simp_all [subDone]) (fun x v hv hk => ?_) hk
  exact comes_readPhase hpos (.inl ⟨_, rfl⟩) v hk

/-- The memory address bytes (R180, R182). -/
theorem comes_sendAddress {g : β → List Byte} {t : Txn} {ms : List Byte} (f : State → Result β)
    (hm : ∀ k m u, ms[k]? = some m → maddrPhase i leg t k u = enterWrite i leg t (.tMaddr k) m u)
    (hend : ∀ u, ComesFrom (accessEnd i leg g (f u)) o → ComesFrom (maddrPhase i leg t ms.length u) o)
    (k : Nat) (hk : k ≤ ms.length) (s : State)
    (h : ComesFrom (accessEnd i leg g (sendAddress f (ms.drop k) s)) o) : ComesFrom (maddrPhase i leg t k s) o := by
  generalize hys : ms.drop k = ys at h
  induction ys generalizing k s with
  | nil =>
    have : k = ms.length := by have := List.drop_eq_nil_iff.mp hys; omega
    subst this
    exact hend s h
  | cons y ys ih =>
    have hx : ms[k]? = some y := by
      have := congrArg List.head? hys
      simpa [List.head?_drop] using this
    rw [hm k y s hx]
    refine comes_write_orFinish y s _ (fun st u hst => by simp [subDone, hst]) (fun x u hu hk' => ?_) h
    have hlt : k < ms.length := (List.getElem?_eq_some_iff.mp hx).1
    simp only [subDone, if_true]
    exact ih (k + 1) (by omega) u (by rw [← List.tail_drop, hys, List.tail_cons]) hk'

theorem comes_memWriteSeq (dev : Byte) (a : Word16) (aw : Byte) (xs : List Byte) (s : State)
    (h : ComesFrom (accessEnd i leg (fun _ => []) (memWriteSeq dev a aw xs s)) o) :
    ComesFrom (enter i leg (.memWrite dev a aw xs) .tStart .stSda1 s) o := by
  refine comes_start_orFinish s _ (fun st u hst => by simp [subDone, hst]) (fun x u hu hk => ?_) h
  simp only [subDone, if_true, firstAddress]
  refine comes_write_orFinish _ u _ (fun st u hst => by cases st <;> simp_all [subDone]) (fun x v hv hk => ?_) hk
  simp only [subDone, afterAddress]
  refine comes_sendAddress (ms := maddr a aw) _ (fun k m u hm => by simp [maddrPhase, hm]) (fun u hu => ?_) 0 (Nat.zero_le _) v hk
  have := comes_writeData (t := .memWrite dev a aw xs) (.inr ⟨_, _, _, rfl⟩) 0 u (by simpa using hu)
  simpa [maddrPhase] using this

theorem comes_memReadSeq (dev : Byte) (a : Word16) (aw : Byte) (n : Nat) (hpos : 1 ≤ n) (s : State)
    (h : ComesFrom (accessEnd i leg id (memReadSeq dev a aw n s)) o) :
    ComesFrom (enter i leg (.memRead dev a aw n) .tStart .stSda1 s) o := by
  refine comes_start_orFinish s _ (fun st u hst => by simp [subDone, hst]) (fun x u hu hk => ?_) h
  simp only [subDone, if_true, firstAddress]
  refine comes_write_orFinish _ u _ (fun st u hst => by cases st <;> simp_all [subDone]) (fun x v hv hk => ?_) hk
  simp only [subDone, afterAddress]
  refine comes_sendAddress (ms := maddr a aw) _ (fun k m u hm => by simp [maddrPhase, hm]) (fun u hu => ?_) 0 (Nat.zero_le _) v hk
  have : ComesFrom (enter i leg (.memRead dev a aw n) .tRstart .stSda1 u) o := by
    refine comes_start_orFinish u _ (fun st u hst => by simp [subDone, hst]) (fun x w hw hk => ?_) hu
    simp only [subDone, if_true]
    refine comes_write_orFinish _ w _ (fun st u hst => by simp [subDone, hst]) (fun x v hv hk => ?_) hk
    simp only [subDone, if_true]
    exact comes_readPhase hpos (.inr ⟨_, _, _, rfl⟩) v hk
  simpa [maddrPhase] using this

/-- The trials of is_device_ready (R190). -/
theorem comes_trials (dev : Byte) (left k n : Nat) (hn : k + left = n) (s : State) (hk : s.session.trial = some k)
    (h : ComesFrom (accessEnd i .whole (fun _ => []) (trials dev left k s)) o) :
    ComesFrom (enter i .whole (.ready dev n) .tStart .stSda1 s) o := by
  induction left generalizing k s with
  | zero =>
    refine comes_start s ?_
    have hany := startSeq_any s
    simp only [trials, probe] at h
    have ho := startSeq_outer s
    cases hr : startSeq s with
    | fail st u =>
      rw [hr] at h hany
      obtain rfl := hany.1
      simp only [returns, Result.status_fail, Result.state_fail, subDone]
      simp only [reduceCtorEq, if_false]
      exact comes_finishFail _ (by decide) u h
    | ok x u =>
      rw [hr] at h ho
      simp only [Result.andThen_ok] at h
      simp only [returns, Result.status_ok, Result.state_ok, subDone, if_true, firstAddress]
      refine comes_writeByte _ u ?_
      have hany := writeByteSeq_step (addrByteOf dev .write u) u
      have ho' := writeByteSeq_outer (addrByteOf dev .write u) u
      cases hw : writeByteSeq (addrByteOf dev .write u) u with
      | ok y v =>
        rw [hw] at h
        simp only [returns, Result.status_ok, Result.state_ok, subDone, afterAddress]
        exact comes_finishOk () v (fun _ _ => rfl) h
      | fail st v =>
        rw [hw] at h hany ho'
        rcases hany.2 with rfl | rfl
        · simp only [returns, Result.status_fail, Result.state_fail, subDone]
          refine comes_stop v ?_
          have hany := stopSeq_any v
          have ho'' := stopSeq_outer v
          simp only at h
          cases hs : stopSeq v with
          | ok z w =>
            rw [hs] at h ho''
            have : w.session.trial = some n := by
              have := ((ho.trans ho').trans ho'').trial
              simp only [Result.state_ok, hk] at this
              rw [this]; congr
            simpa [returns, subDone, this, accessEnd] using h
          | fail st w =>
            rw [hs] at h hany
            obtain rfl := hany.1
            simpa [returns, subDone, accessEnd] using h
        · simp only [returns, Result.status_fail, Result.state_fail, subDone]
          exact comes_finishFail _ (by decide) v h
  | succ left ih =>
    refine comes_start s ?_
    have hany := startSeq_any s
    simp only [trials, probe] at h
    have ho := startSeq_outer s
    cases hr : startSeq s with
    | fail st u =>
      rw [hr] at h hany
      obtain rfl := hany.1
      simp only [returns, Result.status_fail, Result.state_fail, subDone]
      simp only [reduceCtorEq, if_false]
      exact comes_finishFail _ (by decide) u h
    | ok x u =>
      rw [hr] at h ho
      simp only [Result.andThen_ok] at h
      simp only [returns, Result.status_ok, Result.state_ok, subDone, if_true, firstAddress]
      refine comes_writeByte _ u ?_
      have hany := writeByteSeq_step (addrByteOf dev .write u) u
      have ho' := writeByteSeq_outer (addrByteOf dev .write u) u
      cases hw : writeByteSeq (addrByteOf dev .write u) u with
      | ok y v =>
        rw [hw] at h
        simp only [returns, Result.status_ok, Result.state_ok, subDone, afterAddress]
        exact comes_finishOk () v (fun _ _ => rfl) h
      | fail st v =>
        rw [hw] at h hany ho'
        rcases hany.2 with rfl | rfl
        · simp only [returns, Result.status_fail, Result.state_fail, subDone]
          refine comes_stop v ?_
          have hany := stopSeq_any v
          have ho'' := stopSeq_outer v
          simp only at h
          cases hs : stopSeq v with
          | ok z w =>
            rw [hs] at h ho''
            have hw' : w.session.trial = some k := by
              have := ((ho.trans ho').trans ho'').trial
              simpa only [Result.state_ok, hk] using this
            have hne : ¬ k = n := by omega
            simp only [returns, Result.status_ok, Result.state_ok, subDone, if_true, hw', hne, if_false]
            refine Comes.step ?_
            simp only [microStep, State.setUpc_upc, State.setUpc_session, hw', dly_setUpc, setTrial_setUpc, enter_setUpc]
            exact ih (k + 1) (by omega) _ (by simp) h
          | fail st w =>
            rw [hs] at h hany
            obtain rfl := hany.1
            simpa [returns, subDone, accessEnd] using h
        · simp only [returns, Result.status_fail, Result.state_fail, subDone]
          exact comes_finishFail _ (by decide) v h
end

/-! ## The transports -/

/-- The end of an access whose reply may be stuck or refused. -/
def replyEnd (i : Instr) (leg : Leg) {α : Type} (g : α → List Byte) : Reply α → Micro → Prop
  | .done r, o => ComesFrom (accessEnd i leg g r) o
  | .stuck s, o => o = .next s
  | .refused r, o => o = .refused r

theorem moveTo_eq {s : State} {i : Instr} {p : Pos} (h : s.upc = .running i p) (q : Pos) :
    s.moveTo q = s.setUpc (.running i q) := by simp [State.moveTo, h]

theorem statusAnswer_setUpc (u : Upc) (s : State) : statusAnswer (s.setUpc u) = statusAnswer s := rfl
theorem bytesAnswer_setUpc (n : Nat) (u : Upc) (s : State) : bytesAnswer n (s.setUpc u) = bytesAnswer n s := rfl
theorem valueAnswer_setUpc (u : Upc) (s : State) : valueAnswer (s.setUpc u) = valueAnswer s := rfl

theorem running_of {s : State} {i : Instr} {p q : Pos} (h : s.upc = .running i p) :
   ((s.moveTo q).upc = .running i q) := State.moveTo_upc_running q p i s h

section
variable {i : Instr} {leg : Leg} {o : Micro}

/-- A block-transfer read (R222). -/
theorem comes_bt_read (c : BlockConfig) (a : Word16) (n : Nat) (s : State) (p : Pos) (hu : s.upc = .running i p)
    (hc : s.cfg = some (.block c)) (h : replyEnd i leg id (btMemRead leg c a n s) o) :
    ComesFrom (.next (s.setUpc (.running i (.csAssert leg (.read a n))))) o := by
  refine Comes.step ?_
  simp only [microStep, State.setUpc_upc, State.setUpc_cfg, hc]
  refine Comes.step ?_
  have e1 : (callCsAssert c.btDev s).moveTo (.btHeader leg (.read a n)) =
      ((callCsAssert c.btDev (s.setUpc (.running i (.csAssert leg (.read a n))))).setUpc (.running i (.btHeader leg (.read a n)))) := by
    rw [moveTo_eq (i := i) (p := p) (by simpa using hu)]; rfl
  rw [← e1]
  generalize hs1 : (callCsAssert c.btDev s).moveTo (.btHeader leg (.read a n)) = s1
  have hu1 : s1.upc = .running i (.btHeader leg (.read a n)) := by rw [← hs1]; exact running_of (p := p) (by simpa using hu)
  have hc1 : s1.cfg = some (.block c) := by rw [← hs1]; simpa using hc
  have hp1 : s1.params = s.params := by rw [← hs1]; simp
  simp only [microStep, hu1, hc1, headerStep]
  simp only [btMemRead, btReadExchange, hs1, callCsAssert_params, ← hp1, callBtWrite, callStatus] at h
  simp only [callBtWrite, callStatus]
  cases hq : statusAnswer s1 with
  | noReturn =>
    rw [hq] at h
    simp only [afterCall]
    obtain rfl : o = .next s1 := h
    exact Comes.stay (by simp [microStep, hu1, hc1, headerStep, callBtWrite, callStatus, hq, afterCall])
  | refused r => rw [hq] at h; exact h
  | got st =>
    rw [hq] at h
    simp only [Reply.andThen_ok, afterCall] at h ⊢
    by_cases hst : st = .ok
    · simp only [hst, if_true] at h ⊢
      refine Comes.step ?_
      rw [moveTo_eq (i := i) (p := .btHeader leg (.read a n)) (by simpa using hu1)] at h
      generalize hs2 : State.setUpc (.running i (.btData leg (.read a n))) (s1.answered.emit (.btWrite c.btDev (readHeader s1.params a) .ok)) = s2 at h ⊢
      have hu2 : s2.upc = .running i (.btData leg (.read a n)) := by rw [← hs2]; rfl
      have hc2 : s2.cfg = some (.block c) := by rw [← hs2]; simpa using hc1
      simp only [microStep, hu2, hc2, dataStep]
      simp only [callBtRead] at h ⊢
      cases hq2 : bytesAnswer n s2 with
      | noReturn =>
        rw [hq2] at h
        obtain rfl : o = .next s2 := h
        exact Comes.stay (by simp [microStep, hu2, hc2, dataStep, callBtRead, hq2, afterCall])
      | refused r => rw [hq2] at h; exact h
      | got x =>
        rw [hq2] at h
        simp only [Reply.andThen_ok, afterCall, enterDeassert] at h ⊢
        refine Comes.step ?_
        simp only [microStep, State.setUpc_upc, State.setUpc_cfg, State.emit_cfg, State.answered_cfg, hc2]
        cases x with
        | ok xs =>
          simp only [btReturn, replyEnd, accessEnd, id] at h
          simp only [replyStatus, replyData, Option.getD_some]
          exact (accessDone_setUpc (i := i) (leg := leg) (u := .running i (.csDeassert leg (.read a n) .ok xs)) ..) ▸ h
        | error st =>
          simp only [btReturn, replyEnd, accessEnd] at h
          simp only [replyStatus, replyData, Option.getD_none]
          exact (accessDone_setUpc (i := i) (leg := leg) (u := .running i (.csDeassert leg (.read a n) st [])) ..) ▸ h
    · simp only [hst, if_false] at h ⊢
      refine Comes.step ?_
      simp only [microStep, State.setUpc_upc, State.setUpc_cfg, State.emit_cfg, State.answered_cfg, hc1]
      simp only [btReturn, replyEnd, accessEnd, Reply.andThen_ok] at h
      exact (accessDone_setUpc (i := i) (leg := leg) (u := .running i (.csDeassert leg (.read a n) st [])) ..) ▸ h

/-- A block-transfer write (R223). -/
theorem comes_bt_write (c : BlockConfig) (a : Word16) (xs : List Byte) (s : State) (p : Pos) (hu : s.upc = .running i p)
    (hc : s.cfg = some (.block c)) (h : replyEnd i leg (fun _ => []) (btMemWrite leg c a xs s) o) :
    ComesFrom (.next (s.setUpc (.running i (.csAssert leg (.write a xs))))) o := by
  refine Comes.step ?_
  simp only [microStep, State.setUpc_upc, State.setUpc_cfg, hc]
  refine Comes.step ?_
  have e1 : (callCsAssert c.btDev s).moveTo (.btHeader leg (.write a xs)) =
      ((callCsAssert c.btDev (s.setUpc (.running i (.csAssert leg (.write a xs))))).setUpc (.running i (.btHeader leg (.write a xs)))) := by
    rw [moveTo_eq (i := i) (p := p) (by simpa using hu)]; rfl
  rw [← e1]
  generalize hs1 : (callCsAssert c.btDev s).moveTo (.btHeader leg (.write a xs)) = s1
  have hu1 : s1.upc = .running i (.btHeader leg (.write a xs)) := by rw [← hs1]; exact running_of (p := p) (by simpa using hu)
  have hc1 : s1.cfg = some (.block c) := by rw [← hs1]; simpa using hc
  have hp1 : s1.params = s.params := by rw [← hs1]; simp
  simp only [microStep, hu1, hc1, headerStep]
  simp only [btMemWrite, btWriteExchange, hs1, callCsAssert_params, ← hp1, callBtWrite, callStatus] at h
  simp only [callBtWrite, callStatus]
  cases hq : statusAnswer s1 with
  | noReturn =>
    rw [hq] at h
    simp only [afterCall]
    obtain rfl : o = .next s1 := h
    exact Comes.stay (by simp [microStep, hu1, hc1, headerStep, callBtWrite, callStatus, hq, afterCall])
  | refused r => rw [hq] at h; exact h
  | got st =>
    rw [hq] at h
    simp only [Reply.andThen_ok, afterCall] at h ⊢
    by_cases hst : st = .ok
    · simp only [hst, if_true] at h ⊢
      refine Comes.step ?_
      rw [moveTo_eq (i := i) (p := .btHeader leg (.write a xs)) (by simpa using hu1)] at h
      generalize hs2 : State.setUpc (.running i (.btData leg (.write a xs))) (s1.answered.emit (.btWrite c.btDev (writeHeader s1.params a) .ok)) = s2 at h ⊢
      have hu2 : s2.upc = .running i (.btData leg (.write a xs)) := by rw [← hs2]; rfl
      have hc2 : s2.cfg = some (.block c) := by rw [← hs2]; simpa using hc1
      simp only [microStep, hu2, hc2, dataStep]
      simp only [callBtWrite, callStatus] at h ⊢
      cases hq2 : statusAnswer s2 with
      | noReturn =>
        rw [hq2] at h
        obtain rfl : o = .next s2 := h
        exact Comes.stay (by simp [microStep, hu2, hc2, dataStep, callBtWrite, callStatus, hq2, afterCall])
      | refused r => rw [hq2] at h; exact h
      | got st2 =>
        rw [hq2] at h
        simp only [Reply.andThen_ok, afterCall, enterDeassert] at h ⊢
        refine Comes.step ?_
        simp only [microStep, State.setUpc_upc, State.setUpc_cfg, State.emit_cfg, State.answered_cfg, hc2]
        by_cases h2 : st2 = .ok
        · simp only [h2, statusResult, if_true, btReturn, replyEnd, accessEnd] at h ⊢
          exact (accessDone_setUpc (i := i) (leg := leg) (u := .running i (.csDeassert leg (.write a xs) .ok [])) ..) ▸ h
        · simp only [h2, statusResult, if_false, btReturn, replyEnd, accessEnd] at h ⊢
          exact (accessDone_setUpc (i := i) (leg := leg) (u := .running i (.csDeassert leg (.write a xs) st2 [])) ..) ▸ h
    · simp only [hst, if_false] at h ⊢
      refine Comes.step ?_
      simp only [microStep, State.setUpc_upc, State.setUpc_cfg, State.emit_cfg, State.answered_cfg, hc1]
      simp only [btReturn, statusResult, hst, if_false, replyEnd, accessEnd, Reply.andThen_ok] at h
      exact (accessDone_setUpc (i := i) (leg := leg) (u := .running i (.csDeassert leg (.write a xs) st [])) ..) ▸ h

/-- A management read (R226). -/
theorem comes_mg_read (c : MgmtConfig) (a : Word16) (n : Nat) (s : State) (p : Pos) (hu : s.upc = .running i p)
    (hc : s.cfg = some (.mgmt c)) (h : replyEnd i leg id (mgMemRead leg c a n s) o) :
    ComesFrom (.next (s.setUpc (.running i (.mgmt leg (.read a n))))) o := by
  refine Comes.step ?_
  simp only [mgMemRead] at h
  rw [moveTo_eq hu] at h
  simp only [microStep, State.setUpc_upc, State.setUpc_cfg, hc, mgmtStep, callMgRead] at h ⊢
  generalize hs1 : s.setUpc (.running i (.mgmt leg (.read a n))) = s1 at h ⊢
  have hu1 : s1.upc = .running i (.mgmt leg (.read a n)) := by rw [← hs1]; rfl
  have hc1 : s1.cfg = some (.mgmt c) := by rw [← hs1]; exact hc
  cases hq : valueAnswer s1 with
  | noReturn =>
    rw [hq] at h
    obtain rfl : o = .next s1 := h
    exact Comes.stay (by simp [microStep, hu1, hc1, mgmtStep, callMgRead, hq, afterCall])
  | refused r => rw [hq] at h; exact h
  | got x => rw [hq] at h; cases x <;> exact h

/-- A management write (R227). -/
theorem comes_mg_write (c : MgmtConfig) (a : Word16) (xs : List Byte) (s : State) (p : Pos) (hu : s.upc = .running i p)
    (hc : s.cfg = some (.mgmt c)) (h : replyEnd i leg (fun _ => []) (mgMemWrite leg c a xs s) o) :
    ComesFrom (.next (s.setUpc (.running i (.mgmt leg (.write a xs))))) o := by
  refine Comes.step ?_
  simp only [mgMemWrite] at h
  rw [moveTo_eq hu] at h
  simp only [microStep, State.setUpc_upc, State.setUpc_cfg, hc, mgmtStep, callMgWrite, callStatus] at h ⊢
  generalize hs1 : s.setUpc (.running i (.mgmt leg (.write a xs))) = s1 at h ⊢
  have hu1 : s1.upc = .running i (.mgmt leg (.write a xs)) := by rw [← hs1]; rfl
  have hc1 : s1.cfg = some (.mgmt c) := by rw [← hs1]; exact hc
  cases hq : statusAnswer s1 with
  | noReturn =>
    rw [hq] at h
    obtain rfl : o = .next s1 := h
    exact Comes.stay (by simp [microStep, hu1, hc1, mgmtStep, callMgWrite, callStatus, hq, afterCall])
  | refused r => rw [hq] at h; exact h
  | got st =>
    rw [hq] at h
    simp only [Reply.andThen_ok] at h
    by_cases hst : st = .ok
    · simp only [hst, if_true] at h; subst hst; exact h
    · simp only [hst, if_false] at h; exact h

/-- `MemRead` of any transport (R229). -/
theorem comes_memRead (a : Word16) (n : Nat) (hpos : 1 ≤ n) (s : State) (p : Pos) (hu : s.upc = .running i p)
    (hc : ∃ c, s.cfg = some c ∧ c ≠ .reserved) (h : replyEnd i leg id (memRead leg a n s) o) :
    ComesFrom (startAccess i leg (.read a n) s) o := by
  obtain ⟨c, hc, hne⟩ := hc
  cases c with
  | twoWire c =>
    simp only [memRead, hc] at h
    simp only [startAccess, hc]
    exact comes_memReadSeq _ _ _ _ hpos _ h
  | block c =>
    simp only [memRead, hc] at h
    simp only [startAccess, hc]
    exact comes_bt_read c a n s p hu hc h
  | mgmt c =>
    simp only [memRead, hc] at h
    simp only [startAccess, hc]
    exact comes_mg_read c a n s p hu hc h
  | reserved => exact absurd rfl hne

/-- `MemWrite` of any transport (R229). -/
theorem comes_memWrite (a : Word16) (xs : List Byte) (s : State) (p : Pos) (hu : s.upc = .running i p)
    (hc : ∃ c, s.cfg = some c ∧ c ≠ .reserved) (h : replyEnd i leg (fun _ => []) (memWrite leg a xs s) o) :
    ComesFrom (startAccess i leg (.write a xs) s) o := by
  obtain ⟨c, hc, hne⟩ := hc
  cases c with
  | twoWire c =>
    simp only [memWrite, hc] at h
    simp only [startAccess, hc]
    exact comes_memWriteSeq _ _ _ _ _ h
  | block c =>
    simp only [memWrite, hc] at h
    simp only [startAccess, hc]
    exact comes_bt_write c a xs s p hu hc h
  | mgmt c =>
    simp only [memWrite, hc] at h
    simp only [startAccess, hc]
    exact comes_mg_write c a xs s p hu hc h
  | reserved => exact absurd rfl hne
end
end Sys2Proof.Machine
end

