-- ==== Sys2Proof/Tests/Slice0.lean ====
section
/-! SUPPORT. Tests. The expected results are the vectors of 95_test_vectors.md and the examples of the rules (the name of
each vector stands in its test's name or docstring), worked out there, never the model's own answers. The witnesses show
for every statement with hypotheses, clause by clause, a concrete input that meets them. -/

namespace Sys2Proof.Tests

open Sys2Proof.Machine

/-! ## Small states -/

/-- `N_START = 2`, `N_STOP = 1`, `N_BIT = 2`, the parameters of the vectors elsewhere. -/
def params : Params :=
  { addrMode := .sevenBit
    twDev := 0x5F
    nStart := ⟨1⟩
    nStop := ⟨0⟩
    nBit := ⟨1⟩
    tTrial := 0
    btRcmd := 0x03
    btWcmd := 0x02
    btTa := 0xFF }

/-- A two-wire configuration with both ports. -/
def twoWire : TwoWireConfig := ⟨4, 5, 10, true, true⟩

/-- A block-transfer configuration with every port. -/
def blockDev : BlockConfig := ⟨9, true, true, true, true, true⟩

/-- A management configuration with both ports. -/
def mgmtDev : MgmtConfig := ⟨7, true, true⟩

/-- An initialized handle. -/
def base (c : TransportConfig) : State := { State.reset with init := true, cfg := some c, params := params }

/-- A two-wire state and the answers to its next line reads. -/
def tw (answers : List Bit) : State := { base (.twoWire twoWire) with lineIn := answers }

/-- A block-transfer state and the answers to its next port calls. -/
def bt (answers : List PortAnswer) : State := { base (.block blockDev) with portIn := answers }

/-- A management state and the answers to its next port calls. -/
def mg (answers : List PortAnswer) : State := { base (.mgmt mgmtDev) with portIn := answers }

/-- The step answers a next state with these response registers and these events after the ones before. -/
def gives (i : Instr) (s : State) (st : Status) (rval : Option Word32) (dOut : Option (List Byte)) (es : List Event) :
    Bool :=
  match exec i s with
  | .next t =>
    t.status == some st && t.rval == rval && t.dOut == dOut && t.trace == s.trace ++ es && t.hpc == s.hpc + 1 &&
      t.upc == .idle
  | .fault _ => false
  | .refused _ => false

/-- The lines a command leaves. -/
def leaves (i : Instr) (s : State) (sda scl : Option Bit) : Bool :=
  match exec i s with
  | .next t => t.outSda == sda && t.outScl == scl
  | .fault _ => false
  | .refused _ => false

/-! ## Well-formedness (30_encoding.md R93, R95) -/

/-- A byte list that `LEN` cannot count exists, so that the three checks below refuse something. -/
theorem test_long_list : ∃ xs : List Byte, 2 ^ 32 ≤ xs.length := by
  generalize 2 ^ 32 = n
  exact ⟨List.replicate n 0, by rw [List.length_replicate]⟩

theorem test_wellFormed_bbWrite_long (xs : List Byte) (h : 2 ^ 32 ≤ xs.length) :
    (Instr.bbWrite 0x50 xs false).wellFormed = false := decide_eq_false (Nat.not_lt.mpr h)

theorem test_wellFormed_bbMemWrite_long (xs : List Byte) (h : 2 ^ 32 ≤ xs.length) :
    (Instr.bbMemWrite 0x50 2 0 xs false).wellFormed = false := decide_eq_false (Nat.not_lt.mpr h)

theorem test_wellFormed_writeBurst_long (xs : List Byte) (h : 2 ^ 32 ≤ xs.length) :
    (Instr.writeBurst 0 xs false).wellFormed = false := decide_eq_false (Nat.not_lt.mpr h)

theorem test_wellFormed_short : (Instr.bbWrite 0x50 [0x00, 0x11] false).wellFormed = true := by decide

/-! ## Decoding: one word for each row of the opcode map, written out from R91 to R97 and the vectors V-E -/

theorem test_decode_init :
    decode ⟨0x01000000, 0, 0, 0, [], some (.twoWire twoWire)⟩ = .ok (.init (some (.twoWire twoWire)) false) := rfl
theorem test_decode_init_cnull_VE2 : decode ⟨0x01000002, 0, 0, 0, [], none⟩ = .ok (.init none false) := rfl
theorem test_decode_deinit : decode ⟨0x02000001, 0, 0, 0, [], none⟩ = .ok (.deinit true) := rfl
theorem test_decode_bbStart : decode ⟨0x10000000, 0, 0, 0, [], none⟩ = .ok (.bbStart false) := rfl
theorem test_decode_bbStop : decode ⟨0x11000000, 0, 0, 0, [], none⟩ = .ok (.bbStop false) := rfl
theorem test_decode_bbWriteByte_VE7 : decode ⟨0x1200A500, 0, 0, 0, [], none⟩ = .ok (.bbWriteByte 0xA5 false) := rfl
theorem test_decode_bbReadByte_VE9_VE12 :
    decode ⟨0x13000100, 0, 0, 0, [], none⟩ = .ok (.bbReadByte true false false) ∧
    decode ⟨0x13000002, 0, 0, 0, [], none⟩ = .ok (.bbReadByte false true false) := ⟨rfl, rfl⟩
theorem test_decode_bbWrite_VT1 :
    decode ⟨0x14500000, 0, 2, 0, [0x00, 0x11], none⟩ = .ok (.bbWrite 0x50 [0x00, 0x11] false) := rfl
theorem test_decode_bbRead_VT6 : decode ⟨0x15500000, 0, 2, 0, [], none⟩ = .ok (.bbRead 0x50 2 false false) := rfl
theorem test_decode_bbMemWrite_VT12 :
    decode ⟨0x16500200, 0x1234, 1, 0, [0xAB], none⟩ = .ok (.bbMemWrite 0x50 2 0x1234 [0xAB] false) := rfl
theorem test_decode_bbMemRead_VT16 :
    decode ⟨0x17500200, 0x1234, 2, 0, [], none⟩ = .ok (.bbMemRead 0x50 2 0x1234 2 false false) := rfl
theorem test_decode_bbIsDeviceReady_VIDR1 :
    decode ⟨0x18500000, 0, 1, 0, [], none⟩ = .ok (.bbIsDeviceReady 0x50 1 false) := rfl
theorem test_decode_reads :
    decode ⟨0x20000000, 0x0100, 0, 0, [], none⟩ = .ok (.readU8 0x0100 false false) ∧
    decode ⟨0x21000002, 0, 0, 0, [], none⟩ = .ok (.readU16 0 true false) ∧
    decode ⟨0x22000001, 0xFFFF, 0, 0, [], none⟩ = .ok (.readU32 0xFFFF false true) := ⟨rfl, rfl, rfl⟩
theorem test_decode_writes :
    decode ⟨0x24000001, 0, 0xFF, 0, [], none⟩ = .ok (.writeU8 0 0xFF true) ∧
    decode ⟨0x25000000, 0x1234, 0xBEEF, 0, [], none⟩ = .ok (.writeU16 0x1234 0xBEEF false) ∧
    decode ⟨0x26000000, 0, 0x01020304, 0, [], none⟩ = .ok (.writeU32 0 0x01020304 false) := ⟨rfl, rfl, rfl⟩
theorem test_decode_bursts :
    decode ⟨0x28000000, 0, 3, 0, [], none⟩ = .ok (.readBurst 0 3 false false) ∧
    decode ⟨0x29000000, 0x0100, 3, 0, [1, 2, 3], none⟩ = .ok (.writeBurst 0x0100 [1, 2, 3] false) := ⟨rfl, rfl⟩
theorem test_decode_modifies :
    decode ⟨0x2A000000, 0x0200, 0x05, 0x0F, [], none⟩ = .ok (.modifyU8 0x0200 0x0F 0x05 false) ∧
    decode ⟨0x2B000001, 0, 0xFFFF, 0x0400, [], none⟩ = .ok (.modifyU16 0 0x0400 0xFFFF true) := ⟨rfl, rfl⟩

/-- V-E4, V-E5, V-E6, V-E8, V-E11. -/
theorem test_malformed_w0 :
    decode ⟨0x01000004, 0, 0, 0, [], some (.twoWire twoWire)⟩ = .error .reservedW0 ∧
    decode ⟨0x01000000, 0, 0, 0, [], none⟩ = .error .configAbsent ∧
    decode ⟨0x02000002, 0, 0, 0, [], none⟩ = .error .reservedW0 ∧
    decode ⟨0x12FF0000, 0, 0, 0, [], none⟩ = .error .reservedW0 ∧
    decode ⟨0x13000200, 0, 0, 0, [], none⟩ = .error .reservedW0 := ⟨rfl, rfl, rfl, rfl, rfl⟩

/-- V-E13, V-E14, V-E16, V-E17, V-E18, V-E19, V-E22. -/
theorem test_malformed_words :
    decode ⟨0x14500100, 0, 0, 0, [], none⟩ = .error .reservedW0 ∧
    decode ⟨0x14500000, 0, 2, 0, [0x11], none⟩ = .error .dataLength ∧
    decode ⟨0x17500200, 0x00011234, 0, 0, [], none⟩ = .error .reservedW1 ∧
    decode ⟨0x21000000, 0, 1, 0, [], none⟩ = .error .reservedW2 ∧
    decode ⟨0x24000000, 0, 0x00000100, 0, [], none⟩ = .error .reservedW2 ∧
    decode ⟨0x2A000000, 0, 0, 0x000001FF, [], none⟩ = .error .reservedW3 ∧
    decode ⟨0x25000002, 0, 0, 0, [], none⟩ = .error .reservedW0 := ⟨rfl, rfl, rfl, rfl, rfl, rfl, rfl⟩

/-- V-E21. -/
theorem test_reserved_opcodes :
    [0x00, 0x23, 0x27, 0x19, 0x2C, 0xFF].all (fun c => Op.ofCode c == none) = true := by decide

/-! ## Assembly lines (R106) -/

theorem test_asm_modify_order :
    toAsm (.modifyU8 0x0200 0x0F 0x05 true) = ⟨"modify_u8", true, false, false, [.number 0x0200, .number 0x0F, .number 0x05]⟩
      := rfl

theorem test_asm_read_byte_ack :
    (fromAsm ⟨"bb.read_byte", false, false, false, [.ack]⟩).map Except.ok = some (decode ⟨0x13000100, 0, 0, 0, [], none⟩) ∧
    fromAsm ⟨"write_u8", false, false, false, [.number 0x0100, .number 0x100]⟩ = none := ⟨rfl, rfl⟩

/-! ## Operand assembly (V-A1 to V-A9) -/

theorem test_addrByte_VA :
    addrByte .sevenBit 0x50 .write = 0xA0 ∧ addrByte .sevenBit 0x5F .read = 0xBF ∧
    addrByte .sevenBit 0xDF .write = 0xBE ∧ addrByte .preshifted 0xA0 .read = 0xA1 ∧
    addrByte .preshifted 0xA1 .write = 0xA0 := by decide

theorem test_bytes_VA :
    maddr 0x12AB 1 = [0xAB] ∧ maddr 0x12AB 2 = [0x12, 0xAB] ∧ be16 0xBEEF = [0xBE, 0xEF] ∧
    be32 0x01020304 = [0x01, 0x02, 0x03, 0x04] ∧ unBe32 [0xDE, 0xAD, 0xBE, 0xEF] = 0xDEADBEEF ∧
    unBe16 [0x00, 0x80] = 0x0080 := by decide

/-! ## Commands -/

/-- V-H1, V-H2 from reset. -/
theorem test_init_VH1_VH2 :
    gives (.init (some (.twoWire twoWire)) false) State.reset .ok none none [] = true ∧
    gives (.init (some (.twoWire { twoWire with gpioReadPresent := false })) false) State.reset .invalidParam none none []
      = true := by decide +kernel

/-- V-H8, V-H10. -/
theorem test_deinit_VH8_VH10 :
    gives (.deinit false) (tw []) .ok none none [] = true ∧
    gives (.deinit true) (tw []) .invalidParam none none [] = true := by decide +kernel

/-- V-P1. -/
theorem test_bbStart_VP1 :
    gives (.bbStart false) (tw [true]) .ok none none
      [.drive .sda true, .delay .half, .drive .scl true, .delay .half, .read .scl true, .drive .sda false,
        .drive .scl false] = true := by decide +kernel

/-- V-P2: the second bound poll ends the command, the lines stay released. -/
theorem test_bbStart_VP2 :
    gives (.bbStart false) (tw [false, false, true]) .timeout none none
      [.drive .sda true, .delay .half, .drive .scl true, .delay .half, .read .scl false, .read .scl false] = true ∧
    leaves (.bbStart false) (tw [false, false, true]) (some true) (some true) = true := by decide +kernel

/-- V-P4, V-P5. -/
theorem test_bbStop_VP4_VP5 :
    gives (.bbStop false) (tw [true]) .ok none none
      [.drive .sda false, .delay .half, .drive .scl true, .delay .half, .read .scl true, .drive .sda true] = true ∧
    gives (.bbStop false) (tw [false]) .timeout none none
      [.drive .sda false, .delay .half, .drive .scl true, .delay .half, .read .scl false] = true := by decide +kernel

/-- One pulse as V-P6 writes it. -/
def pulseEvents : List Event :=
  [.delay .half, .drive .scl true, .delay .half, .read .scl true, .drive .scl false, .delay .half]

/-- V-P7: 0xFF refused. -/
theorem test_bbWriteByte_VP7 :
    gives (.bbWriteByte 0xFF false) (tw (List.replicate 9 true ++ [true])) .nack none none
      ((List.replicate 8 (.drive .sda true :: pulseEvents)).flatten ++
        [.drive .sda true, .delay .half, .drive .scl true, .delay .half, .read .scl true, .read .sda true,
          .drive .scl false, .delay .half]) = true := by decide +kernel

/-- V-P9: the wait of bit 6 runs out. -/
theorem test_bbWriteByte_VP9 :
    gives (.bbWriteByte 0x80 false) (tw [true, false, false]) .timeout none none
      ([.drive .sda true] ++ pulseEvents ++
        [.drive .sda false, .delay .half, .drive .scl true, .delay .half, .read .scl false, .read .scl false]) = true ∧
    leaves (.bbWriteByte 0x80 false) (tw [true, false, false]) (some false) (some true) = true := by decide +kernel

/-- V-P11: the samples 1,1,0,0,0,0,1,1 are 0xC3. -/
theorem test_bbReadByte_VP11 :
    (match exec (.bbReadByte true false false)
      (tw ([true, true, true, true, true, false, true, false, true, false, true, false, true, true, true, true] ++ [true]))
      with
    | .next t => t.rval == some 0x000000C3 && t.trace.length == 65 && t.outSda == some true && t.outScl == some false
    | _ => false) = true := by decide +kernel

/-- V-T3: the address byte 0xA0 is refused, no data byte is sent. -/
theorem test_bbWrite_VT3 :
    gives (.bbWrite 0x50 [0x11] false) (tw (ansS ++ ansW true ++ ansS)) .nack none none (evS ++ evW 0xA0 true ++ evP)
      = true := by decide +kernel

/-- V-T7: the only byte is not acknowledged. -/
theorem test_bbRead_VT7 :
    gives (.bbRead 0x50 1 false false) (tw (ansS ++ ansW false ++ ansRb 0x7E ++ ansS)) .ok none (some [0x7E])
      (evS ++ evW 0xA1 false ++ evRb 0x7E true ++ evP) = true := by decide +kernel

/-- V-T8, V-T9: length 0; the final STOP runs out. -/
theorem test_bbRead_VT8_VT9 :
    gives (.bbRead 0x50 0 false false) (tw []) .invalidParam none none [] = true ∧
    gives (.bbRead 0x50 1 false false) (tw (ansS ++ ansW false ++ ansRb 0x7E ++ [false])) .timeout none none
      (evS ++ evW 0xA1 false ++ evRb 0x7E true ++
        [.drive .sda false, .delay .half, .drive .scl true, .delay .half, .read .scl false]) = true := by decide +kernel

/-- V-T13: an address of width 1. -/
theorem test_bbMemWrite_VT13 :
    gives (.bbMemWrite 0x50 1 0x1234 [0xAB] false) (tw (ansS ++ ansW false ++ ansW false ++ ansW false ++ ansS)) .ok
      none none (evS ++ evW 0xA0 false ++ evW 0x34 false ++ evW 0xAB false ++ evP) = true := by decide +kernel

/-- V-T17: a repeated start, one byte. -/
theorem test_bbMemRead_VT17 :
    gives (.bbMemRead 0x50 1 0x12AB 1 false false)
      (tw (ansS ++ ansW false ++ ansW false ++ ansS ++ ansW false ++ ansRb 0x99 ++ ansS)) .ok none (some [0x99])
      (evS ++ evW 0xA0 false ++ evW 0xAB false ++ evS ++ evW 0xA1 false ++ evRb 0x99 true ++ evP) = true := by decide +kernel

/-- V-T18: the repeated start's wait runs out (`N_START = 1`). -/
theorem test_bbMemRead_VT18 :
    gives (.bbMemRead 0x50 2 0x1234 1 false false)
      { tw (ansS ++ ansW false ++ ansW false ++ ansW false ++ [false, true]) with params := { params with nStart := ⟨0⟩ } }
      .timeout none none
      (evS ++ evW 0xA0 false ++ evW 0x12 false ++ evW 0x34 false ++
        [.drive .sda true, .delay .half, .drive .scl true, .delay .half, .read .scl false, .drive .sda false, .delay .half,
          .drive .scl true, .delay .half, .read .scl true, .drive .sda true]) = true := by decide +kernel

/-- V-IDR3: ready on the second trial of five. -/
theorem test_bbIsDeviceReady_VIDR3 :
    gives (.bbIsDeviceReady 0x50 5 false) (tw (ansS ++ ansW true ++ ansS ++ ansS ++ ansW false ++ ansS)) .ok none none
      (evS ++ evW 0xA0 true ++ evP ++ [.delay .trial] ++ evS ++ evW 0xA0 false ++ evP) = true := by decide +kernel

/-- V-IDR2: the last trial is followed by no delay. -/
theorem test_bbIsDeviceReady_VIDR2 :
    gives (.bbIsDeviceReady 0x50 1 false) (tw (ansS ++ ansW true ++ ansS)) .nack none none
      (evS ++ evW 0xA0 true ++ evP) = true := by decide +kernel

/-- The example of R255: `read_u8 0x0100` with `P_TW_DEV` 0x5F. -/
theorem test_readU8_twoWire :
    gives (.readU8 0x0100 false false) (tw (ansTwRead [0x42])) .ok (some 0x42) none
      (evS ++ evW 0xBE false ++ evW 0x01 false ++ evW 0x00 false ++ evS ++ evW 0xBF false ++ evRb 0x42 true ++ evP)
      = true := by decide +kernel

/-- V-X5, V-X7: a port's failure is passed on. -/
theorem test_readU16_VX5_VX7 :
    gives (.readU16 0x0010 false false) (bt [ansStatus .ok, ansStatus .busError]) .busError none none
      [.csAssert 9, .btWrite 9 [0x03, 0x00, 0x10, 0xFF] .ok, .btRead 9 2 .busError none, .csDeassert 9] = true ∧
    gives (.readU16 0x0003 false false) (mg [ansStatus .timeout]) .timeout none none [.mgRead 7 0x0003 .timeout none]
      = true := by decide +kernel

/-- The example of R257. -/
theorem test_readU32_block :
    gives (.readU32 0x0000 false false) (bt [ansStatus .ok, ansBytes [0xDE, 0xAD, 0xBE, 0xEF]]) .ok (some 0xDEADBEEF)
      none
      [.csAssert 9, .btWrite 9 [0x03, 0x00, 0x00, 0xFF] .ok, .btRead 9 4 .ok (some [0xDE, 0xAD, 0xBE, 0xEF]),
        .csDeassert 9] = true := by decide +kernel

/-- V-X1. -/
theorem test_writeU8_VX1 :
    gives (.writeU8 0x0100 0x5A false) (tw (ansTwWrite [0x5A])) .ok none none
      (evS ++ evW 0xBE false ++ evW 0x01 false ++ evW 0x00 false ++ evW 0x5A false ++ evP) = true := by decide +kernel

/-- V-X4, V-X8. -/
theorem test_writeU16_VX4_VX8 :
    gives (.writeU16 0x0010 0xBEEF false) (bt [ansStatus .genericError]) .genericError none none
      [.csAssert 9, .btWrite 9 [0x02, 0x00, 0x10] .genericError, .csDeassert 9] = true ∧
    gives (.writeU16 0x0003 0x1234 false) (mg [ansStatus .ok]) .ok none none [.mgWrite 7 0x0003 0x1234 .ok] = true := by
  decide +kernel

/-- V-X3: the data byte 0x02 is refused. -/
theorem test_writeU32_VX3 :
    gives (.writeU32 0x0000 0x01020304 false)
      (tw (ansS ++ ansW false ++ ansW false ++ ansW false ++ ansW false ++ ansW true ++ ansS)) .nack none none
      (evS ++ evW 0xBE false ++ evW 0x00 false ++ evW 0x00 false ++ evW 0x01 false ++ evW 0x02 true ++ evP) = true := by
  decide +kernel

/-- V-X10, V-X9. -/
theorem test_readBurst_VX10_VX9 :
    gives (.readBurst 0x0000 3 false false) (bt [ansStatus .ok, ansBytes [7, 8, 9]]) .ok none (some [7, 8, 9])
      [.csAssert 9, .btWrite 9 [0x03, 0x00, 0x00, 0xFF] .ok, .btRead 9 3 .ok (some [7, 8, 9]), .csDeassert 9] = true ∧
    gives (.readBurst 0x0000 4 false false) (mg []) .invalidParam none none [] = true := by decide +kernel

/-- The example of R266, and V-F4. -/
theorem test_writeBurst_block_VF4 :
    gives (.writeBurst 0x0100 [1, 2, 3] false) (bt [ansStatus .ok, ansStatus .ok]) .ok none none
      [.csAssert 9, .btWrite 9 [0x02, 0x01, 0x00] .ok, .btWrite 9 [0x01, 0x02, 0x03] .ok, .csDeassert 9] = true ∧
    gives (.writeBurst 0x0000 [] false) (bt []) .invalidParam none none [] = true := by decide +kernel

/-- V-M1 over the block-transfer transport, and the failed read of its section, which writes nothing. -/
theorem test_modifyU8_VM1 :
    gives (.modifyU8 0x0200 0x0F 0x05 false) (bt [ansStatus .ok, ansBytes [0xA3], ansStatus .ok, ansStatus .ok]) .ok
      none none
      [.csAssert 9, .btWrite 9 [0x03, 0x02, 0x00, 0xFF] .ok, .btRead 9 1 .ok (some [0xA3]), .csDeassert 9,
        .csAssert 9, .btWrite 9 [0x02, 0x02, 0x00] .ok, .btWrite 9 [0xA5] .ok, .csDeassert 9] = true ∧
    gives (.modifyU8 0x0200 0xFF 0x00 false) (bt [ansStatus .ok, ansStatus .nack]) .nack none none
      [.csAssert 9, .btWrite 9 [0x03, 0x02, 0x00, 0xFF] .ok, .btRead 9 1 .nack none, .csDeassert 9] = true := by decide +kernel

/-- V-M8 over the management transport. -/
theorem test_modifyU16_VM8 :
    gives (.modifyU16 0x0005 0x0400 0xFFFF false) (mg [ansValue 0x1140, ansStatus .ok]) .ok none none
      [.mgRead 7 0x0005 .ok (some 0x1140), .mgWrite 7 0x0005 0x1540 .ok] = true := by decide +kernel

/-- V-F1, V-P14, V-P15: before INIT, and an engine command on another transport. -/
theorem test_entry_VF1_VP14_VP15 :
    gives (.readU16 0 false false) State.reset .invalidParam none none [] = true ∧
    gives (.bbStart false) State.reset .invalidParam none none [] = true ∧
    gives (.bbStop false) (bt []) .invalidParam none none [] = true := by decide +kernel

/-- A word of the opcode table runs as the first instruction after reset. -/
theorem test_withFetchWord :
    decodeTableWord 32 0x01000000 = some (.init (some tableConfig) false) ∧
    (match step (State.reset.withFetchWord 32 0x01000000) with
    | .next t => t.init && t.cfg == some tableConfig && t.status == some .ok && t.hpc == 1
    | _ => false) = true := ⟨rfl, by decide +kernel⟩

/-- The micro-steps of a START come to the same response as the command. -/
theorem test_micro_start :
    (match microRun 9 (issue (.bbStart false) (tw [true])) with
    | .next t => t.status == some .ok && t.trace == evS && t.upc == .idle
    | _ => false) = true := by decide +kernel

/-! ## Witnesses: inputs that meet the hypotheses of the statements, clause by clause -/

/-- What a test says of the next state. -/
theorem next_of_gives {i : Instr} {s : State} {st : Status} {rval : Option Word32} {dOut : Option (List Byte)}
    {es : List Event} (h : gives i s st rval dOut es = true) :
    ∃ t, exec i s = .next t ∧ t.upc = .idle ∧ t.status = some st ∧ t.rval = rval ∧ t.dOut = dOut ∧
      t.trace = s.trace ++ es := by
  unfold gives at h
  split at h
  · rename_i t ht
    simp only [Bool.and_eq_true, beq_iff_eq] at h
    exact ⟨t, ht, h.2, h.1.1.1.1.1, h.1.1.1.1.2, h.1.1.1.2, h.1.1.2⟩
  · exact absurd h (by decide)
  · exact absurd h (by decide)

theorem tw_ready (answers : List Bit) : (tw answers).EngineReady := ⟨rfl, rfl, _, rfl⟩
theorem bt_ready (answers : List PortAnswer) : (bt answers).BlockReady blockDev := ⟨rfl, rfl, rfl⟩
theorem mg_ready (answers : List PortAnswer) : (mg answers).MgmtReady mgmtDev := ⟨rfl, rfl, rfl⟩

/-- The address byte that `tw` gives a device. -/
theorem tw_addrByte (answers : List Bit) (dev : Byte) (rw : Direction) :
    addrByteOf dev rw (tw answers) = addrByte .sevenBit dev rw := rfl

/-- An opcode without a row, an INIT without its configuration; the first as a step's hypotheses. -/
theorem malformed_23 (w1 w2 w3 : Word32) (xs : List Byte) :
    (⟨0x23000000, w1, w2, w3, xs, none⟩ : Descriptor).Malformed := by
  refine Or.inl ?_
  rintro ⟨r, hr, h⟩
  exact (by decide +kernel : ∀ r ∈ opcodeMap, (0x23000000 : Word32).toNat / 2 ^ 24 ≠ r.opc) r hr h.1

theorem witness_MalformedDescriptors_noConfig :
    (⟨0x01000000, 0, 0, 0, [], none⟩ : Descriptor).cfgIn = none ∧
    (⟨0x01000000, 0, 0, 0, [], none⟩ : Descriptor).Malformed := ⟨rfl, Or.inr ⟨by decide, by decide⟩⟩

theorem witness_MalformedDescriptors_init :
    (0x01000002 : Word32).toNat / 2 ^ 24 = 1 ∧
    (⟨0x01000002, 0, 0, 0, [], some .reserved⟩ : Descriptor).Malformed := ⟨by decide, Or.inr ⟨by decide, by decide⟩⟩

theorem witness_MalformedDescriptors_step : ∃ (s : State) (d : Descriptor),
    s.upc = .idle ∧ s.program[s.hpc]? = some d ∧ (d.cfgIn = none ∨ d.w0.toNat / 2 ^ 24 = 1) ∧ d.Malformed :=
  ⟨{ State.reset with program := [⟨0x23000000, 0, 0, 0, [], none⟩] }, _, rfl, rfl, Or.inl rfl, malformed_23 _ _ _ _⟩

theorem witness_OperandFields_EncodeDecode : ∃ d i, decode d = .ok i := ⟨_, _, test_decode_bbMemWrite_VT12⟩

/-- The longest byte list `LEN` can count. -/
theorem witness_DecodeEncode : ∃ xs : List Byte, xs.length = 2 ^ 32 - 1 ∧ (Instr.bbWrite 0x50 xs false).wellFormed = true := by
  obtain ⟨n, h⟩ : ∃ n, n = 2 ^ 32 - 1 := ⟨_, rfl⟩
  refine ⟨List.replicate n 0, by rw [List.length_replicate, h], ?_⟩
  exact decide_eq_true (by rw [List.length_replicate, h]; decide)

theorem witness_StepRunsTheCommand_program : ∃ (s : State) (d : Descriptor) (i : Instr),
    s.upc = .idle ∧ s.program[s.hpc]? = some d ∧ decode d = .ok i :=
  ⟨{ State.reset with program := [⟨0x10000000, 0, 0, 0, [], none⟩] }, _, _, rfl, rfl, rfl⟩

theorem witness_StepRunsTheCommand_table : decodeTableWord 32 0x10000000 = some (.bbStart false) := rfl

theorem witness_StepRunsTheCommand_waits : State.reset.upc = .idle ∧ State.reset.program[State.reset.hpc]? = none :=
  ⟨rfl, rfl⟩

theorem witness_StepRunsTheCommand_micro : (issue (.bbStart false) (tw [])).upc = .running (.bbStart false) .entry := rfl

theorem witness_OverlapRefused : (issue (.bbStart false) (tw [])).upc ≠ .idle := by decide

theorem witness_SessionNotPersisted :
    State.reset.upc = .idle ∧ ∃ t, exec (.bbStart false) (tw [true]) = .next t ∧ t.upc = .idle := by
  obtain ⟨t, h, hu, -⟩ := next_of_gives test_bbStart_VP1
  exact ⟨rfl, t, h, hu⟩

theorem witness_InitCommand :
    State.reset.upc = .idle ∧ AllPortsPresent (.twoWire twoWire) ∧ AllPortsPresent (.block blockDev) ∧
    AllPortsPresent (.mgmt mgmtDev) ∧ ¬ AllPortsPresent .reserved ∧
    ¬ AllPortsPresent (.block { blockDev with btTransferPresent := false }) ∧
    ¬ AllPortsPresent (.mgmt { mgmtDev with mgWritePresent := false }) := by
  refine ⟨rfl, ?_, ?_, ?_, ?_, ?_, ?_⟩ <;> simp [AllPortsPresent, twoWire, blockDev, mgmtDev]

theorem witness_DeinitCommand : (bt []).upc = .idle ∧ (bt []).init = true := ⟨rfl, rfl⟩

theorem witness_HandleWrittenByInitAndDeinitAlone :
    (∃ t, exec (.bbStart false) (tw [true]) = .next t) ∧ (∀ c h, Instr.bbStart false ≠ .init c h) ∧
    ∀ h, Instr.bbStart false ≠ .deinit h := by
  obtain ⟨t, h, -⟩ := next_of_gives test_bbStart_VP1
  exact ⟨⟨t, h⟩, by simp, by simp⟩

/-- Released at the last poll the bound allows, and held for the whole bound. -/
theorem witness_ClockStretchWait :
    (1 < (⟨1⟩ : Bound).val ∧ (∀ j < 1, sclPoll (tw [false, true]) j = false) ∧ sclPoll (tw [false, true]) 1 = true) ∧
    ∀ j < (⟨1⟩ : Bound).val, sclPoll (tw [false, false]) j = false := by decide

/-- Released at the first poll and at the last one the bound allows; held for the whole bound. -/
theorem witness_StartCommand :
    (∀ z ∈ [0, 1], (tw (ansWait z)).EngineReady ∧ z < (tw (ansWait z)).params.nStart.val ∧
      (tw (ansWait z)).lineIn = ansWait z ++ []) ∧
    (tw [false, false]).EngineReady ∧ (tw [false, false]).lineIn = ansHeld (tw [false, false]).params.nStart ++ [] :=
  ⟨fun z hz => ⟨tw_ready _, by
    simp only [List.mem_cons, List.not_mem_nil, or_false] at hz
    rcases hz with rfl | rfl <;> decide, by simp [tw]⟩, tw_ready _, rfl⟩

theorem witness_StopCommand :
    (tw [true]).EngineReady ∧ 0 < (tw [true]).params.nStop.val ∧ (tw [true]).lineIn = ansWait 0 ++ [] ∧
    (tw [false]).EngineReady ∧ (tw [false]).lineIn = ansHeld (tw [false]).params.nStop ++ [] :=
  ⟨tw_ready _, by decide, rfl, tw_ready _, rfl⟩

/-- Every pulse stretched as far as the bound allows, and both acknowledge bits. -/
theorem witness_WriteByteCommand (a : Bit) :
    (tw (ansWriteByte (fun _ => 1) a)).EngineReady ∧ (∀ k ≤ 8, (fun _ => 1 : Stretch) k < params.nBit.val) ∧
    (tw (ansWriteByte (fun _ => 1) a)).lineIn = ansWriteByte (fun _ => 1) a ++ [] :=
  ⟨tw_ready _, fun _ _ => Nat.lt_succ_self 1, by simp [tw]⟩

/-- The first of the nine waits runs out, and the last. -/
theorem witness_WriteByteCommand_timeout : ∀ j ∈ [0, 8], ∃ s : State, s.EngineReady ∧ j ≤ 8 ∧
    (∀ k ∈ bitOrder.take j, noStretch k < s.params.nBit.val) ∧
    s.lineIn = (bitOrder.take j).flatMap (fun k => ansWait (noStretch k)) ++ ansHeld s.params.nBit ++ [] := by
  intro j hj
  refine ⟨tw ((bitOrder.take j).flatMap (fun k => ansWait (noStretch k)) ++ ansHeld params.nBit ++ []), tw_ready _, ?_,
    fun _ _ => Nat.zero_lt_two, rfl⟩
  simp only [List.mem_cons, List.not_mem_nil, or_false] at hj
  omega

theorem witness_ReadByteCommand :
    (tw (ansReadByte (fun _ => 1) 0xC3)).EngineReady ∧ (∀ k ≤ 8, (fun _ => 1 : Stretch) k < params.nBit.val) ∧
    (tw (ansReadByte (fun _ => 1) 0xC3)).lineIn = ansReadByte (fun _ => 1) 0xC3 ++ [] :=
  ⟨tw_ready _, fun _ _ => Nat.lt_succ_self 1, by simp [tw]⟩

theorem witness_ReadByteCommand_timeout : ∀ j ∈ [0, 8], ∃ s : State, s.EngineReady ∧ j ≤ 8 ∧
    (∀ k ∈ bitOrder.take j, noStretch k < s.params.nBit.val) ∧
    s.lineIn = (bitOrder.take j).flatMap (fun k => ansWait (noStretch k) ++ [bitAt 0xC3 k]) ++
      ansHeld s.params.nBit ++ [] := by
  intro j hj
  refine ⟨tw ((bitOrder.take j).flatMap (fun k => ansWait (noStretch k) ++ [bitAt 0xC3 k]) ++ ansHeld params.nBit ++ []),
    tw_ready _, ?_, fun _ _ => Nat.zero_lt_two, rfl⟩
  simp only [List.mem_cons, List.not_mem_nil, or_false] at hj
  omega

theorem witness_TimeoutEndsAPrimitive :
    isPrimitive (.bbStart false) = true ∧
    ∃ t, exec (.bbStart false) (tw [false, false, true]) = .next t ∧ t.status = some .timeout := by
  obtain ⟨t, h, -, hs, -⟩ := next_of_gives test_bbStart_VP2.1
  exact ⟨rfl, t, h, hs⟩

theorem witness_ReadsOfReleasedLinesOnly :
    ∃ t, exec (.bbRead 0x50 1 false false) (tw (ansS ++ ansW false ++ ansRb 0x7E ++ ansS)) = .next t := by
  obtain ⟨t, h, -⟩ := next_of_gives test_bbRead_VT7
  exact ⟨t, h⟩

theorem witness_DurationsChangeNothing : ∀ c f, Instr.bbStart false ≠ .init c f := by simp

theorem witness_EngineEntryCheck :
    engineFlags (.bbStart true) = some (true, false) ∧
    (State.reset.upc = .idle ∧ State.reset.init = false ∧ engineFlags (.bbStop false) = some (false, false)) ∧
    ((bt []).upc = .idle ∧ (∀ c, (bt []).cfg ≠ some (.twoWire c)) ∧
      engineFlags (.bbWrite 0x50 [] false) = some (false, false)) ∧
    ((tw []).upc = .idle ∧ engineFlags (.bbReadByte true true false) = some (false, true)) :=
  ⟨rfl, ⟨rfl, rfl, rfl⟩, ⟨rfl, by simp [bt, base], rfl⟩, rfl, rfl⟩

theorem witness_OperandChecks_refused : (tw []).upc = .idle ∧ (0 : Byte) ≠ 1 ∧ (0 : Byte) ≠ 2 ∧ (3 : Byte) ≠ 1 ∧ (3 : Byte) ≠ 2 :=
  ⟨rfl, by decide, by decide, by decide, by decide⟩

theorem witness_OperandChecks_empty :
    ((tw (ansS ++ ansW false ++ ansS)).EngineReady ∧
      (tw (ansS ++ ansW false ++ ansS)).lineIn = ansS ++ ansW false ++ ansS ++ []) ∧
    ∀ aw ∈ [(1 : Byte), 2], (tw (ansS ++ ansW false ++ ansWs (maddr 0x1234 aw) ++ ansS)).EngineReady ∧
      (tw (ansS ++ ansW false ++ ansWs (maddr 0x1234 aw) ++ ansS)).lineIn =
        ansS ++ ansW false ++ ansWs (maddr 0x1234 aw) ++ ansS ++ [] :=
  ⟨⟨tw_ready _, by simp [tw]⟩, fun _ _ => ⟨tw_ready _, by simp [tw]⟩⟩

theorem witness_WriteTransaction : ∃ (s : State) (xs : List Byte), s.EngineReady ∧
    s.lineIn = ansS ++ ansW false ++ ansWs xs ++ ansS ++ [] :=
  ⟨tw (ansS ++ ansW false ++ ansWs [0x00, 0x11] ++ ansS ++ []), [0x00, 0x11], tw_ready _, rfl⟩

theorem witness_ReadTransaction : ∃ (s : State) (len : Word32) (xs : List Byte), s.EngineReady ∧ len ≠ 0 ∧
    xs.length = len.toNat ∧ s.lineIn = ansS ++ ansW false ++ ansRbs xs ++ ansS ++ [] :=
  ⟨tw (ansS ++ ansW false ++ ansRbs [0x7E] ++ ansS ++ []), 1, [0x7E], tw_ready _, by decide, rfl, rfl⟩

theorem witness_MemWriteTransaction : ∀ aw ∈ [(1 : Byte), 2], ∃ (s : State) (xs : List Byte), s.EngineReady ∧
    (aw = 1 ∨ aw = 2) ∧ s.lineIn = ansS ++ ansW false ++ ansWs (maddr 0x1234 aw) ++ ansWs xs ++ ansS ++ [] := by
  intro aw h
  exact ⟨tw (ansS ++ ansW false ++ ansWs (maddr 0x1234 aw) ++ ansWs [0xAB] ++ ansS ++ []), [0xAB], tw_ready _,
    by simpa using h, rfl⟩

theorem witness_MemReadTransaction : ∀ aw ∈ [(1 : Byte), 2], ∃ (s : State) (len : Word32) (xs : List Byte),
    s.EngineReady ∧ (aw = 1 ∨ aw = 2) ∧ len ≠ 0 ∧ xs.length = len.toNat ∧
    s.lineIn =
      ansS ++ ansW false ++ ansWs (maddr 0x1234 aw) ++ ansS ++ ansW false ++ ansRbs xs ++ ansS ++ [] := by
  intro aw h
  exact ⟨tw (ansS ++ ansW false ++ ansWs (maddr 0x1234 aw) ++ ansS ++ ansW false ++ ansRbs [1, 2] ++ ansS ++ []), 2,
    [1, 2], tw_ready _, by simpa using h, by decide, rfl, rfl⟩

/-- The last trial of two, for each of the clauses that count trials, and two refused ones. -/
theorem witness_IsDeviceReady : ∃ (refusedIn : List Bit) (b : Byte), refusedIn = ansS ++ ansW true ++ ansS ∧
    b = addrByteOf 0x50 .write (tw []) ∧ (2 : Word32) ≠ 0 ∧ 1 < (2 : Word32).toNat ∧
    (∃ s : State, s.EngineReady ∧ s.lineIn = (List.replicate (2 : Word32).toNat refusedIn).flatten ++ []) ∧
    (∃ s : State, s.EngineReady ∧
      s.lineIn = (List.replicate 1 refusedIn).flatten ++ ansHeld s.params.nStart ++ ansS ++ []) ∧
    (∀ a, ∃ s : State, s.EngineReady ∧
      s.lineIn = (List.replicate 1 refusedIn).flatten ++ ansS ++ ansW a ++ ansHeld s.params.nStop ++ []) ∧
    (∃ s : State, s.EngineReady ∧
      s.lineIn = (List.replicate 1 refusedIn).flatten ++ ansS ++ ansW false ++ ansS ++ []) ∧
    ∀ j ≤ 8, ∃ s : State, s.EngineReady ∧
      s.lineIn = (List.replicate 1 refusedIn).flatten ++ ansS ++ ansSendHeld s j ++ ansS ++ [] := by
  refine ⟨ansS ++ ansW true ++ ansS, 0xA0, rfl, rfl, by decide, by decide, ⟨tw _, tw_ready _, rfl⟩,
    ⟨tw (_ ++ ansHeld params.nStart ++ _ ++ _), tw_ready _, rfl⟩,
    fun a => ⟨tw (_ ++ _ ++ _ ++ ansHeld params.nStop ++ _), tw_ready _, rfl⟩, ⟨tw _, tw_ready _, rfl⟩,
    fun j _ => ⟨tw (_ ++ _ ++ ansSendHeld (tw []) j ++ _ ++ _), tw_ready _, rfl⟩⟩

/-- The memory read of V-T18, with an arbitrary byte. -/
theorem units_memRead (answers : List Bit) (x : Byte) :
    wireUnits (tw answers) [x] (.bbMemRead 0x50 2 0x1234 1 false false) =
      some [.start, .send 0xA0, .send 0x12, .send 0x34, .start, .send 0xA1, .receive x false] := rfl

theorem witness_AbortedTransaction_address : ∃ b, ∀ answers ∈ [ansS, ansHeld params.nStop], ∃ s : State,
    s.EngineReady ∧ firstByteOnWire s (.bbMemRead 0x50 2 0x1234 1 false false) = some b ∧
    s.lineIn = [WireUnit.start].flatMap WireUnit.answers ++ ansW true ++ answers ++ [] :=
  ⟨0xA0, fun _ _ => ⟨tw _, tw_ready _, rfl, rfl⟩⟩

/-- The repeated start, the second address byte and the byte read of that transaction run out, the bytes at any of the
nine waits. -/
theorem witness_AbortedTransaction_wait (j : Nat) (hj : j ≤ 8) : ∀ u ∈ [WireUnit.start, .send 0xA1, .receive 0x99 false],
    ∃ (s : State) (done left : List WireUnit) (es : List Event) (as : List Bit), s.EngineReady ∧
      wireUnits s [0x99] (.bbMemRead 0x50 2 0x1234 1 false false) = some (done ++ u :: left) ∧ RunsOut s u es as ∧
      s.lineIn = done.flatMap WireUnit.answers ++ as ++ ansS ++ [] := by
  intro u hu
  simp only [List.mem_cons, List.not_mem_nil, or_false] at hu
  rcases hu with rfl | rfl | rfl
  · exact ⟨tw (_ ++ ansHeld params.nStart ++ _ ++ _), [.start, .send 0xA0, .send 0x12, .send 0x34],
      [.send 0xA1, .receive 0x99 false], _, _, tw_ready _, units_memRead _ _, .start, rfl⟩
  · exact ⟨tw (_ ++ ansSendHeld (tw []) j ++ _ ++ _), [.start, .send 0xA0, .send 0x12, .send 0x34, .start],
      [.receive 0x99 false], _, _, tw_ready _, units_memRead _ _, .send _ j hj, rfl⟩
  · exact ⟨tw (_ ++ ansReceiveHeld (tw []) 0x99 j ++ _ ++ _),
      [.start, .send 0xA0, .send 0x12, .send 0x34, .start, .send 0xA1], [], _, _, tw_ready _, units_memRead _ _,
      .receive _ _ j hj, rfl⟩

/-- A memory address byte, the second address byte and the last data byte of a write. -/
theorem witness_DataByteRefused :
    (∀ answers, wireUnits (tw answers) [0x99] (.bbMemRead 0x50 2 0x1234 1 false false) =
      some (.start :: .send 0xA0 :: [] ++ .send 0x12 :: [.send 0x34, .start, .send 0xA1, .receive 0x99 false])) ∧
    (∀ answers, wireUnits (tw answers) [0x99] (.bbMemRead 0x50 2 0x1234 1 false false) =
      some (.start :: .send 0xA0 :: [.send 0x12, .send 0x34, .start] ++ .send 0xA1 :: [.receive 0x99 false])) ∧
    (∀ answers, wireUnits (tw answers) [] (.bbWrite 0x50 [0x00, 0x11] false) =
      some (.start :: .send 0xA0 :: [.send 0x00] ++ .send 0x11 :: [])) ∧
    ∀ (done : List WireUnit), ∀ answers ∈ [ansS, ansHeld params.nStop], ∃ s : State, s.EngineReady ∧
      s.lineIn = done.flatMap WireUnit.answers ++ ansW true ++ answers ++ [] :=
  ⟨fun _ => rfl, fun _ => rfl, fun _ => rfl, fun _ _ _ => ⟨tw _, tw_ready _, rfl⟩⟩

/-- Each of the four transactions, the reads of one byte. -/
theorem witness_FinalStopRunsOut : ∀ i ∈ [Instr.bbWrite 0x50 [] false, .bbRead 0x50 1 false false,
      .bbMemWrite 0x50 1 0x1234 [0xAB] false, .bbMemRead 0x50 2 0x1234 1 false false],
    ∃ (s : State) (units : List WireUnit), s.EngineReady ∧ wireUnits s [0x7E] i = some units ∧
      s.lineIn = units.flatMap WireUnit.answers ++ ansHeld s.params.nStop ++ [] := by
  intro i hi
  have h (units : List WireUnit) (hw : ∀ answers, wireUnits (tw answers) [0x7E] i = some units) :
      ∃ (s : State) (units : List WireUnit), s.EngineReady ∧ wireUnits s [0x7E] i = some units ∧
        s.lineIn = units.flatMap WireUnit.answers ++ ansHeld s.params.nStop ++ [] :=
    ⟨tw (_ ++ ansHeld params.nStop ++ _), units, tw_ready _, hw _, rfl⟩
  simp only [List.mem_cons, List.not_mem_nil, or_false] at hi
  rcases hi with rfl | rfl | rfl | rfl
  · exact h [.start, .send 0xA0] fun _ => rfl
  · exact h [.start, .send 0xA1, .receive 0x7E false] fun _ => rfl
  · exact h [.start, .send 0xA0, .send 0x34, .send 0xAB] fun _ => rfl
  · exact h _ fun _ => units_memRead _ _

theorem witness_TransactionsEndWithAStop : (tw []).EngineReady ∧
    firstByteOnWire (tw []) (.bbRead 0x50 1 false false) = some 0xA1 ∧ (1 : Word32) ≠ 0 :=
  ⟨tw_ready _, by decide, by decide⟩

theorem witness_FacadeEntryCheck :
    facadeFlags (.writeU8 0 0 true) = some (true, false) ∧
    (State.reset.upc = .idle ∧ State.reset.init = false ∧ facadeFlags (.readU16 0 false false) = some (false, false)) ∧
    facadeFlags (.readU8 0 true false) = some (false, true) ∧
    (emptyBurst (.readBurst 0 0 false false) = true ∧ emptyBurst (.writeBurst 0 [] false) = true) ∧
    ((mg []).upc = .idle ∧ (∃ c, (mg []).cfg = some (.mgmt c)) ∧ sixteenBit (.modifyU8 0 0 0 false) = false) :=
  ⟨rfl, ⟨rfl, rfl, rfl⟩, rfl, ⟨rfl, rfl⟩, rfl, ⟨_, rfl⟩, rfl⟩

theorem witness_TwoWireReads : ∀ xs ∈ [[0x42], be16 0x1140, be32 0xDEADBEEF, [7, 8, 9]],
    (tw (ansTwRead xs)).EngineReady ∧ (tw (ansTwRead xs)).lineIn = ansTwRead xs ++ [] ∧ (3 : Word32) ≠ 0 ∧
    [7, 8, 9].length = (3 : Word32).toNat := fun _ _ => ⟨tw_ready _, by simp [tw], by decide, rfl⟩

theorem witness_TwoWireWrites : ∀ xs ∈ [[0x42], be16 0x1140, be32 0xDEADBEEF, [7, 8, 9]],
    (tw (ansTwWrite xs)).EngineReady ∧ (tw (ansTwWrite xs)).lineIn = ansTwWrite xs ++ [] ∧ ([7, 8, 9] : List Byte) ≠ [] :=
  fun _ _ => ⟨tw_ready _, by simp [tw], by decide⟩

theorem witness_TwoWireModifies : ∃ (s s' : State) (w : Byte) (w' : Word16), s.EngineReady ∧ s'.EngineReady ∧
    w = (0xA3 &&& ~~~0x0F) ||| (0x05 &&& 0x0F) ∧ w' = (0x1140 &&& ~~~0x0400) ||| (0xFFFF &&& 0x0400) ∧
    s.lineIn = ansTwRead [0xA3] ++ ansTwWrite [w] ++ [] ∧
    s'.lineIn = ansTwRead (be16 0x1140) ++ ansTwWrite (be16 w') ++ [] :=
  ⟨tw (ansTwRead [0xA3] ++ ansTwWrite [0xA5] ++ []), tw (ansTwRead (be16 0x1140) ++ ansTwWrite (be16 0x1540) ++ []),
    0xA5, 0x1540, tw_ready _, tw_ready _, by decide, by decide, rfl, rfl⟩

theorem accepted_readU8 : accepted (.readU8 0x0100 false false) := ⟨rfl, rfl⟩
theorem accepted_writeBurst : accepted (.writeBurst 0x0100 [1] false) := ⟨rfl, rfl⟩

theorem witness_TwoWireAddressRefused : (tw (ansS ++ ansW true ++ ansS)).EngineReady ∧
    accepted (.readU8 0x0100 false false) ∧
    (tw (ansS ++ ansW true ++ ansS)).lineIn = ansS ++ ansW true ++ ansS ++ [] :=
  ⟨tw_ready _, accepted_readU8, by simp [tw]⟩

theorem witness_BlockReads : ∀ xs ∈ [[0x42], be16 0x1140, be32 0xDEADBEEF, [7, 8, 9]],
    (bt [ansStatus .ok, ansBytes xs]).BlockReady blockDev ∧
    (bt [ansStatus .ok, ansBytes xs]).portIn = ansStatus .ok :: ansBytes xs :: [] ∧ (3 : Word32) ≠ 0 ∧
    [7, 8, 9].length = (3 : Word32).toNat := fun _ _ => ⟨bt_ready _, rfl, by decide, rfl⟩

theorem witness_BlockWrites : (bt [ansStatus .ok, ansStatus .ok]).BlockReady blockDev ∧
    (bt [ansStatus .ok, ansStatus .ok]).portIn = ansStatus .ok :: ansStatus .ok :: [] ∧ ([1, 2, 3] : List Byte) ≠ [] :=
  ⟨bt_ready _, rfl, by decide⟩

theorem witness_BlockModifies : ∀ xs ∈ [[0xA3], be16 0x1140],
    (bt [ansStatus .ok, ansBytes xs, ansStatus .ok, ansStatus .ok]).BlockReady blockDev ∧
    (bt [ansStatus .ok, ansBytes xs, ansStatus .ok, ansStatus .ok]).portIn =
      ansStatus .ok :: ansBytes xs :: ansStatus .ok :: ansStatus .ok :: [] := fun _ _ => ⟨bt_ready _, rfl⟩

theorem witness_BlockCallFails :
    ((bt [ansStatus .busError]).BlockReady blockDev ∧ accepted (.writeBurst 0x0100 [1] false) ∧
      Status.busError ≠ .ok ∧ (bt [ansStatus .busError]).portIn = ansStatus .busError :: []) ∧
    ((bt [ansStatus .ok, ansStatus .invalidParam]).BlockReady blockDev ∧ accepted (.readU8 0x0100 false false) ∧
      readLength (.readU8 0x0100 false false) = some 1 ∧ Status.invalidParam ≠ .ok ∧
      (bt [ansStatus .ok, ansStatus .invalidParam]).portIn = ansStatus .ok :: ansStatus .invalidParam :: []) ∧
    writtenBytes (.writeBurst 0x0100 [1] false) = some [1] :=
  ⟨⟨bt_ready _, accepted_writeBurst, by decide, rfl⟩, ⟨bt_ready _, accepted_readU8, rfl, by decide, rfl⟩, rfl⟩

theorem witness_ManagementAccess :
    ((mg [ansValue 0x1140]).MgmtReady mgmtDev ∧ (mg [ansValue 0x1140]).portIn = ansValue 0x1140 :: []) ∧
    (∀ st, (mg [ansStatus st]).MgmtReady mgmtDev ∧ (mg [ansStatus st]).portIn = ansStatus st :: []) ∧
    (∀ st, (mg [ansValue 0x1140, ansStatus st]).MgmtReady mgmtDev ∧
      (mg [ansValue 0x1140, ansStatus st]).portIn = ansValue 0x1140 :: ansStatus st :: []) ∧ Status.timeout ≠ .ok :=
  ⟨⟨mg_ready _, rfl⟩, fun _ => ⟨mg_ready _, rfl⟩, fun _ => ⟨mg_ready _, rfl⟩, by decide⟩

/-- A modify that returns OK, a read that a port fails, and an empty burst. -/
theorem witness_ChipSelectCycles : ∃ s1 s2 s3 t1 t2 t3 : State,
    (s1.BlockReady blockDev ∧ s2.BlockReady blockDev ∧ s3.BlockReady blockDev) ∧
    (accepted (.modifyU8 0x0200 0x0F 0x05 false) ∧ exec (.modifyU8 0x0200 0x0F 0x05 false) s1 = .next t1 ∧
      t1.upc = .idle ∧ t1.status = some .ok) ∧
    (accepted (.readU16 0x0010 false false) ∧ exec (.readU16 0x0010 false false) s2 = .next t2 ∧ t2.upc = .idle) ∧
    (facadeFlags (.writeBurst 0x0000 [] false) = some (false, false) ∧ ¬ accepted (.writeBurst 0x0000 [] false) ∧
      exec (.writeBurst 0x0000 [] false) s3 = .next t3 ∧ t3.upc = .idle) := by
  obtain ⟨t1, h1, u1, a1, -⟩ := next_of_gives test_modifyU8_VM1.1
  obtain ⟨t2, h2, u2, -⟩ := next_of_gives test_readU16_VX5_VX7.1
  obtain ⟨t3, h3, u3, -⟩ := next_of_gives test_writeBurst_block_VF4.2
  exact ⟨_, _, _, t1, t2, t3, ⟨bt_ready _, bt_ready _, bt_ready _⟩, ⟨⟨rfl, rfl⟩, h1, u1, a1⟩, ⟨⟨rfl, rfl⟩, h2, u2⟩,
    rfl, fun h => absurd h.2 (by decide), h3, u3⟩

theorem witness_ReadWidths_readU8 : ∃ s t : State, exec (.readU8 0x0100 false false) s = .next t ∧ t.upc = .idle ∧
    t.rval = some 0x42 := by
  obtain ⟨t, h, hu, -, hr, -⟩ := next_of_gives test_readU8_twoWire
  exact ⟨_, t, h, hu, hr⟩

theorem witness_ReadWidths_bbReadByte : ∃ s t : State, ∃ v, exec (.bbReadByte true false false) s = .next t ∧
    t.rval = some v := by
  have h := test_bbReadByte_VP11
  split at h
  · rename_i t ht
    simp only [Bool.and_eq_true, beq_iff_eq] at h
    exact ⟨_, t, _, ht, h.1.1.1⟩
  · exact absurd h (by decide)

theorem witness_ReadWidths_readU16 : ∃ t : State,
    exec (.readU16 0x0003 false false) (mg [ansValue 0x1140]) = .next t ∧ t.upc = .idle ∧ t.rval = some 0x1140 :=
  ⟨_, rfl, rfl, rfl⟩

theorem witness_ReadWidths_bytes : ∃ s t : State, exec (.readBurst 0x0000 3 false false) s = .next t ∧ t.upc = .idle ∧
    t.dOut = some [7, 8, 9] := by
  obtain ⟨t, h, hu, -, -, hd, -⟩ := next_of_gives test_readBurst_VX10_VX9.1
  exact ⟨_, t, h, hu, hd⟩

/-- A command of each kind of response returns; also the hypotheses of TraceGrowsAndHostAdvances. -/
theorem witness_ResponseRegisters :
    (∃ s t : State, exec (.readU8 0x0100 false false) s = .next t ∧ t.upc = .idle) ∧
    (∃ s t : State, exec (.readBurst 0x0000 3 false false) s = .next t ∧ t.upc = .idle) ∧
    ∃ s t : State, exec (.bbStart false) s = .next t ∧ t.upc = .idle := by
  obtain ⟨t1, h1, u1, -⟩ := next_of_gives test_readU8_twoWire
  obtain ⟨t2, h2, u2, -⟩ := next_of_gives test_readBurst_VX10_VX9.1
  obtain ⟨t3, h3, u3, -⟩ := next_of_gives test_bbStart_VP2.1
  exact ⟨⟨_, t1, h1, u1⟩, ⟨_, t2, h2, u2⟩, ⟨_, t3, h3, u3⟩⟩

theorem witness_TraceGrowsAndHostAdvances :
    ∃ t, exec (.readU16 0x0003 false false) (mg [.noReturn]) = .next t ∧ t.upc ≠ .idle := ⟨_, rfl, by decide⟩

theorem witness_TransportsAreSeparate :
    ((∃ c, (tw [true]).cfg = some (.twoWire c)) ∧ ∃ t, exec (.bbStart false) (tw [true]) = .next t) ∧
    ((∀ c, (mg [ansValue 0]).cfg ≠ some (.twoWire c)) ∧
      ∃ t, exec (.readU16 0x0003 false false) (mg [ansValue 0]) = .next t) :=
  ⟨⟨⟨_, rfl⟩, _, rfl⟩, by simp [mg, base], _, rfl⟩

theorem witness_BusErrorsComeFromPorts : ∃ s t : State, exec (.readU16 0x0010 false false) s = .next t ∧
    t.upc = .idle ∧ t.status = some .busError := by
  obtain ⟨t, h, hu, hs, -⟩ := next_of_gives test_readU16_VX5_VX7.1
  exact ⟨_, t, h, hu, hs⟩

theorem witness_PortFailurePassesThrough : ∃ (s t : State) (es : List Event) (e : Event),
    exec (.readU16 0x0003 false false) s = .next t ∧ t.upc = .idle ∧ t.trace = s.trace ++ es ∧ e ∈ es ∧
    e.portStatus = some .timeout ∧ Status.timeout ≠ .ok := by
  obtain ⟨t, h, hu, -, -, -, he⟩ := next_of_gives test_readU16_VX5_VX7.2
  exact ⟨_, t, _, _, h, hu, he, List.mem_singleton.mpr rfl, rfl, by decide⟩

theorem witness_InvalidParamBeforeAnyAction : ∃ s t : State, exec (.readU16 0 false false) s = .next t ∧
    t.upc = .idle ∧ t.status = some .invalidParam := by
  obtain ⟨t, h, hu, hs, -⟩ := next_of_gives test_entry_VF1_VP14_VP15.1
  exact ⟨_, t, h, hu, hs⟩

theorem witness_EveryCommandReturns :
    (tw []).upc = .idle ∧ (∀ a ∈ (tw []).portIn, a ≠ .noReturn) ∧
    (bt [ansStatus .ok]).upc = .idle ∧ ∀ a ∈ (bt [ansStatus .ok]).portIn, a ≠ .noReturn :=
  ⟨rfl, by decide, rfl, by decide⟩

/-- A command that meets the premises of PortThatNeverReturns and AnswersOutsideTheirType on every row of `ComesTo`. -/
theorem witness_ComesTo (rest : List PortAnswer) :
    (∀ k ∈ [PortType.status, .bytes 1, .value], ∃ (i : Instr) (s : State) (answered : List PortAnswer) (es : List Event),
      s.upc = .idle ∧ s.init = true ∧ accepted i ∧ ComesTo s i answered es k ∧ s.portIn = answered ++ rest) ∧
    (∃ (s : State) (es : List Event), ComesTo s (.writeU8 0x0100 0x5A false) [ansStatus .ok] es .status ∧
      s.portIn = [ansStatus .ok] ++ rest) ∧
    (∃ (s : State) (es : List Event), ComesTo s (.modifyU8 0x0200 0x0F 0x05 false) [ansStatus .ok, ansBytes [0xA3]] es
      .status ∧ s.portIn = [ansStatus .ok, ansBytes [0xA3]] ++ rest) ∧
    (∃ (s : State) (es : List Event), ComesTo s (.modifyU8 0x0200 0x0F 0x05 false)
      [ansStatus .ok, ansBytes [0xA3], ansStatus .ok] es .status ∧
      s.portIn = [ansStatus .ok, ansBytes [0xA3], ansStatus .ok] ++ rest) ∧
    (∃ (s : State) (es : List Event), ComesTo s (.writeU16 0x0003 0x1234 false) [] es .status ∧ s.portIn = [] ++ rest ∧
      s.MgmtReady mgmtDev) ∧
    ∃ (s : State) (es : List Event), ComesTo s (.modifyU16 0x0005 0x0400 0xFFFF false) [ansValue 0x1140] es .status ∧
      s.portIn = [ansValue 0x1140] ++ rest := by
  refine ⟨fun k hk => ?_, ⟨bt _, _, .writeData blockDev rfl rfl, rfl⟩, ⟨bt _, _, .modifyHeader blockDev rfl rfl _ rfl, rfl⟩,
    ⟨bt _, _, .modifyData blockDev rfl rfl _ rfl, rfl⟩, ⟨mg _, _, .mgmtWrite mgmtDev rfl rfl rfl, rfl, mg_ready _⟩,
    ⟨mg _, _, .mgmtModify mgmtDev rfl rfl rfl _, rfl⟩⟩
  simp only [List.mem_cons, List.not_mem_nil, or_false] at hk
  rcases hk with rfl | rfl | rfl
  · exact ⟨_, bt _, _, _, rfl, rfl, accepted_writeBurst, .header blockDev rfl, rfl⟩
  · exact ⟨_, bt _, _, _, rfl, rfl, accepted_readU8, .readData blockDev rfl 1 rfl, rfl⟩
  · exact ⟨.readU16 0x0003 false false, mg _, _, _, rfl, rfl, ⟨rfl, rfl⟩, .mgmtRead mgmtDev rfl rfl rfl, rfl⟩

/-- Each kind of answer outside its type, at its boundaries. -/
theorem witness_OutsideType :
    OutsideType .status 7 .none .portStatusReserved ∧ OutsideType .value 6 (.value 1) .portStatusReserved ∧
    OutsideType (.bytes 4) Status.ok.code (.bytes [1, 2, 3]) .portByteCount ∧
    OutsideType (.bytes 1) Status.ok.code (.bytes [1, 2]) .portByteCount ∧
    OutsideType .status Status.genericError.code (.bytes []) .portDataWithFailure ∧
    OutsideType .value Status.nack.code (.value 1) .portDataWithFailure ∧
    OutsideType .status Status.ok.code (.value 0) .portAnswerType ∧
    OutsideType (.bytes 1) Status.ok.code .none .portAnswerType ∧
    OutsideType .value Status.ok.code (.bytes [0, 0]) .portAnswerType :=
  ⟨.reserved _ _ _ (.inr rfl), .reserved _ _ _ (.inl rfl), .byteCount _ _ (by decide), .byteCount _ _ (by decide),
    .withFailure _ .genericError _ (by decide) (by decide), .withFailure _ .nack _ (by decide) (by decide),
    .okUnexpected _ (by decide), .okNoBytes _ _ (by simp), .okNoValue _ (by simp)⟩

/-- The state of `tw` meets the invariant, and a step from it answers a next state. -/
theorem witness_StepKeepsInvariant : ∃ s t : State, s.Inv ∧ step s = .next t := by
  refine ⟨{ tw [true] with program := [⟨0x10000000, 0, 0, 0, [], none⟩] }, _, ?_, rfl⟩
  exact
    { config := ⟨fun _ => ⟨_, rfl, rfl⟩, fun h => absurd h (by decide)⟩
      response := fun _ => ⟨rfl, rfl⟩
      session := rfl
      latch := ⟨rfl, rfl⟩
      released := fun before l v after h => absurd h (by simp [tw, base, State.reset])
      chipSelect := ⟨by decide, fun _ => rfl⟩
      position := Or.inl rfl }

theorem witness_MicroStepsRefineExec_NoMicroProgramFaults : (tw []).upc = .idle := rfl

end Sys2Proof.Tests
end

section
/-! SUPPORT. Big-endian values as numbers (00_scope.md R9, 30_encoding.md R103). -/

namespace Sys2Proof.Machine

theorem unBeNat_be8 (v : Byte) : unBeNat (be8 v) = v.toNat := by simp [unBeNat, be8]

theorem unBeNat_be16 (v : Word16) : unBeNat (be16 v) = v.toNat := by
  simp only [unBeNat, be16, List.foldl_cons, List.foldl_nil, BitVec.extractLsb'_toNat, Nat.shiftRight_eq_div_pow]
  omega

theorem unBeNat_be32 (v : Word32) : unBeNat (be32 v) = v.toNat := by
  simp only [unBeNat, be32, List.foldl_cons, List.foldl_nil, BitVec.extractLsb'_toNat, Nat.shiftRight_eq_div_pow]
  omega

theorem be16_unBe16 (b0 b1 : Byte) : be16 (unBe16 [b0, b1]) = [b0, b1] := by
  simp only [be16, unBe16, unBeNat, List.foldl_cons, List.foldl_nil, List.cons.injEq, and_true]
  refine ⟨BitVec.eq_of_toNat_eq ?_, BitVec.eq_of_toNat_eq ?_⟩ <;>
    simp only [BitVec.extractLsb'_toNat, BitVec.toNat_ofNat, Nat.shiftRight_eq_div_pow] <;> omega

theorem be32_unBe32 (b0 b1 b2 b3 : Byte) : be32 (unBe32 [b0, b1, b2, b3]) = [b0, b1, b2, b3] := by
  simp only [be32, unBe32, unBeNat, List.foldl_cons, List.foldl_nil, List.cons.injEq, and_true]
  refine ⟨BitVec.eq_of_toNat_eq ?_, BitVec.eq_of_toNat_eq ?_, BitVec.eq_of_toNat_eq ?_, BitVec.eq_of_toNat_eq ?_⟩ <;>
    simp only [BitVec.extractLsb'_toNat, BitVec.toNat_ofNat, Nat.shiftRight_eq_div_pow] <;> omega

/-- Settles O7: as numbers, the bytes of a value are its digits to the base 256. -/
theorem bigEndianRoundTrip : Obligations.BigEndianRoundTrip := by
  refine ⟨fun v => ?_, fun v => ⟨?_, ?_⟩, fun v => ?_, be16_unBe16, be32_unBe32⟩
  · rw [unBe32, unBeNat_be8, BitVec.ofNat_toNat]
  · rw [unBe16, unBeNat_be16, BitVec.ofNat_toNat, BitVec.setWidth_eq]
  · rw [unBe32, unBeNat_be16, BitVec.ofNat_toNat]
  · rw [unBe32, unBeNat_be32, BitVec.ofNat_toNat, BitVec.setWidth_eq]

end Sys2Proof.Machine
end

section
/-! SUPPORT. Engine commands that pass their checks: the body runs from the started command, and the response to a line
activity is the whole next state (41_bitbang_transactions.md R170, R171, 10_state.md R21, R37). -/

namespace Sys2Proof.Machine

theorem command_accepted {i : Instr} {accept : State → Bool} {body : State → Host.Outcome State Fault Refusal}
    {s : State} (hu : s.upc = .idle) (ha : accept s = true) : command i accept body s = body (startCommand i s) := by
  simp [command, hu, ha]

theorem State.EngineReady.engineEntry {s : State} (h : s.EngineReady) : engineEntry false false s = true := by
  obtain ⟨-, hi, c, hc⟩ := h
  simp [Machine.engineEntry, hi, hc, isTwoWire]

theorem widthLegal_iff (aw : Byte) : widthLegal aw = true ↔ aw = 1 ∨ aw = 2 := by simp [widthLegal]

theorem atLeastOne_iff (n : Word32) : atLeastOne n = true ↔ n ≠ 0 := by simp [atLeastOne]

theorem ne_nil_of_length_eq_toNat {n : Word32} {xs : List Byte} (hn : n ≠ 0) (h : xs.length = n.toNat) : xs ≠ [] := by
  rintro rfl
  exact hn (BitVec.eq_of_toNat_eq h.symm)

/-- The response to a command whose line activity went well. -/
theorem respondResult_ok_bus {α : Type} (rval : α → Option Word32) (dOut : α → Option (List Byte)) (y : α)
    (i : Instr) (s : State) (es : List Event) (rest : List Bit) (a b : Bit) (x : Session) :
    respondResult rval dOut (.ok y ((startCommand i s).bus es rest (some a) (some b) x)) =
      (s.lines es rest a b).responded .ok (rval y) (dOut y) := rfl

end Sys2Proof.Machine
end

section
/-! SUPPORT. The engine's four transactions with every byte acknowledged and no stretching (41_bitbang_transactions.md R174 to
R182). -/

namespace Sys2Proof.Machine

/-- Settles O26: the started command runs `writeSeq`, whose events and answers `writeSeq_acked` gives. -/
theorem writeTransaction : Obligations.WriteTransaction := by
  intro s dev xs rest hs hl
  obtain ⟨x, hx⟩ := writeSeq_acked dev xs rest (startCommand (.bbWrite dev xs false) s) (by simpa using hl)
  rw [exec, execBbWrite, command_accepted hs.1 hs.engineEntry, hx]
  exact congrArg Host.Outcome.next (respondResult_ok_bus _ _ _ _ s _ rest true true x)

/-- Settles O27: a length other than 0 makes the list of bytes non-empty, and `readSeq_plain` gives the rest. -/
theorem readTransaction : Obligations.ReadTransaction := by
  intro s dev len xs rest hs hn hlen hl
  obtain ⟨x, hx⟩ := readSeq_plain dev xs (ne_nil_of_length_eq_toNat hn hlen) rest
    (startCommand (.bbRead dev len false false) s) (by simpa using hl)
  rw [exec, execBbRead, command_accepted hs.1 (by simp [hs.engineEntry, (atLeastOne_iff len).2 hn]), ← hlen, hx]
  exact congrArg Host.Outcome.next (respondResult_ok_bus _ _ _ _ s _ rest true true x)

/-- Settles O28: `memWriteSeq_acked` holds for the address bytes of either width. -/
theorem memWriteTransaction : Obligations.MemWriteTransaction := by
  intro s dev aw a xs rest hs haw hl
  obtain ⟨x, hx⟩ := memWriteSeq_acked dev a aw xs rest (startCommand (.bbMemWrite dev aw a xs false) s)
    (by simpa using hl)
  rw [exec, execBbMemWrite, command_accepted hs.1 (by simp [hs.engineEntry, (widthLegal_iff aw).2 haw]), hx]
  exact congrArg Host.Outcome.next (respondResult_ok_bus _ _ _ _ s _ rest true true x)

/-- Settles O29: `memReadSeq_plain` gives both address phases, the second behind a start with no stop before it. -/
theorem memReadTransaction : Obligations.MemReadTransaction := by
  intro s dev aw a len xs rest hs haw hn hlen hl
  obtain ⟨x, hx⟩ := memReadSeq_plain dev a aw xs (ne_nil_of_length_eq_toNat hn hlen) rest
    (startCommand (.bbMemRead dev aw a len false false) s) (by simpa using hl)
  rw [exec, execBbMemRead,
    command_accepted hs.1 (by simp [hs.engineEntry, (widthLegal_iff aw).2 haw, (atLeastOne_iff len).2 hn]), ← hlen, hx]
  exact congrArg Host.Outcome.next (respondResult_ok_bus _ _ _ _ s _ rest true true x)

end Sys2Proof.Machine
end

section
/-! SUPPORT. What no command reads. A relation between states that agree on everything a command reads, and that every
write of a register keeps, is kept by every command: the two runs do the same (10_state.md R36,
40_bitbang_primitives.md R131, R160, 70_reset_and_hazards.md R370). One lemma for each subroutine, for every such
relation. -/

namespace Sys2Proof.Machine

/-- The two states agree on everything a subroutine or an entry check reads. `T_TRIAL` and the fields of a two-wire
configuration are not among it. -/
structure ReadsAgree (s t : State) : Prop where
  init : t.init = s.init
  cfg : t.cfg = s.cfg ∨ ∃ c c', s.cfg = some (.twoWire c) ∧ t.cfg = some (.twoWire c')
  trace : t.trace = s.trace
  upc : t.upc = s.upc
  session : t.session = s.session
  params : t.params = { s.params with tTrial := t.params.tTrial }
  lineIn : t.lineIn = s.lineIn
  portIn : t.portIn = s.portIn

/-- The states that `R` relates differ only in what no command reads, and every write of a register but that of INIT
keeps them so. -/
structure Unread (R : State → State → Prop) : Prop where
  agree : ∀ {s t}, R s t → ReadsAgree s t
  setUpc : ∀ {s t} (u : Upc), R s t → R (s.setUpc u) (t.setUpc u)
  setSession : ∀ {s t} (x : Session), R s t → R (s.setSession x) (t.setSession x)
  emit : ∀ {s t} (e : Event), R s t → R (s.emit e) (t.emit e)
  setOut : ∀ {s t} (l : Line) (v : Bit), R s t → R (s.setOut l v) (t.setOut l v)
  lineTail : ∀ {s t}, R s t → R { s with lineIn := s.lineIn.tail } { t with lineIn := t.lineIn.tail }
  answered : ∀ {s t}, R s t → R s.answered t.answered
  uninstall : ∀ {s t}, R s t → R s.uninstall t.uninstall
  respond : ∀ {s t} (st : Status) (rval : Option Word32) (dOut : Option (List Byte)), R s t →
    R (respond st rval dOut s) (respond st rval dOut t)

/-- Two results that differ in their states alone, which `R` relates. -/
inductive Result.Alike (R : State → State → Prop) {α : Type} : Result α → Result α → Prop where
  | ok (x : α) {s t : State} (h : R s t) : Result.Alike R (.ok x s) (.ok x t)
  | fail (st : Status) {s t : State} (h : R s t) : Result.Alike R (.fail st s) (.fail st t)

/-- The same of two accesses. -/
inductive Reply.Alike (R : State → State → Prop) {α : Type} : Reply α → Reply α → Prop where
  | done {r r' : Result α} (h : r.Alike R r') : Reply.Alike R (.done r) (.done r')
  | stuck {s t : State} (h : R s t) : Reply.Alike R (.stuck s) (.stuck t)
  | refused (e : Refusal) : Reply.Alike R (.refused e) (.refused e)

/-- The same of the outcomes of two commands. -/
inductive OutcomesAlike (R : State → State → Prop) :
    Host.Outcome State Fault Refusal → Host.Outcome State Fault Refusal → Prop where
  | next {s t : State} (h : R s t) : OutcomesAlike R (.next s) (.next t)
  | fault (r : Fault) : OutcomesAlike R (.fault r) (.fault r)
  | refused (r : Refusal) : OutcomesAlike R (.refused r) (.refused r)

section
variable {R : State → State → Prop} {α β : Type}

theorem Result.Alike.andThen {r r' : Result α} {f f' : α → State → Result β} (h : r.Alike R r')
    (hf : ∀ x s t, R s t → (f x s).Alike R (f' x t)) : (r.andThen f).Alike R (r'.andThen f') := by
  cases h with
  | ok x h => exact hf x _ _ h
  | fail st h => exact .fail st h

theorem Result.Alike.state {r r' : Result α} (h : r.Alike R r') : R r.state r'.state := by
  cases h with
  | ok x h => exact h
  | fail st h => exact h

theorem Reply.Alike.andThen {r r' : Reply α} {f f' : α → State → Reply β} (h : r.Alike R r')
    (hf : ∀ x s t, R s t → (f x s).Alike R (f' x t)) : (r.andThen f).Alike R (r'.andThen f') := by
  cases h with
  | done h =>
    cases h with
    | ok x h => exact hf x _ _ h
    | fail st h => exact .done (.fail st h)
  | stuck h => exact .stuck h
  | refused e => exact .refused e
end

section
variable {R : State → State → Prop} (hR : Unread R) {s t : State} {α β : Type}
include hR

/-! ## Micro-operations and session registers -/

theorem Unread.drv (l : Line) (v : Bit) (h : R s t) : R (drv l v s) (drv l v t) := hR.emit _ (hR.setOut l v h)

theorem Unread.dly (k : Delay) (h : R s t) : R (dly k s) (dly k t) := hR.emit _ h

theorem Unread.lineAnswer (l : Line) (h : R s t) : lineAnswer l t = lineAnswer l s := by
  simp only [Machine.lineAnswer, (hR.agree h).lineIn, (hR.agree h).trace]

theorem Unread.afterRead (l : Line) (h : R s t) : R (afterRead l s) (afterRead l t) := by
  rw [Machine.afterRead, Machine.afterRead, hR.lineAnswer l h]
  exact hR.emit _ (hR.lineTail h)

/-- A write of one session register, the others kept. -/
theorem Unread.editSession (f : Session → Session) (h : R s t) :
    R (s.setSession (f s.session)) (t.setSession (f t.session)) := by
  rw [(hR.agree h).session]
  exact hR.setSession _ h

theorem Unread.setSr (b : Byte) (h : R s t) : R (s.setSr b) (t.setSr b) :=
  hR.editSession (fun x => { x with sr := some b }) h
theorem Unread.setBc (k : Nat) (h : R s t) : R (s.setBc k) (t.setBc k) :=
  hR.editSession (fun x => { x with bc := some k }) h
theorem Unread.setSc (k : Nat) (h : R s t) : R (s.setSc k) (t.setSc k) :=
  hR.editSession (fun x => { x with sc := some k }) h
theorem Unread.setAckb (a : Bit) (h : R s t) : R (s.setAckb a) (t.setAckb a) :=
  hR.editSession (fun x => { x with ackb := some a }) h
theorem Unread.setBi (k : Nat) (h : R s t) : R (s.setBi k) (t.setBi k) :=
  hR.editSession (fun x => { x with bi := some k }) h
theorem Unread.setTrial (k : Nat) (h : R s t) : R (s.setTrial k) (t.setTrial k) :=
  hR.editSession (fun x => { x with trial := some k }) h
theorem Unread.setErr (st : Status) (h : R s t) : R (s.setErr st) (t.setErr st) :=
  hR.editSession (fun x => { x with err := some st }) h
theorem Unread.setBuf (xs : List Byte) (h : R s t) : R (s.setBuf xs) (t.setBuf xs) :=
  hR.editSession (fun x => { x with buf := some xs }) h

theorem Unread.moveTo (p : Pos) (h : R s t) : R (s.moveTo p) (t.moveTo p) := by
  rw [State.moveTo, State.moveTo, (hR.agree h).upc]
  cases s.upc with
  | idle => exact h
  | running i q => exact hR.setUpc _ h

theorem Unread.startCommand (i : Instr) (h : R s t) : R (startCommand i s) (startCommand i t) :=
  hR.setSession _ (hR.setUpc _ h)

/-! ## The OPEN parameters but `T_TRIAL` -/

theorem Unread.nStart (h : R s t) : t.params.nStart = s.params.nStart := by rw [(hR.agree h).params]
theorem Unread.nStop (h : R s t) : t.params.nStop = s.params.nStop := by rw [(hR.agree h).params]
theorem Unread.nBit (h : R s t) : t.params.nBit = s.params.nBit := by rw [(hR.agree h).params]
theorem Unread.twDev (h : R s t) : t.params.twDev = s.params.twDev := by rw [(hR.agree h).params]
theorem Unread.addrByteOf (dev : Byte) (rw : Direction) (h : R s t) : addrByteOf dev rw t = addrByteOf dev rw s := by
  rw [Machine.addrByteOf, (hR.agree h).params]; rfl
theorem Unread.readHeader (a : Word16) (h : R s t) : readHeader t.params a = readHeader s.params a := by
  rw [(hR.agree h).params]; rfl
theorem Unread.writeHeader (a : Word16) (h : R s t) : writeHeader t.params a = writeHeader s.params a := by
  rw [(hR.agree h).params]; rfl

/-! ## Line sequences (R133 to R155) -/

theorem Unread.pollScl (left sc : Nat) (h : R s t) : (pollScl left sc s).Alike R (pollScl left sc t) := by
  induction left generalizing sc s t with
  | zero =>
    rw [Machine.pollScl, Machine.pollScl, hR.lineAnswer .scl h]
    split
    · exact .ok () (hR.afterRead .scl h)
    · exact .fail .timeout (hR.setSc _ (hR.afterRead .scl h))
  | succ left ih =>
    rw [Machine.pollScl, Machine.pollScl, hR.lineAnswer .scl h]
    split
    · exact .ok () (hR.afterRead .scl h)
    · exact ih _ (hR.setSc _ (hR.afterRead .scl h))

theorem Unread.raiseScl (n : Bound) (h : R s t) : (raiseScl n s).Alike R (raiseScl n t) :=
  hR.pollScl _ _ (hR.setSc 0 (hR.dly _ (hR.drv _ _ (hR.dly _ h))))

theorem Unread.lowerScl (h : R s t) : R (lowerScl s) (lowerScl t) := hR.dly _ (hR.drv _ _ h)

theorem Unread.pulse (h : R s t) : (pulse s).Alike R (pulse t) := by
  rw [Machine.pulse, Machine.pulse, hR.nBit h]
  exact (hR.raiseScl _ h).andThen fun _ _ _ h => .ok () (hR.lowerScl h)

theorem Unread.pulseSample (h : R s t) : (pulseSample s).Alike R (pulseSample t) := by
  rw [Machine.pulseSample, Machine.pulseSample, hR.nBit h]
  refine (hR.raiseScl _ h).andThen fun _ u v h => ?_
  rw [hR.lineAnswer .sda h]
  exact .ok _ (hR.lowerScl (hR.afterRead .sda h))

theorem Unread.startSeq (h : R s t) : (startSeq s).Alike R (startSeq t) := by
  rw [Machine.startSeq, Machine.startSeq, hR.nStart h]
  exact (hR.raiseScl _ (hR.drv _ _ h)).andThen fun _ _ _ h => .ok () (hR.drv _ _ (hR.drv _ _ h))

theorem Unread.stopSeq (h : R s t) : (stopSeq s).Alike R (stopSeq t) := by
  rw [Machine.stopSeq, Machine.stopSeq, hR.nStop h]
  exact (hR.raiseScl _ (hR.drv _ _ h)).andThen fun _ _ _ h => .ok () (hR.drv _ _ h)

theorem Unread.writeBit (b : Byte) (k : Nat) (h : R s t) : (writeBit b k s).Alike R (writeBit b k t) :=
  hR.pulse (hR.drv _ _ (hR.setBc k h))

theorem Unread.writeBits (b : Byte) (k : Nat) (h : R s t) : (writeBits b k s).Alike R (writeBits b k t) := by
  induction k generalizing s t with
  | zero => exact hR.writeBit b 0 h
  | succ k ih => exact (hR.writeBit b _ h).andThen fun _ _ _ h => ih h

theorem Unread.acknowledge (a : Bit) (h : R s t) : (acknowledge a s).Alike R (acknowledge a t) := by
  cases a with
  | false => exact .ok () (hR.setAckb _ h)
  | true => exact .fail .nack (hR.setAckb _ h)

theorem Unread.writeByteSeq (b : Byte) (h : R s t) : (writeByteSeq b s).Alike R (writeByteSeq b t) :=
  (hR.writeBits b 7 (hR.setSr b h)).andThen fun _ _ _ h =>
    (hR.pulseSample (hR.drv _ _ h)).andThen fun a _ _ h => hR.acknowledge a h

theorem Unread.readBit (sr : Byte) (k : Nat) (h : R s t) : (readBit sr k s).Alike R (readBit sr k t) :=
  (hR.pulseSample (hR.setBc k h)).andThen fun _ _ _ h => .ok _ (hR.setSr _ h)

theorem Unread.readBits (sr : Byte) (k : Nat) (h : R s t) : (readBits sr k s).Alike R (readBits sr k t) := by
  induction k generalizing sr s t with
  | zero => exact hR.readBit sr 0 h
  | succ k ih => exact (hR.readBit sr _ h).andThen fun sr _ _ h => ih sr h

theorem Unread.readByteSeq (ack : Bool) (h : R s t) : (readByteSeq ack s).Alike R (readByteSeq ack t) :=
  (hR.readBits 0 7 (hR.setSr 0 (hR.drv _ _ h))).andThen fun x _ _ h =>
    (hR.pulse (hR.drv _ _ h)).andThen fun _ _ _ h => .ok x (hR.drv _ _ h)

/-! ## Transactions (R172 to R190) -/

theorem Unread.finishOk (x : α) (h : R s t) : (finishOk x s).Alike R (finishOk x t) :=
  (hR.stopSeq h).andThen fun _ _ _ h => .ok x h

theorem Unread.finishFail (st : Status) (h : R s t) :
    (finishFail st s : Result α).Alike R (finishFail st t) := .fail st (hR.stopSeq (hR.setErr st h)).state

theorem Unread.orFinish {r r' : Result α} {f f' : α → State → Result β} (h : r.Alike R r')
    (hf : ∀ x s t, R s t → (f x s).Alike R (f' x t)) : (r.orFinish f).Alike R (r'.orFinish f') := by
  cases h with
  | ok x h => exact hf x _ _ h
  | fail st h => exact hR.finishFail st h

theorem Unread.addressed (dev : Byte) (rw : Direction) {f : State → Result β}
    (hf : ∀ s t, R s t → (f s).Alike R (f t)) (h : R s t) :
    (addressed dev rw f s).Alike R (addressed dev rw f t) := by
  refine hR.orFinish (hR.startSeq h) fun _ u v h => ?_
  rw [hR.addrByteOf dev rw h]
  exact hR.orFinish (hR.writeByteSeq _ h) fun _ u v h => hf u v h

theorem Unread.sendAddress (ms : List Byte) {f : State → Result β} (hf : ∀ s t, R s t → (f s).Alike R (f t))
    (h : R s t) : (sendAddress f ms s).Alike R (sendAddress f ms t) := by
  induction ms generalizing s t with
  | nil => exact hf s t h
  | cons m ms ih => exact hR.orFinish (hR.writeByteSeq m h) fun _ _ _ h => ih h

theorem Unread.writeData (bi : Nat) (xs : List Byte) (h : R s t) :
    (writeData bi xs s).Alike R (writeData bi xs t) := by
  induction xs generalizing bi s t with
  | nil => exact hR.finishOk () h
  | cons x xs ih => exact hR.orFinish (hR.writeByteSeq x h) fun _ _ _ h => ih _ (hR.setBi _ h)

theorem Unread.readData (left bi : Nat) (buf : List Byte) (h : R s t) :
    (readData left bi buf s).Alike R (readData left bi buf t) := by
  induction left generalizing bi buf s t with
  | zero =>
    exact hR.orFinish (hR.readByteSeq false h) fun _ _ _ h => hR.finishOk _ (hR.setBi _ (hR.setBuf _ h))
  | succ left ih =>
    exact hR.orFinish (hR.readByteSeq true h) fun _ _ _ h => ih _ _ (hR.setBi _ (hR.setBuf _ h))

theorem Unread.readPhase (n : Nat) (h : R s t) : (readPhase n s).Alike R (readPhase n t) :=
  hR.readData _ _ _ (hR.setBi 0 (hR.setBuf [] h))

theorem Unread.writeSeq (dev : Byte) (xs : List Byte) (h : R s t) :
    (writeSeq dev xs s).Alike R (writeSeq dev xs t) :=
  hR.addressed dev .write (fun _ _ h => hR.writeData 0 xs (hR.setBi 0 h)) h

theorem Unread.readSeq (dev : Byte) (n : Nat) (h : R s t) : (readSeq dev n s).Alike R (readSeq dev n t) :=
  hR.addressed dev .read (fun _ _ h => hR.readPhase n h) h

theorem Unread.memWriteSeq (dev : Byte) (a : Word16) (aw : Byte) (xs : List Byte) (h : R s t) :
    (memWriteSeq dev a aw xs s).Alike R (memWriteSeq dev a aw xs t) :=
  hR.addressed dev .write
    (fun _ _ h => hR.sendAddress _ (fun _ _ h => hR.writeData 0 xs (hR.setBi 0 h)) h) h

theorem Unread.memReadSeq (dev : Byte) (a : Word16) (aw : Byte) (n : Nat) (h : R s t) :
    (memReadSeq dev a aw n s).Alike R (memReadSeq dev a aw n t) :=
  hR.addressed dev .write
    (fun _ _ h => hR.sendAddress _ (fun _ _ h => hR.addressed dev .read (fun _ _ h => hR.readPhase n h) h) h) h

theorem Unread.probe (dev : Byte) (h : R s t) : (probe dev s).Alike R (probe dev t) := by
  refine (hR.startSeq h).andThen fun _ u v h => ?_
  rw [hR.addrByteOf dev .write h]
  exact hR.writeByteSeq _ h

theorem Unread.trials (dev : Byte) (left trial : Nat) (h : R s t) :
    (trials dev left trial s).Alike R (trials dev left trial t) := by
  induction left generalizing trial s t with
  | zero =>
    have hp := hR.probe dev h
    rw [Machine.trials, Machine.trials]
    generalize Machine.probe dev s = r, Machine.probe dev t = r' at hp
    cases hp with
    | ok x h => exact hR.finishOk () h
    | fail st h =>
      cases st with
      | nack => exact (hR.stopSeq h).andThen fun _ _ _ h => .fail .nack h
      | ok | invalidParam | timeout | busError | genericError => exact hR.finishFail _ h
  | succ left ih =>
    have hp := hR.probe dev h
    rw [Machine.trials, Machine.trials]
    generalize Machine.probe dev s = r, Machine.probe dev t = r' at hp
    cases hp with
    | ok x h => exact hR.finishOk () h
    | fail st h =>
      cases st with
      | nack => exact (hR.stopSeq h).andThen fun _ _ _ h => ih _ (hR.setTrial _ (hR.dly .trial h))
      | ok | invalidParam | timeout | busError | genericError => exact hR.finishFail _ h

theorem Unread.readySeq (dev : Byte) (n : Nat) (h : R s t) : (readySeq dev n s).Alike R (readySeq dev n t) :=
  hR.trials dev _ 1 (hR.setTrial 1 h)

/-! ## Port calls and accesses (10_state.md R40 to R43, 42_transport_and_handle.md R220 to R229) -/

theorem Unread.callStatus (event : Status → Event) (h : R s t) :
    (callStatus event s).Alike R (callStatus event t) := by
  have ha : statusAnswer t = statusAnswer s := by
    simp only [statusAnswer, (hR.agree h).portIn, (hR.agree h).trace]
  rw [Machine.callStatus, Machine.callStatus, ha]
  cases statusAnswer s with
  | got st => exact .done (.ok st (hR.emit _ (hR.answered h)))
  | noReturn => exact .stuck h
  | refused r => exact .refused r

theorem Unread.callBtRead (dev n : Nat) (h : R s t) : (callBtRead dev n s).Alike R (callBtRead dev n t) := by
  have ha : bytesAnswer n t = bytesAnswer n s := by
    simp only [bytesAnswer, (hR.agree h).portIn, (hR.agree h).trace]
  rw [Machine.callBtRead, Machine.callBtRead, ha]
  cases bytesAnswer n s with
  | got x => exact .done (.ok x (hR.emit _ (hR.answered h)))
  | noReturn => exact .stuck h
  | refused r => exact .refused r

theorem Unread.callMgRead (dev : Nat) (reg : Word16) (h : R s t) :
    (callMgRead dev reg s).Alike R (callMgRead dev reg t) := by
  have ha : valueAnswer t = valueAnswer s := by
    simp only [valueAnswer, (hR.agree h).portIn, (hR.agree h).trace]
  rw [Machine.callMgRead, Machine.callMgRead, ha]
  cases valueAnswer s with
  | got x => exact .done (.ok x (hR.emit _ (hR.answered h)))
  | noReturn => exact .stuck h
  | refused r => exact .refused r

theorem Unread.btReturn (dev : Nat) (x : Except Status α) (h : R s t) :
    (btReturn dev x s).Alike R (btReturn dev x t) := by
  cases x with
  | ok x => exact .done (.ok x (hR.emit _ h))
  | error st => exact .done (.fail st (hR.emit _ h))

theorem Unread.btMemRead (leg : Leg) (c : BlockConfig) (a : Word16) (n : Nat) (h : R s t) :
    (btMemRead leg c a n s).Alike R (btMemRead leg c a n t) := by
  refine Reply.Alike.andThen ?_ fun x _ _ h => hR.btReturn c.btDev x h
  have hcs := hR.emit (.csAssert c.btDev) h
  rw [btReadExchange, btReadExchange, callCsAssert, callCsAssert, hR.readHeader a hcs]
  refine (hR.callStatus _ (hR.moveTo _ hcs)).andThen fun st u v h => ?_
  by_cases hst : st = .ok
  · rw [if_pos hst, if_pos hst]
    exact hR.callBtRead _ _ (hR.moveTo _ h)
  · rw [if_neg hst, if_neg hst]
    exact .done (.ok _ h)

theorem Unread.btMemWrite (leg : Leg) (c : BlockConfig) (a : Word16) (xs : List Byte) (h : R s t) :
    (btMemWrite leg c a xs s).Alike R (btMemWrite leg c a xs t) := by
  refine Reply.Alike.andThen ?_ fun st _ _ h => hR.btReturn c.btDev (statusResult st) h
  have hcs := hR.emit (.csAssert c.btDev) h
  rw [btWriteExchange, btWriteExchange, callCsAssert, callCsAssert, hR.writeHeader a hcs]
  refine (hR.callStatus _ (hR.moveTo _ hcs)).andThen fun st u v h => ?_
  by_cases hst : st = .ok
  · rw [if_pos hst, if_pos hst]
    exact hR.callStatus _ (hR.moveTo _ h)
  · rw [if_neg hst, if_neg hst]
    exact .done (.ok _ h)

theorem Unread.mgMemRead (leg : Leg) (c : MgmtConfig) (a : Word16) (n : Nat) (h : R s t) :
    (mgMemRead leg c a n s).Alike R (mgMemRead leg c a n t) := by
  refine (hR.callMgRead _ _ (hR.moveTo _ h)).andThen fun x u v h => ?_
  cases x with
  | ok v => exact .done (.ok _ h)
  | error st => exact .done (.fail st h)

theorem Unread.mgMemWrite (leg : Leg) (c : MgmtConfig) (a : Word16) (xs : List Byte) (h : R s t) :
    (mgMemWrite leg c a xs s).Alike R (mgMemWrite leg c a xs t) := by
  refine (hR.callStatus _ (hR.moveTo _ h)).andThen fun st u v h => ?_
  by_cases hst : st = .ok
  · rw [if_pos hst, if_pos hst]
    exact .done (.ok () h)
  · rw [if_neg hst, if_neg hst]
    exact .done (.fail st h)

/-- `MemRead` of the transport selector: both states have the same transport. -/
theorem Unread.memRead (leg : Leg) (a : Word16) (n : Nat) (h : R s t) :
    (memRead leg a n s).Alike R (memRead leg a n t) := by
  have htw : (twMemRead a n s).Alike R (twMemRead a n t) := by
    rw [twMemRead, twMemRead, hR.twDev h]
    exact hR.memReadSeq _ _ _ _ h
  rw [Machine.memRead, Machine.memRead]
  rcases (hR.agree h).cfg with hc | ⟨c, c', hs, ht⟩
  · rw [hc]
    match s.cfg with
    | some (.twoWire c) => exact .done htw
    | some (.block c) => exact hR.btMemRead leg c a n h
    | some (.mgmt c) => exact hR.mgMemRead leg c a n h
    | some .reserved => exact .done (.fail _ h)
    | none => exact .done (.fail _ h)
  · rw [hs, ht]
    exact .done htw

/-- `MemWrite` of the transport selector. -/
theorem Unread.memWrite (leg : Leg) (a : Word16) (xs : List Byte) (h : R s t) :
    (memWrite leg a xs s).Alike R (memWrite leg a xs t) := by
  have htw : (twMemWrite a xs s).Alike R (twMemWrite a xs t) := by
    rw [twMemWrite, twMemWrite, hR.twDev h]
    exact hR.memWriteSeq _ _ _ _ h
  rw [Machine.memWrite, Machine.memWrite]
  rcases (hR.agree h).cfg with hc | ⟨c, c', hs, ht⟩
  · rw [hc]
    match s.cfg with
    | some (.twoWire c) => exact .done htw
    | some (.block c) => exact hR.btMemWrite leg c a xs h
    | some (.mgmt c) => exact hR.mgMemWrite leg c a xs h
    | some .reserved => exact .done (.fail _ h)
    | none => exact .done (.fail _ h)
  · rw [hs, ht]
    exact .done htw

/-! ## Commands -/

theorem Unread.engineEntry (hnull onull : Bool) (h : R s t) : engineEntry hnull onull t = engineEntry hnull onull s := by
  have hc : isTwoWire t.cfg = isTwoWire s.cfg := by
    rcases (hR.agree h).cfg with hc | ⟨c, c', hs, ht⟩
    · rw [hc]
    · rw [hs, ht]; rfl
  rw [Machine.engineEntry, Machine.engineEntry, (hR.agree h).init, hc]

theorem Unread.facadeEntry (shape : Shape) (hnull onull empty : Bool) (h : R s t) :
    facadeEntry shape hnull onull empty t = facadeEntry shape hnull onull empty s := by
  have hc : capable t.cfg shape = capable s.cfg shape := by
    rcases (hR.agree h).cfg with hc | ⟨c, c', hs, ht⟩
    · rw [hc]
    · rw [hs, ht]; rfl
  rw [Machine.facadeEntry, Machine.facadeEntry, (hR.agree h).init, hc]

theorem Unread.respondResult (rval : α → Option Word32) (dOut : α → Option (List Byte)) {r r' : Result α}
    (h : r.Alike R r') : OutcomesAlike R (.next (respondResult rval dOut r)) (.next (respondResult rval dOut r')) := by
  cases h with
  | ok x h => exact .next (hR.respond _ _ _ h)
  | fail st h => exact .next (hR.respond _ _ _ h)

theorem Unread.outcomeOf (rval : α → Option Word32) (dOut : α → Option (List Byte)) {r r' : Reply α}
    (h : r.Alike R r') : OutcomesAlike R (outcomeOf rval dOut r) (outcomeOf rval dOut r') := by
  cases h with
  | done h => exact hR.respondResult rval dOut h
  | stuck h => exact .next h
  | refused e => exact .refused e

theorem Unread.command (i : Instr) {accept : State → Bool} {body : State → Host.Outcome State Fault Refusal}
    (h : R s t) (ha : accept t = accept s)
    (hb : ∀ s t, R s t → OutcomesAlike R (body s) (body t)) :
    OutcomesAlike R (command i accept body s) (command i accept body t) := by
  rw [Machine.command, Machine.command, (hR.agree h).upc, ha]
  split
  · split
    · exact hb _ _ (hR.startCommand i h)
    · exact .next (hR.respond _ _ _ h)
  · exact .refused _

/-- A command does the same from both states: every command but INIT, and INIT too where its writes keep the
relation. -/
theorem Unread.exec (i : Instr)
    (hi : (∀ c f, i ≠ .init c f) ∨ ∀ c s t, R s t → R (s.install c) (t.install c)) (h : R s t) :
    OutcomesAlike R (exec i s) (exec i t) := by
  cases i with
  | init cfgIn hnull =>
    simp only [Machine.exec, execInit]
    refine hR.command _ h rfl fun u v h => ?_
    cases cfgIn with
    | none => exact .next (hR.respond _ _ _ h)
    | some c => exact .next (hR.respond _ _ _ (hi.resolve_left (fun hne => hne _ _ rfl) c u v h))
  | deinit hnull =>
    simp only [Machine.exec, execDeinit]
    exact hR.command _ h rfl fun _ _ h => .next (hR.respond _ _ _ (hR.uninstall h))
  | bbStart hnull =>
    simp only [Machine.exec, execBbStart]
    exact hR.command _ h (hR.engineEntry _ _ h) fun _ _ h => hR.respondResult _ _ (hR.startSeq h)
  | bbStop hnull =>
    simp only [Machine.exec, execBbStop]
    exact hR.command _ h (hR.engineEntry _ _ h) fun _ _ h => hR.respondResult _ _ (hR.stopSeq h)
  | bbWriteByte b hnull =>
    simp only [Machine.exec, execBbWriteByte]
    exact hR.command _ h (hR.engineEntry _ _ h) fun _ _ h => hR.respondResult _ _ (hR.writeByteSeq b h)
  | bbReadByte ack onull hnull =>
    simp only [Machine.exec, execBbReadByte]
    exact hR.command _ h (hR.engineEntry _ _ h) fun _ _ h => hR.respondResult _ _ (hR.readByteSeq ack h)
  | bbWrite dev xs hnull =>
    simp only [Machine.exec, execBbWrite]
    exact hR.command _ h (hR.engineEntry _ _ h) fun _ _ h => hR.respondResult _ _ (hR.writeSeq dev xs h)
  | bbRead dev len onull hnull =>
    simp only [Machine.exec, execBbRead]
    exact hR.command _ h (by rw [hR.engineEntry _ _ h]) fun _ _ h => hR.respondResult _ _ (hR.readSeq dev _ h)
  | bbMemWrite dev aw a xs hnull =>
    simp only [Machine.exec, execBbMemWrite]
    exact hR.command _ h (by rw [hR.engineEntry _ _ h]) fun _ _ h =>
      hR.respondResult _ _ (hR.memWriteSeq dev a aw xs h)
  | bbMemRead dev aw a len onull hnull =>
    simp only [Machine.exec, execBbMemRead]
    exact hR.command _ h (by rw [hR.engineEntry _ _ h]) fun _ _ h =>
      hR.respondResult _ _ (hR.memReadSeq dev a aw _ h)
  | bbIsDeviceReady dev n hnull =>
    simp only [Machine.exec, execBbIsDeviceReady]
    exact hR.command _ h (by rw [hR.engineEntry _ _ h]) fun _ _ h => hR.respondResult _ _ (hR.readySeq dev _ h)
  | readU8 a onull hnull | readU16 a onull hnull | readU32 a onull hnull | readBurst a len onull hnull =>
    simp only [Machine.exec, execReadU8, execReadU16, execReadU32, execReadBurst]
    exact hR.command _ h (hR.facadeEntry _ _ _ _ h) fun _ _ h => hR.outcomeOf _ _ (hR.memRead .whole a _ h)
  | writeU8 a v hnull | writeU16 a v hnull | writeU32 a v hnull | writeBurst a xs hnull =>
    simp only [Machine.exec, execWriteU8, execWriteU16, execWriteU32, execWriteBurst]
    exact hR.command _ h (hR.facadeEntry _ _ _ _ h) fun _ _ h => hR.outcomeOf _ _ (hR.memWrite .whole a _ h)
  | modifyU8 a mask v hnull | modifyU16 a mask v hnull =>
    simp only [Machine.exec, execModifyU8, execModifyU16]
    exact hR.command _ h (hR.facadeEntry _ _ _ _ h) fun _ _ h =>
      hR.outcomeOf _ _ ((hR.memRead .modifyRead a _ h).andThen fun _ _ _ h => hR.memWrite .modifyWrite a _ h)
end

/-! ## The durations (10_state.md R32, 00_scope.md R7) -/

/-- No command reads `HALF_DELAY` or `T_TRIAL`. -/
theorem unread_durations (h k : Nat) : Unread fun s t => t = s.withDurations h k where
  agree := by
    rintro s _ rfl
    refine ⟨rfl, ?_, rfl, rfl, rfl, rfl, rfl, rfl⟩
    simp only [State.withDurations]
    split
    · exact .inr ⟨_, _, ‹_›, rfl⟩
    · exact .inl rfl
  setUpc := by rintro s _ u rfl; rfl
  setSession := by rintro s _ x rfl; rfl
  emit := by rintro s _ e rfl; rfl
  setOut := by rintro s _ l v rfl; cases l <;> rfl
  lineTail := by rintro s _ rfl; rfl
  answered := by rintro s _ rfl; rfl
  uninstall := by rintro s _ rfl; rfl
  respond := by rintro s _ st rval dOut rfl; rfl

/-- Settles O23: the durations are not read, so the two runs are alike. -/
theorem durationsChangeNothing : Obligations.DurationsChangeNothing := by
  intro i s h k hi
  have halike := (unread_durations h k).exec i (.inl hi) (rfl : s.withDurations h k = s.withDurations h k)
  revert halike
  generalize exec i s = o, exec i (s.withDurations h k) = o'
  rintro (⟨rfl⟩ | _ | _) <;> rfl

end Sys2Proof.Machine
end

section
/-! SUPPORT. What a run of micro-steps needs beyond the laws of the transactions: the byte register during a byte read,
and the position and transport after an access (40_bitbang_primitives.md R155, 10_state.md R21,
42_transport_and_handle.md R229). -/

namespace Sys2Proof.Machine

/-! ## `SR` during a byte read (R155) -/

theorem pollScl_sr (left sc : Nat) (s : State) : (pollScl left sc s).state.session.sr = s.session.sr := by
  induction left generalizing sc s with
  | zero => rw [pollScl]; split <;> rfl
  | succ left ih =>
    rw [pollScl]
    split
    · rfl
    · exact ih (sc + 1) ((afterRead .scl s).setSc (sc + 1))

theorem raiseScl_sr (n : Bound) (s : State) : (raiseScl n s).state.session.sr = s.session.sr :=
  pollScl_sr n.pred 0 ((dly .half (drv .scl true (dly .half s))).setSc 0)

/-- Where `SR` holds a value after `r`, it does so after what goes on from there too. -/
theorem Result.andThen_sr {α β : Type} {r : Result α} {f : α → State → Result β}
    (h : r.state.session.sr.isSome = true)
    (hf : ∀ x u, u.session.sr.isSome = true → (f x u).state.session.sr.isSome = true) :
    (r.andThen f).state.session.sr.isSome = true := by
  cases r with
  | ok x u => exact hf x u h
  | fail st u => exact h

theorem readBit_sr (b : Byte) (k : Nat) (s : State) (h : s.session.sr.isSome = true) :
    (readBit b k s).state.session.sr.isSome = true := by
  refine Result.andThen_sr ?_ fun _ _ _ => rfl
  exact Result.andThen_sr (by rw [raiseScl_sr]; exact h) fun _ _ h => h

theorem readBits_sr (b : Byte) (k : Nat) (s : State) (h : s.session.sr.isSome = true) :
    (readBits b k s).state.session.sr.isSome = true := by
  induction k generalizing b s with
  | zero => exact readBit_sr b 0 s h
  | succ k ih => exact Result.andThen_sr (readBit_sr b _ s h) fun x u h => ih x u h

/-- A byte read holds a value in `SR` from its first step on, so also where it times out. -/
theorem readByteSeq_sr_isSome (ack : Bool) (s : State) : (readByteSeq ack s).state.session.sr.isSome = true := by
  refine Result.andThen_sr (readBits_sr 0 7 _ rfl) fun _ u h => ?_
  refine Result.andThen_sr ?_ fun _ _ h => h
  exact Result.andThen_sr (by rw [raiseScl_sr]; exact h) fun _ _ h => h

/-! ## The state after an access (R229) -/

/-- The transport carries reads of `n` bytes: the management transport those of 2 bytes alone (R228). -/
def Carries (n : Nat) (c : Option TransportConfig) : Prop :=
  (∃ w, c = some (.twoWire w)) ∨ (∃ b, c = some (.block b)) ∨ ((∃ m, c = some (.mgmt m)) ∧ n = 2)

theorem Carries.not_reserved {n : Nat} {c : Option TransportConfig} (h : Carries n c) :
    ∃ d, c = some d ∧ d ≠ .reserved := by
  rcases h with ⟨w, rfl⟩ | ⟨b, rfl⟩ | ⟨⟨m, rfl⟩, -⟩ <;> exact ⟨_, rfl, by simp⟩

theorem Carries.two {n : Nat} {c : Option TransportConfig} (h : Carries n c) : Carries 2 c :=
  h.imp id (Or.imp id fun h => ⟨h.1, rfl⟩)

theorem facadeEntry_carries {shape : Shape} {h o e : Bool} {s : State} {n : Nat}
    (ha : facadeEntry shape h o e s = true) (hn : shape = .u16 → n = 2) : Carries n s.cfg :=
  (facadeEntry_ready ha).2.2.imp id (Or.imp id fun h => ⟨h.1, hn h.2⟩)

/-- An access that returned OK has left the transport and is still inside the command; one that failed gives a status
other than OK. -/
def Reply.Keeps {α : Type} (i : Instr) (c : Option TransportConfig) (r : Reply α) : Prop :=
  match r with
  | .done (.ok _ t) => t.cfg = c ∧ ∃ p, t.upc = .running i p
  | .done (.fail st _) => st ≠ .ok
  | .stuck _ => True
  | .refused _ => True

theorem ne_ok_of_line_failure {st : Status} (h : st = .nack ∨ st = .timeout) : st ≠ .ok := by
  rcases h with rfl | rfl <;> decide

theorem Reply.OnLines.keeps {α : Type} {i : Instr} {p : Pos} {s : State} {good : α → Prop} {r : Reply α}
    (hu : s.upc = .running i p) (h : r.OnLines s good) : r.Keeps i s.cfg := by
  rcases r with (⟨x, t⟩ | ⟨st, t⟩) | t | e
  · obtain ⟨_, _, _, _, _, _, rfl⟩ := h.2.frame
    exact ⟨rfl, p, hu⟩
  · exact ne_ok_of_line_failure h.1
  · exact trivial
  · exact trivial

theorem Reply.Calls.keeps {α : Type} {i : Instr} {k : Nat} {s : State} {good : α → Prop} {r : Reply α}
    (h : r.Calls i s k good) : r.Keeps i s.cfg := by
  rcases r with (⟨x, t⟩ | ⟨st, t⟩) | t | e
  · obtain ⟨-, accs, rest, p, rfl, -⟩ := h
    exact ⟨rfl, p, rfl⟩
  · obtain ⟨accs, rest, p, -, -, -, -, hf⟩ := h
    exact hf.1
  · exact trivial
  · exact trivial

theorem memRead_keeps (leg : Leg) (a : Word16) {n : Nat} (hn : 1 ≤ n) {s : State} {i : Instr} {p : Pos}
    (hu : s.upc = .running i p) (hc : Carries n s.cfg) : (memRead leg a n s).Keeps i s.cfg := by
  rcases hc with hc | hc
  · exact (memRead_onLines leg a n hn s hc).keeps hu
  · exact (memRead_calls leg a n s i p hu hc).keeps

theorem memWrite_keeps (leg : Leg) (a : Word16) (xs : List Byte) {n : Nat} {s : State} {i : Instr} {p : Pos}
    (hu : s.upc = .running i p) (hc : Carries n s.cfg) : (memWrite leg a xs s).Keeps i s.cfg := by
  rcases hc with hc | hc
  · exact (memWrite_onLines leg a xs s hc).keeps hu
  · exact (memWrite_calls leg a xs s i p hu (hc.imp id And.left)).keeps

end Sys2Proof.Machine
end

section
/-! SUPPORT. The micro-steps run every command to the outcome of `exec` (10_state.md R21, 40_bitbang_primitives.md R163,
41_bitbang_transactions.md R195), and so none of them faults (10_state.md R38). -/

namespace Sys2Proof.Machine

/-! ## The entry of a command -/

theorem accepts_startCommand (i : Instr) (s : State) : accepts i (startCommand i s) = accepts i s := by
  cases i <;> rfl

/-- A command comes to its outcome if its body does from its first micro-operation; a command that fails its checks
does so at once. -/
theorem comes_command {i : Instr} {accept : State → Bool} {body : State → Micro} {s : State} (hu : s.upc = .idle)
    (hacc : accept s = accepts i s)
    (h : accepts i s = true → ComesFrom (firstStep i (startCommand i s)) (body (startCommand i s))) :
    Comes (issue i s) (command i accept body s) := by
  refine Comes.step ?_
  simp only [issue, microStep, startCommand_upc, accepts_startCommand]
  cases ha : accepts i s with
  | true =>
    rw [if_pos rfl, command_accepted hu (hacc.trans ha)]
    exact h ha
  | false =>
    have hc : command i accept body s = .next (respondInvalid s) := by simp [command, hu, hacc, ha]
    rw [if_neg (by decide), hc]
    exact comes_respond .invalidParam none none s

/-! ## The response -/

section
variable {i : Instr} {α : Type}

/-- A failure of `r` is no OK. -/
def Result.FailsProperly (r : Result α) : Prop := ∀ st u, r = .fail st u → st ≠ .ok

theorem Result.Ends.failsProperly {s : State} {r : Result α} (h : r.Ends s) : r.FailsProperly := by
  rintro st u rfl
  exact ne_ok_of_line_failure h.2.1

variable {rv : α → Option Word32} {d : α → Option (List Byte)} {g : α → List Byte}

/-- The end of a transaction that is its whole command is the command's response. -/
theorem comes_whole (hrv : ∀ x, rv x = rvalOf i (g x)) (hd : ∀ x, d x = dOutOf i (g x)) {r : Result α}
    (hr : r.FailsProperly) : ComesFrom (accessEnd i .whole g r) (.next (respondResult rv d r)) := by
  cases r with
  | ok x u =>
    rw [respondResult, hrv, hd]
    exact comes_respond _ _ _ _
  | fail st u =>
    rw [accessEnd, accessDone, respond_fail (hr st u rfl)]
    exact comes_respond _ _ _ _

theorem replyEnd_whole (hrv : ∀ x, rv x = rvalOf i (g x)) (hd : ∀ x, d x = dOutOf i (g x))
    {c : Option TransportConfig} {r : Reply α} (hr : r.Keeps i c) : replyEnd i .whole g r (outcomeOf rv d r) := by
  cases r with
  | done r => exact comes_whole hrv hd (by rintro st u rfl; exact hr)
  | stuck u => rfl
  | refused e => rfl
end

/-! ## Primitives (R140 to R155) -/

/-- The return of a primitive that returns no data is its response. -/
theorem comes_primitive {i : Instr} {t : Txn} (ht : ∀ st u, primDone i .whole t st u = accessDone i .whole st [] u)
    (hrv : rvalOf i [] = none) (hd : dOutOf i [] = none) (r : Result Unit) :
    ComesFrom (returns i .whole t .prim r) (respondUnit r) := by
  rw [returns, subDone, ht, accessDone, hrv, hd]
  cases r <;> exact comes_respond _ _ _ _

/-- The return of BB_READ_BYTE is its response: its byte is in `SR`, and `SR` holds a value after a timeout too. -/
theorem comes_primitive_read (ack onull hnull : Bool) (s : State) :
    ComesFrom (returns (.bbReadByte ack onull hnull) .whole (.readByte ack) .prim (readByteSeq ack s))
      (.next (respondResult (fun x => some (x.setWidth 32)) (fun _ => none) (readByteSeq ack s))) := by
  have hsr := readByteSeq_sr_isSome ack s
  have hany := readByteSeq_any ack s
  rw [returns, subDone, primDone]
  cases hr : readByteSeq ack s with
  | ok x u =>
    simp only [Result.state_ok, readByteSeq_sr hr]
    exact comes_respond _ _ _ _
  | fail st u =>
    rw [hr] at hsr hany
    obtain ⟨x, hx⟩ := Option.isSome_iff_exists.1 hsr
    have hne : st ≠ .ok := by rw [hany.1]; decide
    simp only [Result.state_fail] at hx
    simp only [Result.state_fail, Result.status_fail, hx, accessDone, respondResult]
    rw [respond_fail hne]
    exact comes_respond _ _ _ _

/-! ## Modifies (43_facade_access.md R270, R272) -/

/-- A read that returned OK and the write of what `g` makes of its bytes. -/
theorem comes_modify {i : Instr} {g : List Byte → List Byte} {a : Word16} {n : Nat} {s : State} {p : Pos}
    (hn : 1 ≤ n)
    (hi : ∀ xs, modifyWriteOf i xs = some (.write a (g xs))) (hu : s.upc = .running i p) (hc : Carries n s.cfg) :
    ComesFrom (startAccess i .modifyRead (.read a n) s)
      (answerStatus ((memRead .modifyRead a n s).andThen fun xs t => memWrite .modifyWrite a (g xs) t)) := by
  refine comes_memRead a n hn s p hu hc.not_reserved ?_
  have hk := memRead_keeps .modifyRead a hn hu hc
  rcases hr : memRead .modifyRead a n s with (⟨xs, t⟩ | ⟨st, t⟩) | t | e
  · rw [hr] at hk
    obtain ⟨hct, q, hq⟩ := hk
    simp only [replyEnd, accessEnd, accessDone, hi, if_true, Reply.andThen_ok, id]
    refine comes_memWrite a (g xs) t q hq (by rw [hct]; exact hc.not_reserved) ?_
    rcases memWrite .modifyWrite a (g xs) t with (⟨y, u⟩ | ⟨st, u⟩) | u | e
    · exact comes_respond _ _ _ _
    · exact comes_respond _ _ _ _
    · rfl
    · rfl
  · rw [hr] at hk
    simp only [replyEnd, accessEnd, accessDone, Reply.andThen_fail]
    rw [if_neg hk]
    exact comes_respond _ _ _ _
  · rfl
  · rfl

/-! ## Every command -/

theorem one_le_of_atLeastOne {n : Word32} (h : atLeastOne n = true) : 1 ≤ n.toNat :=
  Nat.one_le_iff_ne_zero.2 fun h0 => (atLeastOne_iff n).1 h (BitVec.eq_of_toNat_eq h0)

/-- A scalar or burst read of the facade. -/
theorem comes_facade_read {i : Instr} {shape : Shape} {h o e : Bool} {a : Word16} {n : Nat} {s : State}
    {rv : List Byte → Option Word32} {d : List Byte → Option (List Byte)} (hn : 1 ≤ n)
    (h2 : shape = .u16 → n = 2) (hrv : ∀ xs, rv xs = rvalOf i xs) (hd : ∀ xs, d xs = dOutOf i xs)
    (ha : facadeEntry shape h o e s = true) :
    ComesFrom (startAccess i .whole (.read a n) (startCommand i s))
      (outcomeOf rv d (memRead .whole a n (startCommand i s))) := by
  have hc : Carries n (startCommand i s).cfg := facadeEntry_carries ha h2
  exact comes_memRead a n hn _ .entry rfl hc.not_reserved (replyEnd_whole hrv hd (memRead_keeps .whole a hn rfl hc))

/-- A scalar or burst write of the facade. -/
theorem comes_facade_write {i : Instr} {shape : Shape} {h o e : Bool} {a : Word16} {xs : List Byte} {s : State}
    (hrv : rvalOf i [] = none) (hd : dOutOf i [] = none) (ha : facadeEntry shape h o e s = true) :
    ComesFrom (startAccess i .whole (.write a xs) (startCommand i s))
      (answerStatus (memWrite .whole a xs (startCommand i s))) := by
  have hc : Carries 2 (startCommand i s).cfg := facadeEntry_carries ha fun _ => rfl
  exact comes_memWrite a xs _ .entry rfl hc.not_reserved
    (replyEnd_whole (fun _ => hrv.symm) (fun _ => hd.symm) (memWrite_keeps .whole a xs rfl hc))

/-- Settles O59: after the entry check the run follows the micro-program of each command, by the laws of the line
sequences, the transactions and the transports. -/
theorem microStepsRefineExec : Obligations.MicroStepsRefineExec := by
  intro i s hu
  change Comes (issue i s) (exec i s)
  cases i with
  | init c h =>
    rw [exec, execInit]
    refine comes_command hu rfl fun ha => ?_
    cases c <;> exact comes_respond _ _ _ _
  | deinit h =>
    rw [exec, execDeinit]
    exact comes_command hu rfl fun ha => comes_respond _ _ _ _
  | bbStart h =>
    rw [exec, execBbStart]
    exact comes_command hu rfl fun ha => comes_start _ (comes_primitive (fun _ _ => rfl) rfl rfl _)
  | bbStop h =>
    rw [exec, execBbStop]
    exact comes_command hu rfl fun ha => comes_stop _ (comes_primitive (fun _ _ => rfl) rfl rfl _)
  | bbWriteByte b h =>
    rw [exec, execBbWriteByte]
    exact comes_command hu rfl fun ha => comes_writeByte b _ (comes_primitive (fun _ _ => rfl) rfl rfl _)
  | bbReadByte ack o h =>
    rw [exec, execBbReadByte]
    exact comes_command hu rfl fun ha => comes_readByte ack _ (fun _ _ => rfl) (comes_primitive_read ack o h _)
  | bbWrite dev xs h =>
    rw [exec, execBbWrite]
    exact comes_command hu rfl fun ha =>
      comes_writeSeq dev xs _ (comes_whole (fun _ => rfl) (fun _ => rfl) (writeSeq_any dev xs _).failsProperly)
  | bbRead dev len o h =>
    rw [exec, execBbRead]
    refine comes_command hu rfl fun ha => ?_
    simp only [accepts, Bool.and_eq_true] at ha
    exact comes_readSeq dev _ (one_le_of_atLeastOne ha.2) _
      (comes_whole (fun _ => rfl) (fun _ => rfl) (readSeq_any dev _ _).failsProperly)
  | bbMemWrite dev aw a xs h =>
    rw [exec, execBbMemWrite]
    exact comes_command hu rfl fun ha => comes_memWriteSeq dev a aw xs _
      (comes_whole (fun _ => rfl) (fun _ => rfl) (memWriteSeq_any dev a aw xs _).failsProperly)
  | bbMemRead dev aw a len o h =>
    rw [exec, execBbMemRead]
    refine comes_command hu rfl fun ha => ?_
    simp only [accepts, Bool.and_eq_true] at ha
    exact comes_memReadSeq dev a aw _ (one_le_of_atLeastOne ha.2) _
      (comes_whole (fun _ => rfl) (fun _ => rfl) (memReadSeq_any dev a aw _ _).failsProperly)
  | bbIsDeviceReady dev n h =>
    rw [exec, execBbIsDeviceReady]
    refine comes_command hu rfl fun ha => ?_
    simp only [accepts, Bool.and_eq_true] at ha
    have hn := one_le_of_atLeastOne ha.2
    exact comes_trials dev (n.toNat - 1) 1 n.toNat (by omega) _ rfl
      (comes_whole (fun _ => rfl) (fun _ => rfl) (trials_any dev _ 1 _).failsProperly)
  | readU8 a o h | readU16 a o h | readU32 a o h =>
    simp only [exec, execReadU8, execReadU16, execReadU32]
    exact comes_command hu rfl fun ha => comes_facade_read (by decide) (by simp) (fun _ => rfl) (fun _ => rfl) ha
  | readBurst a len o h =>
    rw [exec, execReadBurst]
    refine comes_command hu rfl fun ha => ?_
    have hlen : atLeastOne len = true := by simpa using (facadeEntry_ready ha).2.1
    exact comes_facade_read (one_le_of_atLeastOne hlen) (by simp) (fun _ => rfl) (fun _ => rfl) ha
  | writeU8 a v h | writeU16 a v h | writeU32 a v h | writeBurst a xs h =>
    simp only [exec, execWriteU8, execWriteU16, execWriteU32, execWriteBurst]
    exact comes_command hu rfl fun ha => comes_facade_write rfl rfl ha
  | modifyU8 a m v h | modifyU16 a m v h =>
    simp only [exec, execModifyU8, execModifyU16]
    exact comes_command hu rfl fun ha =>
      comes_modify (by decide) (fun _ => rfl) rfl (facadeEntry_carries ha (by simp))

/-! ## No fault -/

theorem exec_ne_fault (i : Instr) (s : State) (r : Fault) : exec i s ≠ .fault r := by
  intro h
  have hran := exec_ran i s
  rw [h] at hran
  cases hran

/-- A run that has stopped with a fault stays there. -/
theorem microRun_fault_of_le {n m : Nat} {s : State} {r : Fault} (h : microRun n s = .fault r) (hm : n ≤ m) :
    microRun m s = .fault r := by
  induction n generalizing m s with
  | zero => cases h
  | succ n ih =>
    obtain ⟨m, rfl⟩ : ∃ k, m = k + 1 := ⟨m - 1, by omega⟩
    rw [microRun] at h ⊢
    cases hs : microStep s with
    | next t =>
      rw [hs] at h
      exact ih h (by omega)
    | fault e => rw [hs] at h; exact h
    | refused e => rw [hs] at h; exact h

/-- Settles O60: a fault of a run would be the outcome of `exec`, which never faults. -/
theorem noMicroProgramFaults : Obligations.NoMicroProgramFaults := by
  intro i s n r hu
  refine ⟨rfl, fun hf => ?_⟩
  obtain ⟨k, hk⟩ := microStepsRefineExec i s hu
  exact exec_ne_fault i s r ((hk (max n k) (le_max_right n k)).symm.trans (microRun_fault_of_le hf (le_max_left n k)))

end Sys2Proof.Machine
end

section
/-! SUPPORT. The entry of every command in one form: its checks are those of `accepts`, and a command that fails them
has the bare response (60_exceptions.md R301, 10_state.md R21, R38). -/

namespace Sys2Proof.Machine

/-- Every command is the checks of `accepts` and a body, which runs from the started state. -/
theorem exec_eq_command (i : Instr) : ∃ body, exec i = command i (accepts i) body := by
  cases i
  all_goals
    apply Exists.intro
    case h =>
      funext s
      simp only [exec, execInit, execDeinit, execBbStart, execBbStop, execBbWriteByte, execBbReadByte, execBbWrite,
        execBbRead, execBbMemWrite, execBbMemRead, execBbIsDeviceReady, execReadU8, execReadU16, execReadU32,
        execWriteU8, execWriteU16, execWriteU32, execReadBurst, execWriteBurst, execModifyU8, execModifyU16]
      rfl

/-- A command that fails its checks changes nothing but the response and the host's position. -/
theorem exec_rejected {i : Instr} {s : State} (hu : s.upc = .idle) (ha : accepts i s = false) :
    exec i s = .next (s.responded .invalidParam none none) := by
  obtain ⟨body, h⟩ := exec_eq_command i
  simp only [h, command, hu, ha]
  rfl

/-- A command does not see what the session registers held before it (R38). -/
theorem exec_session (i : Instr) (s : State) (x : Session) : exec i { s with session := x } = exec i s := by
  obtain ⟨body, h⟩ := exec_eq_command i
  have ha : accepts i { s with session := x } = accepts i s := by cases i <;> rfl
  simp only [h, command, ha]
  rfl

/-! ## The entry checks of the engine and the facade (R170, R250) -/

/-- The checks of an engine command are the engine's entry check, with the operand checks of R171 behind it. -/
theorem engineEntry_of_accepts {i : Instr} {s : State} {hnull onull : Bool}
    (hf : engineFlags i = some (hnull, onull)) (ha : accepts i s = true) : engineEntry hnull onull s = true := by
  cases i with
  | bbStart | bbStop | bbWriteByte | bbReadByte | bbWrite =>
    cases hf
    exact ha
  | bbRead | bbMemWrite | bbIsDeviceReady =>
    cases hf
    exact (Bool.and_eq_true_iff.1 ha).1
  | bbMemRead =>
    cases hf
    exact (Bool.and_eq_true_iff.1 (Bool.and_eq_true_iff.1 ha).1).1
  | init | deinit | readU8 | readU16 | readU32 | writeU8 | writeU16 | writeU32 | readBurst | writeBurst | modifyU8
  | modifyU16 => cases hf

/-- The shape of a facade access, by which the capability table tells the commands apart (R228). -/
def facadeShape : Instr → Shape
  | .readU8 _ _ _ | .writeU8 _ _ _ | .modifyU8 _ _ _ _ => .u8
  | .readU16 _ _ _ | .writeU16 _ _ _ | .modifyU16 _ _ _ _ => .u16
  | .readU32 _ _ _ | .writeU32 _ _ _ => .u32
  | _ => .burst

theorem facadeShape_eq_u16_iff (i : Instr) : facadeShape i = .u16 ↔ sixteenBit i = true := by
  cases i <;> simp [facadeShape, sixteenBit]

/-- The checks of a facade command are the facade's entry check. -/
theorem accepts_facade {i : Instr} {s : State} {hnull onull : Bool} (hf : facadeFlags i = some (hnull, onull)) :
    accepts i s = facadeEntry (facadeShape i) hnull onull (emptyBurst i) s := by
  cases i with
  | readU8 | readU16 | readU32 | writeU8 | writeU16 | writeU32 | writeBurst | modifyU8 | modifyU16 =>
    cases hf
    rfl
  | readBurst a len =>
    cases hf
    have hlen : (!atLeastOne len) = decide (len = 0) := by rw [atLeastOne, bne, Bool.not_not]; rfl
    rw [accepts, hlen]
    rfl
  | init | deinit | bbStart | bbStop | bbWriteByte | bbReadByte | bbWrite | bbRead | bbMemWrite | bbMemRead
  | bbIsDeviceReady => cases hf

/-- Settles O24: each condition contradicts the engine's entry check. -/
theorem engineEntryCheck : Obligations.EngineEntryCheck := by
  intro i s hnull onull hu hf hbad
  refine exec_rejected hu (Bool.eq_false_iff.2 fun ha => ?_)
  have he := engineEntry_of_accepts hf ha
  obtain ⟨hinit, c, hc⟩ := engineEntry_ready he
  simp only [engineEntry, Bool.and_eq_true, Bool.not_eq_true'] at he
  rcases hbad with h | h | h | h
  · simp [h] at he
  · simp [h] at hinit
  · exact h c hc
  · simp [h] at he

/-- Settles O35: each condition contradicts the facade's entry check. -/
theorem facadeEntryCheck : Obligations.FacadeEntryCheck := by
  intro i s hnull onull hu hf hbad
  refine exec_rejected hu (Bool.eq_false_iff.2 fun ha => ?_)
  rw [accepts_facade hf] at ha
  obtain ⟨hinit, hempty, hcap⟩ := facadeEntry_ready ha
  simp only [facadeEntry, Bool.and_eq_true, Bool.not_eq_true'] at ha
  rcases hbad with h | h | h | h | ⟨⟨c, hc⟩, h⟩
  · simp [h] at ha
  · simp [h] at hinit
  · simp [h] at ha
  · simp [h] at hempty
  · rcases hcap with ⟨d, hd⟩ | ⟨d, hd⟩ | ⟨-, h16⟩
    · simp [hc] at hd
    · simp [hc] at hd
    · simp [(facadeShape_eq_u16_iff i).1 h16] at h

/-! ## INIT (R210 to R212) -/

theorem portsPresent_iff (c : TransportConfig) : portsPresent c = true ↔ AllPortsPresent c := by
  cases c <;> simp [portsPresent, AllPortsPresent, and_assoc]

/-- Settles O12: the checks of INIT are a handle and a configuration with every port present. -/
theorem initCommand : Obligations.InitCommand := by
  refine ⟨fun s c hu hp => ?_, fun s c hu hp => ?_, fun s hu => ?_, fun s c hu => ?_⟩
  · rw [exec, execInit, command_accepted hu (by simp [initAccepts, (portsPresent_iff c).2 hp])]
    rfl
  · exact exec_rejected hu (by simpa [accepts, ← portsPresent_iff] using hp)
  · exact exec_rejected hu (by simp [accepts])
  · exact exec_rejected hu (by simp [accepts])

/-! ## Reset and the step (R22, R45) -/

/-- Settles O8: each register of the reset state, and the fault of a read of one without a value. -/
theorem resetState : Obligations.ResetState :=
  ⟨rfl, rfl, rfl, rfl, rfl, rfl, rfl, rfl, rfl, rfl, rfl,
    fun l => by cases l <;> exact ⟨_, rfl⟩, rfl, rfl, rfl⟩

/-- A command put at a position of a list is found there. -/
theorem placeAt_getElem? (ds : List Descriptor) (n : Nat) (d : Descriptor) : (placeAt ds n d)[n]? = some d := by
  induction n generalizing ds with
  | zero => cases ds <;> rfl
  | succ n ih => cases ds <;> simpa [placeAt] using ih _

theorem step_idle {s : State} (hu : s.upc = .idle) : step s = runNext s := by simp only [step, hu]

theorem step_fetched {s : State} {d : Descriptor} (hu : s.upc = .idle) (hd : s.program[s.hpc]? = some d) :
    step s = runDescriptor d s := by
  rw [step_idle hu, runNext, fetch, hd]

theorem step_decoded {s : State} {d : Descriptor} {i : Instr} (hu : s.upc = .idle) (hd : s.program[s.hpc]? = some d)
    (hi : decode d = .ok i) : step s = exec i s := by
  rw [step_fetched hu hd, runDescriptor, hi]

/-- Settles O9: the step of an idle block by what its host's list holds at its position. -/
theorem stepRunsTheCommand : Obligations.StepRunsTheCommand := by
  refine ⟨fun s d i => step_decoded, fun s nbits w i h => ?_, fun s hu hn => ?_, fun s i p hu => ?_⟩
  · refine step_decoded rfl (placeAt_getElem? s.program s.hpc (tableDescriptor nbits w)) ?_
    rw [decodeTableWord] at h
    cases hd : decode (tableDescriptor nbits w) with
    | ok j => rw [hd] at h; cases h; rfl
    | error e => rw [hd] at h; cases h
  · rw [step_idle hu, runNext, fetch, hn]
  · simp only [step, hu]

end Sys2Proof.Machine
end

section
/-! SUPPORT. What every command keeps, read off the inversion `exec_ran` (10_state.md R22 to R43, 60_exceptions.md R301
to R310): the handle, the trace and the host's position, the separation of the transports, the response registers. -/

namespace Sys2Proof.Machine

/-- A command that answers a next state is one of the cases of `exec_ran`. -/
theorem exec_next_ran {i : Instr} {s t : State} (h : exec i s = .next t) : Ran i s (.next t) := h ▸ exec_ran i s

/-- Settles O14: of the cases of a command only those of INIT and DEINIT write the handle. -/
theorem handleWrittenByInitAndDeinitAlone : Obligations.HandleWrittenByInitAndDeinitAlone := by
  intro i s t h
  cases exec_next_ran h with
  | invalid => exact ⟨rfl, rfl, fun _ _ => ⟨rfl, rfl⟩⟩
  | installed hu c f hi => exact ⟨rfl, rfl, fun hni _ => absurd hi (hni _ f)⟩
  | uninstalled hu f hi => exact ⟨rfl, rfl, fun _ hnd => absurd hi (hnd f)⟩
  | lineOk hu ha hi hc rval dOut u hans he =>
    obtain ⟨es, rest, a, b, x, -, rfl⟩ := he.frame
    exact ⟨rfl, rfl, fun _ _ => ⟨rfl, rfl⟩⟩
  | lineFail hu ha hi hc st u hst he =>
    obtain ⟨es, rest, a, b, x, -, rfl⟩ := he.frame
    exact ⟨rfl, rfl, fun _ _ => ⟨rfl, rfl⟩⟩
  | portOk | portFail | portStuck => exact ⟨rfl, rfl, fun _ _ => ⟨rfl, rfl⟩⟩

/-- Settles O49: every case is a response to the events of the command, or a call that has not returned. -/
theorem traceGrowsAndHostAdvances : Obligations.TraceGrowsAndHostAdvances := by
  intro i s t h
  cases exec_next_ran h with
  | invalid | installed | uninstalled => exact ⟨⟨[], by simp⟩, .inl ⟨rfl, rfl⟩⟩
  | lineOk hu ha hi hc rval dOut u hans he =>
    obtain ⟨es, rest, a, b, x, -, rfl⟩ := he.frame
    exact ⟨⟨es, rfl⟩, .inl ⟨rfl, rfl⟩⟩
  | lineFail hu ha hi hc st u hst he =>
    obtain ⟨es, rest, a, b, x, -, rfl⟩ := he.frame
    exact ⟨⟨es, rfl⟩, .inl ⟨rfl, rfl⟩⟩
  | portOk | portFail => exact ⟨⟨_, rfl⟩, .inl ⟨rfl, rfl⟩⟩
  | portStuck => exact ⟨⟨_, rfl⟩, .inr ⟨Upc.noConfusion, rfl, rfl⟩⟩

/-! ## The two transports (R40 to R42, R229) -/

theorem IsTransfer.off_lines {dev : Nat} {e : Event} (h : IsTransfer dev e) : e.onLines = false := by
  rcases h with ⟨xs, st, rfl⟩ | ⟨n, st, ys, rfl⟩ <;> rfl

theorem IsManagement.off_lines {dev : Nat} {e : Event} (h : IsManagement dev e) : e.onLines = false := by
  rcases h with ⟨reg, st, v, rfl⟩ | ⟨reg, v, st, rfl⟩ <;> rfl

/-- An access over ports does nothing on the lines. -/
theorem PortAccess.off_lines {c : Option TransportConfig} {es : List Event} (h : PortAccess c es) :
    ∀ e ∈ es, e.onLines = false := by
  rcases h with ⟨b, mid, -, -, rfl, hm⟩ | ⟨m, e, -, rfl, he⟩
  · intro e he
    simp only [List.mem_cons, List.mem_append, List.not_mem_nil, or_false] at he
    rcases he with rfl | he | rfl
    · rfl
    · exact (hm e he).off_lines
    · rfl
  · intro e' h'
    rw [List.mem_singleton.1 h']
    exact he.off_lines

theorem PartAccess.off_lines {c : Option TransportConfig} {es : List Event} {p : Pos} (h : PartAccess c es p) :
    ∀ e ∈ es, e.onLines = false := by
  rcases h with ⟨b, mid, leg, acc, -, rfl, hm, -⟩ | ⟨m, leg, acc, -, rfl, -⟩
  · intro e he
    rcases List.mem_cons.1 he with rfl | he
    · rfl
    · exact (hm e he).off_lines
  · simp

theorem accesses_off_lines {c : Option TransportConfig} {accs : List (List Event)}
    (h : ∀ es ∈ accs, PortAccess c es) : ∀ e ∈ accs.flatten, e.onLines = false := by
  intro e he
  obtain ⟨es, hes, he⟩ := List.mem_flatten.1 he
  exact (h es hes).off_lines e he

/-- Accesses and a last one whose call does not return. -/
theorem stuck_off_lines {c : Option TransportConfig} {accs : List (List Event)} {part : List Event} {p : Pos}
    (h : ∀ es ∈ accs, PortAccess c es) (hp : PartAccess c part p) :
    ∀ e ∈ accs.flatten ++ part, e.onLines = false := by
  intro e he
  rcases List.mem_append.1 he with he | he
  · exact accesses_off_lines h e he
  · exact hp.off_lines e he

/-- Settles O50: the port cases of a command need another configuration than two-wire, the line cases need that one. -/
theorem transportsAreSeparate : Obligations.TransportsAreSeparate := by
  constructor
  · rintro i s t ⟨c, hc⟩ h
    cases exec_next_ran h with
    | invalid | installed | uninstalled => exact ⟨rfl, [], by simp⟩
    | lineOk hu ha hi hc' rval dOut u hans he =>
      obtain ⟨es, rest, a, b, x, hes, rfl⟩ := he.frame
      exact ⟨rfl, es, rfl, hes⟩
    | lineFail hu ha hi hc' st u hst he =>
      obtain ⟨es, rest, a, b, x, hes, rfl⟩ := he.frame
      exact ⟨rfl, es, rfl, hes⟩
    | portOk hu ha hi hnc => exact absurd hc (hnc c)
    | portFail hu ha hi hnc => exact absurd hc (hnc c)
    | portStuck hu ha hi hnc => exact absurd hc (hnc c)
  · intro i s t hnc h
    cases exec_next_ran h with
    | invalid | installed | uninstalled => exact ⟨rfl, rfl, rfl, [], by simp⟩
    | lineOk hu ha hi hc => exact absurd hc.choose_spec (hnc _)
    | lineFail hu ha hi hc => exact absurd hc.choose_spec (hnc _)
    | portOk hu ha hi hc rval dOut hans accs rest p hl hacc =>
      exact ⟨rfl, rfl, rfl, _, rfl, accesses_off_lines hacc⟩
    | portFail hu ha hi hc st accs rest p hl hacc => exact ⟨rfl, rfl, rfl, _, rfl, accesses_off_lines hacc⟩
    | portStuck hu ha hi hc accs part rest p hl hacc hpart =>
      exact ⟨rfl, rfl, rfl, _, rfl, stuck_off_lines hacc hpart⟩

/-! ## Port failures and calls that do not return (R43, R276, R310) -/

theorem portStatus_of_onLines {e : Event} (h : e.onLines = true) : e.portStatus = none := by
  cases e <;> simp_all [Event.onLines, Event.portStatus]

/-- Settles O52: with a port's failure among its events a command is in the case of that failure. -/
theorem portFailurePassesThrough : Obligations.PortFailurePassesThrough := by
  intro i s t es e st h ht htr he hst hne
  have hline {es' : List Event} (htr' : t.trace = s.trace ++ es') (hes : ∀ e ∈ es', e.onLines = true) :
      t.status = some st := by
    have hee := List.append_cancel_left (htr.symm.trans htr')
    rw [portStatus_of_onLines (hes e (hee ▸ he))] at hst
    cases hst
  have hport {es' : List Event} (htr' : t.trace = s.trace ++ es') : e ∈ es' :=
    List.append_cancel_left (htr.symm.trans htr') ▸ he
  cases exec_next_ran h with
  | invalid | installed | uninstalled => exact hline (List.append_nil _).symm (by simp)
  | lineOk hu ha hi hc rval dOut u hans hle =>
    obtain ⟨es', rest, a, b, x, hes, rfl⟩ := hle.frame
    exact hline rfl hes
  | lineFail hu ha hi hc st' u hst' hle =>
    obtain ⟨es', rest, a, b, x, hes, rfl⟩ := hle.frame
    exact hline rfl hes
  | portOk hu ha hi hc rval dOut hans accs rest p hl hacc hr hok =>
    exact absurd (hok e (hport rfl) st hst) hne
  | portFail hu ha hi hc st' accs rest p hl hacc hr hf =>
    obtain ⟨-, -, hall⟩ := hf
    rw [(hall e (hport rfl) st hst).resolve_left hne]
    rfl
  | portStuck => cases ht

/-- Settles O54: the one case that does not return has a call that does not return among the answers. -/
theorem everyCommandReturns : Obligations.EveryCommandReturns := by
  intro i s hu hret
  have hran := exec_ran i s
  generalize exec i s = o at hran
  cases hran with
  | overlap hnu => exact absurd hu hnu
  | portStuck hu ha hi hc accs part rest p hl hacc hpart hr hn =>
    exact absurd rfl (hret _ (hr.subset (List.mem_of_mem_head? hn)))
  | portRefused hu ha hi hc r hne hr => exact .inr ⟨hne, r, rfl, hr⟩
  | invalid | installed | uninstalled | lineOk | lineFail | portOk | portFail => exact .inl ⟨_, rfl, rfl⟩

/-! ## The response registers (R37 to R39) -/

/-- A command that has returned is idle with no session, and has given OK with the data of its kind or another status
without data. -/
theorem exec_response {i : Instr} {s t : State} (h : exec i s = .next t) (ht : t.upc = .idle) :
    t.session = Session.clear ∧
    ((t.status = some .ok ∧ Answers i t.rval t.dOut) ∨
      ∃ st, st ≠ .ok ∧ t.status = some st ∧ t.rval = none ∧ t.dOut = none) := by
  have hfail {st : Status} {u : State} (hst : st ≠ .ok) (hr : t = respond st none none u) :
      ∃ st, st ≠ .ok ∧ t.status = some st ∧ t.rval = none ∧ t.dOut = none := by
    rw [hr]
    exact ⟨st, hst, rfl, if_neg hst, if_neg hst⟩
  cases exec_next_ran h with
  | invalid => exact ⟨rfl, .inr (hfail (by decide) rfl)⟩
  | installed hu c f hi =>
    subst hi
    exact ⟨rfl, .inl ⟨rfl, .status rfl rfl⟩⟩
  | uninstalled hu f hi =>
    subst hi
    exact ⟨rfl, .inl ⟨rfl, .status rfl rfl⟩⟩
  | lineOk hu ha hi hc rval dOut u hans => exact ⟨rfl, .inl ⟨rfl, hans⟩⟩
  | lineFail hu ha hi hc st u hst => exact ⟨rfl, .inr (hfail (ne_ok_of_line_failure hst) rfl)⟩
  | portOk hu ha hi hc rval dOut hans => exact ⟨rfl, .inl ⟨rfl, hans⟩⟩
  | portFail hu ha hi hc st accs rest p hl hacc hr hf => exact ⟨rfl, .inr (hfail hf.1 rfl)⟩
  | portStuck => cases ht

/-- Settles O11: the started command has a clear session, and so has every response. -/
theorem sessionNotPersisted : Obligations.SessionNotPersisted :=
  ⟨fun i s x _ => exec_session i s x, fun _ _ _ h ht => (exec_response h ht).1⟩

/-- Settles O48: the data of an OK are those of the command's kind, and a failure has none. -/
theorem responseRegisters : Obligations.ResponseRegisters := by
  intro i s t h ht
  obtain ⟨-, ⟨hok, hans⟩ | ⟨st, hst, hs, hr, hd⟩⟩ := exec_response h ht
  · simp [hok, hans.value, hans.bytes]
  · simp [hs, hr, hd, hst]

/-- A value in RVAL after a response has the width of its command. -/
theorem rval_width {i : Instr} {s t : State} {v : Word32} (h : exec i s = .next t) (ht : t.upc = .idle)
    (hv : t.rval = some v) : v.toNat < 2 ^ (8 * valueBytes i) := by
  obtain ⟨-, ⟨-, hans⟩ | ⟨st, -, -, hr, -⟩⟩ := exec_response h ht
  · exact hans.narrow v hv
  · rw [hr] at hv; cases hv

theorem dOut_length {i : Instr} {s t : State} {xs : List Byte} (h : exec i s = .next t) (ht : t.upc = .idle)
    (hxs : t.dOut = some xs) : xs.length = returnLength i := by
  obtain ⟨-, ⟨-, hans⟩ | ⟨st, -, -, -, hd⟩⟩ := exec_response h ht
  · exact hans.length xs hxs
  · rw [hd] at hxs; cases hxs

/-- An engine command always returns: over the lines no call is left waiting. -/
theorem engine_returns {i : Instr} {s t : State} {f : Bool × Bool} (hf : engineFlags i = some f)
    (h : exec i s = .next t) : t.upc = .idle := by
  cases exec_next_ran h with
  | portStuck hu ha hi hc =>
    obtain ⟨-, c, hc'⟩ := engineEntry_ready (engineEntry_of_accepts hf ha)
    exact absurd hc' (hc c)
  | invalid | installed | uninstalled | lineOk | lineFail | portOk | portFail => rfl

/-- Settles O47: the widths and lengths of the data of an OK. -/
theorem readWidths : Obligations.ReadWidths := by
  refine ⟨fun s t a o h v => rval_width, fun s t ack o h v he hv => ?_, fun s t a o h v => rval_width,
    fun s t i len xs hi he ht hxs => ?_⟩
  · exact rval_width he (engine_returns rfl he) hv
  · rw [dOut_length he ht hxs]
    rcases hi with ⟨dev, o, h, rfl⟩ | ⟨dev, aw, a, o, h, rfl⟩ | ⟨a, o, h, rfl⟩ <;> rfl

/-! ## The latches (R36, R160) -/

/-- No command reads the line latches. -/
theorem unread_latches : Unread fun s t => t = { s with outSda := t.outSda, outScl := t.outScl } where
  agree := by
    intro s t h
    rw [h]
    exact ⟨rfl, .inl rfl, rfl, rfl, rfl, rfl, rfl, rfl⟩
  setUpc := by intro s t u h; rw [h]; rfl
  setSession := by intro s t x h; rw [h]; rfl
  emit := by intro s t e h; rw [h]; rfl
  setOut := by intro s t l v h; rw [h]; cases l <;> rfl
  lineTail := by intro s t h; rw [h]
  answered := by intro s t h; rw [h]; rfl
  uninstall := by intro s t h; rw [h]; rfl
  respond := by intro s t st rval dOut h; rw [h]; rfl

/-- Settles O22: the latches are not read, so the two runs are alike. -/
theorem latchesAreNotRead : Obligations.LatchesAreNotRead := by
  intro i s a b
  have halike := unread_latches.exec i (.inr fun c s t h => by rw [h]; rfl)
    (rfl : { s with outSda := a, outScl := b } = { s with outSda := a, outScl := b })
  generalize exec i s = o, exec i { s with outSda := a, outScl := b } = o' at halike ⊢
  cases halike with
  | next h => exact h
  | fault r => rfl
  | refused r => rfl

end Sys2Proof.Machine
end

section
/-! SUPPORT. The invariant of the machine and its steps (10_state.md R35 to R39, 40_bitbang_primitives.md R161,
42_transport_and_handle.md R224, 60_exceptions.md R310). -/

namespace Sys2Proof.Machine

/-! ## Events that are not on the lines leave latches and reads alone -/

theorem lastDriven_off_lines (l : Line) {es : List Event} (h : ∀ e ∈ es, e.onLines = false) :
    lastDriven l es = none := by
  induction es with
  | nil => rfl
  | cons e es ih =>
    have hes := ih fun e he => h e (List.mem_cons_of_mem _ he)
    have he := h e (List.mem_cons_self ..)
    cases e with
    | drive l' v => cases he
    | delay | read | csAssert | csDeassert | btWrite | btRead | btTransfer | mgRead | mgWrite => exact hes

theorem ReadsReleased.append_off_lines {tr es : List Event} (h : ReadsReleased tr)
    (hes : ∀ e ∈ es, e.onLines = false) : ReadsReleased (tr ++ es) := by
  induction es using List.reverseRecOn with
  | nil => simpa using h
  | append_singleton es e ih =>
    rw [← List.append_assoc]
    refine readsReleased_append_one _ e (ih fun e' he' => hes e' (by simp [he'])) ?_
    rintro l v rfl
    exact absurd (hes (.read l v) (by simp)) (by simp [Event.onLines])

/-- The latches agree with the trace, and every read was of a released line. -/
def State.LinesInv (s : State) : Prop := s.LatchInv ∧ ReadsReleased s.trace

theorem LineEffect.linesInv {s t : State} (h : LineEffect s t) (hs : s.LinesInv) : t.LinesInv :=
  (State.latchFrom_nil t).1 (h.latch [] ((State.latchFrom_nil s).2 hs))

theorem State.LinesInv.called {s : State} (h : s.LinesInv) {es : List Event} (rest : List PortAnswer) (u : Upc)
    (hes : ∀ e ∈ es, e.onLines = false) : (s.called es rest u).LinesInv := by
  obtain ⟨⟨ha, hb⟩, hr⟩ := h
  refine ⟨⟨?_, ?_⟩, hr.append_off_lines hes⟩
  · rw [State.called_trace, lastDriven_append, lastDriven_off_lines _ hes]
    exact ha
  · rw [State.called_trace, lastDriven_append, lastDriven_off_lines _ hes]
    exact hb

/-! ## The chip-select (R224) -/

theorem chipSelect_append (tr es : List Event) : chipSelect (tr ++ es) = es.foldl ChipSelect.after (chipSelect tr) :=
  List.foldl_append

/-- What happens on the lines leaves the chip-select alone. -/
theorem chipSelect_on_lines (c : ChipSelect) {es : List Event} (h : ∀ e ∈ es, e.onLines = true) :
    es.foldl ChipSelect.after c = c := by
  induction es with
  | nil => rfl
  | cons e es ih =>
    have he : c.after e = c := by
      have hon := h e (List.mem_cons_self ..)
      cases e with
      | drive | delay | read => cases c <;> rfl
      | csAssert | csDeassert | btWrite | btRead | btTransfer | mgRead | mgWrite => cases hon
    rw [List.foldl_cons, he]
    exact ih fun e' h' => h e' (List.mem_cons_of_mem _ h')

/-- Transfers keep the chip-select of their device asserted. -/
theorem chipSelect_transfers (dev : Nat) {es : List Event} (h : ∀ e ∈ es, IsTransfer dev e) :
    es.foldl ChipSelect.after (.low dev) = .low dev := by
  induction es with
  | nil => rfl
  | cons e es ih =>
    have he : ChipSelect.after (.low dev) e = .low dev := by
      rcases h e (List.mem_cons_self ..) with ⟨xs, st, rfl⟩ | ⟨n, st, ys, rfl⟩ <;> simp [ChipSelect.after]
    rw [List.foldl_cons, he]
    exact ih fun e' h' => h e' (List.mem_cons_of_mem _ h')

theorem IsManagement.chipSelect {dev : Nat} {e : Event} (h : IsManagement dev e) (c : ChipSelect) : c.after e = c := by
  rcases h with ⟨reg, st, v, rfl⟩ | ⟨reg, v, st, rfl⟩ <;> cases c <;> rfl

/-- A whole access asserts the chip-select and deasserts it again, or does not touch it. -/
theorem PortAccess.chipSelect {c : Option TransportConfig} {es : List Event} (h : PortAccess c es) :
    es.foldl ChipSelect.after .high = .high := by
  rcases h with ⟨b, mid, -, -, rfl, hm⟩ | ⟨m, e, -, rfl, he⟩
  · rw [List.foldl_cons, List.foldl_append]
    change List.foldl ChipSelect.after (List.foldl ChipSelect.after (.low b.btDev) mid) _ = _
    rw [chipSelect_transfers b.btDev hm]
    simp [ChipSelect.after]
  · exact he.chipSelect .high

theorem chipSelect_accesses {c : Option TransportConfig} {accs : List (List Event)}
    (h : ∀ es ∈ accs, PortAccess c es) : accs.flatten.foldl ChipSelect.after .high = .high := by
  induction accs with
  | nil => rfl
  | cons es accs ih =>
    rw [List.flatten_cons, List.foldl_append, (h es (List.mem_cons_self ..)).chipSelect]
    exact ih fun es' h' => h es' (List.mem_cons_of_mem _ h')

/-- An access whose call does not return has at most asserted the chip-select. -/
theorem PartAccess.chipSelect {c : Option TransportConfig} {es : List Event} {p : Pos} (h : PartAccess c es p) :
    es.foldl ChipSelect.after .high ≠ .broken := by
  rcases h with ⟨b, mid, leg, acc, -, rfl, hm, -⟩ | ⟨m, leg, acc, -, rfl, -⟩
  · rw [List.foldl_cons]
    change List.foldl ChipSelect.after (.low b.btDev) mid ≠ _
    rw [chipSelect_transfers b.btDev hm]
    exact ChipSelect.noConfusion
  · exact ChipSelect.noConfusion

/-! ## Responses and calls that have not returned -/

/-- A response meets the invariant if the handle, the lines and the chip-select before it do. -/
theorem respond_inv {u : State} (st : Status) (rval : Option Word32) (dOut : Option (List Byte)) (hc : u.ConfigInv)
    (hl : u.LinesInv) (hcs : chipSelect u.trace = .high) : (respond st rval dOut u).Inv where
  config := hc
  response := by
    intro h
    have hst : st ≠ .ok := fun he => h (congrArg some he)
    exact ⟨if_neg hst, if_neg hst⟩
  session := rfl
  latch := hl.1
  released := hl.2
  chipSelect := ⟨by rw [respond_trace, hcs]; decide, fun _ => hcs⟩
  position := .inl rfl

theorem State.Inv.linesInv {s : State} (h : s.Inv) : s.LinesInv := ⟨h.latch, h.released⟩

/-- The part of an access up to a call that does not return ends at that call. -/
theorem PartAccess.inCall {s : State} {part es : List Event} {p : Pos} {rest : List PortAnswer} {i : Instr}
    (h : PartAccess s.cfg part p) (hn : rest.head? = some .noReturn) :
    (s.called es rest (.running i p)).InCall := by
  refine ⟨hn, ?_⟩
  rcases h with ⟨b, mid, leg, acc, hc, -, -, rfl | rfl⟩ | ⟨m, leg, acc, hc, -, rfl⟩
  · exact ⟨i, leg, acc, .inl ⟨rfl, b, hc⟩⟩
  · exact ⟨i, leg, acc, .inr (.inl ⟨rfl, b, hc⟩)⟩
  · exact ⟨i, leg, acc, .inr (.inr ⟨rfl, m, hc⟩)⟩

/-- Every command keeps the invariant. -/
theorem exec_inv {i : Instr} {s t : State} (hs : s.Inv) (h : exec i s = .next t) : t.Inv := by
  have hidle (hu : s.upc = .idle) : chipSelect s.trace = .high := hs.chipSelect.2 hu
  have hline {u : State} (hu : s.upc = .idle) (he : LineEffect (startCommand i s) u) (st : Status)
      (rval : Option Word32) (dOut : Option (List Byte)) : (respond st rval dOut u).Inv := by
    have hl : u.LinesInv := he.linesInv hs.linesInv
    obtain ⟨es, rest, a, b, x, hes, rfl⟩ := he.frame
    refine respond_inv st rval dOut hs.config hl ?_
    rw [State.bus_trace, chipSelect_append, chipSelect_on_lines _ hes]
    exact hidle hu
  have hport {accs : List (List Event)} (hu : s.upc = .idle) (hacc : ∀ es ∈ accs, PortAccess s.cfg es)
      (rest : List PortAnswer) (p : Pos) (st : Status) (rval : Option Word32) (dOut : Option (List Byte)) :
      (respond st rval dOut ((startCommand i s).called accs.flatten rest (.running i p))).Inv := by
    have hl : (startCommand i s).LinesInv := hs.linesInv
    refine respond_inv st rval dOut hs.config (hl.called rest _ (accesses_off_lines hacc)) ?_
    rw [State.called_trace, chipSelect_append, startCommand_trace, hidle hu]
    exact chipSelect_accesses hacc
  cases exec_next_ran h with
  | invalid hu => exact respond_inv _ none none hs.config hs.linesInv (hidle hu)
  | installed hu c f hi hp =>
    exact respond_inv _ none none ⟨fun _ => ⟨c, rfl, hp⟩, fun hf => Bool.noConfusion hf⟩ hs.linesInv (hidle hu)
  | uninstalled hu =>
    exact respond_inv _ none none ⟨fun hf => Bool.noConfusion hf, fun _ => rfl⟩ hs.linesInv (hidle hu)
  | lineOk hu ha hi hc rval dOut u hans he => exact hline hu he _ _ _
  | lineFail hu ha hi hc st u hst he => exact hline hu he _ _ _
  | portOk hu ha hi hc rval dOut hans accs rest p hl hacc => exact hport hu hacc rest p _ _ _
  | portFail hu ha hi hc st accs rest p hl hacc => exact hport hu hacc rest p _ _ _
  | portStuck hu ha hi hc accs part rest p hl hacc hpart hr hn =>
    have hl : (startCommand i s).LinesInv := hs.linesInv
    obtain ⟨hlatch, hreleased⟩ := hl.called rest (.running i p) (stuck_off_lines hacc hpart)
    exact
      { config := hs.config
        response := hs.response
        session := rfl
        latch := hlatch
        released := hreleased
        chipSelect := by
          refine ⟨?_, Upc.noConfusion⟩
          rw [State.called_trace, chipSelect_append, startCommand_trace, hidle hu, List.foldl_append,
            chipSelect_accesses hacc]
          exact hpart.chipSelect
        position := .inr (PartAccess.inCall (s := startCommand i s) hpart hn) }

/-! ## Steps -/

theorem statusAnswer_noReturn {s : State} (h : s.portIn.head? = some .noReturn) : statusAnswer s = .noReturn := by
  obtain ⟨rest, hp⟩ := List.head?_eq_some_iff.1 h
  rw [statusAnswer, hp]

theorem bytesAnswer_noReturn {s : State} (n : Nat) (h : s.portIn.head? = some .noReturn) :
    bytesAnswer n s = .noReturn := by
  obtain ⟨rest, hp⟩ := List.head?_eq_some_iff.1 h
  rw [bytesAnswer, hp]

theorem valueAnswer_noReturn {s : State} (h : s.portIn.head? = some .noReturn) : valueAnswer s = .noReturn := by
  obtain ⟨rest, hp⟩ := List.head?_eq_some_iff.1 h
  rw [valueAnswer, hp]

/-- A block in a call that does not return stays there (R310). -/
theorem State.InCall.step {s : State} (h : s.InCall) : step s = .next s := by
  obtain ⟨hn, i, leg, acc, ⟨hu, c, hc⟩ | ⟨hu, c, hc⟩ | ⟨hu, c, hc⟩⟩ := h
  · simp only [Machine.step, microStep, hu, hc, headerStep, callBtWrite, callStatus, statusAnswer_noReturn hn,
      afterCall]
  · cases acc <;>
      simp only [Machine.step, microStep, hu, hc, dataStep, callBtRead, callBtWrite, callStatus,
        statusAnswer_noReturn hn, bytesAnswer_noReturn _ hn, afterCall]
  · cases acc <;>
      simp only [Machine.step, microStep, hu, hc, mgmtStep, callMgRead, callMgWrite, callStatus,
        statusAnswer_noReturn hn, valueAnswer_noReturn hn, afterCall]

/-- Settles O58: a block in a call stays there, and an idle one waits, responds to a malformed descriptor or runs a
command, which keeps the invariant. -/
theorem stepKeepsInvariant : Obligations.StepKeepsInvariant := by
  intro s t hs h
  rcases hs.position with hu | hcall
  · rw [step_idle hu, runNext] at h
    cases hd : fetch s with
    | none =>
      rw [hd] at h
      cases h
      exact hs
    | some d =>
      simp only [hd, runDescriptor] at h
      cases hi : decode d with
      | ok i =>
        rw [hi] at h
        exact exec_inv hs h
      | error e =>
        rw [hi] at h
        cases h
        exact respond_inv _ none none hs.config hs.linesInv (hs.chipSelect.2 hu)
  · rw [hcall.step] at h
    cases h
    exact hs

/-- Settles O57: at reset there is no configuration, no value and no event. -/
theorem resetMeetsInvariant : Obligations.ResetMeetsInvariant where
  config := ⟨fun h => Bool.noConfusion h, fun _ => rfl⟩
  response := fun _ => ⟨rfl, rfl⟩
  session := rfl
  latch := ⟨rfl, rfl⟩
  released := fun before l v after h => absurd h (by simp [State.reset])
  chipSelect := ⟨ChipSelect.noConfusion, fun _ => rfl⟩
  position := .inl rfl

end Sys2Proof.Machine
end

section
/-! SUPPORT. The rows of the opcode map as numbers and bits (30_encoding.md R97, R98): a row admits a descriptor exactly
where the decoder finds no error of R98 (a) to (d) in it, and malformed descriptors are those the decoder refuses. -/

namespace Sys2Proof

/-- The row of the opcode map of an opcode (R97). -/
def Op.row (op : Op) : MapRow :=
  ⟨op.code.toNat, op.pattern, op.mask, op.w1Bits, op.w2Bits, op.w3Bits, op.carriesData⟩

theorem opcodeMap_eq : opcodeMap = Op.all.map Op.row := by decide

theorem Op.mem_all (op : Op) : op ∈ Op.all := by cases op <;> decide

theorem opc_toNat (d : Descriptor) : d.opc.toNat = d.w0.toNat / 2 ^ 24 := by
  have := d.w0.isLt
  rw [Descriptor.opc, BitVec.extractLsb'_toNat, Nat.shiftRight_eq_div_pow]
  omega

/-- The opcode of a descriptor, as a number and as found in the table. -/
theorem ofCode_opc_iff (op : Op) (d : Descriptor) :
    Op.ofCode d.opc = some op ↔ d.w0.toNat / 2 ^ 24 = op.code.toNat := by
  rw [← opc_toNat]
  constructor
  · intro h
    rw [Op.code_of_ofCode h]
  · intro h
    rw [BitVec.eq_of_toNat_eq h, Op.ofCode_code]

/-- A word uses no bit outside `free`: the two ways of saying it. -/
theorem or_eq_right_iff {w : Nat} (v free : BitVec w) : v ||| free = free ↔ v &&& ~~~free = 0 := by
  simp only [BitVec.eq_of_getLsbD_eq_iff, BitVec.getLsbD_or, BitVec.getLsbD_and, BitVec.getLsbD_not,
    BitVec.ofNat_eq_ofNat, BitVec.getLsbD_zero]
  refine forall₂_congr fun k hk => ?_
  rw [decide_eq_true hk]
  cases v.getLsbD k <;> cases free.getLsbD k <;> decide

theorem wordError_eq_none_iff (op : Op) (d : Descriptor) :
    op.wordError d = none ↔ d.w0 &&& op.mask = op.pattern ∧ d.w1 &&& ~~~op.w1Bits = 0 ∧
      d.w2 &&& ~~~op.w2Bits = 0 ∧ d.w3 &&& ~~~op.w3Bits = 0 := by
  unfold Op.wordError
  split_ifs with h0 h1 h2 h3
  all_goals simp_all

theorem dataError_eq_none_iff (op : Op) (d : Descriptor) :
    op.dataError d = none ↔ d.dIn.length = (if op.carriesData then d.w2.toNat else 0) := by
  unfold Op.dataError
  generalize (if op.carriesData then d.w2.toNat else 0) = n
  by_cases h : d.dIn.length = n <;> simp [h]

/-- A row admits a descriptor where its opcode is the row's and R98 (b) to (d) find no error. -/
theorem row_admits_iff (op : Op) (d : Descriptor) :
    op.row.admits d ↔ Op.ofCode d.opc = some op ∧ op.wordError d = none ∧ op.dataError d = none := by
  rw [ofCode_opc_iff, wordError_eq_none_iff, dataError_eq_none_iff]
  simp only [MapRow.admits, Op.row, or_eq_right_iff, and_assoc]
  exact Iff.rfl

theorem exists_row_iff (d : Descriptor) :
    (∃ r ∈ opcodeMap, r.admits d) ↔
      ∃ op, Op.ofCode d.opc = some op ∧ op.wordError d = none ∧ op.dataError d = none := by
  simp only [opcodeMap_eq, List.mem_map, Op.mem_all, true_and, exists_exists_eq_and, row_admits_iff]

theorem f1_eq (d : Descriptor) : d.f1 = decide (d.w0.toNat / 2 % 2 = 1) := by
  rw [Descriptor.f1, BitVec.getLsbD, Nat.testBit_eq_decide_div_mod_eq, pow_one]

/-- R98 (e), where a `CFGIN` accompanies an INIT alone. -/
theorem configError_eq_none_iff (op : Op) (d : Descriptor) (h : d.cfgIn = none ∨ op = .init) :
    op.configError d = none ↔ ¬ (op = .init ∧ (d.cfgIn.isSome ↔ d.w0.toNat / 2 % 2 = 1)) := by
  rw [Op.configError, f1_eq]
  by_cases hop : op = .init
  · cases d.cfgIn <;> by_cases hb : d.w0.toNat / 2 % 2 = 1 <;> simp [hop, hb]
  · rw [h.resolve_right hop]
    simp [hop]

/-- With an opcode of the table, the decoder refuses what R98 (b) to (e) find. -/
theorem decode_error_iff_of_opcode (op : Op) (d : Descriptor) (hop : Op.ofCode d.opc = some op) :
    (∃ e, decode d = .error e) ↔
      ¬ (op.wordError d = none ∧ op.dataError d = none ∧ op.configError d = none) := by
  simp only [decode, hop]
  cases op.wordError d <;> cases op.dataError d <;> cases op.configError d <;> simp

/-- The decoder refuses exactly the malformed descriptors (R98). -/
theorem decode_error_iff (d : Descriptor) (h : d.cfgIn = none ∨ d.w0.toNat / 2 ^ 24 = 1) :
    (∃ e, decode d = .error e) ↔ d.Malformed := by
  have hinit (op : Op) (hop : Op.ofCode d.opc = some op) : op = .init ↔ d.w0.toNat / 2 ^ 24 = 1 := by
    have h1 : Op.ofCode d.opc = some .init ↔ d.w0.toNat / 2 ^ 24 = 1 := ofCode_opc_iff .init d
    rw [← h1, hop, Option.some.injEq]
  rw [Descriptor.Malformed, exists_row_iff]
  cases hop : Op.ofCode d.opc with
  | none => simp [decode, hop]
  | some op =>
    rw [decode_error_iff_of_opcode op d hop, configError_eq_none_iff op d (h.imp id (hinit op hop).2), ← hinit op hop]
    simp only [Option.some.injEq, exists_eq_left']
    tauto

/-- The opcodes without a row (R98). -/
theorem reserved_opcodes (k : Nat) (hk : k < 256) : (∀ r ∈ opcodeMap, r.opc ≠ k) ↔
    k = 0 ∨ (3 ≤ k ∧ k ≤ 0x0F) ∨ (0x19 ≤ k ∧ k ≤ 0x1F) ∨ k = 0x23 ∨ k = 0x27 ∨ 0x2C ≤ k := by
  simp [opcodeMap]
  omega

end Sys2Proof

namespace Sys2Proof.Machine

/-- Settles O2: the decoder's errors are R98's, the rows leave the listed opcodes, and a refused descriptor has the bare
response. -/
theorem malformedDescriptors : Obligations.MalformedDescriptors := by
  refine ⟨decode_error_iff, reserved_opcodes, fun s d hu hd h hm => ?_⟩
  obtain ⟨e, he⟩ := (decode_error_iff d h).2 hm
  rw [step_fetched hu hd, runDescriptor, he]
  rfl

end Sys2Proof.Machine
end

section
/-! SUPPORT. The engine's four transactions up to their STOP, and that STOP where its wait runs out
(41_bitbang_transactions.md R172 to R182): each transaction is the steps of `wireUnits`, then `finishOk`. -/

namespace Sys2Proof.Machine

/-! ## A STOP whose wait runs out (R145) -/

theorem raiseScl_held (n : Bound) (rest : List Bit) (s : State) (h : s.lineIn = ansHeld n ++ rest) :
    raiseScl n s = .fail .timeout (s.bus (evHeld n) rest s.outSda (some true) { s.session with sc := some n.val }) := by
  rw [raiseScl, waitScl_held n rest _ (by simpa [ansHeld] using h)]
  simp [dly_eq_bus, drv_scl_eq_bus, evRaise, evHeld]

theorem stopSeq_held (rest : List Bit) (s : State) (h : s.lineIn = ansHeld s.params.nStop ++ rest) :
    ∃ x, stopSeq s = .fail .timeout (s.bus (evStopHeld s) rest (some false) (some true) x) := by
  rw [stopSeq, raiseScl_held _ rest _ (by simpa using h), Result.andThen_fail, drv_sda_eq_bus, State.bus_bus]
  exact ⟨_, rfl⟩

/-- `FINISH(OK)` whose STOP runs out: what was read is not returned (R172). -/
theorem finishOk_held {α : Type} (y : α) (rest : List Bit) (s : State)
    (h : s.lineIn = ansHeld s.params.nStop ++ rest) :
    ∃ x, finishOk y s = .fail .timeout (s.bus (evStopHeld s) rest (some false) (some true) x) := by
  obtain ⟨x, hx⟩ := stopSeq_held rest s h
  exact ⟨x, by rw [finishOk, hx, Result.andThen_fail]⟩

/-! ## The data phases up to the STOP (R174 to R182) -/

/-- The transaction `r` from `s` comes to its STOP after the events `es`, with `y` to return. -/
def ComesToStop {α : Type} (s : State) (es : List Event) (rest : List Bit) (y : α) (r : Result α) : Prop :=
  ∃ a b x, r = finishOk y (s.bus es rest a b x)

theorem ComesToStop.held {α : Type} {s : State} {es : List Event} {rest : List Bit} {y : α} {r : Result α}
    (h : ComesToStop s es (ansHeld s.params.nStop ++ rest) y r) :
    ∃ x, r = .fail .timeout (s.bus (es ++ evStopHeld s) rest (some false) (some true) x) := by
  obtain ⟨a, b, x, rfl⟩ := h
  obtain ⟨z, hz⟩ := finishOk_held y rest (s.bus es (ansHeld s.params.nStop ++ rest) a b x) rfl
  exact ⟨z, by rw [hz, State.bus_bus]; rfl⟩

theorem ComesToStop.behind {α : Type} {s : State} {es es' : List Event} {rest rest' : List Bit} {a b : Option Bit}
    {x : Session} {y : α} {r : Result α} (h : ComesToStop (s.bus es rest a b x) es' rest' y r) :
    ComesToStop s (es ++ es') rest' y r := by
  obtain ⟨a', b', x', rfl⟩ := h
  exact ⟨a', b', x', by rw [State.bus_bus]⟩

theorem writeData_comesToStop (bi : Nat) (xs : List Byte) (rest : List Bit) (s : State)
    (h : s.lineIn = ansWs xs ++ rest) : ComesToStop s (evWs xs) rest () (writeData bi xs s) := by
  induction xs generalizing bi s with
  | nil =>
    have h' : s.lineIn = rest := by simpa [ansWs] using h
    exact ⟨s.outSda, s.outScl, s.session, by simp [writeData, evWs, State.bus, ← h']⟩
  | cons y ys ih =>
    obtain ⟨x, hx⟩ := writeByteSeq_acked y (ansWs ys ++ rest) s (by simpa [ansWs] using h)
    rw [writeData, hx, Result.orFinish_ok, State.setBi, setSession_eq_bus, State.bus_bus]
    exact (ih (bi + 1) _ rfl).behind

/-- A received byte goes into `BUF`, and `BI` counts it. -/
theorem bus_setBuf_setBi (es : List Event) (rest : List Bit) (a b : Option Bit) (x : Session) (xs : List Byte) (k : Nat)
    (s : State) :
    ((s.bus es rest a b x).setBuf xs).setBi k = s.bus es rest a b { x with buf := some xs, bi := some k } := rfl

theorem readData_comesToStop (bi : Nat) (buf : List Byte) (y : Byte) (ys : List Byte) (rest : List Bit) (s : State)
    (h : s.lineIn = ansRbs (y :: ys) ++ rest) :
    ComesToStop s (evRbs (y :: ys)) rest (buf ++ y :: ys) (readData ys.length bi buf s) := by
  induction ys generalizing bi buf y s with
  | nil =>
    obtain ⟨x, hx⟩ := readByteSeq_plain false y rest s (by simpa [ansRbs] using h)
    rw [List.length_nil, readData, hx, Result.orFinish_ok, bus_setBuf_setBi]
    exact ⟨_, _, _, rfl⟩
  | cons w ws ih =>
    obtain ⟨x, hx⟩ := readByteSeq_plain true y (ansRbs (w :: ws) ++ rest) s (by simpa [ansRbs] using h)
    rw [List.length_cons, readData, hx, Result.orFinish_ok, bus_setBuf_setBi, List.append_cons buf y]
    exact (ih (bi + 1) (buf ++ [y]) w _ rfl).behind

theorem ComesToStop.session {α : Type} {s : State} {x : Session} {es : List Event} {rest : List Bit} {y : α}
    {r : Result α} (h : ComesToStop (s.setSession x) es rest y r) : ComesToStop s es rest y r := by
  rw [setSession_eq_bus] at h
  exact h.behind

theorem readPhase_comesToStop {n : Nat} {xs : List Byte} (hxs : xs ≠ []) (hn : xs.length = n) (rest : List Bit)
    (s : State) (h : s.lineIn = ansRbs xs ++ rest) : ComesToStop s (evRbs xs) rest xs (readPhase n s) := by
  obtain ⟨y, ys, rfl⟩ := List.exists_cons_of_ne_nil hxs
  rw [readPhase, ← hn, List.length_cons, Nat.add_sub_cancel]
  exact (readData_comesToStop 0 [] y ys rest ((s.setBuf []).setBi 0) h).session.session

theorem writePhase_comesToStop (xs : List Byte) (rest : List Bit) (s : State) (h : s.lineIn = ansWs xs ++ rest) :
    ComesToStop s (evWs xs) rest () (writeData 0 xs (s.setBi 0)) := by
  have hd := writeData_comesToStop 0 xs rest (s.setBi 0) h
  exact hd.session

/-! ## Whole transactions up to the STOP -/

/-- From every state with the parameters `p` whose answers begin with `as`, `f` comes to its STOP after `es`. -/
def PhaseToStop {α : Type} (p : Params) (es : List Event) (as rest : List Bit) (y : α)
    (f : State → Result α) : Prop :=
  ∀ t : State, t.params = p → t.lineIn = as ++ rest → ComesToStop t es rest y (f t)

section
variable {α : Type} {p : Params} {f : State → Result α} {es : List Event} {as rest : List Bit} {y : α}

theorem PhaseToStop.addressed (h : PhaseToStop p es as rest y f) (dev : Byte) (rw : Direction) :
    PhaseToStop p (evS ++ evW (addrByte p.addrMode dev rw) false ++ es) (ansS ++ ansW false ++ as) rest y
      (addressed dev rw f) := by
  rintro t rfl ht
  obtain ⟨x, hx⟩ := addressed_acked dev rw f (as ++ rest) t (by simpa using ht)
  rw [hx]
  have hf := h (t.bus (evS ++ evW (addrByteOf dev rw t) false) (as ++ rest) (some true) (some false) x) rfl rfl
  exact hf.behind

theorem PhaseToStop.sendAddress (h : PhaseToStop p es as rest y f) (ms : List Byte) :
    PhaseToStop p (evWs ms ++ es) (ansWs ms ++ as) rest y (sendAddress f ms) := by
  induction ms with
  | nil => exact h
  | cons m ms ih =>
    rintro t rfl ht
    obtain ⟨x, hx⟩ := writeByteSeq_acked m (ansWs ms ++ as ++ rest) t (by simpa [ansWs] using ht)
    rw [Machine.sendAddress, hx, Result.orFinish_ok]
    have hf := ih (t.bus (evW m false) (ansWs ms ++ as ++ rest) (some true) (some false) x) rfl rfl
    have he : evWs (m :: ms) ++ es = evW m false ++ (evWs ms ++ es) := List.append_assoc _ _ _
    rw [he]
    exact hf.behind
end

/-! The four transactions, each a phase behind the other. -/

theorem writeData_toStop (p : Params) (xs : List Byte) (rest : List Bit) :
    PhaseToStop p (evWs xs) (ansWs xs) rest () (fun s => writeData 0 xs (s.setBi 0)) :=
  fun t _ ht => writePhase_comesToStop xs rest t ht

theorem readPhase_toStop (p : Params) {xs : List Byte} (hxs : xs ≠ []) (rest : List Bit) :
    PhaseToStop p (evRbs xs) (ansRbs xs) rest xs (readPhase xs.length) :=
  fun t _ ht => readPhase_comesToStop hxs rfl rest t ht

theorem writeSeq_toStop (p : Params) (dev : Byte) (xs : List Byte) (rest : List Bit) :
    PhaseToStop p (evS ++ evW (addrByte p.addrMode dev .write) false ++ evWs xs) (ansS ++ ansW false ++ ansWs xs)
      rest () (writeSeq dev xs) := (writeData_toStop p xs rest).addressed dev .write

theorem readSeq_toStop (p : Params) (dev : Byte) {xs : List Byte} (hxs : xs ≠ []) (rest : List Bit) :
    PhaseToStop p (evS ++ evW (addrByte p.addrMode dev .read) false ++ evRbs xs) (ansS ++ ansW false ++ ansRbs xs)
      rest xs (readSeq dev xs.length) := (readPhase_toStop p hxs rest).addressed dev .read

theorem memWriteSeq_toStop (p : Params) (dev : Byte) (a : Word16) (aw : Byte) (xs : List Byte) (rest : List Bit) :
    PhaseToStop p (evS ++ evW (addrByte p.addrMode dev .write) false ++ (evWs (maddr a aw) ++ evWs xs))
      (ansS ++ ansW false ++ (ansWs (maddr a aw) ++ ansWs xs)) rest () (memWriteSeq dev a aw xs) :=
  ((writeData_toStop p xs rest).sendAddress (maddr a aw)).addressed dev .write

theorem memReadSeq_toStop (p : Params) (dev : Byte) (a : Word16) (aw : Byte) {xs : List Byte} (hxs : xs ≠ [])
    (rest : List Bit) :
    PhaseToStop p
      (evS ++ evW (addrByte p.addrMode dev .write) false ++
        (evWs (maddr a aw) ++ (evS ++ evW (addrByte p.addrMode dev .read) false ++ evRbs xs)))
      (ansS ++ ansW false ++ (ansWs (maddr a aw) ++ (ansS ++ ansW false ++ ansRbs xs))) rest xs
      (memReadSeq dev a aw xs.length) :=
  (((readPhase_toStop p hxs rest).addressed dev .read).sendAddress (maddr a aw)).addressed dev .write

/-! ## The steps of a transaction as events and answers -/

@[simp] theorem sends_events (xs : List Byte) : (xs.map WireUnit.send).flatMap WireUnit.events = evWs xs := by
  rw [List.flatMap_map]; rfl

@[simp] theorem sends_answers (xs : List Byte) : (xs.map WireUnit.send).flatMap WireUnit.answers = ansWs xs := by
  rw [List.flatMap_map]; rfl

@[simp] theorem receives_events (xs : List Byte) : (receives xs).flatMap WireUnit.events = evRbs xs := by
  induction xs using receives.induct with
  | case1 => rfl
  | case2 x => simp [receives, evRbs, WireUnit.events]
  | case3 x y ys ih => rw [receives, List.flatMap_cons, ih]; rfl

@[simp] theorem receives_answers (xs : List Byte) : (receives xs).flatMap WireUnit.answers = ansRbs xs := by
  induction xs using receives.induct with
  | case1 => rfl
  | case2 x => simp [receives, ansRbs, WireUnit.answers]
  | case3 x y ys ih => rw [receives, List.flatMap_cons, ih]; rfl

/-! ## The commands -/

theorem respondResult_fail_bus {α : Type} (rval : α → Option Word32) (dOut : α → Option (List Byte))
    {st : Status} (hst : st ≠ .ok) (i : Instr) (s : State) (es : List Event) (rest : List Bit) (a b : Bit)
    (x : Session) :
    respondResult rval dOut (.fail st ((startCommand i s).bus es rest (some a) (some b) x)) =
      (s.lines es rest a b).responded st none none := by
  rw [respondResult, respond, if_neg hst, if_neg hst]
  rfl

/-- The command of a transaction that comes to its STOP where that STOP's wait runs out. -/
theorem final_stop_held {α : Type} {i : Instr} {s : State} {units : List WireUnit} {rest : List Bit} {y : α}
    {f : State → Result α} (rval : α → Option Word32) (dOut : α → Option (List Byte))
    (h : PhaseToStop s.params (units.flatMap WireUnit.events) (units.flatMap WireUnit.answers)
      (ansHeld s.params.nStop ++ rest) y f)
    (hl : s.lineIn = units.flatMap WireUnit.answers ++ ansHeld s.params.nStop ++ rest) :
    (Host.Outcome.next (respondResult rval dOut (f (startCommand i s))) : Host.Outcome State Fault Refusal) =
      .next ((s.lines (units.flatMap WireUnit.events ++ evStopHeld s) rest false true).responded
        .timeout none none) := by
  rw [List.append_assoc] at hl
  obtain ⟨x, hx⟩ := (h (startCommand i s) rfl hl).held
  rw [hx, respondResult_fail_bus rval dOut (by decide)]
  rfl

/-- Settles O33: each transaction comes to its STOP after the events of its steps. -/
theorem finalStopRunsOut : Obligations.FinalStopRunsOut := by
  intro s i ys units rest hs hunits hl
  have hentry := hs.engineEntry
  obtain ⟨hu, -⟩ := hs
  unfold wireUnits at hunits
  split at hunits
  next dev xs =>
    cases hunits
    rw [exec, execBbWrite, command_accepted hu hentry]
    refine final_stop_held (y := ()) _ _ ?_ hl
    simpa [WireUnit.events, WireUnit.answers, addrByteOf] using writeSeq_toStop s.params dev xs _
  next dev len =>
    split at hunits
    next hlen =>
      cases hunits
      obtain ⟨hn, hlen⟩ := hlen
      rw [exec, execBbRead, command_accepted hu (by simp [hentry, (atLeastOne_iff len).2 hn]), ← hlen]
      refine final_stop_held (y := ys) _ _ ?_ hl
      simpa [WireUnit.events, WireUnit.answers, addrByteOf] using
        readSeq_toStop s.params dev (ne_nil_of_length_eq_toNat hn hlen) _
    next => cases hunits
  next dev aw a xs =>
    split at hunits
    next haw =>
      cases hunits
      rw [exec, execBbMemWrite, command_accepted hu (by simp [hentry, (widthLegal_iff aw).2 haw])]
      refine final_stop_held (y := ()) _ _ ?_ hl
      simpa [WireUnit.events, WireUnit.answers, addrByteOf] using memWriteSeq_toStop s.params dev a aw xs _
    next => cases hunits
  next dev aw a len =>
    split at hunits
    next hlen =>
      cases hunits
      obtain ⟨haw, hn, hlen⟩ := hlen
      rw [exec, execBbMemRead,
        command_accepted hu (by simp [hentry, (widthLegal_iff aw).2 haw, (atLeastOne_iff len).2 hn]), ← hlen]
      refine final_stop_held (y := ys) _ _ ?_ hl
      simpa [WireUnit.events, WireUnit.answers, addrByteOf] using
        memReadSeq_toStop s.params dev a aw (ne_nil_of_length_eq_toNat hn hlen) _
    next => cases hunits
  next => cases hunits

end Sys2Proof.Machine
end

section
/-! SUPPORT. Answers outside their port's type (93_implementation_defined.md I16, 10_state.md R41 to R43): each call
refuses them, the call's access with it, and the access's command with that. -/

namespace Sys2Proof.Machine

/-! ## Port calls -/

theorem ofCode_reserved {code : BitVec 3} (h : code = 6 ∨ code = 7) : Status.ofCode code = none := by
  rcases h with rfl | rfl <;> rfl

section
variable {s : State} {code : BitVec 3} {data : PortData} {rest : List PortAnswer} {r : Refusal}

theorem callStatus_outside (event : Status → Event) (h : OutsideType .status code data r)
    (hp : s.portIn = .answer code data :: rest) : callStatus event s = .refused r := by
  cases h with
  | reserved _ _ _ hc => simp [callStatus, statusAnswer, hp, ofCode_reserved hc]
  | withFailure _ st _ hst hd => simp [callStatus, statusAnswer, hp, Status.ofCode_code, hd, hst]
  | okUnexpected _ hd => simp [callStatus, statusAnswer, hp, Status.ofCode_code, hd]

theorem callBtRead_outside (dev : Nat) {n : Nat} (h : OutsideType (.bytes n) code data r)
    (hp : s.portIn = .answer code data :: rest) : callBtRead dev n s = .refused r := by
  cases h with
  | reserved _ _ _ hc => simp [callBtRead, bytesAnswer, hp, ofCode_reserved hc]
  | byteCount _ xs hl => simp [callBtRead, bytesAnswer, hp, Status.ofCode_code, hl]
  | withFailure _ st _ hst hd =>
    cases data <;> cases st <;> simp_all [callBtRead, bytesAnswer, Status.ofCode_code]
  | okNoBytes _ _ hd => cases data <;> simp_all [callBtRead, bytesAnswer, Status.ofCode_code]

theorem callMgRead_outside (dev : Nat) (reg : Word16) (h : OutsideType .value code data r)
    (hp : s.portIn = .answer code data :: rest) : callMgRead dev reg s = .refused r := by
  cases h with
  | reserved _ _ _ hc => simp [callMgRead, valueAnswer, hp, ofCode_reserved hc]
  | withFailure _ st _ hst hd =>
    cases data <;> cases st <;> simp_all [callMgRead, valueAnswer, Status.ofCode_code]
  | okNoValue _ hd => cases data <;> simp_all [callMgRead, valueAnswer, Status.ofCode_code]

/-! ## Accesses (42_transport_and_handle.md R222 to R227) -/

theorem btMemRead_header_outside (leg : Leg) (c : BlockConfig) (a : Word16) (n : Nat)
    (h : OutsideType .status code data r) (hp : s.portIn = .answer code data :: rest) :
    btMemRead leg c a n s = .refused r := by
  rw [btMemRead, btReadExchange, callBtWrite, callStatus_outside _ h (by simpa using hp)]
  rfl

theorem btMemRead_data_outside (leg : Leg) (c : BlockConfig) (a : Word16) {n : Nat}
    (h : OutsideType (.bytes n) code data r) (hp : s.portIn = ansStatus .ok :: .answer code data :: rest) :
    btMemRead leg c a n s = .refused r := by
  rw [btMemRead, btReadExchange, callBtWrite, callStatus_given _ _ .ok _ (by simpa [ansStatus] using hp),
    Reply.andThen_ok, if_pos rfl, callBtRead_outside (rest := rest) _ h (by simp)]
  rfl

/-- A block-transfer read whose two calls return OK. -/
theorem btMemRead_answered (leg : Leg) (c : BlockConfig) (a : Word16) (xs : List Byte)
    (hp : s.portIn = ansStatus .ok :: ansBytes xs :: rest) :
    ∃ t, btMemRead leg c a xs.length s = .done (.ok xs t) ∧ t.portIn = rest ∧ t.cfg = s.cfg := by
  rw [btMemRead, btReadExchange, callBtWrite, callStatus_given _ _ .ok _ (by simpa [ansStatus] using hp),
    Reply.andThen_ok, if_pos rfl, callBtRead_given _ _ _ xs rest rfl (by simp [ansBytes])]
  exact ⟨_, rfl, rfl, by simp⟩

theorem btMemWrite_header_outside (leg : Leg) (c : BlockConfig) (a : Word16) (xs : List Byte)
    (h : OutsideType .status code data r) (hp : s.portIn = .answer code data :: rest) :
    btMemWrite leg c a xs s = .refused r := by
  rw [btMemWrite, btWriteExchange, callBtWrite, callStatus_outside _ h (by simpa using hp)]
  rfl

theorem btMemWrite_data_outside (leg : Leg) (c : BlockConfig) (a : Word16) (xs : List Byte)
    (h : OutsideType .status code data r) (hp : s.portIn = ansStatus .ok :: .answer code data :: rest) :
    btMemWrite leg c a xs s = .refused r := by
  rw [btMemWrite, btWriteExchange, callBtWrite, callStatus_given _ _ .ok _ (by simpa [ansStatus] using hp),
    Reply.andThen_ok, if_pos rfl, callBtWrite, callStatus_outside (rest := rest) _ h (by simp)]
  rfl

theorem mgMemRead_outside (leg : Leg) (c : MgmtConfig) (a : Word16) (n : Nat) (h : OutsideType .value code data r)
    (hp : s.portIn = .answer code data :: rest) : mgMemRead leg c a n s = .refused r := by
  rw [mgMemRead, callMgRead_outside _ _ h (by simpa using hp)]
  rfl

/-- A management read that returns OK. -/
theorem mgMemRead_answered (leg : Leg) (c : MgmtConfig) (a : Word16) (n : Nat) (v : Word16)
    (hp : s.portIn = ansValue v :: rest) :
    ∃ t, mgMemRead leg c a n s = .done (.ok (be16 v) t) ∧ t.portIn = rest ∧ t.cfg = s.cfg := by
  rw [mgMemRead, callMgRead_given _ _ v _ rest (by simpa [ansValue] using hp), Reply.andThen_ok]
  exact ⟨_, rfl, rfl, by simp⟩

theorem mgMemWrite_outside (leg : Leg) (c : MgmtConfig) (a : Word16) (xs : List Byte)
    (h : OutsideType .status code data r) (hp : s.portIn = .answer code data :: rest) :
    mgMemWrite leg c a xs s = .refused r := by
  rw [mgMemWrite, callMgWrite, callStatus_outside _ h (by simpa using hp)]
  rfl
end

/-! ## The active transport (R229) -/

theorem memRead_block {s : State} {c : BlockConfig} (hc : s.cfg = some (.block c)) (leg : Leg) (a : Word16) (n : Nat) :
    memRead leg a n s = btMemRead leg c a n s := by rw [memRead, hc]

theorem memWrite_block {s : State} {c : BlockConfig} (hc : s.cfg = some (.block c)) (leg : Leg) (a : Word16)
    (xs : List Byte) : memWrite leg a xs s = btMemWrite leg c a xs s := by rw [memWrite, hc]

theorem memRead_mgmt {s : State} {c : MgmtConfig} (hc : s.cfg = some (.mgmt c)) (leg : Leg) (a : Word16) (n : Nat) :
    memRead leg a n s = mgMemRead leg c a n s := by rw [memRead, hc]

theorem memWrite_mgmt {s : State} {c : MgmtConfig} (hc : s.cfg = some (.mgmt c)) (leg : Leg) (a : Word16)
    (xs : List Byte) : memWrite leg a xs s = mgMemWrite leg c a xs s := by rw [memWrite, hc]

/-! ## Facade commands that pass their entry check (43_facade_access.md R250 to R277) -/

/-- What a facade command runs from its started state: a read, a write, or a read and the write of what `g` makes of the
bytes it gave. -/
inductive FacadeRuns (i : Instr) (s : State) : Host.Outcome State Fault Refusal → Prop where
  | read (n : Nat) (rval : List Byte → Option Word32) (dOut : List Byte → Option (List Byte))
      (hn : readLength i = some n) (hw : writesOnly i = false) (hm : isModify i = false) :
      FacadeRuns i s (outcomeOf rval dOut (memRead .whole (facadeAddr i) n s))
  | write (xs : List Byte) (hw : writesOnly i = true) (hm : isModify i = false) :
      FacadeRuns i s (answerStatus (memWrite .whole (facadeAddr i) xs s))
  | modify (n : Nat) (g : List Byte → List Byte) (hn : readLength i = some n) (hw : writesOnly i = false) :
      FacadeRuns i s (answerStatus
        ((memRead .modifyRead (facadeAddr i) n s).andThen fun xs t => memWrite .modifyWrite (facadeAddr i) (g xs) t))

theorem accepts_accepted {i : Instr} {s : State} (hi : accepted i) (hinit : s.init = true)
    (hcap : capable s.cfg (facadeShape i) = true) : accepts i s = true := by
  obtain ⟨hf, he⟩ := hi
  rw [accepts_facade hf, he]
  simp [facadeEntry, hinit, hcap]

/-- What every accepted facade command does. -/
theorem exec_facade {i : Instr} {s : State} (hu : s.upc = .idle) (hinit : s.init = true) (hi : accepted i)
    (hcap : capable s.cfg (facadeShape i) = true) : FacadeRuns i (startCommand i s) (exec i s) := by
  have ha := accepts_accepted hi hinit hcap
  obtain ⟨hf, -⟩ := hi
  cases i with
  | init | deinit | bbStart | bbStop | bbWriteByte | bbReadByte | bbWrite | bbRead | bbMemWrite | bbMemRead
  | bbIsDeviceReady => cases hf
  | readU8 a o h =>
    rw [exec, execReadU8, command_accepted hu (by exact ha)]
    exact .read 1 _ _ rfl rfl rfl
  | readU16 a o h =>
    rw [exec, execReadU16, command_accepted hu (by exact ha)]
    exact .read 2 _ _ rfl rfl rfl
  | readU32 a o h =>
    rw [exec, execReadU32, command_accepted hu (by exact ha)]
    exact .read 4 _ _ rfl rfl rfl
  | readBurst a len o h =>
    rw [exec, execReadBurst, command_accepted hu (by exact ha)]
    exact .read len.toNat _ _ rfl rfl rfl
  | writeU8 a v h | writeU16 a v h | writeU32 a v h | writeBurst a xs h =>
    simp only [exec, execWriteU8, execWriteU16, execWriteU32, execWriteBurst]
    rw [command_accepted hu (by exact ha)]
    exact .write _ rfl rfl
  | modifyU8 a m v h =>
    rw [exec, execModifyU8, command_accepted hu (by exact ha)]
    exact .modify 1 (fun xs => be8 (merge (firstByte xs) m v)) rfl rfl
  | modifyU16 a m v h =>
    rw [exec, execModifyU16, command_accepted hu (by exact ha)]
    exact .modify 2 (fun xs => be16 (merge (unBe16 xs) m v)) rfl rfl

section
variable {i : Instr} {s : State} {o : Host.Outcome State Fault Refusal} {r : Refusal}

/-- A command that begins with a read is refused with the read. -/
theorem FacadeRuns.refused_read (h : FacadeRuns i s o) (hw : writesOnly i = false)
    (hr : ∀ leg n, readLength i = some n → memRead leg (facadeAddr i) n s = .refused r) : o = .refused r := by
  cases h with
  | read n rval dOut hn => rw [hr _ n hn]; rfl
  | write xs hw' => rw [hw] at hw'; cases hw'
  | modify n g hn => rw [hr _ n hn]; rfl

/-- A command that only writes is refused with the write. -/
theorem FacadeRuns.refused_write (h : FacadeRuns i s o) (hw : writesOnly i = true)
    (hr : ∀ leg xs, memWrite leg (facadeAddr i) xs s = .refused r) : o = .refused r := by
  cases h with
  | read n rval dOut hn hw' => rw [hw] at hw'; cases hw'
  | write xs => rw [hr]; rfl
  | modify n g hn hw' => rw [hw] at hw'; cases hw'

/-- A modify whose read returns OK is refused with its write. -/
theorem FacadeRuns.refused_modify (h : FacadeRuns i s o) (hm : isModify i = true)
    (hr : ∀ n, readLength i = some n → ∃ xs t, memRead .modifyRead (facadeAddr i) n s = .done (.ok xs t) ∧
      ∀ ys, memWrite .modifyWrite (facadeAddr i) ys t = .refused r) : o = .refused r := by
  cases h with
  | read n rval dOut hn hw hm' => rw [hm] at hm'; cases hm'
  | write xs hw hm' => rw [hm] at hm'; cases hm'
  | modify n g hn =>
    obtain ⟨xs, t, hread, hwrite⟩ := hr n hn
    rw [hread, Reply.andThen_ok, hwrite]
    rfl
end

theorem writesOnly_of_readLength {i : Instr} {n : Nat} (h : readLength i = some n) : writesOnly i = false := by
  cases i <;> simp_all [readLength, writesOnly]

/-- The transport at a port call carries the command. -/
theorem ComesTo.capable {i : Instr} {s : State} {answered : List PortAnswer} {es : List Event} {k : PortType}
    (h : ComesTo s i answered es k) : capable s.cfg (facadeShape i) = true := by
  cases h with
  | header c hc | readData c hc | writeData c hc | modifyHeader c hc | modifyData c hc => rw [hc]; rfl
  | mgmtRead c hc hw h16 => rw [hc, (facadeShape_eq_u16_iff i).2 h16]; rfl
  | mgmtWrite c hc hw h16 => rw [hc, (facadeShape_eq_u16_iff i).2 h16]; rfl
  | mgmtModify c hc hm h16 => rw [hc, (facadeShape_eq_u16_iff i).2 h16]; rfl

/-- Settles O56: at each port call of a command, after calls that returned OK, the call refuses the answer and the
command with it. -/
theorem answersOutsideTheirType : Obligations.AnswersOutsideTheirType := by
  intro i s answered rest es k code data r hu hinit hi hcome hout hp
  have hruns := exec_facade hu hinit hi hcome.capable
  replace hp : (startCommand i s).portIn = answered ++ .answer code data :: rest := hp
  cases hcome with
  | header c hc =>
    replace hc : (startCommand i s).cfg = some (.block c) := hc
    cases hw : writesOnly i with
    | true =>
      refine hruns.refused_write hw fun leg xs => ?_
      rw [memWrite_block hc, btMemWrite_header_outside leg c _ xs hout hp]
    | false =>
      refine hruns.refused_read hw fun leg n _ => ?_
      rw [memRead_block hc, btMemRead_header_outside leg c _ n hout hp]
  | readData c hc n hn =>
    replace hc : (startCommand i s).cfg = some (.block c) := hc
    refine hruns.refused_read (writesOnly_of_readLength hn) fun leg m hm => ?_
    cases hn.symm.trans hm
    rw [memRead_block hc, btMemRead_data_outside leg c _ hout hp]
  | writeData c hc hw =>
    replace hc : (startCommand i s).cfg = some (.block c) := hc
    refine hruns.refused_write hw fun leg xs => ?_
    rw [memWrite_block hc, btMemWrite_data_outside leg c _ xs hout hp]
  | modifyHeader c hc hm xs hn =>
    replace hc : (startCommand i s).cfg = some (.block c) := hc
    refine hruns.refused_modify hm fun n hn' => ?_
    cases hn.symm.trans hn'
    obtain ⟨t, ht, hpt, hct⟩ := btMemRead_answered .modifyRead c (facadeAddr i) xs hp
    refine ⟨xs, t, (memRead_block hc ..).trans ht, fun ys => ?_⟩
    rw [memWrite_block (hct.trans hc), btMemWrite_header_outside _ c _ ys hout hpt]
  | modifyData c hc hm xs hn =>
    replace hc : (startCommand i s).cfg = some (.block c) := hc
    refine hruns.refused_modify hm fun n hn' => ?_
    cases hn.symm.trans hn'
    obtain ⟨t, ht, hpt, hct⟩ := btMemRead_answered .modifyRead c (facadeAddr i) xs hp
    refine ⟨xs, t, (memRead_block hc ..).trans ht, fun ys => ?_⟩
    rw [memWrite_block (hct.trans hc), btMemWrite_data_outside _ c _ ys hout hpt]
  | mgmtRead c hc hw h16 =>
    replace hc : (startCommand i s).cfg = some (.mgmt c) := hc
    refine hruns.refused_read hw fun leg n _ => ?_
    rw [memRead_mgmt hc, mgMemRead_outside leg c _ n hout hp]
  | mgmtWrite c hc hw h16 =>
    replace hc : (startCommand i s).cfg = some (.mgmt c) := hc
    refine hruns.refused_write hw fun leg xs => ?_
    rw [memWrite_mgmt hc, mgMemWrite_outside leg c _ xs hout hp]
  | mgmtModify c hc hm h16 v =>
    replace hc : (startCommand i s).cfg = some (.mgmt c) := hc
    refine hruns.refused_modify hm fun n _ => ?_
    obtain ⟨t, ht, hpt, hct⟩ := mgMemRead_answered .modifyRead c (facadeAddr i) n v hp
    refine ⟨be16 v, t, (memRead_mgmt hc ..).trans ht, fun ys => ?_⟩
    rw [memWrite_mgmt (hct.trans hc), mgMemWrite_outside _ c _ ys hout hpt]

end Sys2Proof.Machine
end

section
/-! SUPPORT. The clock-stretch wait under every environment (40_bitbang_primitives.md R133, 20_memory.md R75): the polls of
`pollScl` are the answers of `sclPoll`, whether they were ready or are the free ones. -/

namespace Sys2Proof.Machine

theorem sclPoll_zero (s : State) : sclPoll s 0 = lineAnswer .scl s := by
  cases h : s.lineIn <;> simp [sclPoll, lineAnswer, h]

/-- The state after a poll that read 0. -/
theorem afterPoll_eq_bus {s : State} (h : sclPoll s 0 = false) (sc : Nat) :
    (afterRead .scl s).setSc sc =
      s.bus [.read .scl false] s.lineIn.tail s.outSda s.outScl { s.session with sc := some sc } := by
  rw [sclPoll_zero] at h
  rw [afterRead_eq_bus, h]
  rfl

/-- After a poll that read 0 the environment's next answers are those behind it. -/
theorem sclPoll_afterPoll (s : State) (x : Session) (j : Nat) :
    sclPoll (s.bus [.read .scl false] s.lineIn.tail s.outSda s.outScl x) j = sclPoll s (j + 1) := by
  simp [sclPoll, List.replicate_succ]

theorem pollScl_of_first_one {left sc k : Nat} {s : State} (hk : k ≤ left) (hzero : ∀ j < k, sclPoll s j = false)
    (hone : sclPoll s k = true) (hsc : s.session.sc = some sc) :
    pollScl left sc s =
      .ok () (s.bus (evWait k) (s.lineIn.drop (k + 1)) s.outSda s.outScl { s.session with sc := some (sc + k) }) := by
  induction k generalizing left sc s with
  | zero =>
    rw [sclPoll_zero] at hone
    cases left <;> simp [pollScl, hone, afterRead_eq_bus, evWait, ← hsc]
  | succ k ih =>
    obtain ⟨left, rfl⟩ : ∃ n, left = n + 1 := ⟨left - 1, by omega⟩
    have h0 := hzero 0 (by omega)
    rw [pollScl, ← sclPoll_zero, h0, if_neg Bool.false_ne_true, afterPoll_eq_bus h0, ih (by omega)
      (fun j hj => by rw [sclPoll_afterPoll, hzero (j + 1) (by omega)]) (by rw [sclPoll_afterPoll, hone]) rfl]
    simp [evWait, List.replicate_succ, Nat.add_comm, Nat.add_left_comm]

theorem pollScl_of_all_zero {left sc : Nat} {s : State} (hzero : ∀ j < left + 1, sclPoll s j = false) :
    pollScl left sc s =
      .fail .timeout (s.bus (List.replicate (left + 1) (.read .scl false)) (s.lineIn.drop (left + 1)) s.outSda s.outScl
        { s.session with sc := some (sc + left + 1) }) := by
  have h0 := hzero 0 (by omega)
  induction left generalizing sc s with
  | zero =>
    rw [pollScl, ← sclPoll_zero, h0, if_neg Bool.false_ne_true, afterPoll_eq_bus h0]
    simp
  | succ left ih =>
    have hnext (x : Session) (j : Nat) (hj : j < left + 1) :
        sclPoll (s.bus [.read .scl false] s.lineIn.tail s.outSda s.outScl x) j = false := by
      rw [sclPoll_afterPoll, hzero (j + 1) (by omega)]
    rw [pollScl, ← sclPoll_zero, h0, if_neg Bool.false_ne_true, afterPoll_eq_bus h0, ih (hnext _) (hnext _ 0 (by omega))]
    simp [List.replicate_succ, Nat.add_comm, Nat.add_left_comm]

/-- Settles O15: the wait is its polls, counted from `SC = 0`. -/
theorem clockStretchWait : Obligations.ClockStretchWait := by
  intro n s
  refine ⟨fun k hk hzero hone => ?_, fun hzero => ?_⟩
  · rw [waitScl, pollScl_of_first_one (s := s.setSc 0) (Nat.le_of_lt_succ hk) hzero hone rfl]
    simp [State.bus, State.setSc, State.setSession, evWait]
  · rw [waitScl, pollScl_of_all_zero (s := s.setSc 0) hzero]
    simp [State.bus, State.setSc, State.setSession, Bound.val]

end Sys2Proof.Machine
end

section
/-! SUPPORT. The chip-select cycles of a facade command over the block-transfer transport (20_memory.md R70,
42_transport_and_handle.md R222 to R224): the accesses of `exec_ran`, read as cycles. -/

namespace Sys2Proof.Machine

/-- The chip-select asserted, the calls `es`, the chip-select deasserted (R224). -/
def chipSelectCycle (dev : Nat) (es : List Event) : List Event := .csAssert dev :: es ++ [.csDeassert dev]

/-- An access over the block-transfer transport is one cycle with calls of its device. -/
theorem PortAccess.exists_cycle {c : BlockConfig} {es : List Event} (h : PortAccess (some (.block c)) es) :
    ∃ mid, es = chipSelectCycle c.btDev mid ∧ mid ≠ [] ∧ ∀ e ∈ mid, IsTransfer c.btDev e := by
  rcases h with ⟨b, mid, hb, hne, rfl, hmid⟩ | ⟨m, e, hm, -, -⟩
  · cases hb
    exact ⟨mid, rfl, hne, hmid⟩
  · cases hm

/-- Accesses over the block-transfer transport are as many cycles. -/
theorem exists_cycles {c : BlockConfig} {accs : List (List Event)}
    (h : ∀ es ∈ accs, PortAccess (some (.block c)) es) :
    ∃ cycles : List (List Event), cycles.length = accs.length ∧
      accs.flatten = cycles.flatMap (chipSelectCycle c.btDev) ∧
      ∀ mid ∈ cycles, mid ≠ [] ∧ ∀ e ∈ mid, IsTransfer c.btDev e := by
  induction accs with
  | nil => exact ⟨[], rfl, rfl, by simp⟩
  | cons es accs ih =>
    obtain ⟨hes, haccs⟩ := List.forall_mem_cons.1 h
    obtain ⟨mid, rfl, hmid⟩ := hes.exists_cycle
    obtain ⟨cycles, hlen, hflat, hcycles⟩ := ih haccs
    exact ⟨mid :: cycles, congrArg (· + 1) hlen, congrArg (_ ++ ·) hflat, List.forall_mem_cons.2 ⟨hmid, hcycles⟩⟩

/-- Over the block-transfer transport, which carries every width, the entry check of a facade command is that its
operands are accepted (R228, R250). -/
theorem accepts_iff_accepted {s : State} {c : BlockConfig} {i : Instr} {h o : Bool} (hs : s.BlockReady c)
    (hf : facadeFlags i = some (h, o)) : accepts i s = true ↔ accepted i := by
  obtain ⟨-, hinit, hc⟩ := hs
  rw [accepts_facade hf]
  simp [facadeEntry, accepted, hf, hinit, hc, capable, and_assoc]

theorem FailedWith.ne_nil {st : Status} {accs : List (List Event)} (h : FailedWith st accs.flatten) : accs ≠ [] := by
  rintro rfl
  obtain ⟨-, ⟨e, he, -⟩, -⟩ := h
  cases he

/-- Settles O46: a rejected command has the bare response, and an accepted one its accesses, each a cycle. -/
theorem chipSelectCycles : Obligations.ChipSelectCycles := by
  intro s t c i h o hs hf hexec hidle
  have hacc := accepts_iff_accepted hs hf
  obtain ⟨-, -, hc⟩ := hs
  have hnl : ¬ ∃ d, s.cfg = some (.twoWire d) := by simp [hc]
  have hpos : 0 < accesses i := by unfold accesses; split <;> decide
  cases exec_next_ran hexec with
  | invalid hu ha =>
    have hrej : ¬ accepted i := fun hi => Bool.false_ne_true (ha.symm.trans (hacc.2 hi))
    exact ⟨[], fun _ => rfl, fun hi => absurd hi hrej, nofun, (List.append_nil _).symm, nofun⟩
  | installed hu d b hi => subst hi; cases hf
  | uninstalled hu b hi => subst hi; cases hf
  | lineOk hu ha hi hline => exact absurd hline hnl
  | lineFail hu ha hi hline => exact absurd hline hnl
  | portStuck => cases hidle
  | portOk hu ha hi hnc rval dOut hans accs rest p hl haccs =>
    obtain ⟨cycles, hlen, hflat, hcycles⟩ := exists_cycles (hc ▸ haccs)
    have hn : cycles.length = accesses i := hlen.trans hl
    exact ⟨cycles, fun hni => absurd (hacc.1 ha) hni,
      fun _ => ⟨List.length_pos_iff.1 (hn ▸ hpos), hn.le⟩, fun _ => hn, congrArg (s.trace ++ ·) hflat, hcycles⟩
  | portFail hu ha hi hnc st accs rest p hl haccs hr hfail =>
    obtain ⟨cycles, hlen, hflat, hcycles⟩ := exists_cycles (hc ▸ haccs)
    have hne : cycles ≠ [] := List.length_pos_iff.1 (hlen ▸ List.length_pos_iff.2 hfail.ne_nil)
    exact ⟨cycles, fun hni => absurd (hacc.1 ha) hni, fun _ => ⟨hne, hlen.trans_le hl⟩,
      fun hok => absurd (Option.some.inj hok) hfail.1, congrArg (s.trace ++ ·) hflat, hcycles⟩

end Sys2Proof.Machine
end

section
/-! SUPPORT. What the decoder accepts, said once (30_encoding.md R97, R98): the words of an accepted descriptor, the
fields they are made of, and the command it stands for. -/

namespace Sys2Proof

/-- The words, the data and the configuration of `d` are those R98 (b) to (e) ask of the row `op`. -/
structure Op.Accepts (op : Op) (d : Descriptor) : Prop where
  w0 : d.w0 &&& op.mask = op.pattern
  w1 : d.w1 &&& ~~~op.w1Bits = 0
  w2 : d.w2 &&& ~~~op.w2Bits = 0
  w3 : d.w3 &&& ~~~op.w3Bits = 0
  data : d.dIn.length = if op.carriesData then d.w2.toNat else 0
  config : d.cfgIn.isSome = decide (op = .init ∧ d.f1 = false)

theorem configError_eq_none_iff_isSome (op : Op) (d : Descriptor) :
    op.configError d = none ↔ d.cfgIn.isSome = decide (op = .init ∧ d.f1 = false) := by
  rw [Op.configError]
  cases d.cfgIn <;> cases decide (op = .init ∧ d.f1 = false) <;> simp

theorem accepts_iff_no_error (op : Op) (d : Descriptor) :
    op.Accepts d ↔ op.wordError d = none ∧ op.dataError d = none ∧ op.configError d = none := by
  rw [wordError_eq_none_iff, dataError_eq_none_iff, configError_eq_none_iff_isSome]
  constructor
  · rintro ⟨h0, h1, h2, h3, hd, hc⟩
    exact ⟨⟨h0, h1, h2, h3⟩, hd, hc⟩
  · rintro ⟨⟨h0, h1, h2, h3⟩, hd, hc⟩
    exact ⟨h0, h1, h2, h3, hd, hc⟩

/-! ## Words that leave their high bits 0 (R98 (c)) -/

/-- A word without a bit above its low `n` bits is a number below `2 ^ n`. -/
theorem and_not_low_eq_zero_iff {n : Nat} (hn : n ≤ 32) (v : Word32) :
    v &&& ~~~BitVec.ofNat 32 (2 ^ n - 1) = 0 ↔ v.toNat < 2 ^ n := by
  have hlow : 2 ^ n - 1 < 2 ^ 32 := by
    have := Nat.pow_le_pow_right (n := 2) (by decide) hn
    have := Nat.two_pow_pos n
    omega
  have hmod : (v &&& BitVec.ofNat 32 (2 ^ n - 1)).toNat = v.toNat % 2 ^ n := by
    rw [BitVec.toNat_and, BitVec.toNat_ofNat, Nat.mod_eq_of_lt hlow, Nat.and_two_pow_sub_one_eq_mod]
  have hkeep : v &&& ~~~BitVec.ofNat 32 (2 ^ n - 1) = 0 ↔ v &&& BitVec.ofNat 32 (2 ^ n - 1) = v := by
    generalize BitVec.ofNat 32 (2 ^ n - 1) = m
    simp only [BitVec.eq_of_getLsbD_eq_iff, BitVec.getLsbD_and, BitVec.getLsbD_not, BitVec.ofNat_eq_ofNat,
      BitVec.getLsbD_zero]
    refine forall₂_congr fun k hk => ?_
    rw [decide_eq_true hk]
    cases v.getLsbD k <;> cases m.getLsbD k <;> decide
  rw [hkeep, ← BitVec.toNat_inj, hmod, Nat.mod_eq_iff_lt (Nat.two_pow_pos n).ne']

theorem setWidth_and_not_low {n : Nat} (hn : n ≤ 32) (v : BitVec n) :
    v.setWidth 32 &&& ~~~BitVec.ofNat 32 (2 ^ n - 1) = 0 := by
  rw [and_not_low_eq_zero_iff hn, BitVec.toNat_setWidth]
  exact (Nat.mod_le _ _).trans_lt v.isLt

/-- A word that uses all its 32 bits. -/
theorem and_not_all (v : Word32) : v &&& ~~~0xFFFFFFFF#32 = 0 := (and_not_low_eq_zero_iff le_rfl v).2 v.isLt

/-- A word that uses no bit. -/
theorem eq_zero_of_and_not_none {v : Word32} (h : v &&& ~~~0#32 = 0) : v = 0 := by
  rwa [BitVec.not_zero, BitVec.and_allOnes] at h

/-- A word that is no larger than its low field is that field. -/
theorem extractLsb'_low_toNat {n : Nat} (hn : n ≤ 32) {v : Word32} (h : v &&& ~~~BitVec.ofNat 32 (2 ^ n - 1) = 0) :
    (v.extractLsb' 0 n).toNat = v.toNat := by
  rw [BitVec.extractLsb'_toNat, Nat.shiftRight_zero, Nat.mod_eq_of_lt ((and_not_low_eq_zero_iff hn v).1 h)]

theorem setWidth_extractLsb'_low {n : Nat} (hn : n ≤ 32) {v : Word32}
    (h : v &&& ~~~BitVec.ofNat 32 (2 ^ n - 1) = 0) : (v.extractLsb' 0 n).setWidth 32 = v := by
  apply BitVec.eq_of_toNat_eq
  rw [BitVec.toNat_setWidth, extractLsb'_low_toNat hn h, Nat.mod_eq_of_lt v.isLt]

theorem extractLsb'_setWidth_low {n : Nat} (hn : n ≤ 32) (v : BitVec n) : (v.setWidth 32).extractLsb' 0 n = v := by
  apply BitVec.eq_of_toNat_eq
  rw [extractLsb'_low_toNat hn (setWidth_and_not_low hn v), BitVec.toNat_setWidth]
  exact Nat.mod_eq_of_lt (v.isLt.trans_le (Nat.pow_le_pow_right (by decide) hn))

/-! ## The fields of `w0` (R91) -/

theorem dev_toNat (d : Descriptor) : d.dev.toNat = d.w0.toNat / 2 ^ 16 % 2 ^ 8 := by
  rw [Descriptor.dev, BitVec.extractLsb'_toNat, Nat.shiftRight_eq_div_pow]

theorem arg_toNat (d : Descriptor) : d.arg.toNat = d.w0.toNat / 2 ^ 8 % 2 ^ 8 := by
  rw [Descriptor.arg, BitVec.extractLsb'_toNat, Nat.shiftRight_eq_div_pow]

theorem f1_toNat (d : Descriptor) : d.f1.toNat = d.w0.toNat / 2 % 2 := by
  rw [f1_eq]
  rcases Nat.mod_two_eq_zero_or_one (d.w0.toNat / 2) with h | h <;> rw [h] <;> rfl

theorem f0_toNat (d : Descriptor) : d.f0.toNat = d.w0.toNat % 2 := by
  rw [Descriptor.f0, BitVec.getLsbD, Nat.testBit_zero]
  rcases Nat.mod_two_eq_zero_or_one d.w0.toNat with h | h <;> rw [h] <;> rfl

namespace Op.Accepts

variable {op : Op} {d : Descriptor}

/-- A field that the row's mask covers is 0 (R98 (b)). -/
theorem field_eq_zero (h : op.Accepts d) {k n : Nat} (hkn : k + n ≤ 24)
    (hm : op.mask.extractLsb' k n = BitVec.allOnes n) : d.w0.extractLsb' k n = 0 := by
  have hfield := congrArg (BitVec.extractLsb' k n) h.w0
  rw [BitVec.extractLsb'_and, hm, BitVec.and_allOnes] at hfield
  rw [hfield, Op.pattern, BitVec.extractLsb'_append_eq_of_add_le hkn]
  simp

theorem field_toNat_eq_zero (h : op.Accepts d) {k n : Nat} (hkn : k + n ≤ 24)
    (hm : op.mask.extractLsb' k n = BitVec.allOnes n) : d.w0.toNat / 2 ^ k % 2 ^ n = 0 := by
  rw [← Nat.shiftRight_eq_div_pow, ← BitVec.extractLsb'_toNat, h.field_eq_zero hkn hm]
  rfl

/-- Every row compares the eight bits of `OPC`. -/
theorem opc_eq (h : op.Accepts d) : d.opc = op.code := by
  have hfield := congrArg (BitVec.extractLsb' 24 8) h.w0
  rw [BitVec.extractLsb'_and, show op.mask.extractLsb' 24 8 = BitVec.allOnes 8 by cases op <;> rfl,
    BitVec.and_allOnes] at hfield
  rw [Descriptor.opc, hfield, Op.pattern]
  cases op <;> rfl

theorem ofCode_opc (h : op.Accepts d) : Op.ofCode d.opc = some op := by rw [h.opc_eq, Op.ofCode_code]

theorem dev_eq_zero (h : op.Accepts d) (hm : op.mask.extractLsb' 16 8 = BitVec.allOnes 8) : d.dev = 0 :=
  h.field_eq_zero (by decide) hm

theorem arg_eq_zero (h : op.Accepts d) (hm : op.mask.extractLsb' 8 8 = BitVec.allOnes 8) : d.arg = 0 :=
  h.field_eq_zero (by decide) hm

theorem f1_eq_false (h : op.Accepts d) (hm : op.mask.extractLsb' 1 1 = BitVec.allOnes 1) : d.f1 = false := by
  have hbit := congrArg (BitVec.getLsbD · 0) (h.field_eq_zero (by decide) hm)
  simpa [Descriptor.f1] using hbit

/-- Bits 7:1 of `ARG` are fixed where it carries one bit (R97). -/
theorem arg_eq_bit (h : op.Accepts d) (hm : op.mask.extractLsb' 9 7 = BitVec.allOnes 7) :
    d.arg = (BitVec.ofBool (d.arg.getLsbD 0)).setWidth 8 := by
  have hhigh := h.field_toNat_eq_zero (by decide) hm
  have hlow : d.arg.toNat < 2 := by
    rw [arg_toNat]
    omega
  have hall : ∀ b : Byte, b.toNat < 2 → b = (BitVec.ofBool (b.getLsbD 0)).setWidth 8 := by decide
  exact hall _ hlow

/-- `w0` is its fields: bits 7:2 are fixed in every row (R91). -/
theorem w0_eq_packW0 (h : op.Accepts d) : d.w0 = packW0 op d.dev d.arg d.f1 d.f0 := by
  have hfixed := h.field_toNat_eq_zero (k := 2) (n := 6) (by decide) (by cases op <;> rfl)
  apply BitVec.eq_of_toNat_eq
  rw [packW0_toNat, ← h.opc_eq, opc_toNat, dev_toNat, arg_toNat, f1_toNat, f0_toNat]
  omega

end Op.Accepts

/-- The decoder answers with the command of the one row that accepts the descriptor. -/
theorem decode_eq_ok_iff (d : Descriptor) (i : Instr) :
    decode d = .ok i ↔ ∃ op : Op, op.Accepts d ∧ op.build d = i := by
  have hopc (op : Op) :
      op.Accepts d ∧ op.build d = i ↔ Op.ofCode d.opc = some op ∧ op.Accepts d ∧ op.build d = i :=
    (and_iff_right_of_imp fun h => h.1.ofCode_opc).symm
  rw [exists_congr hopc]
  simp only [accepts_iff_no_error, decode]
  cases Op.ofCode d.opc with
  | none => simp
  | some op =>
    simp only [Option.some.injEq, exists_eq_left']
    cases op.wordError d <;> cases op.dataError d <;> cases op.configError d <;> simp

end Sys2Proof
end

section
/-! SUPPORT. The row of a command (30_encoding.md R97): a row builds a command of its own, from the fields of the
descriptor it accepts. -/

namespace Sys2Proof

open Laws.EncodingRow (row)

theorem opcode_eq_row_code (i : Instr) : i.opcode = (row i).code.toNat := by cases i <;> rfl

theorem row_build (op : Op) (d : Descriptor) : row (op.build d) = op := by cases op <;> rfl

/-- The operands a row builds are the fields of a descriptor it accepts (R91 to R95). -/
theorem Op.Accepts.fieldsOf_build {op : Op} {d : Descriptor} (h : op.Accepts d) : (op.build d).FieldsOf d := by
  have hf0 := f0_toNat d
  have hf1 := f1_toNat d
  have hdev := dev_toNat d
  have harg := arg_toNat d
  cases op with
  | init => exact ⟨rfl, hf0⟩
  | deinit | bbStart | bbStop => exact hf0
  | bbWriteByte => exact ⟨harg, hf0⟩
  | bbReadByte =>
    refine ⟨?_, hf1, hf0⟩
    rw [← harg]
    conv_rhs => rw [h.arg_eq_bit rfl]
    cases d.arg.getLsbD 0 <;> rfl
  | bbWrite => exact ⟨hdev, rfl, h.data, hf0⟩
  | bbRead => exact ⟨hdev, rfl, hf1, hf0⟩
  | bbMemWrite => exact ⟨hdev, harg, extractLsb'_low_toNat (by decide) h.w1, rfl, h.data, hf0⟩
  | bbMemRead => exact ⟨hdev, harg, extractLsb'_low_toNat (by decide) h.w1, rfl, hf1, hf0⟩
  | bbIsDeviceReady => exact ⟨hdev, rfl, hf0⟩
  | readU8 | readU16 | readU32 => exact ⟨extractLsb'_low_toNat (by decide) h.w1, hf1, hf0⟩
  | writeU8 | writeU16 =>
    exact ⟨extractLsb'_low_toNat (by decide) h.w1, extractLsb'_low_toNat (by decide) h.w2, hf0⟩
  | writeU32 => exact ⟨extractLsb'_low_toNat (by decide) h.w1, rfl, hf0⟩
  | readBurst => exact ⟨extractLsb'_low_toNat (by decide) h.w1, rfl, hf1, hf0⟩
  | writeBurst => exact ⟨extractLsb'_low_toNat (by decide) h.w1, rfl, h.data, hf0⟩
  | modifyU8 | modifyU16 =>
    exact ⟨extractLsb'_low_toNat (by decide) h.w1, extractLsb'_low_toNat (by decide) h.w3,
      extractLsb'_low_toNat (by decide) h.w2, hf0⟩

end Sys2Proof

namespace Sys2Proof.Machine

/-- Settles O3: the row that accepts the descriptor has the command's opcode and builds its operands from the fields. -/
theorem operandFields : Obligations.OperandFields := by
  intro d i hdec
  obtain ⟨op, hacc, rfl⟩ := (decode_eq_ok_iff d i).1 hdec
  rw [opcode_eq_row_code, row_build]
  exact ⟨(ofCode_opc_iff op d).1 hacc.ofCode_opc, hacc.fieldsOf_build⟩

end Sys2Proof.Machine
end

section
/-! SUPPORT. The encoder and the row of its command (30_encoding.md R97): the row accepts the encoded descriptor and
builds the command from it, and the encoder writes back the words of an accepted descriptor. -/

namespace Sys2Proof

open Laws.EncodingRow (row)

/-! ## The row accepts the encoded descriptor -/

open Laws.EncodingRow in
/-- The encoded `w0` is one of the command's row, for every command. -/
theorem encodingRow_statement : ∀ i : Instr, Statement i
  | .init .. => init ..
  | .deinit .. => deinit ..
  | .bbStart .. => bbStart ..
  | .bbStop .. => bbStop ..
  | .bbWriteByte .. => bbWriteByte ..
  | .bbReadByte .. => bbReadByte ..
  | .bbWrite .. => bbWrite ..
  | .bbRead .. => bbRead ..
  | .bbMemWrite .. => bbMemWrite ..
  | .bbMemRead .. => bbMemRead ..
  | .bbIsDeviceReady .. => bbIsDeviceReady ..
  | .readU8 .. => readU8 ..
  | .readU16 .. => readU16 ..
  | .readU32 .. => readU32 ..
  | .writeU8 .. => writeU8 ..
  | .writeU16 .. => writeU16 ..
  | .writeU32 .. => writeU32 ..
  | .readBurst .. => readBurst ..
  | .writeBurst .. => writeBurst ..
  | .modifyU8 .. => modifyU8 ..
  | .modifyU16 .. => modifyU16 ..

theorem encode_w1 (i : Instr) : (encode i).w1 &&& ~~~(row i).w1Bits = 0 := by
  cases i with
  | init | deinit | bbStart | bbStop | bbWriteByte | bbReadByte | bbWrite | bbRead | bbIsDeviceReady =>
    exact BitVec.zero_and
  | bbMemWrite _ _ a | bbMemRead _ _ a | readU8 a | readU16 a | readU32 a | writeU8 a | writeU16 a | writeU32 a
  | readBurst a | writeBurst a | modifyU8 a | modifyU16 a => exact setWidth_and_not_low (by decide) a

theorem encode_w2 (i : Instr) : (encode i).w2 &&& ~~~(row i).w2Bits = 0 := by
  cases i with
  | init | deinit | bbStart | bbStop | bbWriteByte | bbReadByte | readU8 | readU16 | readU32 => exact BitVec.zero_and
  | bbWrite | bbRead | bbMemWrite | bbMemRead | bbIsDeviceReady | writeU32 | readBurst | writeBurst =>
    exact and_not_all _
  | writeU8 _ v | writeU16 _ v | modifyU8 _ _ v | modifyU16 _ _ v => exact setWidth_and_not_low (by decide) v

theorem encode_w3 (i : Instr) : (encode i).w3 &&& ~~~(row i).w3Bits = 0 := by
  cases i with
  | modifyU8 _ m | modifyU16 _ m => exact setWidth_and_not_low (by decide) m
  | _ => exact BitVec.zero_and

/-- `LEN` counts the bytes of a well-formed command (R95). -/
theorem encode_data {i : Instr} (h : i.wellFormed = true) :
    (encode i).dIn.length = if (row i).carriesData then (encode i).w2.toNat else 0 := by
  cases i with
  | bbWrite _ xs | bbMemWrite _ _ _ xs | writeBurst _ xs =>
    exact (Nat.mod_eq_of_lt (of_decide_eq_true h)).symm
  | _ => rfl

theorem encode_config (i : Instr) :
    (encode i).cfgIn.isSome = decide (row i = .init ∧ (encode i).f1 = false) := by
  cases i with
  | init c h =>
    obtain ⟨-, -, -, hf1, -⟩ := packW0_field .init 0 0 c.isNone h
    rw [show (encode (.init c h)).f1 = c.isNone from hf1]
    cases c <;> rfl
  | _ => rfl

/-- R98 finds no error in the descriptor of a well-formed command. -/
theorem row_accepts_encode {i : Instr} (h : i.wellFormed = true) : (row i).Accepts (encode i) :=
  ⟨(encodingRow_statement i).2, encode_w1 i, encode_w2 i, encode_w3 i, encode_data h, encode_config i⟩

/-- Each operand is read back from the field the encoder puts it in (R91 to R96). -/
theorem row_build_encode (i : Instr) : (row i).build (encode i) = i := by
  have haddr (a : Word16) : (a.setWidth 32).extractLsb' 0 16 = a := extractLsb'_setWidth_low (by decide) a
  have hbyte (v : Byte) : (v.setWidth 32).extractLsb' 0 8 = v := extractLsb'_setWidth_low (by decide) v
  have hbit (b : Bool) : ((BitVec.ofBool b).setWidth 8).getLsbD 0 = b := by cases b <;> rfl
  cases i <;>
    simp only [row, Op.build, encode, plainDescriptor, Descriptor.dev, Descriptor.arg, Descriptor.f1, Descriptor.f0,
      Descriptor.addr, packW0_field, haddr, hbyte, hbit]

/-! ## The encoder writes back the words of an accepted descriptor -/

theorem descriptor_eq_of_fields {d e : Descriptor} (h0 : d.w0 = e.w0) (h1 : d.w1 = e.w1) (h2 : d.w2 = e.w2)
    (h3 : d.w3 = e.w3) (hdIn : d.dIn = e.dIn) (hcfg : d.cfgIn = e.cfgIn) : d = e := by
  cases d
  cases e
  simp_all

namespace Op.Accepts

variable {op : Op} {d : Descriptor}

theorem wellFormed_build (h : op.Accepts d) : (op.build d).wellFormed = true := by
  cases op with
  | bbWrite | bbMemWrite | writeBurst => exact decide_eq_true (h.data.trans_lt d.w2.isLt)
  | _ => rfl

/-- `w0` is packed from operands that are its fields. -/
theorem packW0_eq (h : op.Accepts d) {dev arg : Byte} {f1 : Bool} (hdev : d.dev = dev) (harg : d.arg = arg)
    (hf1 : d.f1 = f1) : packW0 op dev arg f1 d.f0 = d.w0 := by
  rw [h.w0_eq_packW0, hdev, harg, hf1]

/-- CNULL is the absence of `CFGIN` (R96, R98 (e)). -/
theorem f1_eq_isNone (h : Op.init.Accepts d) : d.f1 = d.cfgIn.isNone := by
  have hcfg := h.config
  cases hc : d.cfgIn <;> simpa [hc] using hcfg

theorem cfgIn_eq_none (h : op.Accepts d) (hop : op ≠ .init) : d.cfgIn = none := by
  have := h.config
  simpa [hop] using this

theorem encode_build_w0 (h : op.Accepts d) : (encode (op.build d)).w0 = d.w0 := by
  cases op with
  | init => exact h.packW0_eq (h.dev_eq_zero rfl) (h.arg_eq_zero rfl) h.f1_eq_isNone
  | bbWriteByte => exact h.packW0_eq (h.dev_eq_zero rfl) rfl (h.f1_eq_false rfl)
  | bbReadByte => exact h.packW0_eq (h.dev_eq_zero rfl) (h.arg_eq_bit rfl) rfl
  | bbWrite | bbIsDeviceReady => exact h.packW0_eq rfl (h.arg_eq_zero rfl) (h.f1_eq_false rfl)
  | bbRead => exact h.packW0_eq rfl (h.arg_eq_zero rfl) rfl
  | bbMemWrite => exact h.packW0_eq rfl rfl (h.f1_eq_false rfl)
  | bbMemRead => exact h.packW0_eq rfl rfl rfl
  | readU8 | readU16 | readU32 | readBurst => exact h.packW0_eq (h.dev_eq_zero rfl) (h.arg_eq_zero rfl) rfl
  | deinit | bbStart | bbStop | writeU8 | writeU16 | writeU32 | writeBurst | modifyU8 | modifyU16 =>
    exact h.packW0_eq (h.dev_eq_zero rfl) (h.arg_eq_zero rfl) (h.f1_eq_false rfl)

theorem encode_build_w1 (h : op.Accepts d) : (encode (op.build d)).w1 = d.w1 := by
  cases op with
  | init | deinit | bbStart | bbStop | bbWriteByte | bbReadByte | bbWrite | bbRead | bbIsDeviceReady =>
    exact (eq_zero_of_and_not_none h.w1).symm
  | bbMemWrite | bbMemRead | readU8 | readU16 | readU32 | writeU8 | writeU16 | writeU32 | readBurst | writeBurst
  | modifyU8 | modifyU16 => exact setWidth_extractLsb'_low (n := 16) (by decide) h.w1

/-- The length of the data is `LEN` again (R95). -/
theorem ofNat_length (h : op.Accepts d) (hop : op.carriesData = true) : BitVec.ofNat 32 d.dIn.length = d.w2 := by
  rw [h.data, if_pos hop, BitVec.ofNat_toNat, BitVec.setWidth_eq]

theorem dIn_eq_nil (h : op.Accepts d) (hop : op.carriesData = false) : d.dIn = [] := by
  have := h.data
  simpa [hop] using this

theorem encode_build_w2 (h : op.Accepts d) : (encode (op.build d)).w2 = d.w2 := by
  cases op with
  | init | deinit | bbStart | bbStop | bbWriteByte | bbReadByte | readU8 | readU16 | readU32 =>
    exact (eq_zero_of_and_not_none h.w2).symm
  | bbWrite | bbMemWrite | writeBurst => exact h.ofNat_length rfl
  | bbRead | bbMemRead | bbIsDeviceReady | writeU32 | readBurst => rfl
  | writeU8 | modifyU8 => exact setWidth_extractLsb'_low (n := 8) (by decide) h.w2
  | writeU16 | modifyU16 => exact setWidth_extractLsb'_low (n := 16) (by decide) h.w2

theorem encode_build_w3 (h : op.Accepts d) : (encode (op.build d)).w3 = d.w3 := by
  cases op with
  | modifyU8 => exact setWidth_extractLsb'_low (n := 8) (by decide) h.w3
  | modifyU16 => exact setWidth_extractLsb'_low (n := 16) (by decide) h.w3
  | _ => exact (eq_zero_of_and_not_none h.w3).symm

theorem encode_build_dIn (h : op.Accepts d) : (encode (op.build d)).dIn = d.dIn := by
  cases op with
  | bbWrite | bbMemWrite | writeBurst => rfl
  | _ => exact (h.dIn_eq_nil rfl).symm

theorem encode_build_cfgIn (h : op.Accepts d) : (encode (op.build d)).cfgIn = d.cfgIn := by
  cases op with
  | init => rfl
  | _ => exact (h.cfgIn_eq_none nofun).symm

theorem encode_build (h : op.Accepts d) : encode (op.build d) = d :=
  descriptor_eq_of_fields h.encode_build_w0 h.encode_build_w1 h.encode_build_w2 h.encode_build_w3 h.encode_build_dIn
    h.encode_build_cfgIn

end Op.Accepts

end Sys2Proof

namespace Sys2Proof.Machine

/-- Settles O4: the row of the command accepts the encoded descriptor and builds the command from it. -/
theorem decodeEncode : Obligations.DecodeEncode := fun i h =>
  (decode_eq_ok_iff (encode i) i).2 ⟨_, row_accepts_encode h, row_build_encode i⟩

/-- Settles O5: the encoder writes back each word of the descriptor a row accepts, its data and its configuration. -/
theorem encodeDecode : Obligations.EncodeDecode := by
  intro d i hdec
  obtain ⟨op, hacc, rfl⟩ := (decode_eq_ok_iff d i).1 hdec
  exact ⟨hacc.wellFormed_build, hacc.encode_build⟩

/-- Settles O1: the decoder computes each of the 21 commands. -/
theorem sampleWordsDecode : Obligations.SampleWordsDecode := by
  unfold Obligations.SampleWordsDecode
  and_intros <;> rfl

end Sys2Proof.Machine
end

section
/-! SUPPORT. The address byte and the memory address bytes as numbers (30_encoding.md R100 to R102). -/

namespace Sys2Proof.Machine

/-- The address byte is seven bits of the device address and the direction bit behind them (R100). -/
theorem toNat_append_direction (x : BitVec 7) (rw : Direction) :
    (x ++ rw.bit).toNat = x.toNat * 2 + rw.bit.toNat := by
  rw [BitVec.toNat_append, Nat.shiftLeft_eq, Nat.mul_comm, ← Nat.two_pow_add_eq_or_of_lt rw.bit.isLt]

theorem addrByte_sevenBit_toNat (dev : Byte) (rw : Direction) :
    (addrByte .sevenBit dev rw).toNat = dev.toNat % 128 * 2 + rw.bit.toNat := by
  rw [addrByte, toNat_append_direction, BitVec.extractLsb'_toNat, Nat.shiftRight_zero]

theorem addrByte_preshifted_toNat (dev : Byte) (rw : Direction) :
    (addrByte .preshifted dev rw).toNat = dev.toNat / 2 * 2 + rw.bit.toNat := by
  have := dev.isLt
  rw [addrByte, toNat_append_direction, BitVec.extractLsb'_toNat, Nat.shiftRight_eq_div_pow]
  omega

theorem maddr_one (a : Word16) : maddr a 1 = be8 (a.extractLsb' 0 8) := rfl

theorem maddr_two (a : Word16) : maddr a 2 = be16 a := rfl

theorem be16_toNat (v : Word16) : (be16 v).map BitVec.toNat = [v.toNat / 256, v.toNat % 256] := by
  have := v.isLt
  simp only [be16, List.map_cons, List.map_nil, BitVec.extractLsb'_toNat, Nat.shiftRight_eq_div_pow, List.cons.injEq,
    and_true]
  omega

/-- Settles O6: as numbers, the address byte in each mode and the memory address in each width. -/
theorem operandAssembly : Obligations.OperandAssembly := by
  refine ⟨fun dev => ?_, fun dev => ?_, fun dev => ?_, fun dev => ?_, fun a => ?_, fun a => ?_⟩
  · exact addrByte_sevenBit_toNat dev .write
  · exact addrByte_sevenBit_toNat dev .read
  · exact addrByte_preshifted_toNat dev .write
  · exact addrByte_preshifted_toNat dev .read
  · rw [maddr_one, be8, List.map_singleton, BitVec.extractLsb'_toNat, Nat.shiftRight_zero]
  · rw [maddr_two, be16_toNat]

end Sys2Proof.Machine
end

section
/-! SUPPORT. Line sequences whose clock is stretched below the bound until one of their waits runs out
(40_bitbang_primitives.md R140 to R155), and the four primitive commands that run them. -/

namespace Sys2Proof.Machine

/-! ## Waits that run out -/

/-- From `s` the line sequence ends in a wait that has run out: TIMEOUT after the events `es`, with SDA at `v` and SCL
released (R162). -/
def Result.TimedOut {α : Type} (r : Result α) (s : State) (es : List Event) (rest : List Bit) (v : Option Bit) : Prop :=
  ∃ x, r = .fail .timeout (s.bus es rest v (some true) x)

theorem Result.TimedOut.andThen {α β : Type} {s : State} {es : List Event} {rest : List Bit} {v : Option Bit}
    {r : Result α} {f : α → State → Result β} (h : r.TimedOut s es rest v) : (r.andThen f).TimedOut s es rest v := by
  obtain ⟨x, rfl⟩ := h
  exact ⟨x, rfl⟩

theorem Result.TimedOut.behind {α : Type} {s : State} {es es' es'' : List Event} {rest rest' : List Bit}
    {a b v : Option Bit} {x : Session} {r : Result α} (h : r.TimedOut (s.bus es rest a b x) es' rest' v)
    (he : es ++ es' = es'') : r.TimedOut s es'' rest' v := by
  obtain ⟨y, rfl⟩ := h
  exact ⟨y, by rw [State.bus_bus, he]⟩

theorem raiseScl_timedOut (n : Bound) (rest : List Bit) (s : State) (h : s.lineIn = ansHeld n ++ rest) :
    (raiseScl n s).TimedOut s (evHeld n) rest s.outSda := ⟨_, raiseScl_held n rest s h⟩

theorem startSeq_held (rest : List Bit) (s : State) (h : s.lineIn = ansHeld s.params.nStart ++ rest) :
    (startSeq s).TimedOut s (evStartHeld s) rest (some true) := by
  rw [startSeq, drv_sda_eq_bus]
  exact .behind (.andThen (raiseScl_timedOut _ rest _ h)) rfl

theorem pulse_held (rest : List Bit) (s : State) (h : s.lineIn = ansHeld s.params.nBit ++ rest) :
    (pulse s).TimedOut s (evHeld s.params.nBit) rest s.outSda :=
  (raiseScl_timedOut _ rest s h).andThen

theorem pulseSample_held (rest : List Bit) (s : State) (h : s.lineIn = ansHeld s.params.nBit ++ rest) :
    (pulseSample s).TimedOut s (evHeld s.params.nBit) rest s.outSda :=
  (raiseScl_timedOut _ rest s h).andThen

/-! ## The bits of a byte up to the one whose wait runs out -/

theorem writeBit_held (b : Byte) (k : Nat) (rest : List Bit) (s : State)
    (h : s.lineIn = ansHeld s.params.nBit ++ rest) :
    (writeBit b k s).TimedOut s (.drive .sda (bitAt b k) :: evHeld s.params.nBit) rest (some (bitAt b k)) := by
  rw [writeBit, State.setBc, setSession_eq_bus, drv_sda_eq_bus, State.bus_bus]
  exact .behind (pulse_held rest _ h) rfl

/-- Of the bits `k`, ..., 0 the first `m` are sent and the wait of the next one runs out. -/
theorem writeBits_held (b : Byte) (z : Stretch) (rest : List Bit) {k m : Nat} (hm : m ≤ k) (s : State)
    (hz : ∀ j ∈ (bitsFrom k).take m, z j < s.params.nBit.val)
    (h : s.lineIn = ((bitsFrom k).take m).flatMap (fun j => ansWait (z j)) ++ (ansHeld s.params.nBit ++ rest)) :
    (writeBits b k s).TimedOut s
      (((bitsFrom k).take m).flatMap (evBit z b) ++ .drive .sda (bitAt b (k - m)) :: evHeld s.params.nBit) rest
      (some (bitAt b (k - m))) := by
  induction k generalizing m s with
  | zero =>
    obtain rfl : m = 0 := Nat.le_zero.1 hm
    exact writeBit_held b 0 rest s h
  | succ k ih =>
    cases m with
    | zero => exact (writeBit_held b (k + 1) rest s h).andThen
    | succ m =>
      simp only [bitsFrom, List.take_succ_cons, List.flatMap_cons, List.forall_mem_cons, List.append_assoc,
        Nat.add_sub_add_right] at hz h ⊢
      obtain ⟨hz0, hz⟩ := hz
      rw [writeBits, writeBit_released b (k + 1) (z (k + 1)) _ s hz0 h, Result.andThen_ok]
      exact .behind (ih (Nat.le_of_succ_le_succ hm) _ hz rfl) rfl

theorem readBit_released (sr : Byte) (k z : Nat) (v : Bit) (rest : List Bit) (s : State) (hz : z < s.params.nBit.val)
    (h : s.lineIn = ansWait z ++ v :: rest) :
    readBit sr k s =
      .ok (setBit sr k v) (s.bus (evSample z v) rest s.outSda (some false)
        { s.session with sr := some (setBit sr k v), bc := some k, sc := some z }) := by
  rw [readBit, pulseSample_released z v rest (s.setBc k) hz h]
  rfl

theorem readBit_held (sr : Byte) (k : Nat) (rest : List Bit) (s : State)
    (h : s.lineIn = ansHeld s.params.nBit ++ rest) :
    (readBit sr k s).TimedOut s (evHeld s.params.nBit) rest s.outSda := by
  rw [readBit, State.setBc, setSession_eq_bus]
  exact .behind (.andThen (pulseSample_held rest _ h)) rfl

/-- Of the bits `k`, ..., 0 the first `m` are sampled and the wait of the next one runs out. -/
theorem readBits_held (sr b : Byte) (z : Stretch) (rest : List Bit) {k m : Nat} (hm : m ≤ k) (s : State)
    (hz : ∀ j ∈ (bitsFrom k).take m, z j < s.params.nBit.val)
    (h : s.lineIn = ((bitsFrom k).take m).flatMap (fun j => ansWait (z j) ++ [bitAt b j]) ++
      (ansHeld s.params.nBit ++ rest)) :
    (readBits sr k s).TimedOut s
      (((bitsFrom k).take m).flatMap (fun j => evSample (z j) (bitAt b j)) ++ evHeld s.params.nBit) rest s.outSda := by
  induction k generalizing m sr s with
  | zero =>
    obtain rfl : m = 0 := Nat.le_zero.1 hm
    exact readBit_held sr 0 rest s h
  | succ k ih =>
    cases m with
    | zero => exact (readBit_held sr (k + 1) rest s h).andThen
    | succ m =>
      simp only [bitsFrom, List.take_succ_cons, List.flatMap_cons, List.forall_mem_cons, List.append_assoc] at hz h ⊢
      obtain ⟨hz0, hz⟩ := hz
      rw [readBits, readBit_released sr (k + 1) (z (k + 1)) _ _ s hz0 h, Result.andThen_ok]
      exact .behind (ih _ (Nat.le_of_succ_le_succ hm) _ hz rfl) rfl

/-! ## Bytes whose wait runs out -/

/-- The bits before the acknowledge pulse are all eight. -/
theorem mem_bitOrder_of_le {k : Nat} (hk : k ≤ 7) : k ∈ bitOrder := by simp [bitOrder]; omega

/-- A written byte whose wait runs out after `j` bits; `j = 8` is the acknowledge pulse. -/
theorem writeByteSeq_held (b : Byte) (z : Stretch) {j : Nat} (hj : j ≤ 8) (rest : List Bit) (s : State)
    (hz : ∀ k ∈ bitOrder.take j, z k < s.params.nBit.val)
    (h : s.lineIn = (bitOrder.take j).flatMap (fun k => ansWait (z k)) ++ (ansHeld s.params.nBit ++ rest)) :
    (writeByteSeq b s).TimedOut s
      ((bitOrder.take j).flatMap (evBit z b) ++ [.drive .sda (if j = 8 then true else bitAt b (7 - j))] ++
        evHeld s.params.nBit) rest (some (if j = 8 then true else bitAt b (7 - j))) := by
  rw [writeByteSeq, State.setSr, setSession_eq_bus]
  by_cases h8 : j = 8
  · subst h8
    rw [writeBits_released b 7 z _ (s.bus _ _ _ _ _) (fun k hk => hz k (mem_bitOrder_of_le hk)) h,
      Result.andThen_ok, State.bus_bus, drv_sda_eq_bus, State.bus_bus]
    exact .behind (.andThen (pulseSample_held rest _ rfl)) rfl
  · rw [if_neg h8, List.append_assoc]
    exact .behind (.andThen (writeBits_held b z rest (show j ≤ 7 by omega) _ hz h)) rfl

/-- A read byte whose wait runs out after `j` bits; `j = 8` is the acknowledge pulse. -/
theorem readByteSeq_held (ack : Bool) (b : Byte) (z : Stretch) {j : Nat} (hj : j ≤ 8) (rest : List Bit) (s : State)
    (hz : ∀ k ∈ bitOrder.take j, z k < s.params.nBit.val)
    (h : s.lineIn =
      (bitOrder.take j).flatMap (fun k => ansWait (z k) ++ [bitAt b k]) ++ (ansHeld s.params.nBit ++ rest)) :
    (readByteSeq ack s).TimedOut s
      ([.drive .sda true] ++ (bitOrder.take j).flatMap (fun k => evSample (z k) (bitAt b k)) ++
        (if j = 8 then [.drive .sda (!ack)] else []) ++ evHeld s.params.nBit) rest
      (some (if j = 8 then !ack else true)) := by
  have hstart : (drv .sda true s).setSr 0 =
      s.bus [.drive .sda true] s.lineIn (some true) s.outScl { s.session with sr := some 0 } := rfl
  rw [readByteSeq, hstart]
  by_cases h8 : j = 8
  · subst h8
    rw [readBits_released b 0 7 z _ (s.bus _ _ _ _ _) (fun k hk => hz k (mem_bitOrder_of_le hk)) h,
      Result.andThen_ok, State.bus_bus, drv_sda_eq_bus, State.bus_bus]
    exact .behind (.andThen (pulse_held rest _ rfl)) rfl
  · rw [if_neg h8, if_neg h8, List.append_nil, List.append_assoc]
    exact .behind (.andThen (readBits_held 0 b z rest (show j ≤ 7 by omega) _ hz h)) rfl

/-! ## The commands -/

/-- The response to a line sequence whose wait has run out. -/
theorem respondResult_timedOut {α : Type} {i : Instr} {s : State} {es : List Event} {rest : List Bit} {v : Bit}
    {r : Result α} (rval : α → Option Word32) (dOut : α → Option (List Byte))
    (h : r.TimedOut (startCommand i s) es rest (some v)) :
    (Host.Outcome.next (respondResult rval dOut r) : Host.Outcome State Fault Refusal) =
      .next ((s.lines es rest v true).responded .timeout none none) := by
  obtain ⟨x, rfl⟩ := h
  rw [respondResult_fail_bus rval dOut (by decide)]

/-- Settles O16: the started command runs `startSeq`, released in time or held for its whole bound. (`startCommand` is a
name of the model.) -/
theorem bbStartCommand : Obligations.StartCommand := by
  refine ⟨fun s z rest hs hz hl => ?_, fun s rest hs hl => ?_⟩
  · rw [exec, execBbStart, command_accepted hs.1 hs.engineEntry,
      startSeq_released z rest (startCommand (.bbStart false) s) hz hl]
    rfl
  · rw [exec, execBbStart, command_accepted hs.1 hs.engineEntry]
    exact respondResult_timedOut _ _ (startSeq_held rest (startCommand (.bbStart false) s) hl)

/-- Settles O17: the started command runs `stopSeq`, released in time or held for its whole bound. -/
theorem stopCommand : Obligations.StopCommand := by
  refine ⟨fun s z rest hs hz hl => ?_, fun s rest hs hl => ?_⟩
  · rw [exec, execBbStop, command_accepted hs.1 hs.engineEntry,
      stopSeq_released z rest (startCommand (.bbStop false) s) hz hl]
    rfl
  · rw [exec, execBbStop, command_accepted hs.1 hs.engineEntry]
    exact respondResult_timedOut _ _ (stopSeq_held rest (startCommand (.bbStop false) s) hl)

/-- Settles O18: the acknowledge sampled behind the nine waits is the status, and a wait that runs out is TIMEOUT. -/
theorem writeByteCommand : Obligations.WriteByteCommand := by
  refine ⟨fun s b z a rest hs hz hl => ?_, fun s b z j rest hs hj hz hl => ?_⟩
  · rw [exec, execBbWriteByte, command_accepted hs.1 hs.engineEntry,
      writeByteSeq_released b z a rest (startCommand (.bbWriteByte b false) s) hz hl]
    cases a <;> rfl
  · rw [exec, execBbWriteByte, command_accepted hs.1 hs.engineEntry]
    rw [List.append_assoc] at hl
    exact respondResult_timedOut _ _ (writeByteSeq_held b z hj rest (startCommand (.bbWriteByte b false) s) hz hl)

/-- Settles O19: the byte sampled is the value returned, and a wait that runs out returns none. -/
theorem readByteCommand : Obligations.ReadByteCommand := by
  refine ⟨fun s ack b z rest hs hz hl => ?_, fun s ack b z j rest hs hj hz hl => ?_⟩
  · rw [exec, execBbReadByte, command_accepted hs.1 hs.engineEntry,
      readByteSeq_released ack b z rest (startCommand (.bbReadByte ack false false) s) hz hl]
    rfl
  · rw [exec, execBbReadByte, command_accepted hs.1 hs.engineEntry]
    rw [List.append_assoc] at hl
    exact respondResult_timedOut _ _
      (readByteSeq_held ack b z hj rest (startCommand (.bbReadByte ack false false) s) hz hl)

end Sys2Proof.Machine
end

section
/-! SUPPORT. The last poll of a wait that runs out is the last event of its line sequence, for every environment
(40_bitbang_primitives.md R133, R164). -/

namespace Sys2Proof.Machine

/-- Behind the trace `base` a line sequence appends events; where it returns TIMEOUT, the last of them is a poll of SCL
that read 0. -/
def Result.StopsAtPoll {α : Type} (base : List Event) (r : Result α) : Prop :=
  r.Meets (fun t => base <+: t.trace)
    (fun st t => st = .timeout → ∃ tr, base <+: tr ∧ t.trace = tr ++ [.read .scl false])

theorem Result.StopsAtPoll.andThen {α β : Type} {base : List Event} {r : Result α} {f : α → State → Result β}
    (h : r.StopsAtPoll base) (hf : ∀ x t, base <+: t.trace → (f x t).StopsAtPoll base) :
    (r.andThen f).StopsAtPoll base :=
  Result.Meets.andThen h hf fun _ _ ht => ht

section
variable {base : List Event} {s : State}

/-! ## Events behind the trace -/

theorem prefix_drv (l : Line) (v : Bit) (h : base <+: s.trace) : base <+: (drv l v s).trace := by
  cases l <;> exact h.trans (List.prefix_append _ _)

theorem prefix_dly (k : Delay) (h : base <+: s.trace) : base <+: (dly k s).trace := h.trans (List.prefix_append _ _)

theorem prefix_afterRead (l : Line) (h : base <+: s.trace) : base <+: (afterRead l s).trace :=
  h.trans (List.prefix_append _ _)

theorem prefix_lowerScl (h : base <+: s.trace) : base <+: (lowerScl s).trace := prefix_dly _ (prefix_drv _ _ h)

/-! ## The line sequences -/

theorem pollScl_stopsAtPoll (left sc : Nat) (h : base <+: s.trace) : (pollScl left sc s).StopsAtPoll base := by
  induction left generalizing sc s with
  | zero =>
    cases hv : lineAnswer .scl s with
    | true =>
      rw [pollScl, hv, if_pos rfl]
      exact prefix_afterRead .scl h
    | false =>
      rw [pollScl, hv, if_neg Bool.false_ne_true]
      exact fun _ => ⟨s.trace, h, by simp [hv]⟩
  | succ left ih =>
    rw [pollScl]
    split
    · exact prefix_afterRead .scl h
    · exact ih _ (prefix_afterRead .scl h)

theorem raiseScl_stopsAtPoll (n : Bound) (h : base <+: s.trace) : (raiseScl n s).StopsAtPoll base :=
  pollScl_stopsAtPoll _ _ (prefix_dly _ (prefix_drv _ _ (prefix_dly _ h)))

theorem pulse_stopsAtPoll (h : base <+: s.trace) : (pulse s).StopsAtPoll base :=
  (raiseScl_stopsAtPoll _ h).andThen fun _ _ ht => prefix_lowerScl ht

theorem pulseSample_stopsAtPoll (h : base <+: s.trace) : (pulseSample s).StopsAtPoll base :=
  (raiseScl_stopsAtPoll _ h).andThen fun _ _ ht => prefix_lowerScl (prefix_afterRead _ ht)

theorem startSeq_stopsAtPoll (h : base <+: s.trace) : (startSeq s).StopsAtPoll base :=
  (raiseScl_stopsAtPoll _ (prefix_drv _ _ h)).andThen fun _ _ ht => prefix_drv _ _ (prefix_drv _ _ ht)

theorem stopSeq_stopsAtPoll (h : base <+: s.trace) : (stopSeq s).StopsAtPoll base :=
  (raiseScl_stopsAtPoll _ (prefix_drv _ _ h)).andThen fun _ _ ht => prefix_drv _ _ ht

theorem writeBit_stopsAtPoll (b : Byte) (k : Nat) (h : base <+: s.trace) : (writeBit b k s).StopsAtPoll base :=
  pulse_stopsAtPoll (prefix_drv _ _ (s := s.setBc k) h)

theorem writeBits_stopsAtPoll (b : Byte) (k : Nat) (h : base <+: s.trace) : (writeBits b k s).StopsAtPoll base := by
  induction k generalizing s with
  | zero => exact writeBit_stopsAtPoll b 0 h
  | succ k ih => exact (writeBit_stopsAtPoll b (k + 1) h).andThen fun _ _ ht => ih ht

/-- A NACK is no TIMEOUT. -/
theorem acknowledge_stopsAtPoll (a : Bit) (h : base <+: s.trace) : (acknowledge a s).StopsAtPoll base := by
  cases a with
  | true => exact fun hst => Status.noConfusion hst
  | false => exact h

theorem writeByteSeq_stopsAtPoll (b : Byte) (h : base <+: s.trace) : (writeByteSeq b s).StopsAtPoll base :=
  (writeBits_stopsAtPoll b 7 (s := s.setSr b) h).andThen fun _ _ ht =>
    (pulseSample_stopsAtPoll (prefix_drv _ _ ht)).andThen fun a _ hu => acknowledge_stopsAtPoll a hu

theorem readBit_stopsAtPoll (sr : Byte) (k : Nat) (h : base <+: s.trace) : (readBit sr k s).StopsAtPoll base :=
  (pulseSample_stopsAtPoll (s := s.setBc k) h).andThen fun _ _ ht => ht

theorem readBits_stopsAtPoll (sr : Byte) (k : Nat) (h : base <+: s.trace) : (readBits sr k s).StopsAtPoll base := by
  induction k generalizing sr s with
  | zero => exact readBit_stopsAtPoll sr 0 h
  | succ k ih => exact (readBit_stopsAtPoll sr (k + 1) h).andThen fun x _ ht => ih x ht

theorem readByteSeq_stopsAtPoll (ack : Bool) (h : base <+: s.trace) : (readByteSeq ack s).StopsAtPoll base :=
  (readBits_stopsAtPoll 0 7 (s := (drv .sda true s).setSr 0) (prefix_drv _ _ h)).andThen fun _ _ ht =>
    (pulse_stopsAtPoll (prefix_drv _ _ ht)).andThen fun _ _ hu => prefix_drv _ _ hu

end

/-! ## The commands -/

/-- A command that responds to such a line sequence with TIMEOUT. -/
theorem command_timeout_endsAtPoll {α : Type} {i : Instr} {accept : State → Bool} {f : State → Result α}
    {rval : α → Option Word32} {dOut : α → Option (List Byte)} {s t : State}
    (hf : (f (startCommand i s)).StopsAtPoll s.trace)
    (h : command i accept (fun u => .next (respondResult rval dOut (f u))) s = .next t)
    (ht : t.status = some .timeout) : ∃ es, t.trace = s.trace ++ es ++ [.read .scl false] := by
  rcases command_cases i accept (fun u => .next (respondResult rval dOut (f u))) s with
    ⟨-, hc⟩ | ⟨-, -, hc⟩ | ⟨-, -, hc⟩ <;> rw [hc] at h <;> cases h
  · cases ht
  · generalize f (startCommand i s) = r at hf ht
    cases r with
    | ok x u => cases ht
    | fail st u =>
      obtain ⟨tr, ⟨es, rfl⟩, hu⟩ := hf (Option.some.inj ht)
      exact ⟨es, hu⟩

/-- Settles O20: a primitive runs one line sequence, and nothing follows the poll that ran out. -/
theorem timeoutEndsAPrimitive : Obligations.TimeoutEndsAPrimitive := by
  intro i s t hi h ht
  have hs (i : Instr) : s.trace <+: (startCommand i s).trace := List.prefix_rfl
  cases i with
  | bbStart => exact command_timeout_endsAtPoll (startSeq_stopsAtPoll (hs _)) h ht
  | bbStop => exact command_timeout_endsAtPoll (stopSeq_stopsAtPoll (hs _)) h ht
  | bbWriteByte b => exact command_timeout_endsAtPoll (writeByteSeq_stopsAtPoll b (hs _)) h ht
  | bbReadByte ack => exact command_timeout_endsAtPoll (readByteSeq_stopsAtPoll ack (hs _)) h ht
  | init | deinit | bbWrite | bbRead | bbMemWrite | bbMemRead | bbIsDeviceReady | readU8 | readU16 | readU32 | writeU8
  | writeU16 | writeU32 | readBurst | writeBurst | modifyU8 | modifyU16 => cases hi

end Sys2Proof.Machine
end

section
/-! SUPPORT. Reads of released lines only (40_bitbang_primitives.md R161). `LineEffect` keeps latches that agree with the
events since some point of the trace. At the start of a command they need not agree with its events, of which there are
none yet; but no command reads them (R160), so it does the same from latches without a value, which do agree. -/

namespace Sys2Proof.Machine

/-- The events of a command are those it appends when the latches hold no value. -/
theorem exec_without_latches {i : Instr} {s t : State} (h : exec i s = .next t) :
    ∃ t', exec i { s with outSda := none, outScl := none } = .next t' ∧ t'.trace = t.trace := by
  have hl := latchesAreNotRead i s none none
  rw [h] at hl
  generalize exec i { s with outSda := none, outScl := none } = o at hl
  cases o with
  | next t' => exact ⟨t', rfl, by rw [hl]⟩
  | fault | refused => exact hl.elim

theorem readsReleased_nil : ReadsReleased [] := fun before l v after h => by simp at h

theorem readsReleased_off_lines {es : List Event} (h : ∀ e ∈ es, e.onLines = false) : ReadsReleased es :=
  readsReleased_nil.append_off_lines h

/-- With latches that hold no value, they agree with the events since now: none. -/
theorem State.latchFrom_trace {s : State} (ha : s.outSda = none) (hb : s.outScl = none) : s.LatchFrom s.trace :=
  ⟨[], (List.append_nil _).symm, ha, hb, readsReleased_nil⟩

/-- Settles O21: on the lines the latches say that every read was of a released line, and the other cases of a command
read no line. -/
theorem readsOfReleasedLinesOnly : Obligations.ReadsOfReleasedLinesOnly := by
  intro i s t h
  obtain ⟨t', h', htr⟩ := exec_without_latches h
  have hline {u : State} (he : LineEffect (startCommand i { s with outSda := none, outScl := none }) u) :
      ∃ es, u.trace = s.trace ++ es ∧ ReadsReleased es := by
    obtain ⟨es, hes, -, -, hr⟩ := he.latch s.trace (State.latchFrom_trace rfl rfl)
    exact ⟨es, hes, hr⟩
  rw [← htr]
  cases exec_next_ran h' with
  | invalid | installed | uninstalled => exact ⟨[], (List.append_nil _).symm, readsReleased_nil⟩
  | lineOk hu ha hi hc rval dOut u hans he =>
    rw [respond_trace]
    exact hline he
  | lineFail hu ha hi hc st u hst he =>
    rw [respond_trace]
    exact hline he
  | portOk hu ha hi hc rval dOut hans accs rest p hl hacc =>
    exact ⟨_, rfl, readsReleased_off_lines (accesses_off_lines hacc)⟩
  | portFail hu ha hi hc st accs rest p hl hacc =>
    exact ⟨_, rfl, readsReleased_off_lines (accesses_off_lines hacc)⟩
  | portStuck hu ha hi hc accs part rest p hl hacc hpart =>
    exact ⟨_, rfl, readsReleased_off_lines (stuck_off_lines hacc hpart)⟩

end Sys2Proof.Machine
end

section
/-! SUPPORT. Transactions that abort (41_bitbang_transactions.md R172 to R182): a transaction performs the steps of
`wireUnits` one behind the other, and the first step that fails is followed by the STOP alone. -/

namespace Sys2Proof.Machine

/-! ## Bytes without stretching whose wait runs out (R150, R155) -/

theorem writeByteSeq_ranOut (b : Byte) {j : Nat} (hj : j ≤ 8) (rest : List Bit) (s : State)
    (h : s.lineIn = ansSendHeld s j ++ rest) :
    ∃ a b' x, writeByteSeq b s = .fail .timeout (s.bus (evSendHeld s b j) rest a b' x) := by
  obtain ⟨x, hx⟩ := writeByteSeq_held b noStretch hj rest s (fun _ _ => Bound.val_pos _)
    (h.trans (List.append_assoc _ _ _))
  exact ⟨_, _, x, hx⟩

theorem readByteSeq_ranOut (ack : Bool) (y : Byte) {j : Nat} (hj : j ≤ 8) (rest : List Bit) (s : State)
    (h : s.lineIn = ansReceiveHeld s y j ++ rest) :
    ∃ a b x, readByteSeq ack s = .fail .timeout (s.bus (evReceiveHeld s y ack j) rest a b x) := by
  obtain ⟨x, hx⟩ := readByteSeq_held ack y noStretch hj rest s (fun _ _ => Bound.val_pos _)
    (h.trans (List.append_assoc _ _ _))
  exact ⟨_, _, x, hx⟩

/-! ## One step of a transaction -/

/-- How a step fails: a wait of it runs out, or the byte it sends is refused (R173). -/
inductive WireUnit.Fails (s : State) : WireUnit → Status → List Event → List Bit → Prop where
  | ranOut {u : WireUnit} {es : List Event} {as : List Bit} (h : RunsOut s u es as) : Fails s u .timeout es as
  | refused (b : Byte) : Fails s (.send b) .nack (evW b true) (ansW true)

/-- The bounds of the waits are parameters, so a step fails alike in every state with the same ones. -/
theorem WireUnit.Fails.of_params {s t : State} {u : WireUnit} {st : Status} {es : List Event} {as : List Bit}
    (h : u.Fails s st es as) (hp : t.params = s.params) : u.Fails t st es as := by
  cases h with
  | ranOut h =>
    refine .ranOut ?_
    cases h with
    | start =>
      rw [← hp, show evStartHeld s = evStartHeld t by simp [evStartHeld, hp]]
      exact .start
    | send b j hj =>
      rw [show evSendHeld s b j = evSendHeld t b j by simp [evSendHeld, hp],
        show ansSendHeld s j = ansSendHeld t j by simp [ansSendHeld, hp]]
      exact .send b j hj
    | receive x ack j hj =>
      rw [show evReceiveHeld s x ack j = evReceiveHeld t x ack j by simp [evReceiveHeld, hp],
        show ansReceiveHeld s x j = ansReceiveHeld t x j by simp [ansReceiveHeld, hp]]
      exact .receive x ack j hj
  | refused b => exact .refused b

/-- Under the parameters `p`, `f` performs the step `u` and goes on with `g`, or aborts where the step fails. -/
structure Performs {α : Type} (p : Params) (u : WireUnit) (f g : State → Result α) : Prop where
  goesOn : ∀ (s : State) (rest : List Bit), s.params = p → s.lineIn = u.answers ++ rest →
    ∃ a b x, f s = g (s.bus u.events rest a b x)
  aborts : ∀ (s : State) (st : Status) (es : List Event) (as rest : List Bit), s.params = p → u.Fails s st es as →
    s.lineIn = as ++ rest → ∃ a b x, f s = finishFail st (s.bus es rest a b x)

section
variable {α : Type} {p : Params} {f g : State → Result α}

theorem performs_start (hf : ∀ s, f s = (startSeq s).orFinish fun _ t => g t) : Performs p .start f g where
  goesOn s rest _ hl := by
    obtain ⟨x, hx⟩ := startSeq_plain rest s hl
    exact ⟨_, _, _, by rw [hf, hx, Result.orFinish_ok]; rfl⟩
  aborts s st es as rest _ h hl := by
    cases h with
    | ranOut h =>
      cases h
      obtain ⟨x, hx⟩ := startSeq_held rest s hl
      exact ⟨_, _, _, by rw [hf, hx, Result.orFinish_fail]⟩

theorem performs_send {b : Byte} (hf : ∀ s, s.params = p → f s = (writeByteSeq b s).orFinish fun _ t => g t) :
    Performs p (.send b) f g where
  goesOn s rest hp hl := by
    obtain ⟨x, hx⟩ := writeByteSeq_acked b rest s hl
    exact ⟨_, _, _, by rw [hf s hp, hx, Result.orFinish_ok]; rfl⟩
  aborts s st es as rest hp h hl := by
    cases h with
    | ranOut h =>
      cases h with
      | send b j hj =>
        obtain ⟨a, b', x, hx⟩ := writeByteSeq_ranOut b hj rest s hl
        exact ⟨a, b', x, by rw [hf s hp, hx, Result.orFinish_fail]⟩
    | refused b =>
      obtain ⟨x, hx⟩ := writeByteSeq_nacked b rest s hl
      exact ⟨_, _, _, by rw [hf s hp, hx, Result.orFinish_fail]⟩

theorem performs_receive {k : Byte → State → Result α} (y : Byte) {ack : Bool}
    (hf : ∀ s, f s = (readByteSeq ack s).orFinish k) : Performs p (.receive y ack) f (k y) where
  goesOn s rest _ hl := by
    obtain ⟨x, hx⟩ := readByteSeq_plain ack y rest s hl
    exact ⟨_, _, _, by rw [hf, hx, Result.orFinish_ok]; rfl⟩
  aborts s st es as rest _ h hl := by
    cases h with
    | ranOut h =>
      cases h with
      | receive y ack j hj =>
        obtain ⟨a, b, x, hx⟩ := readByteSeq_ranOut ack y hj rest s hl
        exact ⟨a, b, x, by rw [hf, hx, Result.orFinish_fail]⟩

/-- The session registers a step finds make no difference. -/
theorem Performs.session {u : WireUnit} (h : Performs p u f g) (y : State → Session) :
    Performs p u (fun s => f (s.setSession (y s))) g where
  goesOn s rest hp hl := h.goesOn (s.setSession (y s)) rest hp hl
  aborts s st es as rest hp hs hl := h.aborts (s.setSession (y s)) st es as rest hp (hs.of_params rfl) hl

/-! ## The steps one behind the other -/

/-- Under the parameters `p`, `f` performs the steps in this order. -/
inductive Follows {α : Type} (p : Params) : List WireUnit → (State → Result α) → Prop where
  | nil (f : State → Result α) : Follows p [] f
  | cons {u : WireUnit} {us : List WireUnit} {f g : State → Result α} (hu : Performs p u f g) (hg : Follows p us g) :
      Follows p (u :: us) f

theorem Follows.session {us : List WireUnit} (h : Follows p us f) (y : State → Session) :
    Follows p us (fun s => f (s.setSession (y s))) := by
  cases h with
  | nil => exact .nil _
  | cons hu hg => exact .cons (hu.session y) hg

/-- The steps `done` go well, the next one fails, and the transaction goes on to its abort: none of the steps behind it
is performed. -/
theorem Follows.aborts {done left : List WireUnit} {u : WireUnit} (h : Follows p (done ++ u :: left) f) {s : State}
    {st : Status} {es : List Event} {as rest : List Bit} (hp : s.params = p) (hu : u.Fails s st es as)
    (hl : s.lineIn = done.flatMap WireUnit.answers ++ as ++ rest) :
    ∃ a b x, f s = finishFail st (s.bus (done.flatMap WireUnit.events ++ es) rest a b x) := by
  induction done generalizing s f with
  | nil =>
    cases h with
    | cons hperf hg => exact hperf.aborts s st es as rest hp hu hl
  | cons v done ih =>
    cases h with
    | cons hperf hg =>
      rw [List.flatMap_cons, List.append_assoc, List.append_assoc] at hl
      obtain ⟨a, b, x, hx⟩ := hperf.goesOn s _ hp hl
      obtain ⟨a', b', x', hx'⟩ :=
        ih hg (s := s.bus v.events _ a b x) hp (hu.of_params rfl) (List.append_assoc _ _ _).symm
      exact ⟨a', b', x', by rw [hx, hx', State.bus_bus, List.flatMap_cons, List.append_assoc]⟩

/-! ## The phases (R195) -/

theorem Follows.addressed {us : List WireUnit} (h : Follows p us f) (dev : Byte) (rw : Direction) :
    Follows p (.start :: .send (addrByte p.addrMode dev rw) :: us) (addressed dev rw f) := by
  refine .cons (performs_start fun s => rfl) (.cons (performs_send fun s hp => ?_) h)
  rw [addrByteOf, hp]

theorem Follows.sendAddress {us : List WireUnit} (h : Follows p us f) (ms : List Byte) :
    Follows p (ms.map .send ++ us) (sendAddress f ms) := by
  induction ms with
  | nil => exact h
  | cons m ms ih => exact .cons (performs_send fun s _ => rfl) ih

theorem writeData_follows (p : Params) (bi : Nat) (xs : List Byte) :
    Follows p (xs.map .send) (writeData bi xs) := by
  induction xs generalizing bi with
  | nil => exact .nil _
  | cons x xs ih => exact .cons (performs_send fun s _ => rfl) ((ih (bi + 1)).session _)

theorem readData_follows (p : Params) (bi : Nat) (buf : List Byte) (y : Byte) (ys : List Byte) :
    Follows p (receives (y :: ys)) (readData ys.length bi buf) := by
  induction ys generalizing bi buf y with
  | nil => exact .cons (performs_receive y fun s => rfl) (.nil _)
  | cons w ws ih =>
    refine .cons (performs_receive y fun s => rfl) ?_
    exact ((ih (bi + 1) (buf ++ [y]) w).session fun t => { t.session with bi := some (bi + 1) }).session
      fun t => { t.session with buf := some (buf ++ [y]) }

end

theorem writePhase_follows (p : Params) (xs : List Byte) :
    Follows p (xs.map .send) (fun s => writeData 0 xs (s.setBi 0)) := (writeData_follows p 0 xs).session _

theorem readPhase_follows (p : Params) {n : Nat} {xs : List Byte} (hxs : xs ≠ []) (hn : xs.length = n) :
    Follows p (receives xs) (readPhase n) := by
  obtain ⟨y, ys, rfl⟩ := List.exists_cons_of_ne_nil hxs
  subst hn
  exact ((readData_follows p 0 [] y ys).session fun t => { t.session with bi := some 0 }).session
    fun t => { t.session with buf := some [] }

/-! ## The STOP of an abort (R172) -/

theorem finishFail_held {α : Type} (st : Status) (rest : List Bit) (s : State)
    (h : s.lineIn = ansHeld s.params.nStop ++ rest) :
    ∃ x, (finishFail st s : Result α) = .fail st (s.bus (evStopHeld s) rest (some false) (some true) x) := by
  obtain ⟨x, hx⟩ := stopSeq_held rest (s.setErr st) h
  exact ⟨x, by rw [finishFail, hx]; rfl⟩

end Sys2Proof.Machine
end

section
/-! SUPPORT. The STOP that every transaction of the engine ends with, for every environment
(41_bitbang_transactions.md R172, 60_exceptions.md R305 to R308), and the commands of the transactions. -/

namespace Sys2Proof.Machine

/-! ## A STOP under every environment (R133, R145) -/

/-- A wait ends at the first poll that reads 1, or runs out where none below the bound does. -/
theorem waitScl_cases (n : Bound) (s : State) :
    (∃ z < n.val, ∃ rest x, waitScl n s = .ok () (s.bus (evWait z) rest s.outSda s.outScl x)) ∨
    (∃ rest x, waitScl n s =
      .fail .timeout (s.bus (List.replicate n.val (.read .scl false)) rest s.outSda s.outScl x)) := by
  obtain ⟨hreleased, hheld⟩ := clockStretchWait n s
  by_cases hone : ∃ k, k < n.val ∧ sclPoll s k = true
  · have hmin {j : Nat} (hj : j < Nat.find hone) : sclPoll s j = false := by
      have := Nat.find_min hone hj
      simpa [hj.trans (Nat.find_spec hone).1] using this
    obtain ⟨hlt, hspec⟩ := Nat.find_spec hone
    exact .inl ⟨_, hlt, _, _, by rw [hreleased _ hlt (fun j => hmin) hspec, List.append_assoc]; rfl⟩
  · exact .inr ⟨_, _, hheld fun j hj => by simpa using fun h => hone ⟨j, hj, h⟩⟩

theorem stopSeq_cases (s : State) :
    (∃ z < s.params.nStop.val, ∃ rest x, stopSeq s = .ok () (s.bus (evStop z) rest (some true) (some true) x)) ∨
    (∃ rest x, stopSeq s = .fail .timeout (s.bus (evStopHeld s) rest (some false) (some true) x)) := by
  rcases waitScl_cases s.params.nStop (dly .half (drv .scl true (dly .half (drv .sda false s)))) with
    ⟨z, hz, rest, x, h⟩ | ⟨rest, x, h⟩
  · refine .inl ⟨z, hz, rest, x, ?_⟩
    rw [stopSeq, raiseScl, h]
    simp [drv_sda_eq_bus, drv_scl_eq_bus, dly_eq_bus, evStop, evRaise]
  · refine .inr ⟨rest, x, ?_⟩
    rw [stopSeq, raiseScl, h]
    simp [drv_sda_eq_bus, drv_scl_eq_bus, dly_eq_bus, evStopHeld, evHeld, evRaise]

/-! ## Results that end with a STOP -/

/-- Behind the trace of `s`, the trace `tr` ends with a STOP that ran to its edge. -/
def EndsInStop (s : State) (tr : List Event) : Prop :=
  ∃ es z, z < s.params.nStop.val ∧ tr = s.trace ++ es ++ evStop z

/-- Behind the trace of `s`, the trace `tr` ends with a STOP that ran out. -/
def EndsInStopHeld (s : State) (tr : List Event) : Prop := ∃ es, tr = s.trace ++ es ++ evStopHeld s

/-- A transaction from `s` returns behind its STOP: OK only where that STOP ran to its edge (R172). -/
def Result.Stops {α : Type} (s : State) (r : Result α) : Prop :=
  r.Meets (fun t => EndsInStop s t.trace)
    (fun st t => (st = .nack ∨ st = .timeout) ∧ (EndsInStop s t.trace ∨ EndsInStopHeld s t.trace))

/-- What a line activity leaves alone, and the events it appends. -/
theorem LineEffect.trace_params {s t : State} (h : LineEffect s t) :
    (∃ es, t.trace = s.trace ++ es) ∧ t.params = s.params := by
  obtain ⟨es, rest, a, b, x, -, rfl⟩ := h.frame
  exact ⟨⟨es, rfl⟩, rfl⟩

section
variable {α : Type} {s t : State} {tr : List Event}

theorem EndsInStop.after (h : LineEffect s t) (ht : EndsInStop t tr) : EndsInStop s tr := by
  obtain ⟨⟨es, hes⟩, hp⟩ := h.trace_params
  obtain ⟨es', z, hz, rfl⟩ := ht
  exact ⟨es ++ es', z, hp ▸ hz, by rw [hes, List.append_assoc s.trace]⟩

theorem EndsInStopHeld.after (h : LineEffect s t) (ht : EndsInStopHeld t tr) : EndsInStopHeld s tr := by
  obtain ⟨⟨es, hes⟩, hp⟩ := h.trace_params
  obtain ⟨es', rfl⟩ := ht
  exact ⟨es ++ es', by rw [hes, List.append_assoc s.trace, evStopHeld, evStopHeld, hp]⟩

theorem Result.Stops.after {r : Result α} (h : LineEffect s t) (hr : r.Stops t) : r.Stops s :=
  Result.Meets.mono hr (fun _ => .after h) fun _ _ => And.imp_right (Or.imp (.after h) (.after h))

/-- A STOP, whatever is returned behind it where it ran to its edge. -/
theorem stopSeq_andThen_stops {f : Unit → State → Result α} (s : State)
    (hf : ∀ u, LineEffect s u → EndsInStop s u.trace → (f () u).Stops s) : ((stopSeq s).andThen f).Stops s := by
  have hany := stopSeq_any s
  rcases stopSeq_cases s with ⟨z, hz, rest, x, h⟩ | ⟨rest, x, h⟩ <;> rw [h] at hany ⊢
  · obtain ⟨hline, -⟩ := hany
    exact hf _ hline ⟨[], z, hz, by simp⟩
  · exact ⟨.inr rfl, .inr ⟨[], by simp⟩⟩

/-! ## Finishing and aborting -/

theorem finishOk_stops (y : α) (s : State) : (finishOk y s).Stops s := stopSeq_andThen_stops s fun _ _ hu => hu

theorem finishFail_stops {st : Status} (hst : st = .nack ∨ st = .timeout) (s : State) :
    (finishFail st s : Result α).Stops s := by
  refine ⟨hst, ?_⟩
  rcases stopSeq_cases (s.setErr st) with ⟨z, hz, rest, x, h⟩ | ⟨rest, x, h⟩ <;> rw [h]
  · exact .inl ⟨[], z, hz, by simp⟩
  · exact .inr ⟨[], by rw [List.append_nil]; rfl⟩

theorem Result.Stops.orFinish {β : Type} {r : Result β} {f : β → State → Result α}
    (h : r.Meets (LineEffect s) (fun st t => LineEffect s t ∧ (st = .nack ∨ st = .timeout)))
    (hf : ∀ x t, (f x t).Stops t) : (r.orFinish f).Stops s := by
  cases r with
  | ok x t => exact .after h (hf x t)
  | fail st t =>
    obtain ⟨ht, hst⟩ := h
    exact .after ht (finishFail_stops hst t)

end

/-! ## The transactions (R174 to R190) -/

theorem addressed_stops {α : Type} (dev : Byte) (rw : Direction) {f : State → Result α} (hf : ∀ t, (f t).Stops t)
    (s : State) : (addressed dev rw f s).Stops s :=
  .orFinish (startSeq_step s) fun _ t => .orFinish (writeByteSeq_step _ t) fun _ u => hf u

theorem sendAddress_stops {α : Type} {f : State → Result α} (hf : ∀ t, (f t).Stops t) (ms : List Byte) (s : State) :
    (sendAddress f ms s).Stops s := by
  induction ms generalizing s with
  | nil => exact hf s
  | cons m ms ih => exact .orFinish (writeByteSeq_step m s) fun _ t => ih t

theorem writeData_stops (bi : Nat) (xs : List Byte) (s : State) : (writeData bi xs s).Stops s := by
  induction xs generalizing bi s with
  | nil => exact finishOk_stops () s
  | cons x xs ih => exact .orFinish (writeByteSeq_step x s) fun _ t => .after (.setSession _ t) (ih (bi + 1) _)

theorem readData_stops (left bi : Nat) (buf : List Byte) (s : State) : (readData left bi buf s).Stops s := by
  have hset (t : State) (xs : List Byte) (k : Nat) : LineEffect t ((t.setBuf xs).setBi k) :=
    (LineEffect.setSession _ t).trans (.setSession _ _)
  induction left generalizing bi buf s with
  | zero => exact .orFinish (readByteSeq_step false s) fun x t => .after (hset t _ _) (finishOk_stops _ _)
  | succ left ih => exact .orFinish (readByteSeq_step true s) fun x t => .after (hset t _ _) (ih _ _ _)

theorem writePhase_stops (xs : List Byte) (s : State) : (writeData 0 xs (s.setBi 0)).Stops s :=
  .after (.setSession _ s) (writeData_stops 0 xs _)

theorem readPhase_stops (n : Nat) (s : State) : (readPhase n s).Stops s :=
  .after ((LineEffect.setSession _ s).trans (.setSession _ _)) (readData_stops _ _ _ _)

/-! ## What a trial makes of is_device_ready (R190) -/

section
variable {dev : Byte} {left m : Nat} {s t u : State}

theorem trials_of_ready (h : probe dev s = .ok () t) : trials dev left m s = finishOk () t := by
  cases left <;> simp only [trials, h]

theorem trials_of_timeout (h : probe dev s = .fail .timeout t) : trials dev left m s = finishFail .timeout t := by
  cases left <;> simp only [trials, h]

theorem trials_zero_of_refused (h : probe dev s = .fail .nack t) :
    trials dev 0 m s = (stopSeq t).andThen fun _ u => .fail .nack u := by
  simp only [trials, h]

theorem trials_succ_of_refused (h : probe dev s = .fail .nack t) :
    trials dev (left + 1) m s =
      (stopSeq t).andThen fun _ u => trials dev left (m + 1) ((dly .trial u).setTrial (m + 1)) := by
  simp only [trials, h]

theorem trials_of_stop_fails {st : Status} (h : probe dev s = .fail .nack t) (hs : stopSeq t = .fail st u) :
    trials dev left m s = .fail st u := by
  cases left with
  | zero => rw [trials_zero_of_refused h, hs, Result.andThen_fail]
  | succ left => rw [trials_succ_of_refused h, hs, Result.andThen_fail]
end

/-- A trial that was acknowledged or in which a wait ran out ends with a STOP, whatever a refused one does. -/
theorem trials_stops_of_refused {dev : Byte} {left m : Nat} {s : State}
    (h : ∀ t, LineEffect s t → probe dev s = .fail .nack t → (trials dev left m s).Stops s) :
    (trials dev left m s).Stops s := by
  have hany := probe_any dev s
  cases hprobe : probe dev s with
  | ok x t =>
    rw [hprobe] at hany
    rw [trials_of_ready hprobe]
    exact .after hany (finishOk_stops () t)
  | fail st t =>
    rw [hprobe] at hany
    obtain ⟨ht, rfl | rfl⟩ := hany
    · exact h t ht hprobe
    · rw [trials_of_timeout hprobe]
      exact .after ht (finishFail_stops (.inr rfl) t)

/-- A refused trial is closed by its STOP; behind the last one that is the end (R190). -/
theorem trials_stops (dev : Byte) (left m : Nat) (s : State) : (trials dev left m s).Stops s := by
  induction left generalizing m s with
  | zero =>
    refine trials_stops_of_refused fun t ht hprobe => ?_
    rw [trials_zero_of_refused hprobe]
    exact .after ht (stopSeq_andThen_stops t fun _ _ hu => ⟨.inl rfl, .inl hu⟩)
  | succ left ih =>
    refine trials_stops_of_refused fun t ht hprobe => ?_
    rw [trials_succ_of_refused hprobe]
    exact .after ht (stopSeq_andThen_stops t fun u hu _ =>
      .after ((hu.trans (.dly _ u)).trans (.setSession _ _)) (ih _ _))

/-! ## The commands -/

/-- What the four transactions are on the wire: the command `i` responds to `f`, which performs the steps `us` where the
environment lets it, and ends with a STOP in any case. -/
inductive Transacts (s : State) (i : Instr) (us : List WireUnit) : Prop where
  | intro {α : Type} (f : State → Result α) (rval : α → Option Word32) (dOut : α → Option (List Byte))
      (hexec : exec i s = .next (respondResult rval dOut (f (startCommand i s)))) (hsteps : Follows s.params us f)
      (hstop : ∀ t, (f t).Stops t)

theorem Transacts.of_accepts {α : Type} {s : State} {i : Instr} {us : List WireUnit} {f : State → Result α}
    {rval : α → Option Word32} {dOut : α → Option (List Byte)} (hu : s.upc = .idle) (ha : accepts i s = true)
    (hexec : exec i s = command i (accepts i) (fun t => .next (respondResult rval dOut (f t))) s)
    (hsteps : Follows s.params us f) (hstop : ∀ t, (f t).Stops t) : Transacts s i us :=
  ⟨f, rval, dOut, hexec.trans (command_accepted hu ha), hsteps, hstop⟩

theorem transacts_of_wireUnits {s : State} {i : Instr} {ys : List Byte} {us : List WireUnit} (hs : s.EngineReady)
    (hunits : wireUnits s ys i = some us) : Transacts s i us := by
  have hentry := hs.engineEntry
  obtain ⟨hu, -⟩ := hs
  unfold wireUnits at hunits
  split at hunits
  next dev xs =>
    cases hunits
    exact .of_accepts hu hentry rfl ((writePhase_follows s.params xs).addressed dev .write)
      (addressed_stops dev .write (writePhase_stops xs))
  next dev len =>
    split at hunits
    next hlen =>
      cases hunits
      obtain ⟨hn, hlen⟩ := hlen
      have hread := readPhase_follows s.params (ne_nil_of_length_eq_toNat hn hlen) hlen
      exact .of_accepts hu (by simp [accepts, hentry, (atLeastOne_iff len).2 hn]) rfl (hread.addressed dev .read)
        (addressed_stops dev .read (readPhase_stops _))
    next => cases hunits
  next dev aw a xs =>
    split at hunits
    next haw =>
      cases hunits
      rw [List.map_append]
      have hwrite := (writePhase_follows s.params xs).sendAddress (maddr a aw)
      exact .of_accepts hu (by simp [accepts, hentry, (widthLegal_iff aw).2 haw]) rfl (hwrite.addressed dev .write)
        (addressed_stops dev .write (sendAddress_stops (writePhase_stops xs) _))
    next => cases hunits
  next dev aw a len =>
    split at hunits
    next hlen =>
      cases hunits
      obtain ⟨haw, hn, hlen⟩ := hlen
      have hread := (readPhase_follows s.params (ne_nil_of_length_eq_toNat hn hlen) hlen).addressed dev .read
      exact .of_accepts hu (by simp [accepts, hentry, (widthLegal_iff aw).2 haw, (atLeastOne_iff len).2 hn]) rfl
        ((hread.sendAddress (maddr a aw)).addressed dev .write)
        (addressed_stops dev .write (sendAddress_stops (addressed_stops dev .read (readPhase_stops _)) _))
    next => cases hunits
  next => cases hunits

/-- A command whose checks pass has its steps, whatever bytes a read receives. -/
theorem exists_wireUnits {s : State} {i : Instr} {b : Byte} (h : firstByteOnWire s i = some b) :
    ∃ ys left, wireUnits s ys i = some (.start :: .send b :: left) := by
  unfold firstByteOnWire at h
  split at h
  next dev xs =>
    cases h
    exact ⟨[], _, rfl⟩
  next dev len =>
    split at h
    next => cases h
    next hn =>
      cases h
      exact ⟨List.replicate len.toNat 0, _, by rw [wireUnits, if_pos ⟨hn, List.length_replicate⟩]⟩
  next dev aw a xs =>
    split at h
    next haw =>
      cases h
      exact ⟨[], _, by rw [wireUnits, if_pos haw]⟩
    next => cases h
  next dev aw a len =>
    split at h
    next hlen =>
      cases h
      obtain ⟨haw, hn⟩ := hlen
      exact ⟨List.replicate len.toNat 0, _, by rw [wireUnits, if_pos ⟨haw, hn, List.length_replicate⟩]⟩
    next => cases h
  next => cases h

/-- A step of a transaction that fails, behind steps that went well, is followed by the STOP alone, whose own result
makes no difference. -/
theorem endsAborted_of_fails {s : State} {i : Instr} {ys : List Byte} {done left : List WireUnit} {u : WireUnit}
    {st : Status} {es : List Event} {as : List Bit} (hs : s.EngineReady)
    (hunits : wireUnits s ys i = some (done ++ u :: left)) (hu : u.Fails s st es as) :
    EndsAborted s i done st es as := by
  obtain ⟨f, rval, dOut, hexec, hsteps, -⟩ := transacts_of_wireUnits hs hunits
  have hst : st ≠ .ok := by cases hu <;> decide
  have habort {rest : List Bit} (hl : s.lineIn = done.flatMap WireUnit.answers ++ as ++ rest) :=
    hsteps.aborts (s := startCommand i s) rfl (hu.of_params rfl) hl
  refine ⟨fun rest hl => ?_, fun rest hl => ?_⟩
  · obtain ⟨a, b, x, hx⟩ := habort (hl.trans (List.append_assoc _ _ _))
    obtain ⟨y, hy⟩ := finishFail_plain st rest ((startCommand i s).bus _ _ a b x) rfl
    rw [hexec, hx, hy, State.bus_bus, respondResult_fail_bus rval dOut hst]
  · obtain ⟨a, b, x, hx⟩ := habort (hl.trans (List.append_assoc _ _ _))
    obtain ⟨y, hy⟩ := finishFail_held st rest
      ((startCommand i s).bus (done.flatMap WireUnit.events ++ es) (ansHeld s.params.nStop ++ rest) a b x) rfl
    rw [hexec, hx, hy, State.bus_bus, respondResult_fail_bus rval dOut hst]
    rfl

/-- Settles O31: a refused first address byte and a wait that runs out are the failures of a step. -/
theorem abortedTransaction : Obligations.AbortedTransaction := by
  refine ⟨fun s i b hs hb => ?_, fun s i ys done left u es as hs hunits hu => ?_⟩
  · obtain ⟨ys, left, hunits⟩ := exists_wireUnits hb
    exact endsAborted_of_fails (done := [.start]) hs hunits (.refused b)
  · exact endsAborted_of_fails hs hunits (.ranOut hu)

/-- Settles O32: a refused byte is the failure of its step. -/
theorem dataByteRefused : Obligations.DataByteRefused := fun _ _ _ a y mid _ hs hunits =>
  endsAborted_of_fails (done := .start :: .send a :: mid) hs hunits (.refused y)

/-- The response to a transaction that ends with a STOP. -/
theorem Result.Stops.response {α : Type} {s : State} {i : Instr} {r : Result α} (h : r.Stops (startCommand i s))
    (rval : α → Option Word32) (dOut : α → Option (List Byte)) :
    ∃ t es, (Host.Outcome.next (respondResult rval dOut r) : Host.Outcome State Fault Refusal) = .next t ∧
      ((∃ z, z < s.params.nStop.val ∧ t.trace = s.trace ++ es ++ evStop z) ∨
       (t.trace = s.trace ++ es ++ evStopHeld s ∧ t.status ≠ some .ok)) ∧
      (t.status = some .ok ∨ t.status = some .nack ∨ t.status = some .timeout) := by
  cases r with
  | ok x t =>
    obtain ⟨es, z, hz, ht⟩ := h
    exact ⟨_, es, rfl, .inl ⟨z, hz, ht⟩, .inl rfl⟩
  | fail st t =>
    obtain ⟨hst, ⟨es, z, hz, ht⟩ | ⟨es, ht⟩⟩ := h
    · exact ⟨_, es, rfl, .inl ⟨z, hz, ht⟩, .inr (hst.imp (congrArg some) (congrArg some))⟩
    · refine ⟨_, es, rfl, .inr ⟨ht, ?_⟩, .inr (hst.imp (congrArg some) (congrArg some))⟩
      rcases hst with rfl | rfl <;> simp [respondResult]

/-- Settles O34: every transaction ends with a STOP, is_device_ready with that of its last trial. -/
theorem transactionsEndWithAStop : Obligations.TransactionsEndWithAStop := by
  rintro s i hs (⟨b, hb⟩ | ⟨dev, n, rfl, hn⟩)
  · obtain ⟨ys, left, hunits⟩ := exists_wireUnits hb
    obtain ⟨f, rval, dOut, hexec, -, hstop⟩ := transacts_of_wireUnits hs hunits
    rw [hexec]
    exact (hstop _).response rval dOut
  · rw [exec, execBbIsDeviceReady, command_accepted hs.1 (by simp [hs.engineEntry, (atLeastOne_iff n).2 hn])]
    exact Result.Stops.response (.after (.setSession _ _) (trials_stops dev _ _ _)) _ _

end Sys2Proof.Machine
end

section
/-! SUPPORT. The operand checks of the transaction commands (41_bitbang_transactions.md R171). -/

namespace Sys2Proof.Machine

theorem widthLegal_eq_false {aw : Byte} (h1 : aw ≠ 1) (h2 : aw ≠ 2) : widthLegal aw = false :=
  Bool.eq_false_iff.2 fun h => ((widthLegal_iff aw).1 h).elim h1 h2

/-- Settles O25: each refused operand fails the checks of `accepts`; the empty writes are those of O26 and O28. -/
theorem operandChecks : Obligations.OperandChecks := by
  refine ⟨fun s dev aw a xs h hu h1 h2 => ?_, fun s dev aw a n o h hu h1 h2 => ?_, fun s dev o h hu => ?_,
    fun s dev aw a o h hu => ?_, fun s dev h hu => ?_, fun s dev rest hs hl => ?_,
    fun s dev aw a rest hs haw hl => ?_⟩
  · exact exec_rejected hu (by simp [accepts, widthLegal_eq_false h1 h2])
  · exact exec_rejected hu (by simp [accepts, widthLegal_eq_false h1 h2])
  · exact exec_rejected hu (by simp [accepts, atLeastOne])
  · exact exec_rejected hu (by simp [accepts, atLeastOne])
  · exact exec_rejected hu (by simp [accepts, atLeastOne])
  · simpa [evWs] using writeTransaction s dev [] rest hs (by simpa [ansWs] using hl)
  · simpa [evWs] using memWriteTransaction s dev aw a [] rest hs haw (by simpa [ansWs] using hl)

end Sys2Proof.Machine
end

section
/-! SUPPORT. A refused address over the two-wire transport (42_transport_and_handle.md R220, 43_facade_access.md R276):
the facade's access is the engine's transaction, which aborts with NACK. -/

namespace Sys2Proof.Machine

/-- Both accesses over the two-wire transport begin with the fixed device's address byte for a write (R220). -/
theorem memRead_address_refused {s : State} (hc : ∃ c, s.cfg = some (.twoWire c)) (leg : Leg) (a : Word16) (n : Nat)
    {rest : List Bit} (hl : s.lineIn = ansS ++ (ansW true ++ (ansS ++ rest))) :
    ∃ x, memRead leg a n s =
      .done (.fail .nack (s.bus (evS ++ evW (addrByteOf s.params.twDev .write s) true ++ evP) rest (some true)
        (some true) x)) := by
  obtain ⟨c, hc⟩ := hc
  obtain ⟨x, hx⟩ := addressed_nacked s.params.twDev .write
    (sendAddress (addressed s.params.twDev .read (readPhase n)) (maddr a 2)) rest s hl
  exact ⟨x, by rw [memRead, hc]; exact congrArg Reply.done hx⟩

theorem memWrite_address_refused {s : State} (hc : ∃ c, s.cfg = some (.twoWire c)) (leg : Leg) (a : Word16)
    (xs : List Byte) {rest : List Bit} (hl : s.lineIn = ansS ++ (ansW true ++ (ansS ++ rest))) :
    ∃ x, memWrite leg a xs s =
      .done (.fail .nack (s.bus (evS ++ evW (addrByteOf s.params.twDev .write s) true ++ evP) rest (some true)
        (some true) x)) := by
  obtain ⟨c, hc⟩ := hc
  obtain ⟨x, hx⟩ := addressed_nacked s.params.twDev .write
    (sendAddress (fun s => writeData 0 xs (s.setBi 0)) (maddr a 2)) rest s hl
  exact ⟨x, by rw [memWrite, hc]; exact congrArg Reply.done hx⟩

/-- Settles O39: the first access of each command fails with NACK, and so does the command; a modify comes to no
write. -/
theorem twoWireAddressRefused : Obligations.TwoWireAddressRefused := by
  intro s i rest hs hi hl
  obtain ⟨hu, hinit, hc⟩ := hs
  have hcap : capable s.cfg (facadeShape i) = true := by
    obtain ⟨c, hc⟩ := hc
    rw [hc]
    rfl
  replace hl : (startCommand i s).lineIn = ansS ++ (ansW true ++ (ansS ++ rest)) := by simpa using hl
  replace hc : ∃ c, (startCommand i s).cfg = some (.twoWire c) := hc
  have hruns := exec_facade hu hinit hi hcap
  generalize exec i s = o at hruns ⊢
  cases hruns with
  | read n rval dOut =>
    obtain ⟨x, hx⟩ := memRead_address_refused hc .whole (facadeAddr i) n hl
    rw [hx, outcomeOf, respondResult_fail_bus rval dOut (by decide)]
    rfl
  | write xs =>
    obtain ⟨x, hx⟩ := memWrite_address_refused hc .whole (facadeAddr i) xs hl
    rw [hx, answerStatus, outcomeOf, respondResult_fail_bus _ _ (by decide)]
    rfl
  | modify n g =>
    obtain ⟨x, hx⟩ := memRead_address_refused hc .modifyRead (facadeAddr i) n hl
    rw [hx, Reply.andThen_fail, answerStatus, outcomeOf, respondResult_fail_bus _ _ (by decide)]
    rfl

end Sys2Proof.Machine
end

section
/-! SUPPORT. The trials of is_device_ready (41_bitbang_transactions.md R190): refused trials one behind the other, and
the trial that ends the command. -/

namespace Sys2Proof.Machine

/-! ## One trial -/

theorem probe_acked (dev : Byte) (rest : List Bit) (s : State) (h : s.lineIn = ansS ++ (ansW false ++ rest)) :
    ∃ x, probe dev s =
      .ok () (s.bus (evS ++ evW (addrByteOf dev .write s) false) rest (some true) (some false) x) := by
  obtain ⟨x, hx⟩ := startSeq_plain _ s h
  obtain ⟨y, hy⟩ := writeByteSeq_acked (addrByteOf dev .write s) rest (s.bus evS _ _ _ x) rfl
  exact ⟨y, by rw [probe, hx, Result.andThen_ok, ← State.bus_bus]; exact hy⟩

theorem probe_nacked (dev : Byte) (rest : List Bit) (s : State) (h : s.lineIn = ansS ++ (ansW true ++ rest)) :
    ∃ x, probe dev s =
      .fail .nack (s.bus (evS ++ evW (addrByteOf dev .write s) true) rest (some true) (some false) x) := by
  obtain ⟨x, hx⟩ := startSeq_plain _ s h
  obtain ⟨y, hy⟩ := writeByteSeq_nacked (addrByteOf dev .write s) rest (s.bus evS _ _ _ x) rfl
  exact ⟨y, by rw [probe, hx, Result.andThen_ok, ← State.bus_bus]; exact hy⟩

theorem probe_start_held (dev : Byte) (rest : List Bit) (s : State) (h : s.lineIn = ansHeld s.params.nStart ++ rest) :
    ∃ a b x, probe dev s = .fail .timeout (s.bus (evStartHeld s) rest a b x) := by
  obtain ⟨x, hx⟩ := startSeq_held rest s h
  exact ⟨_, _, x, by rw [probe, hx, Result.andThen_fail]⟩

theorem probe_send_held (dev : Byte) {j : Nat} (hj : j ≤ 8) (rest : List Bit) (s : State)
    (h : s.lineIn = ansS ++ (ansSendHeld s j ++ rest)) :
    ∃ a b x, probe dev s =
      .fail .timeout (s.bus (evS ++ evSendHeld s (addrByteOf dev .write s) j) rest a b x) := by
  obtain ⟨x, hx⟩ := startSeq_plain _ s h
  obtain ⟨a, b, y, hy⟩ := writeByteSeq_ranOut (addrByteOf dev .write s) hj rest
    (s.bus evS (ansSendHeld s j ++ rest) (some false) (some false) x) rfl
  exact ⟨a, b, y, by rw [probe, hx, Result.andThen_ok, ← State.bus_bus]; exact hy⟩

/-! ## Refused trials one behind the other -/

/-- A refused trial and its STOP. -/
def evRefused (b : Byte) : List Event := evS ++ evW b true ++ evP

/-- The answers behind it. -/
def ansRefused : List Bit := ansS ++ ansW true ++ ansS

theorem probe_refused (dev : Byte) (rest : List Bit) (s : State) (h : s.lineIn = ansRefused ++ rest) :
    ∃ t x, probe dev s = .fail .nack t ∧
      stopSeq t = .ok () (s.bus (evRefused (addrByteOf dev .write s)) rest (some true) (some true) x) := by
  obtain ⟨x, hx⟩ := probe_nacked dev (ansS ++ rest) s (by simpa [ansRefused] using h)
  obtain ⟨y, hy⟩ := stopSeq_plain rest
    (s.bus (evS ++ evW (addrByteOf dev .write s) true) (ansS ++ rest) (some true) (some false) x) rfl
  exact ⟨_, y, hx, by rw [hy, State.bus_bus, evRefused]⟩

/-- `k` refused trials, each with the delay behind it, and the trials left. -/
theorem trials_behind_refused (dev : Byte) (left m : Nat) {k : Nat} (rest : List Bit) (s : State)
    (h : s.lineIn = (List.replicate k ansRefused).flatten ++ rest) :
    ∃ m' a b x, trials dev (left + k) m s =
      trials dev left m'
        (s.bus (List.replicate k (evRefused (addrByteOf dev .write s) ++ [.delay .trial])).flatten rest a b x) := by
  induction k generalizing m s with
  | zero =>
    have h' : s.lineIn = rest := by simpa using h
    exact ⟨m, s.outSda, s.outScl, s.session, by simp [State.bus, ← h']⟩
  | succ k ih =>
    rw [List.replicate_succ, List.flatten_cons, List.append_assoc] at h
    obtain ⟨t, x, hprobe, hstop⟩ := probe_refused dev _ s h
    obtain ⟨m', a, b, y, hy⟩ := ih (m + 1) (s.bus (evRefused (addrByteOf dev .write s) ++ [.delay .trial])
      ((List.replicate k ansRefused).flatten ++ rest) (some true) (some true) { x with trial := some (m + 1) }) rfl
    refine ⟨m', a, b, y, ?_⟩
    rw [← Nat.add_assoc, trials_succ_of_refused hprobe, hstop, Result.andThen_ok, dly_eq_bus, State.setTrial,
      setSession_eq_bus, State.bus_bus, State.bus_bus, List.append_nil]
    refine hy.trans ?_
    rw [State.bus_bus, List.replicate_succ, List.flatten_cons]
    rfl

/-! ## The trial that ends the command -/

/-- From `s` the trials return `st` behind the events `es`, with SDA at `v` and SCL released. -/
def Result.Returns (r : Result Unit) (s : State) (st : Status) (es : List Event) (rest : List Bit) (v : Bit) : Prop :=
  ∃ x, r.status = st ∧ r.state = s.bus es rest (some v) (some true) x

theorem Result.Returns.behind {r : Result Unit} {s : State} {es es' : List Event} {rest rest' : List Bit}
    {a b : Option Bit} {x : Session} {st : Status} {v : Bit} (h : r.Returns (s.bus es rest a b x) st es' rest' v) :
    r.Returns s st (es ++ es') rest' v := by
  obtain ⟨y, hst, hr⟩ := h
  exact ⟨y, hst, by rw [hr, State.bus_bus]⟩

theorem finishOk_returns (rest : List Bit) (s : State) (h : s.lineIn = ansS ++ rest) :
    (finishOk () s).Returns s .ok evP rest true := by
  obtain ⟨x, hx⟩ := finishOk_plain () rest s h
  exact ⟨x, by rw [hx]; rfl, by rw [hx]; rfl⟩

theorem finishOk_held_returns (rest : List Bit) (s : State) (h : s.lineIn = ansHeld s.params.nStop ++ rest) :
    (finishOk () s).Returns s .timeout (evStopHeld s) rest false := by
  obtain ⟨x, hx⟩ := finishOk_held () rest s h
  exact ⟨x, by rw [hx]; rfl, by rw [hx]; rfl⟩

theorem finishFail_returns (st : Status) (rest : List Bit) (s : State) (h : s.lineIn = ansS ++ rest) :
    (finishFail st s).Returns s st evP rest true := by
  obtain ⟨x, hx⟩ := finishFail_plain (α := Unit) st rest s h
  exact ⟨x, by rw [hx]; rfl, by rw [hx]; rfl⟩

section
variable (dev : Byte) (left m : Nat) (rest : List Bit) (s : State)

theorem trials_acked (h : s.lineIn = ansS ++ (ansW false ++ (ansS ++ rest))) :
    (trials dev left m s).Returns s .ok (evS ++ (evW (addrByteOf dev .write s) false ++ evP)) rest true := by
  obtain ⟨x, hx⟩ := probe_acked dev _ s h
  rw [trials_of_ready hx, ← List.append_assoc]
  exact (finishOk_returns rest _ rfl).behind

theorem trials_acked_stop_held (h : s.lineIn = ansS ++ (ansW false ++ (ansHeld s.params.nStop ++ rest))) :
    (trials dev left m s).Returns s .timeout (evS ++ (evW (addrByteOf dev .write s) false ++ evStopHeld s)) rest
      false := by
  obtain ⟨x, hx⟩ := probe_acked dev _ s h
  rw [trials_of_ready hx, ← List.append_assoc]
  exact (finishOk_held_returns rest (s.bus _ (ansHeld s.params.nStop ++ rest) _ _ x) rfl).behind

theorem trials_last_refused (h : s.lineIn = ansRefused ++ rest) :
    (trials dev 0 m s).Returns s .nack (evRefused (addrByteOf dev .write s)) rest true := by
  obtain ⟨t, x, hprobe, hstop⟩ := probe_refused dev rest s h
  rw [trials_zero_of_refused hprobe, hstop, Result.andThen_ok]
  exact ⟨x, rfl, rfl⟩

theorem trials_refused_stop_held (h : s.lineIn = ansS ++ (ansW true ++ (ansHeld s.params.nStop ++ rest))) :
    (trials dev left m s).Returns s .timeout (evS ++ (evW (addrByteOf dev .write s) true ++ evStopHeld s)) rest
      false := by
  obtain ⟨x, hx⟩ := probe_nacked dev _ s h
  obtain ⟨y, hy⟩ := stopSeq_held rest
    (s.bus (evS ++ evW (addrByteOf dev .write s) true) (ansHeld s.params.nStop ++ rest) (some true) (some false) x) rfl
  rw [trials_of_stop_fails hx hy, State.bus_bus, ← List.append_assoc]
  exact ⟨y, rfl, rfl⟩

theorem trials_start_held (h : s.lineIn = ansHeld s.params.nStart ++ (ansS ++ rest)) :
    (trials dev left m s).Returns s .timeout (evStartHeld s ++ evP) rest true := by
  obtain ⟨a, b, x, hx⟩ := probe_start_held dev _ s h
  rw [trials_of_timeout hx]
  exact (finishFail_returns .timeout rest _ rfl).behind

theorem trials_send_held {j : Nat} (hj : j ≤ 8) (h : s.lineIn = ansS ++ (ansSendHeld s j ++ (ansS ++ rest))) :
    (trials dev left m s).Returns s .timeout (evS ++ (evSendHeld s (addrByteOf dev .write s) j ++ evP)) rest true := by
  obtain ⟨a, b, x, hx⟩ := probe_send_held dev hj _ s h
  rw [trials_of_timeout hx, ← List.append_assoc]
  exact (finishFail_returns .timeout rest _ rfl).behind
end

/-! ## The command -/

theorem Result.Returns.response {r : Result Unit} {i : Instr} {s : State} {st : Status} {es : List Event}
    {rest : List Bit} {v : Bit} (h : r.Returns (startCommand i s) st es rest v) :
    respondUnit r = .next ((s.lines es rest v true).responded st none none) := by
  obtain ⟨x, hst, hr⟩ := h
  have hresp : respondUnit r = .next (respond r.status none none r.state) := by cases r <;> rfl
  rw [hresp, hst, hr, respond, ite_self, ite_self]
  rfl

/-- The command whose trial behind `k` refused ones, with `left` more to come, ends it. -/
theorem exec_ready {s : State} {dev : Byte} {n : Word32} {k left : Nat} {st : Status} {es : List Event}
    {as rest : List Bit} {v : Bit} (hs : s.EngineReady) (hn : n.toNat = k + left + 1)
    (hl : s.lineIn = (List.replicate k ansRefused).flatten ++ as)
    (hlast : ∀ m es' a b x,
      (trials dev left m ((startCommand (.bbIsDeviceReady dev n false) s).bus es' as a b x)).Returns
        ((startCommand (.bbIsDeviceReady dev n false) s).bus es' as a b x) st es rest v) :
    exec (.bbIsDeviceReady dev n false) s =
      .next ((s.lines ((List.replicate k (evRefused (addrByteOf dev .write s) ++ [.delay .trial])).flatten ++ es) rest
        v true).responded st none none) := by
  have hn0 : n ≠ 0 := by
    rintro rfl
    simp at hn
  obtain ⟨m, a, b, x, htrials⟩ := trials_behind_refused dev left 1 as
    ((startCommand (.bbIsDeviceReady dev n false) s).setTrial 1) hl
  rw [exec, execBbIsDeviceReady, command_accepted hs.1 (by simp [hs.engineEntry, (atLeastOne_iff n).2 hn0]), readySeq,
    hn, Nat.add_sub_cancel, Nat.add_comm k, htrials]
  exact (hlast m _ a b x).behind.response

/-- Settles O30: refused trials, and each of the six ways in which the trial behind them ends the command. -/
theorem isDeviceReady : Obligations.IsDeviceReady := by
  intro s dev n b refused refusedIn hs hb hev hans
  obtain rfl : refused = evRefused b := hev
  obtain rfl : refusedIn = ansRefused := hans
  subst hb
  refine ⟨fun k rest hk hl => ?_, fun rest hn hl => ?_, fun k rest hk hl => ?_, fun k rest hk hl => ?_,
    fun k rest hk hl => ?_, fun k j rest hk hj hl => ?_⟩
  · obtain ⟨left, hn⟩ := Nat.exists_eq_add_of_lt hk
    simp only [List.append_assoc] at hl ⊢
    exact exec_ready hs hn hl fun m _ _ _ _ => trials_acked dev left m rest _ rfl
  · obtain ⟨k, hk⟩ := Nat.exists_eq_add_one_of_ne_zero fun h => hn (BitVec.eq_of_toNat_eq h)
    rw [hk, List.replicate_succ', List.flatten_concat, List.append_assoc] at hl
    rw [hk, Nat.add_sub_cancel]
    exact exec_ready (left := 0) hs hk hl fun m _ _ _ _ => trials_last_refused dev m rest _ rfl
  · obtain ⟨left, hn⟩ := Nat.exists_eq_add_of_lt hk
    simp only [List.append_assoc] at hl ⊢
    exact exec_ready hs hn hl fun m _ _ _ _ => trials_start_held dev left m rest _ rfl
  · obtain ⟨left, hn⟩ := Nat.exists_eq_add_of_lt hk
    simp only [List.append_assoc] at hl ⊢
    exact exec_ready hs hn hl fun m _ _ _ _ => trials_refused_stop_held dev left m rest _ rfl
  · obtain ⟨left, hn⟩ := Nat.exists_eq_add_of_lt hk
    simp only [List.append_assoc] at hl ⊢
    exact exec_ready hs hn hl fun m _ _ _ _ => trials_acked_stop_held dev left m rest _ rfl
  · obtain ⟨left, hn⟩ := Nat.exists_eq_add_of_lt hk
    simp only [List.append_assoc] at hl ⊢
    exact exec_ready hs hn hl fun m _ _ _ _ => trials_send_held dev left m rest _ hj rfl

end Sys2Proof.Machine
end

section
/-! SUPPORT. DEINIT (42_transport_and_handle.md R215). -/

namespace Sys2Proof.Machine

/-- Settles O13: a handle is the only check of DEINIT. -/
theorem deinitCommand : Obligations.DeinitCommand := by
  refine ⟨fun s hu => ?_, fun s hu => exec_rejected hu rfl⟩
  rw [exec, execDeinit, command_accepted hu rfl]
  rfl

end Sys2Proof.Machine
end

section
/-! SUPPORT. A facade command that passes its entry check, as the accesses it makes with exactly its own bytes
(43_facade_access.md R255 to R272), and the states in which the check passes (R250). -/

namespace Sys2Proof.Machine

theorem State.EngineReady.accepts {s : State} {i : Instr} (hs : s.EngineReady) (hi : accepted i) :
    accepts i s = true := by
  obtain ⟨-, hinit, c, hc⟩ := hs
  exact accepts_accepted hi hinit (by rw [hc]; rfl)

theorem State.BlockReady.accepts {s : State} {c : BlockConfig} {i : Instr} (hs : s.BlockReady c) (hi : accepted i) :
    accepts i s = true := by
  obtain ⟨-, hinit, hc⟩ := hs
  exact accepts_accepted hi hinit (by rw [hc]; rfl)

theorem State.MgmtReady.accepts {s : State} {c : MgmtConfig} {i : Instr} (hs : s.MgmtReady c) (hi : accepted i)
    (h16 : sixteenBit i = true) : accepts i s = true := by
  obtain ⟨-, hinit, hc⟩ := hs
  exact accepts_accepted hi hinit (by rw [hc, (facadeShape_eq_u16_iff i).2 h16]; rfl)

section
variable {i : Instr} {s : State} (hu : s.upc = .idle) (ha : accepts i s = true)
include hu ha

theorem exec_facade_read {n : Nat} (hn : readLength i = some n) (hm : isModify i = false) :
    exec i s = outcomeOf (rvalOf i) (dOutOf i) (memRead .whole (facadeAddr i) n (startCommand i s)) := by
  cases i with
  | readU8 | readU16 | readU32 | readBurst =>
    cases hn
    simp only [exec, execReadU8, execReadU16, execReadU32, execReadBurst]
    exact command_accepted hu ha
  | modifyU8 | modifyU16 => cases hm
  | init | deinit | bbStart | bbStop | bbWriteByte | bbReadByte | bbWrite | bbRead | bbMemWrite | bbMemRead
  | bbIsDeviceReady | writeU8 | writeU16 | writeU32 | writeBurst => cases hn

theorem exec_facade_write {xs : List Byte} (hxs : writtenBytes i = some xs) :
    exec i s = answerStatus (memWrite .whole (facadeAddr i) xs (startCommand i s)) := by
  cases i with
  | writeU8 | writeU16 | writeU32 | writeBurst =>
    cases hxs
    simp only [exec, execWriteU8, execWriteU16, execWriteU32, execWriteBurst]
    exact command_accepted hu ha
  | init | deinit | bbStart | bbStop | bbWriteByte | bbReadByte | bbWrite | bbRead | bbMemWrite | bbMemRead
  | bbIsDeviceReady | readU8 | readU16 | readU32 | readBurst | modifyU8 | modifyU16 => cases hxs

/-- A modify whose read returns OK goes on with the write of what `modifyWriteOf` makes of the bytes. -/
theorem exec_facade_modify {n : Nat} {xs ys : List Byte} {t : State} (hn : readLength i = some n)
    (hread : memRead .modifyRead (facadeAddr i) n (startCommand i s) = .done (.ok xs t))
    (hys : modifyWriteOf i xs = some (.write (facadeAddr i) ys)) :
    exec i s = answerStatus (memWrite .modifyWrite (facadeAddr i) ys t) := by
  cases i with
  | modifyU8 a mask value h =>
    cases hn
    cases hys
    replace hread : memRead .modifyRead a 1 (startCommand (.modifyU8 a mask value h) s) = _ := hread
    rw [exec, execModifyU8, command_accepted hu (by exact ha), hread]
    rfl
  | modifyU16 a mask value h =>
    cases hn
    cases hys
    replace hread : memRead .modifyRead a 2 (startCommand (.modifyU16 a mask value h) s) = _ := hread
    rw [exec, execModifyU16, command_accepted hu (by exact ha), hread]
    rfl
  | init | deinit | bbStart | bbStop | bbWriteByte | bbReadByte | bbWrite | bbRead | bbMemWrite | bbMemRead
  | bbIsDeviceReady | readU8 | readU16 | readU32 | readBurst | writeU8 | writeU16 | writeU32 | writeBurst => cases hys
end

/-! ## The values of what is read (R9, R103) -/

theorem unBe16_be16 (v : Word16) : unBe16 (be16 v) = v := by
  rw [unBe16, unBeNat_be16, BitVec.ofNat_toNat, BitVec.setWidth_eq]

theorem rvalOf_readU16 (a v : Word16) (o h : Bool) : rvalOf (.readU16 a o h) (be16 v) = some (v.setWidth 32) := by
  rw [rvalOf, unBe32, unBeNat_be16, BitVec.ofNat_toNat]

theorem rvalOf_readU32 (a : Word16) (v : Word32) (o h : Bool) : rvalOf (.readU32 a o h) (be32 v) = some v := by
  rw [rvalOf, unBe32, unBeNat_be32, BitVec.ofNat_toNat, BitVec.setWidth_eq]

theorem modifyWriteOf_modifyU16 (a v mask value : Word16) (h : Bool) :
    modifyWriteOf (.modifyU16 a mask value h) (be16 v) = some (.write a (be16 (merge v mask value))) := by
  rw [modifyWriteOf, unBe16_be16]

theorem accepted_readBurst {a : Word16} {len : Word32} (h : len ≠ 0) : accepted (.readBurst a len false false) :=
  ⟨rfl, decide_eq_false h⟩

theorem accepted_writeBurst {a : Word16} {xs : List Byte} (h : xs ≠ []) : accepted (.writeBurst a xs false) :=
  ⟨rfl, List.isEmpty_eq_false_iff.2 h⟩

end Sys2Proof.Machine
end

section
/-! SUPPORT. Reads and writes over the two-wire transport with every byte acknowledged and no stretching
(42_transport_and_handle.md R220, R221, 43_facade_access.md R255 to R266, R277): each is the engine's transaction with
the fixed device and two address bytes. -/

namespace Sys2Proof.Machine

theorem memRead_twoWire_acked {s : State} (hc : ∃ c, s.cfg = some (.twoWire c)) (leg : Leg) (a : Word16)
    {xs : List Byte} (hxs : xs ≠ []) {rest : List Bit} (hl : s.lineIn = ansTwRead xs ++ rest) :
    ∃ x, memRead leg a xs.length s =
      .done (.ok xs (s.bus (evTwRead s a xs) rest (some true) (some true) x)) := by
  obtain ⟨c, hc⟩ := hc
  obtain ⟨x, hx⟩ := memReadSeq_plain s.params.twDev a 2 xs hxs rest s
    (by simpa [ansTwRead, ansWs, maddr] using hl)
  exact ⟨x, by rw [memRead, hc]; exact congrArg Reply.done hx⟩

theorem memWrite_twoWire_acked {s : State} (hc : ∃ c, s.cfg = some (.twoWire c)) (leg : Leg) (a : Word16)
    (xs : List Byte) {rest : List Bit} (hl : s.lineIn = ansTwWrite xs ++ rest) :
    ∃ x, memWrite leg a xs s =
      .done (.ok () (s.bus (evTwWrite s a xs) rest (some true) (some true) x)) := by
  obtain ⟨c, hc⟩ := hc
  obtain ⟨x, hx⟩ := memWriteSeq_acked s.params.twDev a 2 xs rest s (by simpa [ansTwWrite, ansWs, maddr] using hl)
  exact ⟨x, by rw [memWrite, hc]; exact congrArg Reply.done hx⟩

theorem exec_read_twoWire {i : Instr} {s : State} {xs : List Byte} {rest : List Bit} (hs : s.EngineReady)
    (hi : accepted i) (hn : readLength i = some xs.length) (hm : isModify i = false) (hxs : xs ≠ [])
    (hl : s.lineIn = ansTwRead xs ++ rest) :
    exec i s = .next ((s.lines (evTwRead s (facadeAddr i) xs) rest true true).responded .ok (rvalOf i xs)
      (dOutOf i xs)) := by
  obtain ⟨hu, -, hc⟩ := id hs
  obtain ⟨x, hx⟩ := memRead_twoWire_acked (s := startCommand i s) hc .whole (facadeAddr i) hxs hl
  rw [exec_facade_read hu (hs.accepts hi) hn hm, hx]
  exact congrArg Host.Outcome.next (respondResult_ok_bus _ _ xs i s _ rest true true x)

theorem exec_write_twoWire {i : Instr} {s : State} {xs : List Byte} {rest : List Bit} (hs : s.EngineReady)
    (hi : accepted i) (hw : writtenBytes i = some xs) (hl : s.lineIn = ansTwWrite xs ++ rest) :
    exec i s = .next ((s.lines (evTwWrite s (facadeAddr i) xs) rest true true).responded .ok none none) := by
  obtain ⟨hu, -, hc⟩ := id hs
  obtain ⟨x, hx⟩ := memWrite_twoWire_acked (s := startCommand i s) hc .whole (facadeAddr i) xs hl
  rw [exec_facade_write hu (hs.accepts hi) hw, hx]
  exact congrArg Host.Outcome.next (respondResult_ok_bus _ _ () i s _ rest true true x)

/-- Settles O36: each read is one access, and its value is that of the bytes received. -/
theorem twoWireReads : Obligations.TwoWireReads := by
  refine ⟨fun s a x rest hs hl => ?_, fun s a v rest hs hl => ?_, fun s a v rest hs hl => ?_,
    fun s a len xs rest hs hlen hxs hl => ?_⟩
  · exact exec_read_twoWire hs ⟨rfl, rfl⟩ rfl rfl (List.cons_ne_nil _ _) hl
  · rw [← rvalOf_readU16 a v false false]
    exact exec_read_twoWire hs ⟨rfl, rfl⟩ rfl rfl (List.cons_ne_nil _ _) hl
  · rw [← rvalOf_readU32 a v false false]
    exact exec_read_twoWire hs ⟨rfl, rfl⟩ rfl rfl (List.cons_ne_nil _ _) hl
  · exact exec_read_twoWire hs (accepted_readBurst hlen) (congrArg some hxs.symm) rfl
      (ne_nil_of_length_eq_toNat hlen hxs) hl

/-- Settles O37: each write is one access, with the bytes of its value in the order of `writtenBytes`. -/
theorem twoWireWrites : Obligations.TwoWireWrites := by
  refine ⟨fun s a v rest hs hl => ?_, fun s a v rest hs hl => ?_, fun s a v rest hs hl => ?_,
    fun s a xs rest hs hxs hl => ?_⟩
  · exact exec_write_twoWire hs ⟨rfl, rfl⟩ rfl hl
  · exact exec_write_twoWire hs ⟨rfl, rfl⟩ rfl hl
  · exact exec_write_twoWire hs ⟨rfl, rfl⟩ rfl hl
  · exact exec_write_twoWire hs (accepted_writeBurst hxs) rfl hl

end Sys2Proof.Machine
end

section
/-! SUPPORT. Block-transfer and management accesses with given answers (42_transport_and_handle.md R222 to R227), call
by call: the exact state where the calls return OK, where one fails, and where one does not return (60_exceptions.md
R310). -/

namespace Sys2Proof.Machine

/-! ## Calls that do not return -/

theorem callStatus_stuck (event : Status → Event) {s : State} {rest : List PortAnswer}
    (h : s.portIn = .noReturn :: rest) : callStatus event s = .stuck s := by
  rw [callStatus, statusAnswer_noReturn (by rw [h]; rfl)]

theorem callBtRead_stuck (dev n : Nat) {s : State} {rest : List PortAnswer} (h : s.portIn = .noReturn :: rest) :
    callBtRead dev n s = .stuck s := by
  rw [callBtRead, bytesAnswer_noReturn n (by rw [h]; rfl)]

theorem callMgRead_stuck (dev : Nat) (reg : Word16) {s : State} {rest : List PortAnswer}
    (h : s.portIn = .noReturn :: rest) : callMgRead dev reg s = .stuck s := by
  rw [callMgRead, valueAnswer_noReturn (by rw [h]; rfl)]

/-! ## Block-transfer accesses -/

section
variable {s : State} {i : Instr} {p : Pos} (hu : s.upc = .running i p) (leg : Leg) (c : BlockConfig) (a : Word16)
  (n : Nat) (xs : List Byte) {st : Status} {rest : List PortAnswer}

theorem called_moveTo (es : List Event) (q : Pos) :
    (s.called es rest (.running i p)).moveTo q = s.called es rest (.running i q) := by
  rw [moveTo_eq_called _ i p q rfl, State.called_called, List.append_nil]
  rfl

include hu

/-- The chip-select is asserted, and the block stands at the header. -/
theorem csAssert_moveTo (dev : Nat) (q : Pos) :
    (callCsAssert dev s).moveTo q = s.called [.csAssert dev] s.portIn (.running i q) := by
  rw [callCsAssert_eq_called, hu, called_moveTo]

/-- A read is its header, and behind it the rest of the exchange. -/
theorem btMemRead_eq_header : btMemRead leg c a n s =
    ((callStatus (evReadHeader s c a)
      (s.called [.csAssert c.btDev] s.portIn (.running i (.btHeader leg (.read a n))))).andThen fun st s =>
        if st = .ok then callBtRead c.btDev n (s.moveTo (.btData leg (.read a n)))
        else .done (.ok (.error st) s)).andThen (btReturn c.btDev) := by
  rw [btMemRead, btReadExchange, csAssert_moveTo hu]
  rfl

theorem btMemRead_header_stuck (hp : s.portIn = .noReturn :: rest) : btMemRead leg c a n s =
    .stuck (s.called [.csAssert c.btDev] (.noReturn :: rest) (.running i (.btHeader leg (.read a n)))) := by
  rw [btMemRead_eq_header hu, hp, callStatus_stuck _ rfl]
  rfl

theorem btMemRead_header_fails (hst : st ≠ .ok) (hp : s.portIn = ansStatus st :: rest) : btMemRead leg c a n s =
    .done (.fail st (s.called [.csAssert c.btDev, evReadHeader s c a st, .csDeassert c.btDev] rest
      (.running i (.btHeader leg (.read a n))))) := by
  rw [btMemRead_eq_header hu, hp, callStatus_given _ _ st rest rfl, Reply.andThen_ok, if_neg hst, Reply.andThen_ok,
    btReturn, callCsDeassert_eq_called]
  simp

/-- A read whose header returns OK comes to its data. -/
theorem btMemRead_eq_data (hp : s.portIn = ansStatus .ok :: rest) : btMemRead leg c a n s =
    (callBtRead c.btDev n (s.called [.csAssert c.btDev, evReadHeader s c a .ok] rest
      (.running i (.btData leg (.read a n))))).andThen (btReturn c.btDev) := by
  rw [btMemRead_eq_header hu, hp, callStatus_given _ _ .ok rest rfl, Reply.andThen_ok, if_pos rfl, State.called_called,
    State.called_upc, called_moveTo]
  rfl

theorem btMemRead_data_stuck (hp : s.portIn = ansStatus .ok :: .noReturn :: rest) : btMemRead leg c a n s =
    .stuck (s.called [.csAssert c.btDev, evReadHeader s c a .ok] (.noReturn :: rest)
      (.running i (.btData leg (.read a n)))) := by
  rw [btMemRead_eq_data hu leg c a n hp, callBtRead_stuck _ _ rfl]
  rfl

theorem btMemRead_data_fails (hst : st ≠ .ok) (hp : s.portIn = ansStatus .ok :: ansStatus st :: rest) :
    btMemRead leg c a n s =
      .done (.fail st (s.called
        [.csAssert c.btDev, evReadHeader s c a .ok, .btRead c.btDev n st none, .csDeassert c.btDev] rest
        (.running i (.btData leg (.read a n))))) := by
  rw [btMemRead_eq_data hu leg c a n hp, callBtRead_fails _ _ _ st rest hst rfl, Reply.andThen_ok, btReturn,
    callCsDeassert_eq_called]
  simp

theorem btMemRead_given (hp : s.portIn = ansStatus .ok :: ansBytes xs :: rest) : btMemRead leg c a xs.length s =
    .done (.ok xs (s.called (evBtRead s c a xs) rest (.running i (.btData leg (.read a xs.length))))) := by
  rw [btMemRead_eq_data hu leg c a _ hp, callBtRead_given _ _ _ xs rest rfl rfl, Reply.andThen_ok, btReturn,
    callCsDeassert_eq_called]
  simp [evBtRead]

/-- A write is its header, and behind it the rest of the exchange. -/
theorem btMemWrite_eq_header : btMemWrite leg c a xs s =
    ((callStatus (evWriteHeader s c a)
      (s.called [.csAssert c.btDev] s.portIn (.running i (.btHeader leg (.write a xs))))).andThen fun st s =>
        if st = .ok then callBtWrite c.btDev xs (s.moveTo (.btData leg (.write a xs)))
        else .done (.ok st s)).andThen fun st s => btReturn c.btDev (statusResult st) s := by
  rw [btMemWrite, btWriteExchange, csAssert_moveTo hu]
  rfl

theorem btMemWrite_header_stuck (hp : s.portIn = .noReturn :: rest) : btMemWrite leg c a xs s =
    .stuck (s.called [.csAssert c.btDev] (.noReturn :: rest) (.running i (.btHeader leg (.write a xs)))) := by
  rw [btMemWrite_eq_header hu, hp, callStatus_stuck _ rfl]
  rfl

theorem btMemWrite_header_fails (hst : st ≠ .ok) (hp : s.portIn = ansStatus st :: rest) : btMemWrite leg c a xs s =
    .done (.fail st (s.called [.csAssert c.btDev, evWriteHeader s c a st, .csDeassert c.btDev] rest
      (.running i (.btHeader leg (.write a xs))))) := by
  rw [btMemWrite_eq_header hu, hp, callStatus_given _ _ st rest rfl, Reply.andThen_ok, if_neg hst, Reply.andThen_ok,
    statusResult, if_neg hst, btReturn, callCsDeassert_eq_called]
  simp

/-- A write whose header returns OK comes to its data. -/
theorem btMemWrite_eq_data (hp : s.portIn = ansStatus .ok :: rest) : btMemWrite leg c a xs s =
    (callStatus (.btWrite c.btDev xs) (s.called [.csAssert c.btDev, evWriteHeader s c a .ok] rest
      (.running i (.btData leg (.write a xs))))).andThen fun st s => btReturn c.btDev (statusResult st) s := by
  rw [btMemWrite_eq_header hu, hp, callStatus_given _ _ .ok rest rfl, Reply.andThen_ok, if_pos rfl, State.called_called,
    State.called_upc, called_moveTo]
  rfl

theorem btMemWrite_data_stuck (hp : s.portIn = ansStatus .ok :: .noReturn :: rest) : btMemWrite leg c a xs s =
    .stuck (s.called [.csAssert c.btDev, evWriteHeader s c a .ok] (.noReturn :: rest)
      (.running i (.btData leg (.write a xs)))) := by
  rw [btMemWrite_eq_data hu leg c a xs hp, callStatus_stuck _ rfl]
  rfl

theorem btMemWrite_data_fails (hst : st ≠ .ok) (hp : s.portIn = ansStatus .ok :: ansStatus st :: rest) :
    btMemWrite leg c a xs s =
      .done (.fail st (s.called
        [.csAssert c.btDev, evWriteHeader s c a .ok, .btWrite c.btDev xs st, .csDeassert c.btDev] rest
        (.running i (.btData leg (.write a xs))))) := by
  rw [btMemWrite_eq_data hu leg c a xs hp, callStatus_given _ _ st rest rfl, Reply.andThen_ok, statusResult,
    if_neg hst, btReturn, callCsDeassert_eq_called]
  simp

theorem btMemWrite_given (hp : s.portIn = ansStatus .ok :: ansStatus .ok :: rest) : btMemWrite leg c a xs s =
    .done (.ok () (s.called (evBtWrite s c a xs) rest (.running i (.btData leg (.write a xs))))) := by
  rw [btMemWrite_eq_data hu leg c a xs hp, callStatus_given _ _ .ok rest rfl, Reply.andThen_ok, statusResult,
    if_pos rfl, btReturn, callCsDeassert_eq_called]
  simp [evBtWrite]
end

/-! ## Management accesses -/

section
variable {s : State} {i : Instr} {p : Pos} (hu : s.upc = .running i p) (leg : Leg) (c : MgmtConfig) (a : Word16)
  (n : Nat) (xs : List Byte) {st : Status} {rest : List PortAnswer}
include hu

theorem mgMemRead_stuck (hp : s.portIn = .noReturn :: rest) : mgMemRead leg c a n s =
    .stuck (s.called [] (.noReturn :: rest) (.running i (.mgmt leg (.read a n)))) := by
  rw [mgMemRead, moveTo_eq_called s i p _ hu, hp, callMgRead_stuck _ _ rfl]
  rfl

theorem mgMemRead_fails (hst : st ≠ .ok) (hp : s.portIn = ansStatus st :: rest) : mgMemRead leg c a n s =
    .done (.fail st (s.called [.mgRead c.mgDev a st none] rest (.running i (.mgmt leg (.read a n))))) := by
  rw [mgMemRead, moveTo_eq_called s i p _ hu, hp, callMgRead_fails _ _ _ st rest hst rfl, Reply.andThen_ok,
    State.called_called]
  rfl

theorem mgMemRead_given {v : Word16} (hp : s.portIn = ansValue v :: rest) : mgMemRead leg c a n s =
    .done (.ok (be16 v) (s.called [.mgRead c.mgDev a .ok (some v)] rest (.running i (.mgmt leg (.read a n))))) := by
  rw [mgMemRead, moveTo_eq_called s i p _ hu, hp, callMgRead_given _ _ v _ rest rfl, Reply.andThen_ok,
    State.called_called]
  rfl

theorem mgMemWrite_stuck (hp : s.portIn = .noReturn :: rest) : mgMemWrite leg c a xs s =
    .stuck (s.called [] (.noReturn :: rest) (.running i (.mgmt leg (.write a xs)))) := by
  rw [mgMemWrite, callMgWrite, moveTo_eq_called s i p _ hu, hp, callStatus_stuck _ rfl]
  rfl
end

end Sys2Proof.Machine
end

section
/-! SUPPORT. Facade commands over the block-transfer and the management transports whose ports return
(42_transport_and_handle.md R222 to R227, 43_facade_access.md R255 to R277): the response after given calls. -/

namespace Sys2Proof.Machine

/-! ## The response to port calls -/

theorem respondResult_ok_called {α : Type} (rval : α → Option Word32) (dOut : α → Option (List Byte)) (y : α)
    (i : Instr) (s : State) (es : List Event) (rest : List PortAnswer) (u : Upc) :
    respondResult rval dOut (.ok y ((startCommand i s).called es rest u)) =
      (s.ports es rest).responded .ok (rval y) (dOut y) := rfl

theorem respond_none_called (st : Status) (i : Instr) (s : State) (es : List Event) (rest : List PortAnswer) (u : Upc) :
    respond st none none ((startCommand i s).called es rest u) = (s.ports es rest).responded st none none := by
  rw [respond, ite_self, ite_self]
  rfl

/-! ## Block-transfer: every call returns OK -/

section
variable {s : State} {c : BlockConfig} {i : Instr} {xs : List Byte} {rest : List PortAnswer}

theorem exec_read_block (hs : s.BlockReady c) (hi : accepted i) (hn : readLength i = some xs.length)
    (hm : isModify i = false) (hp : s.portIn = ansStatus .ok :: ansBytes xs :: rest) :
    exec i s = .next ((s.ports (evBtRead s c (facadeAddr i) xs) rest).responded .ok (rvalOf i xs) (dOutOf i xs)) := by
  obtain ⟨hu, -, hc⟩ := id hs
  rw [exec_facade_read hu (hs.accepts hi) hn hm, memRead_block (s := startCommand i s) hc,
    btMemRead_given (s := startCommand i s) rfl .whole c (facadeAddr i) xs hp]
  rfl

theorem exec_write_block (hs : s.BlockReady c) (hi : accepted i) (hw : writtenBytes i = some xs)
    (hp : s.portIn = ansStatus .ok :: ansStatus .ok :: rest) :
    exec i s = .next ((s.ports (evBtWrite s c (facadeAddr i) xs) rest).responded .ok none none) := by
  obtain ⟨hu, -, hc⟩ := id hs
  rw [exec_facade_write hu (hs.accepts hi) hw, memWrite_block (s := startCommand i s) hc,
    btMemWrite_given (s := startCommand i s) rfl .whole c (facadeAddr i) xs hp]
  rfl

/-- The write of a modify begins in the state its read has left. -/
theorem exec_modify_block {ys : List Byte} (hs : s.BlockReady c) (hi : accepted i)
    (hn : readLength i = some xs.length) (hys : modifyWriteOf i xs = some (.write (facadeAddr i) ys))
    (hp : s.portIn = ansStatus .ok :: ansBytes xs :: ansStatus .ok :: ansStatus .ok :: rest) :
    exec i s = .next ((s.ports (evBtRead s c (facadeAddr i) xs ++ evBtWrite s c (facadeAddr i) ys) rest).responded
      .ok none none) := by
  obtain ⟨hu, -, hc⟩ := id hs
  have hread := (memRead_block (s := startCommand i s) hc _ _ _).trans
    (btMemRead_given rfl .modifyRead c (facadeAddr i) xs hp)
  rw [exec_facade_modify hu (hs.accepts hi) hn hread hys, memWrite_block (by exact hc),
    btMemWrite_given rfl .modifyWrite c (facadeAddr i) ys rfl, State.called_called]
  rfl
end

/-- Settles O40: each read is one access, and its value is that of the bytes read. -/
theorem blockReads : Obligations.BlockReads := by
  refine ⟨fun s c a x rest hs hp => ?_, fun s c a v rest hs hp => ?_, fun s c a v rest hs hp => ?_,
    fun s c a len xs rest hs hlen hxs hp => ?_⟩
  · exact exec_read_block hs ⟨rfl, rfl⟩ rfl rfl hp
  · rw [← rvalOf_readU16 a v false false]
    exact exec_read_block hs ⟨rfl, rfl⟩ rfl rfl hp
  · rw [← rvalOf_readU32 a v false false]
    exact exec_read_block hs ⟨rfl, rfl⟩ rfl rfl hp
  · exact exec_read_block hs (accepted_readBurst hlen) (congrArg some hxs.symm) rfl hp

/-- Settles O41: each write is one access, with the bytes of its value in the order of `writtenBytes`. -/
theorem blockWrites : Obligations.BlockWrites := by
  refine ⟨fun s c a v rest hs hp => ?_, fun s c a v rest hs hp => ?_, fun s c a v rest hs hp => ?_,
    fun s c a xs rest hs hxs hp => ?_⟩
  · exact exec_write_block hs ⟨rfl, rfl⟩ rfl hp
  · exact exec_write_block hs ⟨rfl, rfl⟩ rfl hp
  · exact exec_write_block hs ⟨rfl, rfl⟩ rfl hp
  · exact exec_write_block hs (accepted_writeBurst hxs) rfl hp

/-- Settles O42: two accesses, the second of the merged value. -/
theorem blockModifies : Obligations.BlockModifies := by
  refine ⟨fun s c a v mask value w rest hs hw hp => ?_, fun s c a v mask value w rest hs hw hp => ?_⟩
  · subst hw
    exact exec_modify_block hs ⟨rfl, rfl⟩ rfl rfl hp
  · subst hw
    exact exec_modify_block hs ⟨rfl, rfl⟩ rfl (modifyWriteOf_modifyU16 ..) hp

/-! ## Management -/

section
variable {s : State} {c : MgmtConfig} {a v : Word16} {st : Status} {rest : List PortAnswer}

/-- A management write that returns gives its port's status as the response. -/
theorem answerStatus_mgMemWrite {t : State} {i : Instr} {p : Pos} (hu : t.upc = .running i p) (leg : Leg)
    (c : MgmtConfig) (a v : Word16) (hp : t.portIn = ansStatus st :: rest) :
    answerStatus (mgMemWrite leg c a (be16 v) t) = .next (respond st none none
      (t.called [.mgWrite c.mgDev a v st] rest (.running i (.mgmt leg (.write a (be16 v)))))) := by
  rw [mgMemWrite, callMgWrite, moveTo_eq_called t i p _ hu, hp, callStatus_given _ _ st rest rfl, Reply.andThen_ok,
    State.called_called, unBe16_be16]
  by_cases hst : st = .ok
  · subst hst
    rfl
  · rw [if_neg hst]
    rfl

theorem exec_readU16_mgmt (hs : s.MgmtReady c) (hp : s.portIn = ansValue v :: rest) :
    exec (.readU16 a false false) s =
      .next ((s.ports [.mgRead c.mgDev a .ok (some v)] rest).responded .ok (some (v.setWidth 32)) none) := by
  obtain ⟨hu, -, hc⟩ := id hs
  rw [exec_facade_read hu (hs.accepts ⟨rfl, rfl⟩ rfl) rfl rfl, memRead_mgmt (s := startCommand _ s) hc,
    mgMemRead_given (s := startCommand _ s) rfl .whole c _ 2 hp, ← rvalOf_readU16 a v false false]
  rfl

theorem exec_writeU16_mgmt (hs : s.MgmtReady c) (hp : s.portIn = ansStatus st :: rest) :
    exec (.writeU16 a v false) s = .next ((s.ports [.mgWrite c.mgDev a v st] rest).responded st none none) := by
  obtain ⟨hu, -, hc⟩ := id hs
  rw [exec_facade_write (xs := be16 v) hu (hs.accepts ⟨rfl, rfl⟩ rfl) rfl, memWrite_mgmt (s := startCommand _ s) hc,
    answerStatus_mgMemWrite (t := startCommand _ s) rfl .whole c _ v hp, respond_none_called]
  rfl

theorem exec_modifyU16_mgmt {mask value : Word16} (hs : s.MgmtReady c)
    (hp : s.portIn = ansValue v :: ansStatus st :: rest) :
    exec (.modifyU16 a mask value false) s =
      .next ((s.ports [.mgRead c.mgDev a .ok (some v), .mgWrite c.mgDev a (merge v mask value) st] rest).responded
        st none none) := by
  obtain ⟨hu, -, hc⟩ := id hs
  have hread := (memRead_mgmt (s := startCommand (.modifyU16 a mask value false) s) hc _ _ _).trans
    (mgMemRead_given rfl .modifyRead c a 2 hp)
  rw [exec_facade_modify hu (hs.accepts ⟨rfl, rfl⟩ rfl) rfl hread (modifyWriteOf_modifyU16 ..),
    memWrite_mgmt (by exact hc), answerStatus_mgMemWrite rfl .modifyWrite c _ _ rfl, State.called_called,
    respond_none_called]
  rfl

end

end Sys2Proof.Machine
end

section
/-! SUPPORT. Accesses that end their command whatever the command would make of an OK: one that fails
(42_transport_and_handle.md R222 to R227, 43_facade_access.md R276) or whose port call does not return
(60_exceptions.md R310). -/

namespace Sys2Proof.Machine

/-- The reply is no OK, and a command that ends with it has an outcome with the property `P`. -/
def Reply.Halts {α : Type} (P : Host.Outcome State Fault Refusal → Prop) : Reply α → Prop
  | .done (.ok _ _) => False
  | .done (.fail st t) => P (.next (respond st none none t))
  | .stuck t => P (.next t)
  | .refused r => P (.refused r)

section
variable {P : Host.Outcome State Fault Refusal → Prop} {α β : Type} {r : Reply α} {i : Instr} {s : State}
  {o : Host.Outcome State Fault Refusal}

theorem Reply.Halts.outcomeOf (h : r.Halts P) (rval : α → Option Word32) (dOut : α → Option (List Byte)) :
    P (outcomeOf rval dOut r) := by
  cases r with
  | done r =>
    cases r with
    | ok => exact h.elim
    | fail => exact h
  | stuck => exact h
  | refused => exact h

theorem Reply.Halts.andThen (h : r.Halts P) (f : α → State → Reply β) : (r.andThen f).Halts P := by
  cases r with
  | done r =>
    cases r with
    | ok => exact h.elim
    | fail => exact h
  | stuck => exact h
  | refused => exact h

/-- A command that begins with a read ends with it. -/
theorem FacadeRuns.halts_read (h : FacadeRuns i s o) (hw : writesOnly i = false)
    (hr : ∀ leg n, readLength i = some n → (memRead leg (facadeAddr i) n s).Halts P) : P o := by
  cases h with
  | read n rval dOut hn => exact (hr _ n hn).outcomeOf rval dOut
  | write xs hw' => exact absurd hw' (by simp [hw])
  | modify n g hn => exact ((hr _ n hn).andThen _).outcomeOf _ _

/-- A command that only writes ends with its write. -/
theorem FacadeRuns.halts_write (h : FacadeRuns i s o) (hw : writesOnly i = true)
    (hr : ∀ leg xs, (memWrite leg (facadeAddr i) xs s).Halts P) : P o := by
  cases h with
  | read n rval dOut hn hw' => exact absurd hw' (by simp [hw])
  | write xs => exact (hr _ xs).outcomeOf _ _
  | modify n g hn hw' => exact absurd hw' (by simp [hw])

/-- A modify whose read returns OK ends with its write. -/
theorem FacadeRuns.halts_modify (h : FacadeRuns i s o) (hm : isModify i = true)
    (hr : ∀ n, readLength i = some n → ∃ xs t, memRead .modifyRead (facadeAddr i) n s = .done (.ok xs t) ∧
      ∀ ys, (memWrite .modifyWrite (facadeAddr i) ys t).Halts P) : P o := by
  cases h with
  | read n rval dOut hn hw hm' => exact absurd hm' (by simp [hm])
  | write xs hw hm' => exact absurd hm' (by simp [hm])
  | modify n g hn =>
    obtain ⟨xs, t, hread, hwrite⟩ := hr n hn
    rw [hread]
    exact (hwrite (g xs)).outcomeOf _ _
end

theorem State.BlockReady.runs {s : State} {c : BlockConfig} {i : Instr} (hs : s.BlockReady c) (hi : accepted i) :
    FacadeRuns i (startCommand i s) (exec i s) := by
  obtain ⟨hu, hinit, hc⟩ := hs
  exact exec_facade hu hinit hi (by rw [hc]; rfl)

theorem State.MgmtReady.runs {s : State} {c : MgmtConfig} {i : Instr} (hs : s.MgmtReady c) (hi : accepted i)
    (h16 : sixteenBit i = true) : FacadeRuns i (startCommand i s) (exec i s) := by
  obtain ⟨hu, hinit, hc⟩ := hs
  exact exec_facade hu hinit hi (by rw [hc, (facadeShape_eq_u16_iff i).2 h16]; rfl)

/-! ## Calls that fail -/

/-- The outcome `o` is the response of an access that failed with `st`, behind the events `es`. -/
def FailsWith (s : State) (st : Status) (es : List Event) (rest : List PortAnswer)
    (o : Host.Outcome State Fault Refusal) : Prop :=
  o = .next ((s.ports es rest).responded st none none)

theorem halts_failed {α : Type} (st : Status) (i : Instr) (s : State) (es : List Event) (rest : List PortAnswer)
    (u : Upc) : (.done (.fail st ((startCommand i s).called es rest u)) : Reply α).Halts (FailsWith s st es rest) :=
  congrArg Host.Outcome.next (respond_none_called st i s es rest u)

theorem failed_header {s : State} {c : BlockConfig} {i : Instr} {st : Status} {rest : List PortAnswer}
    (hs : s.BlockReady c) (hi : accepted i) (hst : st ≠ .ok) (hp : s.portIn = ansStatus st :: rest) :
    FailsWith s st [.csAssert c.btDev,
      if writesOnly i then evWriteHeader s c (facadeAddr i) st else evReadHeader s c (facadeAddr i) st,
      .csDeassert c.btDev] rest (exec i s) := by
  have hc : (startCommand i s).cfg = some (.block c) := hs.2.2
  replace hp : (startCommand i s).portIn = _ := hp
  cases hw : writesOnly i with
  | true =>
    refine (hs.runs hi).halts_write hw fun leg xs => ?_
    rw [memWrite_block hc, btMemWrite_header_fails rfl leg c _ xs hst hp]
    exact halts_failed ..
  | false =>
    refine (hs.runs hi).halts_read hw fun leg n _ => ?_
    rw [memRead_block hc, btMemRead_header_fails rfl leg c _ n hst hp]
    exact halts_failed ..

theorem failed_data_read {s : State} {c : BlockConfig} {i : Instr} {n : Nat} {st : Status} {rest : List PortAnswer}
    (hs : s.BlockReady c) (hi : accepted i) (hn : readLength i = some n) (hst : st ≠ .ok)
    (hp : s.portIn = ansStatus .ok :: ansStatus st :: rest) :
    FailsWith s st [.csAssert c.btDev, evReadHeader s c (facadeAddr i) .ok, .btRead c.btDev n st none,
      .csDeassert c.btDev] rest (exec i s) := by
  have hc : (startCommand i s).cfg = some (.block c) := hs.2.2
  replace hp : (startCommand i s).portIn = _ := hp
  refine (hs.runs hi).halts_read (writesOnly_of_readLength hn) fun leg m hm => ?_
  cases hn.symm.trans hm
  rw [memRead_block hc, btMemRead_data_fails rfl leg c _ n hst hp]
  exact halts_failed ..

theorem failed_data_write {s : State} {c : BlockConfig} {i : Instr} {xs : List Byte} {st : Status}
    {rest : List PortAnswer} (hs : s.BlockReady c) (hi : accepted i) (hxs : writtenBytes i = some xs) (hst : st ≠ .ok)
    (hp : s.portIn = ansStatus .ok :: ansStatus st :: rest) :
    FailsWith s st [.csAssert c.btDev, evWriteHeader s c (facadeAddr i) .ok, .btWrite c.btDev xs st,
      .csDeassert c.btDev] rest (exec i s) := by
  obtain ⟨hu, -, hc⟩ := id hs
  rw [exec_facade_write hu (hs.accepts hi) hxs, memWrite_block (s := startCommand i s) hc,
    btMemWrite_data_fails (s := startCommand i s) rfl .whole c _ xs hst hp]
  exact (halts_failed st i s _ rest _).outcomeOf _ _

/-- Settles O43: a failed header ends every command, failed data the read or the write it belongs to. -/
theorem blockCallFails : Obligations.BlockCallFails :=
  ⟨fun _ _ _ _ _ => failed_header, fun _ _ _ _ _ _ => failed_data_read, fun _ _ _ _ _ _ => failed_data_write⟩

theorem failed_mgmt_read {s : State} {c : MgmtConfig} {i : Instr} {st : Status} {rest : List PortAnswer}
    (hs : s.MgmtReady c) (hi : accepted i) (h16 : sixteenBit i = true) (hw : writesOnly i = false) (hst : st ≠ .ok)
    (hp : s.portIn = ansStatus st :: rest) :
    FailsWith s st [.mgRead c.mgDev (facadeAddr i) st none] rest (exec i s) := by
  have hc : (startCommand i s).cfg = some (.mgmt c) := hs.2.2
  replace hp : (startCommand i s).portIn = _ := hp
  refine (hs.runs hi h16).halts_read hw fun leg n _ => ?_
  rw [memRead_mgmt hc, mgMemRead_fails rfl leg c _ n hst hp]
  exact halts_failed ..

/-- Settles O44: the three commands whose calls return, and the failed read of the two that begin with one. -/
theorem managementAccess : Obligations.ManagementAccess := by
  refine ⟨fun s c a v rest hs hp => exec_readU16_mgmt hs hp, fun s c a v st rest hs hp => exec_writeU16_mgmt hs hp,
    fun s c a v mask value w st rest hs hw hp => ?_, fun s c a mask value st rest hs hst hp => ⟨?_, ?_⟩⟩
  · subst hw
    exact exec_modifyU16_mgmt hs hp
  · exact failed_mgmt_read hs ⟨rfl, rfl⟩ rfl rfl hst hp
  · exact failed_mgmt_read hs ⟨rfl, rfl⟩ rfl rfl hst hp

/-! ## Calls that do not return -/

/-- The outcome `o` leaves the block in a call of `i`, behind the events `es`, where it stays. -/
def StaysInCall (i : Instr) (s : State) (es : List Event) (rest : List PortAnswer)
    (o : Host.Outcome State Fault Refusal) : Prop :=
  ∃ (p : Pos) (t : State),
    t = { s.ports es (.noReturn :: rest) with upc := .running i p, session := Session.clear } ∧
    o = .next t ∧ t.InCall ∧ step t = .next t

section
variable {i : Instr} {s : State} {es : List Event} {rest : List PortAnswer} {α : Type} {leg : Leg} {acc : Access}

theorem halts_stuck {p : Pos}
    (hcall : ((startCommand i s).called es (.noReturn :: rest) (.running i p)).InCall) :
    (.stuck ((startCommand i s).called es (.noReturn :: rest) (.running i p)) : Reply α).Halts
      (StaysInCall i s es rest) :=
  ⟨p, _, rfl, rfl, hcall, hcall.step⟩

theorem halts_stuck_header {c : BlockConfig} (hc : s.cfg = some (.block c)) :
    (.stuck ((startCommand i s).called es (.noReturn :: rest) (.running i (.btHeader leg acc))) : Reply α).Halts
      (StaysInCall i s es rest) :=
  halts_stuck ⟨rfl, i, leg, acc, .inl ⟨rfl, c, hc⟩⟩

theorem halts_stuck_data {c : BlockConfig} (hc : s.cfg = some (.block c)) :
    (.stuck ((startCommand i s).called es (.noReturn :: rest) (.running i (.btData leg acc))) : Reply α).Halts
      (StaysInCall i s es rest) :=
  halts_stuck ⟨rfl, i, leg, acc, .inr (.inl ⟨rfl, c, hc⟩)⟩

theorem halts_stuck_mgmt {c : MgmtConfig} (hc : s.cfg = some (.mgmt c)) :
    (.stuck ((startCommand i s).called es (.noReturn :: rest) (.running i (.mgmt leg acc))) : Reply α).Halts
      (StaysInCall i s es rest) :=
  halts_stuck ⟨rfl, i, leg, acc, .inr (.inr ⟨rfl, c, hc⟩)⟩
end

/-- Settles O55: at each port call of a command, after calls that returned OK, the access is stuck in the call and the
command with it. -/
theorem portThatNeverReturns : Obligations.PortThatNeverReturns := by
  intro i s answered rest es k hu hinit hi hcome hp
  change StaysInCall i s es rest (exec i s)
  have hruns := exec_facade hu hinit hi hcome.capable
  replace hp : (startCommand i s).portIn = answered ++ .noReturn :: rest := hp
  cases hcome with
  | header c hc =>
    have hc' : (startCommand i s).cfg = some (.block c) := hc
    cases hw : writesOnly i with
    | true =>
      refine hruns.halts_write hw fun leg xs => ?_
      rw [memWrite_block hc', btMemWrite_header_stuck rfl leg c _ xs hp]
      exact halts_stuck_header hc
    | false =>
      refine hruns.halts_read hw fun leg n _ => ?_
      rw [memRead_block hc', btMemRead_header_stuck rfl leg c _ n hp]
      exact halts_stuck_header hc
  | readData c hc n hn =>
    have hc' : (startCommand i s).cfg = some (.block c) := hc
    refine hruns.halts_read (writesOnly_of_readLength hn) fun leg m hm => ?_
    cases hn.symm.trans hm
    rw [memRead_block hc', btMemRead_data_stuck rfl leg c _ n hp]
    exact halts_stuck_data hc
  | writeData c hc hw =>
    have hc' : (startCommand i s).cfg = some (.block c) := hc
    refine hruns.halts_write hw fun leg xs => ?_
    rw [memWrite_block hc', btMemWrite_data_stuck rfl leg c _ xs hp]
    exact halts_stuck_data hc
  | modifyHeader c hc hm xs hn =>
    have hc' : (startCommand i s).cfg = some (.block c) := hc
    refine hruns.halts_modify hm fun n hn' => ?_
    cases hn.symm.trans hn'
    refine ⟨xs, _, (memRead_block hc' ..).trans (btMemRead_given rfl .modifyRead c _ xs hp), fun ys => ?_⟩
    rw [memWrite_block (by exact hc), btMemWrite_header_stuck rfl .modifyWrite c _ ys rfl, State.called_called]
    exact halts_stuck_header hc
  | modifyData c hc hm xs hn =>
    have hc' : (startCommand i s).cfg = some (.block c) := hc
    refine hruns.halts_modify hm fun n hn' => ?_
    cases hn.symm.trans hn'
    refine ⟨xs, _, (memRead_block hc' ..).trans (btMemRead_given rfl .modifyRead c _ xs hp), fun ys => ?_⟩
    rw [memWrite_block (by exact hc), btMemWrite_data_stuck rfl .modifyWrite c _ ys rfl, State.called_called]
    exact halts_stuck_data hc
  | mgmtRead c hc hw h16 =>
    have hc' : (startCommand i s).cfg = some (.mgmt c) := hc
    refine hruns.halts_read hw fun leg n _ => ?_
    rw [memRead_mgmt hc', mgMemRead_stuck rfl leg c _ n hp]
    exact halts_stuck_mgmt hc
  | mgmtWrite c hc hw h16 =>
    have hc' : (startCommand i s).cfg = some (.mgmt c) := hc
    refine hruns.halts_write hw fun leg xs => ?_
    rw [memWrite_mgmt hc', mgMemWrite_stuck rfl leg c _ xs hp]
    exact halts_stuck_mgmt hc
  | mgmtModify c hc hm h16 v =>
    have hc' : (startCommand i s).cfg = some (.mgmt c) := hc
    refine hruns.halts_modify hm fun n _ => ?_
    refine ⟨be16 v, _, (memRead_mgmt hc' ..).trans (mgMemRead_given rfl .modifyRead c _ n hp), fun ys => ?_⟩
    rw [memWrite_mgmt (by exact hc), mgMemWrite_stuck rfl .modifyWrite c _ ys rfl, State.called_called]
    exact halts_stuck_mgmt hc

end Sys2Proof.Machine
end

section
/-! SUPPORT. Modifies over the two-wire transport with every byte acknowledged and no stretching (43_facade_access.md
R270, R272, R277), and the bits of the merged value (R275). -/

namespace Sys2Proof.Machine

/-- The write of a modify begins in the state its read has left. -/
theorem exec_modify_twoWire {i : Instr} {s : State} {xs ys : List Byte} {rest : List Bit} (hs : s.EngineReady)
    (hi : accepted i) (hn : readLength i = some xs.length) (hxs : xs ≠ [])
    (hys : modifyWriteOf i xs = some (.write (facadeAddr i) ys))
    (hl : s.lineIn = ansTwRead xs ++ ansTwWrite ys ++ rest) :
    exec i s = .next ((s.lines (evTwRead s (facadeAddr i) xs ++ evTwWrite s (facadeAddr i) ys) rest true
      true).responded .ok none none) := by
  obtain ⟨hu, -, hc⟩ := id hs
  rw [List.append_assoc] at hl
  obtain ⟨x, hread⟩ := memRead_twoWire_acked (s := startCommand i s) hc .modifyRead (facadeAddr i) hxs hl
  obtain ⟨y, hwrite⟩ := memWrite_twoWire_acked
    (s := (startCommand i s).bus (evTwRead s (facadeAddr i) xs) (ansTwWrite ys ++ rest) (some true) (some true) x)
    hc .modifyWrite (facadeAddr i) ys rfl
  rw [State.bus_bus] at hwrite
  rw [exec_facade_modify hu (hs.accepts hi) hn hread hys]
  exact (congrArg answerStatus hwrite).trans
    (congrArg Host.Outcome.next (respondResult_ok_bus _ _ () i s _ rest true true y))

/-- Settles O38: two accesses, the second of the merged value. -/
theorem twoWireModifies : Obligations.TwoWireModifies := by
  refine ⟨fun s a v mask value w rest hs hw hl => ?_, fun s a v mask value w rest hs hw hl => ?_⟩
  · subst hw
    exact exec_modify_twoWire hs ⟨rfl, rfl⟩ rfl (List.cons_ne_nil _ _) rfl hl
  · subst hw
    exact exec_modify_twoWire hs ⟨rfl, rfl⟩ rfl (List.cons_ne_nil _ _) (modifyWriteOf_modifyU16 ..) hl

/-- R275 at every width: the mask chooses, bit by bit, between the value and what was read. -/
theorem getLsbD_merge {w : Nat} (v mask value : BitVec w) {k : Nat} (hk : k < w) :
    (merge v mask value).getLsbD k = if mask.getLsbD k then value.getLsbD k else v.getLsbD k := by
  rw [merge, BitVec.getLsbD_or, BitVec.getLsbD_and, BitVec.getLsbD_and, BitVec.getLsbD_not, decide_eq_true hk]
  cases mask.getLsbD k <;> simp

/-- Settles O45: `getLsbD_merge` at the two widths. -/
theorem mergeLaw : Obligations.MergeLaw :=
  ⟨fun v mask value _ => getLsbD_merge v mask value, fun v mask value _ => getLsbD_merge v mask value⟩

end Sys2Proof.Machine
end

section
/-! SUPPORT. Where a command's status comes from (60_exceptions.md R300 to R304), and the command that is refused because
another one runs (R316). -/

namespace Sys2Proof.Machine

/-- The block itself answers OK, NACK, TIMEOUT and, before any action, INVALID_PARAM; every other status, and every other
INVALID_PARAM, a port returned during the command. -/
theorem exec_status_origin {i : Instr} {s t : State} {st : Status} (h : exec i s = .next t) (ht : t.upc = .idle)
    (hst : t.status = some st) :
    (st = .ok ∨ st = .nack ∨ st = .timeout) ∨ (st = .invalidParam ∧ t = s.responded .invalidParam none none) ∨
      ∃ es, t.trace = s.trace ++ es ∧ ∃ e ∈ es, e.portStatus = some st := by
  cases exec_next_ran h with
  | invalid => exact .inr (.inl ⟨(Option.some.inj hst).symm, rfl⟩)
  | installed | uninstalled | lineOk | portOk => exact .inl (.inl (Option.some.inj hst).symm)
  | lineFail hu ha hi hc st' u hline =>
    obtain rfl : st' = st := Option.some.inj hst
    exact .inl (.inr hline)
  | portFail hu ha hi hc st' accs rest p hl hacc hr hf =>
    obtain rfl : st' = st := Option.some.inj hst
    obtain ⟨-, hcall, -⟩ := hf
    exact .inr (.inr ⟨_, rfl, hcall⟩)
  | portStuck => cases ht

/-- Settles O51: the two statuses are none of those the block itself answers. -/
theorem busErrorsComeFromPorts : Obligations.BusErrorsComeFromPorts := by
  intro i s t st h ht hst hbus
  rcases exec_status_origin h ht hst with hown | ⟨hinvalid, -⟩ | hport
  · rcases hbus with rfl | rfl <;> simp at hown
  · rcases hbus with rfl | rfl <;> cases hinvalid
  · exact hport

/-- Settles O53: an INVALID_PARAM of the block's own is the bare response. -/
theorem invalidParamBeforeAnyAction : Obligations.InvalidParamBeforeAnyAction := by
  intro i s t h ht hst
  rcases exec_status_origin h ht hst with hown | ⟨-, hbare⟩ | hport
  · simp at hown
  · exact .inl hbare
  · exact .inr hport

/-- Settles O10: every case of a command but the refusal begins in an idle block. -/
theorem overlapRefused : Obligations.OverlapRefused := by
  intro i s hbusy
  have hran := exec_ran i s
  generalize exec i s = o at hran ⊢
  cases hran with
  | overlap => rfl
  | invalid hu | installed hu | uninstalled hu | lineOk hu | lineFail hu | portOk hu | portFail hu | portStuck hu
  | portRefused hu => exact absurd hu hbusy

end Sys2Proof.Machine
end
